-- ==== Sys2Proof/Word.lean ====
section
/-! DEFINITION. The word types of the Emrun and the sparse maps that hold its registers and memories.
A map is a list of (key, value) pairs in rising key order; it is the one canonical form of every sparse
collection of the state, so that equal contents are equal data. -/

namespace Sys2Proof

/-- A 32-bit register lane, scratchpad word or accumulator value. -/
abbrev Word := BitVec 32
/-- A 64-bit uniform register, address or special register. -/
abbrev Dword := BitVec 64
/-- The smallest addressable unit (R53: little-endian throughout). -/
abbrev Byte := BitVec 8
/-- The number of a vector register, v0..v639 (R14). -/
abbrev VReg := Fin 640
/-- The number of a uniform register, s0..s127 (R14). -/
abbrev SReg := Fin 128
/-- The number of a predicate, p0..p15 (R15). -/
abbrev Pred := Fin 16

/-- A sparse map in canonical form: keys strictly rising. -/
abbrev Map (α : Type) := List (Nat × α)

namespace Map
variable {α β : Type}

/-- The value listed at a key. -/
def get? : Map α → Nat → Option α
  | [], _ => none
  | (k, v) :: t, j => if k = j then some v else get? t j

/-- Lists `v` at key `j`, in place. -/
def put : Map α → Nat → α → Map α
  | [], j, v => [(j, v)]
  | (k, w) :: t, j, v =>
    if j < k then (j, v) :: (k, w) :: t
    else if j = k then (j, v) :: t
    else (k, w) :: put t j v

/-- Removes a key. -/
def del : Map α → Nat → Map α
  | [], _ => []
  | (k, w) :: t, j => if k = j then del t j else (k, w) :: del t j

/-- The value at a key, or the default that an unlisted key reads as. -/
def getD (m : Map α) (j : Nat) (d : α) : α := (m.get? j).getD d

/-- Writes a key of a map whose unlisted keys read as `d`: the default is never listed. -/
def set [DecidableEq α] (m : Map α) (d : α) (j : Nat) (v : α) : Map α :=
  if v = d then m.del j else m.put j v

/-- Changes the value at a key that is listed. -/
def modify : Map α → Nat → (α → α) → Map α
  | [], _, _ => []
  | (k, v) :: t, j, f => if k = j then (k, f v) :: t else (k, v) :: modify t j f

/-- Applies a function to every listed value. -/
def mapVal (f : Nat → α → β) : Map α → Map β
  | [] => []
  | (k, v) :: t => (k, f k v) :: mapVal f t

/-- The listed keys, rising. -/
def keys (m : Map α) : List Nat := m.map (·.1)

/-- The canonical form: keys strictly rising. -/
def sorted : Map α → Bool
  | [] => true
  | [_] => true
  | (k, _) :: (j, w) :: t => decide (k < j) && sorted ((j, w) :: t)

/-- The canonical form of a map whose unlisted keys read as `d`: rising, and `d` never listed. -/
def canon [DecidableEq α] (d : α) (m : Map α) : Bool :=
  m.sorted && m.all (fun e => decide (e.2 ≠ d))

end Map

/-- Membership in a list of numbers kept without repeats. -/
def addNat (l : List Nat) (n : Nat) : List Nat := if l.contains n then l else n :: l
/-- Removal from a list of numbers. -/
def delNat (l : List Nat) (n : Nat) : List Nat := l.filter (· != n)
/-- Sets or clears membership. -/
def markNat (l : List Nat) (n : Nat) (on : Bool) : List Nat := if on then addNat l n else delNat l n

end Sys2Proof
end

