-- ==== Sys2Proof/Config.lean ====
section
/-! DEFINITION. What the part fixes (R2 to R6, R238, R399), and the free values: the values the spec leaves open after
an instruction that goes on. Nothing proves what a free value is. -/

namespace Sys2Proof.Config

/-- A choice the spec leaves open between two values (R69: an early read; R262: eight or more symbols in error). -/
opaque freeBit : Nat → Bool
/-- A value the spec does not state, of 64 bits (R69: what a pending load will bring; R348). -/
opaque freeDword : Nat → Dword
/-- Byte `i` of a snapshot as a function of what it latches: the layout of its records is not stated (R401). -/
opaque snapLayout : List Byte → Nat → Byte
/-- The index of the free value that step `n` uses for operand `k`, less than 64, of thread `t`; 1024 stands for what the
threads of a frond share. -/
def freeAt (n t k : Nat) : Nat := (n * 1025 + t) * 64 + k

/-- The two parts (R5). -/
inductive Part where
  | ex960 | ex920
  deriving DecidableEq, Repr

/-- Compute dies (R5). -/
def Part.dies : Part → Nat
  | .ex960 => 4 | .ex920 => 2
/-- Cores (R2, R5). -/
def Part.cores (p : Part) : Nat := 48 * p.dies
/-- Bytes of device DRAM (R238). -/
def Part.dram : Part → Nat
  | .ex960 => 0x80_0000_0000 | .ex920 => 0x40_0000_0000
/-- CAPS0 (R6). -/
def Part.caps0 : Part → Dword
  | .ex960 => 0x7F | .ex920 => 0x23
/-- Whether the remote window, the fabric and the audit unit are fitted (R5). -/
def Part.full : Part → Bool
  | .ex960 => true | .ex920 => false
/-- PWRLIM at reset, W (R399). -/
def Part.pwrlim : Part → Nat
  | .ex960 => 2800 | .ex920 => 1400
/-- The die of a core (R2). -/
def dieOf (core : Nat) : Nat := core / 48

/-- Frond slots of a core (R30). -/
def slots : Nat := 64
/-- Entries of the engine queue (R40). -/
def queueDepth : Nat := 512
/-- Entries of the range-lock table (R206). -/
def lockEntries : Nat := 64
/-- Copy channels (R200). -/
def copyChannels : Nat := 8
/-- Entries of the fill tracker (R251). -/
def fillEntries : Nat := 32768
/-- Merge entries of a home slice (R245). -/
def mergeEntries : Nat := 6144
/-- Requesters of a merge entry beside the cores (R245). -/
def otherSlots : Nat := 32
/-- Lines that an atomic unit holds (R244). -/
def atomLines : Nat := 256
/-- Lines of an L1 (R4, R247). -/
def l1Lines : Nat := 4096
/-- Monitors of a home slice (R246). -/
def monitorEntries : Nat := 4096
/-- Reform bins of a core (R42). -/
def binEntries : Nat := 128
/-- Cached translations of a core (R379). -/
def tlbEntries : Nat := 2048

/-- CS, where the device control space begins (R392). -/
def csBase : Nat := 0x4_0000_0000_0000
/-- Where host memory begins (R238). -/
def hostBase : Nat := 0x8_0000_0000_0000
/-- One past the last physical address (R238). -/
def paEnd : Nat := 0x10_0000_0000_0000

end Sys2Proof.Config
end

