-- ==== Sys2Proof/Syntax.lean ====
section
/-! DEFINITION. The abstract syntax of the machine: one constructor of `Instr` for each row of
spec/opcode_table.json. The first 154 are the instruction words (R74 to R79); the others are the steps of the
device's other agents, whose operands name the agent that moves and carry what arrives from outside the device. -/

namespace Sys2Proof

/-- A 10-bit operand id as an operand (R14, R63). -/
inductive Opnd where
  | v (r : VReg) | s (r : SReg) | lane | tid | fslot | blk | const (k : Fin 32)
  deriving DecidableEq, Repr

/-- The type codes of R64, e5m2 included (`cvt` only). -/
inductive VTy where
  | i32 | n32 | i64 | n64 | f32 | f16 | bf16 | e4m3 | i16 | n16 | i8 | n8 | e5m2
  deriving DecidableEq, Repr

/-- The rounding modes of R88. -/
inductive Rnd where
  | rne | rtz | rup | rdn
  deriving DecidableEq, Repr

/-- The conditions of `cmp`, `fcmp`, `scmp` and `waitc`. -/
inductive Cc where
  | eq | ne | lt | le | gt | ge
  deriving DecidableEq, Repr

/-- The access sizes of R16. -/
inductive Sz where
  | b8 | b16 | b32 | b64 | b128
  deriving DecidableEq, Repr

/-- The memory orders of R65. -/
inductive Ord where
  | rlx | acq | rel | acqrel
  deriving DecidableEq, Repr

/-- The scopes of R8, with `none` for a word that names none (R65). -/
inductive Scope where
  | none | blk | core | die | dev | sys
  deriving DecidableEq, Repr

/-- The atomic operations of R78, in the order of their codes k = 0..27. -/
inductive AOp where
  | addI32 | addF32 | addF16 | addBf16 | minI32 | minN32 | minF32 | maxI32 | maxN32 | maxF32
  | andB32 | orB32 | xorB32 | incwN32 | addI64 | minI64 | minN64 | maxI64 | maxN64 | andB64
  | orB64 | xorB64 | xchgB32 | casB32 | bumpN32 | xchgB64 | casB64 | bumpN64
  deriving DecidableEq, Repr

/-- The operations of `redx` (R151). -/
inductive ROp where
  | add | min | max | and | or
  deriving DecidableEq, Repr

/-- The fields every instruction word carries (R60): stall count, token, guard. -/
structure Ctl where
  stall : BitVec 4
  set   : Bool
  tok   : BitVec 3
  gneg  : Bool
  gp    : Pred
  deriving DecidableEq, Repr

/-- The second source of a U word: a register, or the immediate form (R75). -/
inductive USrc where
  | reg (r : SReg) | imm (i : BitVec 22)
  deriving DecidableEq, Repr

/-- The modifiers of a V3 floating-point word (R64). -/
structure FMod where
  rnd : Rnd
  sat : Bool
  na  : Bool
  nb  : Bool
  aa  : Bool
  ab  : Bool
  deriving DecidableEq, Repr

/-- A global address: the M form or the `[s+v]` form (R17, R77). -/
inductive MAddr where
  | off (x : Opnd) (imm : BitVec 18) | idx (s : SReg) (v : VReg)
  deriving DecidableEq, Repr

/-- The common fields of an engine word (R197). -/
structure ECtl where
  rel : Bool
  rs  : Scope
  be  : Bool
  bar : BitVec 4
  cs  : BitVec 3
  deriving DecidableEq, Repr

/-- What a remote device asks of this device's exported window (R350, R351); `serve` is a `tkserve`, `grant` the check of
a `tkwait` that writes HOLDER when SERVE equals the ticket (R181, R182), `mon` a monitor to be armed (R253). -/
inductive RemoteAcc where
  | read (off : BitVec 45) (n : Nat)
  | write (off : BitVec 45) (bytes : List Byte)
  | atomic (off : BitVec 45) (k : AOp) (a b : Dword)
  | serve (off : BitVec 45)
  | grant (off : BitVec 45) (ticket holder : Word) (prio : Fin 16)
  | mon (off : BitVec 45)
  deriving DecidableEq, Repr

/-- What comes back to this device for a remote request it made (R351, R352): the bytes, and whether they are poisoned
(R263, R386). -/
inductive RemoteRep where
  | data (bytes : List Byte) (bad : Bool) | pending | refused (code : BitVec 8)
  deriving DecidableEq, Repr

/-- A collective operation as another device presents it at the start (R234, R363): the device, DOMAIN and GEN, its fields, the
chunks that are marked there (R362). -/
structure Peer where
  dev   : Nat
  dom   : BitVec 16
  gen   : BitVec 12
  op    : BitVec 4
  ty    : BitVec 4
  red   : BitVec 4
  root  : BitVec 10
  count : Dword
  chunk : Word
  marks : List Nat
  deriving DecidableEq, Repr

/-- A packet with a chunk's elements that has reached this device (R359, R364): its sender, its GEN, its epoch, its send time. -/
structure Packet where
  dev   : Nat
  gen   : Nat
  epoch : Nat
  time    : Nat
  bytes : List Byte
  deriving DecidableEq, Repr

/-- A link of a domain map: device and port at each end (R355). -/
structure Link where
  a : Nat
  p : Nat
  b : Nat
  q : Nat
  deriving DecidableEq, Repr

/-- What a fabric packet brings, with the send time that it carries (R364). -/
structure Sent (α : Type) where
  time : Nat
  body : α
  deriving DecidableEq, Repr

/-- What a host DMA access asks at BAR2 (R393). -/
inductive DmaAcc where
  | read (n : Nat) | write (bytes : List Byte) | atomic (k : AOp) (a b : Dword)
  deriving DecidableEq, Repr

/-- What waits on the host link (R393, R403): a thread's access, an engine operation, a signal store. -/
inductive LinkWaiter where
  | thread (bid tid : Nat) | op (core id : Nat) | signal (launch : Nat)
  deriving DecidableEq, Repr

/-- One step of the machine: an instruction word with its operands, or a step of another agent.
`c` is the common part of a word (R60). In the event rows `core` is a global core id, `bid` a block's
identifier, `tid` a thread id in the block, `slot` an FSLOT, `op` an engine operation's identifier,
`line` a physical address of a 64-byte line divided by 64, `l` a launch's identifier. -/
inductive Instr where
  | clauseIssue (core slot : Nat)
  -- class C (R74)
  | nop (c : Ctl)
  | bra (c : Ctl) (off : BitVec 32)
  | brx (c : Ctl) (a : Opnd)
  | call (c : Ctl) (off : BitVec 32)
  | callx (c : Ctl) (a : Opnd)
  | ret (c : Ctl)
  | reform (c : Ctl)
  | bjoin (c : Ctl)
  | exit (c : Ctl)
  | trap (c : Ctl) (n : BitVec 8)
  | brk (c : Ctl)
  | tret (c : Ctl)
  | yield (c : Ctl)
  | sleep (c : Ctl) (a : Opnd)
  | srd (c : Ctl) (d : VReg) (wide : Bool) (num : BitVec 12)
  | swr (c : Ctl) (a : Opnd) (wide : Bool) (num : BitVec 12)
  -- class U (R75)
  | sadd (c : Ctl) (d a : SReg) (b : USrc)
  | ssub (c : Ctl) (d a : SReg) (b : USrc)
  | smul (c : Ctl) (d a : SReg) (b : USrc)
  | smulh (c : Ctl) (sg : Bool) (d a : SReg) (b : USrc)
  | smad (c : Ctl) (d a : SReg) (b : USrc)
  | sand (c : Ctl) (d a : SReg) (b : USrc)
  | sor (c : Ctl) (d a : SReg) (b : USrc)
  | sxor (c : Ctl) (d a : SReg) (b : USrc)
  | snot (c : Ctl) (d a : SReg)
  | sshl (c : Ctl) (d a : SReg) (b : USrc)
  | sshr (c : Ctl) (d a : SReg) (b : USrc)
  | ssar (c : Ctl) (d a : SReg) (b : USrc)
  | smin (c : Ctl) (sg : Bool) (d a : SReg) (b : USrc)
  | smax (c : Ctl) (sg : Bool) (d a : SReg) (b : USrc)
  | ssel (c : Ctl) (d a b : SReg) (p : Pred) (neg : Bool)
  | smov (c : Ctl) (d a : SReg)
  | sclz (c : Ctl) (d a : SReg)
  | spopc (c : Ctl) (d a : SReg)
  | sbfe (c : Ctl) (sg : Bool) (d a : SReg) (pos : BitVec 6) (len : BitVec 7)
  | sli (c : Ctl) (d : SReg) (imm : BitVec 22)
  | slih (c : Ctl) (d a : SReg) (imm : BitVec 22)
  | scmp (c : Ctl) (cc : Cc) (sg : Bool) (d : Pred) (a : SReg) (b : USrc)
  | sld (c : Ctl) (sz : Sz) (d a : SReg) (imm : BitVec 22)
  | sst (c : Ctl) (sz : Sz) (a : SReg) (imm : BitVec 22) (b : SReg)
  | sldl (c : Ctl) (sz : Sz) (d a : SReg) (imm : BitVec 22)
  -- class V, integer (R76, R130 to R136)
  | add (c : Ctl) (ty : VTy) (sat : Bool) (d : VReg) (a b : Opnd)
  | sub (c : Ctl) (ty : VTy) (sat : Bool) (d : VReg) (a b : Opnd)
  | mul (c : Ctl) (ty : VTy) (sat : Bool) (d : VReg) (a b : Opnd)
  | mulh (c : Ctl) (ty : VTy) (d : VReg) (a b : Opnd)
  | mad (c : Ctl) (uns w64 sat : Bool) (d : VReg) (a b e : Opnd)
  | madw (c : Ctl) (uns : Bool) (d : VReg) (a b e : Opnd)
  | and (c : Ctl) (ty : VTy) (d : VReg) (a b : Opnd)
  | or (c : Ctl) (ty : VTy) (d : VReg) (a b : Opnd)
  | xor (c : Ctl) (ty : VTy) (d : VReg) (a b : Opnd)
  | not (c : Ctl) (ty : VTy) (d : VReg) (a : Opnd)
  | shl (c : Ctl) (ty : VTy) (d : VReg) (a b : Opnd)
  | shr (c : Ctl) (ty : VTy) (d : VReg) (a b : Opnd)
  | sar (c : Ctl) (ty : VTy) (d : VReg) (a b : Opnd)
  | rot (c : Ctl) (ty : VTy) (d : VReg) (a b : Opnd)
  | min (c : Ctl) (ty : VTy) (d : VReg) (a b : Opnd)
  | max (c : Ctl) (ty : VTy) (d : VReg) (a b : Opnd)
  | abs (c : Ctl) (ty : VTy) (sat : Bool) (d : VReg) (a : Opnd)
  | neg (c : Ctl) (ty : VTy) (sat : Bool) (d : VReg) (a : Opnd)
  | sel (c : Ctl) (w64 : Bool) (d : VReg) (a b : Opnd) (p : Pred)
  | mov (c : Ctl) (ty : VTy) (d : VReg) (a : Opnd)
  | movi (c : Ctl) (d : VReg) (imm : BitVec 23)
  | clz (c : Ctl) (ty : VTy) (d : VReg) (a : Opnd)
  | popc (c : Ctl) (ty : VTy) (d : VReg) (a : Opnd)
  | brev (c : Ctl) (ty : VTy) (d : VReg) (a : Opnd)
  | bfe (c : Ctl) (uns w64 : Bool) (d : VReg) (a pos len : Opnd)
  | bfi (c : Ctl) (w64 : Bool) (d : VReg) (a pos len : Opnd)
  | addc (c : Ctl) (w64 : Bool) (d : VReg) (a b : Opnd) (p : Pred)
  | cmp (c : Ctl) (cc : Cc) (ty : VTy) (d : Pred) (a b : Opnd)
  -- class V, floating point and conversion (R137 to R144)
  | fadd (c : Ctl) (ty : VTy) (m : FMod) (d : VReg) (a b : Opnd)
  | fsub (c : Ctl) (ty : VTy) (m : FMod) (d : VReg) (a b : Opnd)
  | fmul (c : Ctl) (ty : VTy) (m : FMod) (d : VReg) (a b : Opnd)
  | ffma (c : Ctl) (ty : VTy) (rnd : Rnd) (sat : Bool) (d : VReg) (a b e : Opnd)
  | fmin (c : Ctl) (ty : VTy) (m : FMod) (d : VReg) (a b : Opnd)
  | fmax (c : Ctl) (ty : VTy) (m : FMod) (d : VReg) (a b : Opnd)
  | fclass (c : Ctl) (ty : VTy) (d : VReg) (a : Opnd)
  | fround (c : Ctl) (ty : VTy) (rnd : Rnd) (d : VReg) (a : Opnd)
  | frcp (c : Ctl) (rnd : Rnd) (d : VReg) (a : Opnd)
  | fsqrt (c : Ctl) (rnd : Rnd) (d : VReg) (a : Opnd)
  | frsq (c : Ctl) (rnd : Rnd) (d : VReg) (a : Opnd)
  | fexp2 (c : Ctl) (rnd : Rnd) (d : VReg) (a : Opnd)
  | flog2 (c : Ctl) (rnd : Rnd) (d : VReg) (a : Opnd)
  | fdiv (c : Ctl) (rnd : Rnd) (d : VReg) (a b : Opnd)
  | fdot (c : Ctl) (ty : VTy) (rnd : Rnd) (sat : Bool) (d : VReg) (a b e : Opnd)
  | fcmp (c : Ctl) (cc : Cc) (m : FMod) (d : Pred) (a b : Opnd)
  | cvt (c : Ctl) (ty : VTy) (rnd : Rnd) (sat : Bool) (d : VReg) (a : Opnd) (dst : VTy)
  | pack (c : Ctl) (ty : VTy) (rnd : Rnd) (sat : Bool) (d : VReg) (a b : Opnd)
  | unpack (c : Ctl) (ty : VTy) (d : VReg) (a i : Opnd)
  | perm (c : Ctl) (d : VReg) (a b e : Opnd)
  -- class V, lane operations (R145 to R153)
  | bal (c : Ctl) (d : SReg) (p : Pred)
  | vany (c : Ctl) (d p : Pred)
  | vall (c : Ctl) (d p : Pred)
  | rdfirst (c : Ctl) (w64 : Bool) (d : SReg) (a : Opnd)
  | rdfirstChk (c : Ctl) (w64 : Bool) (d : SReg) (a : Opnd) (p : Pred)
  | rdlane (c : Ctl) (w64 : Bool) (d : SReg) (a i : Opnd)
  | shfl (c : Ctl) (w64 : Bool) (d : VReg) (a b : Opnd)
  | shflx (c : Ctl) (w64 : Bool) (d : VReg) (a b : Opnd)
  | shflu (c : Ctl) (w64 : Bool) (d : VReg) (a b : Opnd)
  | shfld (c : Ctl) (w64 : Bool) (d : VReg) (a b : Opnd)
  | redx (c : Ctl) (op : ROp) (ty : VTy) (d : SReg) (a : Opnd)
  | scanx (c : Ctl) (ty : VTy) (d : VReg) (a : Opnd)
  | lanes (c : Ctl) (d : VReg)
  | elect (c : Ctl) (p : Pred)
  -- class M (R77, R154 to R196)
  | ld (c : Ctl) (sz : Sz) (ord : Ord) (sc : Scope) (d : VReg) (m : MAddr)
  | ldNc (c : Ctl) (sz : Sz) (sc : Scope) (d : VReg) (m : MAddr)
  | st (c : Ctl) (sz : Sz) (ord : Ord) (sc : Scope) (m : MAddr) (a : Opnd)
  | ldl (c : Ctl) (sz : Sz) (skew : Bool) (ord : Ord) (sc : Scope) (d : VReg) (x : Opnd) (imm : BitVec 18)
  | stl (c : Ctl) (sz : Sz) (skew : Bool) (ord : Ord) (sc : Scope) (x : Opnd) (imm : BitVec 18) (a : Opnd)
  | ldp (c : Ctl) (sz : Sz) (d : VReg) (x : Opnd) (imm : BitVec 18)
  | stp (c : Ctl) (sz : Sz) (x : Opnd) (imm : BitVec 18) (a : Opnd)
  | lda (c : Ctl) (d : VReg) (x : Opnd) (imm : BitVec 18)
  | sta (c : Ctl) (x : Opnd) (imm : BitVec 18) (a : Opnd)
  | atom (c : Ctl) (k : AOp) (ord : Ord) (sc : Scope) (d : VReg) (m : MAddr)
  | red (c : Ctl) (k : AOp) (ord : Ord) (sc : Scope) (m : MAddr) (a : Opnd)
  | atoml (c : Ctl) (k : AOp) (ord : Ord) (sc : Scope) (d : VReg) (x : Opnd) (imm : BitVec 18)
  | ptest (c : Ctl) (p : Pred) (x : Opnd) (imm : BitVec 18)
  | fence (c : Ctl) (ord : Ord) (sc : Scope)
  | efence (c : Ctl) (sc : Scope)
  | cinv (c : Ctl) (x : Opnd) (imm : BitVec 18) (b : Opnd)
  | cwb (c : Ctl) (x : Opnd) (imm : BitVec 18) (b : Opnd)
  | waitc (c : Ctl) (cc : Cc) (uns : Bool) (ord : Ord) (sc : Scope) (x cmp t : Opnd)
  | mon (c : Ctl) (x : Opnd) (imm : BitVec 18)
  | mwait (c : Ctl) (ord : Ord) (sc : Scope) (t : Opnd)
  | tktake (c : Ctl) (d : VReg) (x : Opnd) (imm : BitVec 18)
  | tkwait (c : Ctl) (ord : Ord) (sc : Scope) (x : Opnd) (imm : BitVec 18) (t : Opnd)
  | tkserve (c : Ctl) (ord : Ord) (sc : Scope) (x : Opnd) (imm : BitVec 18)
  | binit (c : Ctl) (i n : Opnd)
  | barr (c : Ctl) (sc : Scope) (i : Opnd)
  | bsync (c : Ctl) (sc : Scope) (i : Opnd)
  | bwait (c : Ctl) (sc : Scope) (i k : Opnd)
  | cbar (c : Ctl) (sc : Scope) (slot : BitVec 2)
  | cvjoin (c : Ctl) (slot : BitVec 2) (x : Opnd) (imm : BitVec 18) (n : Opnd)
  | cvld (c : Ctl) (d : VReg) (two : Bool)
  | cvleave (c : Ctl)
  | stepn (c : Ctl)
  | ldnb (c : Ctl) (d : VReg) (o t : Opnd) (u : BitVec 8)
  -- class E (R79, R197 to R235)
  | mxownTake (c : Ctl)
  | mxownPass (c : Ctl) (s : SReg)
  | mxownRelease (c : Ctl)
  | mxload (c : Ctl) (e : ECtl) (s : SReg) (bank : BitVec 3)
  | mxevict (c : Ctl) (e : ECtl) (bank : BitVec 3)
  | mxres (c : Ctl) (e : ECtl) (s : SReg)
  | mma (c : Ctl) (e : ECtl) (s : SReg)
  | mmal (c : Ctl) (e : ECtl) (s : SReg)
  | mxgrad (c : Ctl) (e : ECtl) (s : SReg)
  | mxzero (c : Ctl) (e : ECtl) (first cnt : BitVec 12)
  | cpy (c : Ctl) (e : ECtl) (s : SReg) (slice : BitVec 6)
  | cpyo (c : Ctl) (e : ECtl) (s : SReg)
  | binsc (c : Ctl) (e : ECtl) (s : SReg)
  | npost (c : Ctl) (e : ECtl) (s : SReg) (node : BitVec 12) (n : BitVec 6)
  | ltrig (c : Ctl) (e : ECtl)
  | lwait (c : Ctl) (s : SReg)
  | coll (c : Ctl) (e : ECtl) (s : SReg)
  | cstat (c : Ctl) (e : ECtl) (s : SReg) (domain : BitVec 16)
  -- engine execution, completion and asynchronous causes (R200 to R231)
  | mxownGrant (core : Nat)
  | bankEmptying (core : Nat)
  | mxloadExec (core : Nat)
  | mxevictExec (core : Nat)
  | mxresExec (core : Nat)
  | mmaExec (core : Nat)
  | mmalExec (core : Nat)
  | mxgradExec (core : Nat)
  | mxzeroExec (core : Nat)
  | cpyExec (core op : Nat)
  | cpyoExec (core op : Nat)
  | binscExec (core op : Nat)
  | npostExec (core op : Nat)
  | ltrigExec (core op : Nat)
  | cstatExec (core op : Nat)
  | operationComplete (core op : Nat)
  | asyncCauseDelivery (bid tid : Nat)
  -- bins, waits, tickets, releases, timers (R42 to R400)
  | reformBinDue (core bin : Nat)
  | sleepWake (bid tid : Nat)
  | monitorWake (bid tid : Nat)
  | monitorFallback (bid tid : Nat)
  | waitTimeout (bid tid : Nat)
  | tkwaitGrant (bid tid : Nat)
  | ticketBoost (bid tid : Nat)
  | boostExpire (bid word : Nat)
  | releaseWave (core : Nat)
  | stepnRelease (bid : Nat)
  | slotWriteRelease (bid : Nat)
  | convoyDetach (l cohort : Nat)
  | ftimerFire (bid slot : Nat)
  -- blocks, launches, nodes and contexts (R34 to R340)
  | blockDormant (bid : Nat)
  | blockRevive (bid : Nat)
  | blockRetire (bid : Nat)
  | launchCompletion (bid : Nat)
  | nodeWake (ctx node : Nat)
  | gangFlush (ctx node : Nat)
  | blockPlace (l : Nat)
  | launchHold (l : Nat)
  | drainStart (l : Nat)
  | contextResume (ctx : Nat)
  | drainDeadline (ctx : Nat)
  | nodeUnfreeze (ctx node : Nat)
  | ctxdEnable (ctx : Nat) (v : Dword)
  | ctxdDisable (ctx : Nat) (v : Dword)
  | ctxdRst (ctx : Nat)
  | xinv (v : Dword)
  | pageFaultResponse (ctx rec : Nat) (resp : BitVec 16)
  -- home slices, L1 and DRAM (R241 to R264)
  | homeRead (core line : Nat)
  | homeWrite (core line : Nat)
  | homeAtomic (core line : Nat)
  | mergeReply (line : Nat)
  | fillReply (core line : Nat)
  | l1LineAgeOut (core line : Nat)
  | dramScrub (line : Nat)
  -- remote window, links, domains and collectives (R344 to R365)
  | remoteRequest (src tag : Nat) (acc : Sent RemoteAcc)
  | remoteReply (tag : Nat) (rep : Sent RemoteRep)
  | remoteTimeout (tag : Nat)
  | remoteTagExpire (src tag : Nat)
  | linkFail (port : Fin 16)
  | portRetrain (port : Fin 16)
  | linkTrained (port : Fin 16) (ndev : BitVec 10) (nport : BitVec 4) (width : BitVec 2)
  | linkTableFlood (dev version : Nat) (links : Sent (List Link))
  | domainFormed
  | domctlWrite (v : Dword)
  | collStart (core op : Nat) (peers : List Peer)
  | collChunk (core op chunk : Nat) (below : List Packet) (result : Option Packet)
  | collRecompute (core op : Nat) (marked : List Nat)
  | genHoldExpiry (core op : Nat)
  -- audit, host, registers, power, snapshots, boot and time (R389 to R403)
  | auditCopyComplete (l : Nat)
  | hostDmaAccess (off : Nat) (acc : DmaAcc)
  | hostLinkTimeout (w : LinkWaiter)
  | registerWrite (off : Nat) (v : Dword)
  | sratioWrite (core : Nat) (v : Dword)
  | powerThrottle (die : Fin 4)
  | attestRequest
  | snapshotGo (v : Dword)
  | snapshotTimer
  | snapinEdge
  | snapshotWritten
  | deviceReset
  | bootStage0 (valid : Bool) (image : List Byte)
  | bootStage1 (dies dram : Bool)
  | bootStage2 (valid : Bool) (image : List Byte)
  | bootStage3
  | dieLinkLoss (edge : Fin 4)
  | dramRecalibration (stack : Fin 8) (group : Option (Fin 72))
  | ptpSync (time : Dword) (ofs : Word) (locked : Bool)
  | hostLinkLeavesL0
  | hostLinkReturnsL0
  | linkWidthRetrain (port : Fin 16) (width : BitVec 2)
  | grandmasterLoss
  deriving DecidableEq, Repr

end Sys2Proof
end

