-- ==== Sys2Proof/WellFormed.lean ====
section
/-! DEFINITION. When an instruction is well formed: every operand is one that the encoding tables of
spec/04_encoding.md admit (R62 to R79, R197) and every operand kind is one its position accepts (R80, R154).
For an event row: the agents it names exist on the largest part. -/

namespace Sys2Proof

/-- What a word does with tokens (R68, R158): SET must be 0, must be 1, or may be either. -/
inductive TokRule where
  | never | must | may
  deriving DecidableEq, Repr

/-- Whether a SET bit obeys a token rule. -/
def TokRule.ok : TokRule → Bool → Bool
  | .never, s => !s
  | .must, s => s
  | .may, _ => true

/-- The common fields of R60: TOK is 0 when SET is 0, guard 1_1111 is reserved, SET obeys the rule of R68. -/
def Ctl.wf (r : TokRule) (c : Ctl) : Bool :=
  (c.set || c.tok == 0) && !(c.gneg && c.gp == 15) && r.ok c.set

/-- v-registers of an operation of 32 or 64 bits. -/
def wN (wide : Bool) : Nat := if wide then 2 else 1

/-- Registers that an access of a size covers (R154). -/
def Sz.regs : Sz → Nat
  | .b8 | .b16 | .b32 => 1
  | .b64 => 2
  | .b128 => 4

/-- Sizes of the uniform memory words (R129). -/
def Sz.upTo64 : Sz → Bool
  | .b128 => false
  | _ => true

/-- A destination v-register of `n` registers: its number is a multiple of `n` (R63). -/
def VRegFits (d : VReg) (n : Nat) : Bool := d.val % n == 0
/-- A source operand of a 32- or 64-bit operation: a v-register of a 64-bit one is even (R15, R63). -/
def Opnd.fits (x : Opnd) (wide : Bool) : Bool :=
  match x with
  | .v r => VRegFits r (wN wide)
  | _ => true

/-- A base address or target of 64 bits: an even v-register or an s-register (R17, R111). -/
def Opnd.isBase : Opnd → Bool
  | .v r => VRegFits r 2
  | .s _ => true
  | _ => false

/-- The data operand of a store of a size (R154). -/
def Opnd.data (x : Opnd) (sz : Sz) : Bool :=
  match sz, x with
  | .b64, .v r => VRegFits r 2
  | .b64, .s _ => true
  | .b64, _ => false
  | .b128, .v r => VRegFits r 4
  | .b128, _ => false
  | _, _ => true

/-- The address operand: the base of the M form is 64 bits wide (R17). -/
def MAddr.wf : MAddr → Bool
  | .off x _ => x.isBase
  | .idx _ _ => true

/-- Whether a condition is an ordered comparison. -/
def Cc.ordered : Cc → Bool
  | .eq | .ne => false
  | _ => true

/-- The 64-bit integer types. -/
def VTy.wide : VTy → Bool
  | .i64 | .n64 => true
  | _ => false
/-- i32, n32, i64, n64. -/
def VTy.int : VTy → Bool
  | .i32 | .n32 | .i64 | .n64 => true
  | _ => false
/-- The integer types with the packed ones (R76). -/
def VTy.intPacked : VTy → Bool
  | .i16 | .n16 | .i8 | .n8 => true
  | t => t.int
/-- The types of `mul` (R76). -/
def VTy.int16up : VTy → Bool
  | .i16 | .n16 => true
  | t => t.int
/-- The types of `abs` and `neg` (R76). -/
def VTy.signedPacked : VTy → Bool
  | .i32 | .i64 | .i16 | .i8 => true
  | _ => false
/-- The floating-point types of the arithmetic words (R76, R137). -/
def VTy.fp : VTy → Bool
  | .f32 | .f16 | .bf16 => true
  | _ => false
/-- The packed types of `pack` and `unpack` (R142, R143). -/
def VTy.packed : VTy → Bool
  | .f16 | .bf16 | .e4m3 | .i16 | .n16 | .i8 | .n8 => true
  | _ => false
/-- The types of `redx` (R76). -/
def VTy.redOk (t : VTy) (op : ROp) : Bool :=
  t.int || (t == .f32 && (op == .add || op == .min || op == .max))

/-- `fmin`, `fmax` and `fcmp` take neither rounding nor saturation (R76). -/
def FMod.plain (m : FMod) : Bool := m.rnd == .rne && !m.sat

/-- Orders a load accepts (R77). -/
def Ord.isLoad : Ord → Bool
  | .rlx | .acq => true
  | _ => false
/-- Orders a store accepts (R77). -/
def Ord.isStore : Ord → Bool
  | .rlx | .rel => true
  | _ => false
/-- A scope is required when the order is not relaxed (R65). -/
def scOk (o : Ord) (sc : Scope) : Bool := o == .rlx || sc != .none
/-- The scratchpad words name no scope but `.blk` (R77). -/
def scBlk (o : Ord) (sc : Scope) : Bool := scOk o sc && (sc == .none || sc == .blk)

/-- The 64-bit atomic operations (R78). -/
def AOp.wide : AOp → Bool
  | .addI64 | .minI64 | .minN64 | .maxI64 | .maxN64 | .andB64 | .orB64 | .xorB64 | .xchgB64 | .casB64
  | .bumpN64 => true
  | _ => false
/-- The operations of `red`: k = 0..21 (R77). -/
def AOp.isRed : AOp → Bool
  | .xchgB32 | .casB32 | .bumpN32 | .xchgB64 | .casB64 | .bumpN64 => false
  | _ => true
/-- The operations of `atoml`: the 32-bit ones (R78). -/
def AOp.isLocal (k : AOp) : Bool := !k.wide
/-- The data registers of `atom`: `cas` takes the compare value and the new value (R77). -/
def AOp.regs : AOp → Nat
  | .casB64 => 4
  | .casB32 => 2
  | k => wN k.wide
/-- The data operand of `red` (R154). -/
def redData (k : AOp) (x : Opnd) : Bool := x.data (if k.wide then .b64 else .b32)
/-- The data register of an atomic: even for 64 bits, and inside the register numbers (R77, R166). -/
def AOp.regOk (k : AOp) (d : VReg) : Bool := VRegFits d (wN k.wide) && decide (d.val + k.regs ≤ 640)

/-- The common fields of an engine word that accepts REL, BE and CS as the flags say (R197). -/
def ECtl.wf (rel be cs : Bool) (e : ECtl) : Bool :=
  (rel || !e.rel) && (be || !e.be) && (cs || e.cs == 0) && decide (e.cs.toNat < 6)
  && (e.rel == (e.rs != .none)) && (e.be || e.bar == 0)

/-- An access of another device names an aligned atomic or bytes of one line (R253, R350). -/
def RemoteAcc.wf : RemoteAcc → Bool
  | .read off n => decide (off.toNat % 64 + n ≤ 64)
  | .write off b => decide (off.toNat % 64 + b.length ≤ 64)
  | .atomic off k _ _ => decide (off.toNat % (if k.wide then 8 else 4) = 0)
  | .serve off => decide (off.toNat % 16 = 0)
  | .grant off _ _ _ => decide (off.toNat % 16 = 0)
  | .mon _ => true
/-- An access of the host through BAR2: of its atomics, FetchAdd, Swap and CAS at their natural alignment (R393). -/
def DmaAcc.wf (off : Nat) : DmaAcc → Bool
  | .read _ => true
  | .write _ => true
  | .atomic k _ _ => [AOp.addI32, .addI64, .xchgB32, .xchgB64, .casB32, .casB64].contains k && decide (off % (if k.wide then 8 else 4) = 0)

/-- Destination and both sources of a V3 integer word at its type's width. -/
def v3 (ty : VTy) (d : VReg) (x y : Opnd) : Bool := VRegFits d (wN ty.wide) && x.fits ty.wide && y.fits ty.wide
/-- Destination and source of a one-source integer word at its type's width. -/
def v2 (ty : VTy) (d : VReg) (x : Opnd) : Bool := VRegFits d (wN ty.wide) && x.fits ty.wide

/-- The special-register numbers of R70. -/
def srNumbers : List Nat :=
  [0x000, 0x001, 0x002, 0x003, 0x004, 0x005, 0x006, 0x007, 0x008, 0x009, 0x00A, 0x00B, 0x010, 0x011, 0x012, 0x013,
   0x014, 0x015, 0x018, 0x019, 0x020, 0x021, 0x022, 0x030, 0x031, 0x032, 0x033, 0x034, 0x035, 0x040, 0x041, 0x042,
   0x043, 0x050, 0x051, 0x052, 0x053, 0x054, 0x055, 0x056, 0x057, 0x058, 0x060, 0x061, 0x070, 0x071, 0x080, 0x081,
   0x082, 0x083]
/-- Those that `swr` writes: RW and W1C (R70). -/
def swrNumbers : List Nat := [0x010, 0x011, 0x012, 0x013, 0x018, 0x019, 0x022, 0x060, 0x061]
/-- A register that `srd` reads (R70, R122). -/
def srListed (n : BitVec 12) : Bool := srNumbers.contains n.toNat
/-- A register that `swr` writes (R70, R123). -/
def srWritable (n : BitVec 12) : Bool := swrNumbers.contains n.toNat

/-- An instruction that an encoding can name. -/
def Instr.wf : Instr → Bool
  | .clauseIssue core slot => decide (core < 192) && decide (slot < 64)
  | .nop c => c.wf .never
  | .bra c _ => c.wf .never
  | .brx c x => c.wf .never && x.isBase
  | .call c _ => c.wf .never
  | .callx c x => c.wf .never && x.isBase
  | .ret c => c.wf .never
  | .reform c => c.wf .never
  | .bjoin c => c.wf .never
  | .exit c => c.wf .never
  | .trap c _ => c.wf .never
  | .brk c => c.wf .never
  | .tret c => c.wf .never
  | .yield c => c.wf .never
  | .sleep c _ => c.wf .never
  | .srd c d wide n => c.wf .must && VRegFits d (wN wide) && srListed n
  | .swr c x wide n => c.wf .never && x.fits wide && srWritable n
  | .sadd c _ _ _ => c.wf .never
  | .ssub c _ _ _ => c.wf .never
  | .smul c _ _ _ => c.wf .never
  | .smulh c _ _ _ _ => c.wf .never
  | .smad c _ _ _ => c.wf .never
  | .sand c _ _ _ => c.wf .never
  | .sor c _ _ _ => c.wf .never
  | .sxor c _ _ _ => c.wf .never
  | .snot c _ _ => c.wf .never
  | .sshl c _ _ _ => c.wf .never
  | .sshr c _ _ _ => c.wf .never
  | .ssar c _ _ _ => c.wf .never
  | .smin c _ _ _ _ => c.wf .never
  | .smax c _ _ _ _ => c.wf .never
  | .ssel c _ _ _ _ _ => c.wf .never
  | .smov c _ _ => c.wf .never
  | .sclz c _ _ => c.wf .never
  | .spopc c _ _ => c.wf .never
  | .sbfe c _ _ _ _ len => c.wf .never && decide (len.toNat ≤ 64)
  | .sli c _ _ => c.wf .never
  | .slih c _ _ _ => c.wf .never
  | .scmp c cc sg _ _ _ => c.wf .never && (sg || cc.ordered)
  | .sld c sz _ _ _ => c.wf .must && sz.upTo64
  | .sst c sz _ _ _ => c.wf .may && sz.upTo64
  | .sldl c sz _ _ _ => c.wf .must && sz.upTo64
  | .add c ty _ d x y => c.wf .never && ty.intPacked && v3 ty d x y
  | .sub c ty _ d x y => c.wf .never && ty.intPacked && v3 ty d x y
  | .mul c ty _ d x y => c.wf .never && ty.int16up && v3 ty d x y
  | .mulh c ty d x y => c.wf .never && ty.int && v3 ty d x y
  | .mad c _ w _ d x y z => c.wf .never && VRegFits d (wN w) && x.fits w && y.fits w && z.fits w
  | .madw c _ d _ _ z => c.wf .never && VRegFits d 2 && z.fits true
  | .and c ty d x y => c.wf .never && ty.int && v3 ty d x y
  | .or c ty d x y => c.wf .never && ty.int && v3 ty d x y
  | .xor c ty d x y => c.wf .never && ty.int && v3 ty d x y
  | .not c ty d x => c.wf .never && ty.int && v2 ty d x
  | .shl c ty d x y => c.wf .never && ty.int && v3 ty d x y
  | .shr c ty d x y => c.wf .never && ty.int && v3 ty d x y
  | .sar c ty d x y => c.wf .never && ty.int && v3 ty d x y
  | .rot c ty d x y => c.wf .never && ty.int && v3 ty d x y
  | .min c ty d x y => c.wf .never && ty.intPacked && v3 ty d x y
  | .max c ty d x y => c.wf .never && ty.intPacked && v3 ty d x y
  | .abs c ty _ d x => c.wf .never && ty.signedPacked && v2 ty d x
  | .neg c ty _ d x => c.wf .never && ty.signedPacked && v2 ty d x
  | .sel c w d x y _ => c.wf .never && VRegFits d (wN w) && x.fits w && y.fits w
  | .mov c ty d x => c.wf .never && ty.int && v2 ty d x
  | .movi c _ _ => c.wf .never
  | .clz c ty d x => c.wf .never && ty.int && v2 ty d x
  | .popc c ty d x => c.wf .never && ty.int && v2 ty d x
  | .brev c ty d x => c.wf .never && ty.int && v2 ty d x
  | .bfe c _ w d x _ _ => c.wf .never && VRegFits d (wN w) && x.fits w
  | .bfi c w d x _ _ => c.wf .never && VRegFits d (wN w) && x.fits w
  | .addc c w d x y _ => c.wf .never && VRegFits d (wN w) && x.fits w && y.fits w
  | .cmp c _ ty _ x y => c.wf .never && ty.int && x.fits ty.wide && y.fits ty.wide
  | .fadd c ty _ _ _ _ => c.wf .never && ty.fp
  | .fsub c ty _ _ _ _ => c.wf .never && ty.fp
  | .fmul c ty _ _ _ _ => c.wf .never && ty.fp
  | .ffma c ty _ _ _ _ _ _ => c.wf .never && ty.fp
  | .fmin c ty m _ _ _ => c.wf .never && ty.fp && m.plain
  | .fmax c ty m _ _ _ => c.wf .never && ty.fp && m.plain
  | .fclass c ty _ _ => c.wf .never && ty.fp
  | .fround c ty _ _ _ => c.wf .never && ty.fp
  | .frcp c _ _ _ => c.wf .must
  | .fsqrt c _ _ _ => c.wf .must
  | .frsq c _ _ _ => c.wf .must
  | .fexp2 c _ _ _ => c.wf .must
  | .flog2 c _ _ _ => c.wf .must
  | .fdiv c _ _ _ _ => c.wf .must
  | .fdot c ty _ _ _ _ _ _ => c.wf .never && (ty == .f16 || ty == .bf16 || ty == .e4m3)
  | .fcmp c _ m _ _ _ => c.wf .never && m.plain
  | .cvt c ty _ _ d x dst => c.wf .never && VRegFits d (wN dst.wide) && x.fits ty.wide
  | .pack c ty _ _ _ _ _ => c.wf .never && ty.packed
  | .unpack c ty _ _ _ => c.wf .never && ty.packed
  | .perm c _ _ _ _ => c.wf .never
  | .bal c _ _ => c.wf .must
  | .vany c _ _ => c.wf .must
  | .vall c _ _ => c.wf .must
  | .rdfirst c w _ x => c.wf .must && x.fits w
  | .rdfirstChk c w _ x _ => c.wf .must && x.fits w
  | .rdlane c w _ x _ => c.wf .must && x.fits w
  | .shfl c w d x _ => c.wf .must && VRegFits d (wN w) && x.fits w
  | .shflx c w d x _ => c.wf .must && VRegFits d (wN w) && x.fits w
  | .shflu c w d x _ => c.wf .must && VRegFits d (wN w) && x.fits w
  | .shfld c w d x _ => c.wf .must && VRegFits d (wN w) && x.fits w
  | .redx c op ty _ x => c.wf .must && ty.redOk op && x.fits ty.wide
  | .scanx c ty _ _ => c.wf .must && (ty == .i32 || ty == .n32 || ty == .f32)
  | .lanes c _ => c.wf .must
  | .elect c _ => c.wf .must
  | .ld c sz o sc d m => c.wf .must && o.isLoad && scOk o sc && VRegFits d sz.regs && m.wf
  | .ldNc c sz _ d m => c.wf .must && VRegFits d sz.regs && m.wf
  | .st c sz o sc m x => c.wf .may && o.isStore && scOk o sc && x.data sz && m.wf
  | .ldl c sz _ o sc d _ _ => c.wf .must && o.isLoad && scBlk o sc && VRegFits d sz.regs
  | .stl c sz _ o sc _ _ x => c.wf .may && o.isStore && scBlk o sc && x.data sz
  | .ldp c sz d _ _ => c.wf .must && VRegFits d sz.regs
  | .stp c sz _ _ x => c.wf .may && x.data sz
  | .lda c _ _ _ => c.wf .must
  | .sta c _ _ _ => c.wf .may
  | .atom c k o sc d m => c.wf .must && scOk o sc && k.regOk d && m.wf
  | .red c k o sc m x => c.wf .may && o.isStore && scOk o sc && k.isRed && redData k x && m.wf
  | .atoml c k o sc d _ _ => c.wf .must && scBlk o sc && k.isLocal && k.regOk d
  | .ptest c _ _ _ => c.wf .must
  | .fence c o sc => c.wf .may && (o != .rlx) && (sc != .none)
  | .efence c sc => c.wf .may && (sc != .none)
  | .cinv c x _ _ => c.wf .may && x.isBase
  | .cwb c _ _ _ => c.wf .may
  | .waitc c cc uns o sc x _ _ => c.wf .never && o.isLoad && scOk o sc && x.isBase && (!uns || cc.ordered)
  | .mon c x _ => c.wf .may && x.isBase
  | .mwait c o sc _ => c.wf .never && o.isLoad && scOk o sc
  | .tktake c _ x _ => c.wf .must && x.isBase
  | .tkwait c o sc x _ _ => c.wf .never && o.isLoad && scOk o sc && x.isBase
  | .tkserve c o sc x _ => c.wf .may && o.isStore && scOk o sc && x.isBase
  | .binit c _ _ => c.wf .may
  | .barr c _ _ => c.wf .never
  | .bsync c _ _ => c.wf .never
  | .bwait c _ _ _ => c.wf .never
  | .cbar c sc _ => c.wf .never && (sc == .none || sc == .dev || sc == .sys)
  | .cvjoin c _ x _ _ => c.wf .never && x.isBase
  | .cvld c _ _ => c.wf .must
  | .cvleave c => c.wf .never
  | .stepn c => c.wf .never
  | .ldnb c _ _ _ _ => c.wf .must
  | .mxownTake c => c.wf .never
  | .mxownPass c _ => c.wf .never
  | .mxownRelease c => c.wf .never
  | .mxload c e _ _ => c.wf .may && e.wf true true false
  | .mxevict c e _ => c.wf .may && e.wf false true false
  | .mxres c e _ => c.wf .may && e.wf false true false
  | .mma c e _ => c.wf .may && e.wf true true false
  | .mmal c e _ => c.wf .may && e.wf true true false
  | .mxgrad c e _ => c.wf .may && e.wf true true false
  | .mxzero c e _ _ => c.wf .may && e.wf false true false
  | .cpy c e _ _ => c.wf .may && e.wf true true false
  | .cpyo c e _ => c.wf .may && e.wf true true true
  | .binsc c e _ => c.wf .may && e.wf true true true
  | .npost c e _ _ _ => c.wf .may && e.wf true true false
  | .ltrig c e => c.wf .may && e.wf false true false
  | .lwait c _ => c.wf .never
  | .coll c e _ => c.wf .may && e.wf true true false
  | .cstat c e _ _ => c.wf .may && e.wf false true false
  | .mxownGrant core => decide (core < 192)
  | .bankEmptying core => decide (core < 192)
  | .mxloadExec core => decide (core < 192)
  | .mxevictExec core => decide (core < 192)
  | .mxresExec core => decide (core < 192)
  | .mmaExec core => decide (core < 192)
  | .mmalExec core => decide (core < 192)
  | .mxgradExec core => decide (core < 192)
  | .mxzeroExec core => decide (core < 192)
  | .cpyExec core _ => decide (core < 192)
  | .cpyoExec core _ => decide (core < 192)
  | .binscExec core _ => decide (core < 192)
  | .npostExec core _ => decide (core < 192)
  | .ltrigExec core _ => decide (core < 192)
  | .cstatExec core _ => decide (core < 192)
  | .operationComplete core _ => decide (core < 192)
  | .asyncCauseDelivery _ _ => true
  | .reformBinDue core bin => decide (core < 192) && decide (bin < 128)
  | .sleepWake _ _ => true
  | .monitorWake _ _ => true
  | .monitorFallback _ _ => true
  | .waitTimeout _ _ => true
  | .tkwaitGrant _ _ => true
  | .ticketBoost _ _ => true
  | .boostExpire _ _ => true
  | .releaseWave core => decide (core < 192)
  | .stepnRelease _ => true
  | .slotWriteRelease _ => true
  | .convoyDetach _ k => decide (k < 256)
  | .ftimerFire _ slot => decide (slot < 64)
  | .blockDormant _ => true
  | .blockRevive _ => true
  | .blockRetire _ => true
  | .launchCompletion _ => true
  | .nodeWake ctx node => decide (ctx < 64) && decide (node < 4096)
  | .gangFlush ctx node => decide (ctx < 64) && decide (node < 4096)
  | .blockPlace _ => true
  | .launchHold _ => true
  | .drainStart _ => true
  | .contextResume ctx => decide (ctx < 64)
  | .drainDeadline ctx => decide (ctx < 64)
  | .nodeUnfreeze ctx node => decide (ctx < 64) && decide (node < 4096)
  | .ctxdEnable ctx _ => decide (ctx < 64)
  | .ctxdDisable ctx _ => decide (ctx < 64)
  | .ctxdRst ctx => decide (ctx < 64)
  | .xinv _ => true
  | .pageFaultResponse ctx _ _ => decide (ctx < 64)
  | .homeRead core _ => decide (core < 192)
  | .homeWrite core _ => decide (core < 192)
  | .homeAtomic core _ => decide (core < 192)
  | .mergeReply _ => true
  | .fillReply core _ => decide (core < 192)
  | .l1LineAgeOut core _ => decide (core < 192)
  | .dramScrub _ => true
  | .remoteRequest src _ acc => decide (src < 1024) && acc.body.wf
  | .remoteReply _ _ => true
  | .remoteTimeout _ => true
  | .remoteTagExpire src _ => decide (src < 1024)
  | .linkFail _ => true
  | .portRetrain _ => true
  | .linkTrained _ _ _ w => decide (w.toNat < 3)
  | .linkTableFlood dev _ _ => decide (dev < 1024)
  | .domainFormed => true
  | .domctlWrite _ => true
  | .collStart core _ _ => decide (core < 192)
  | .collChunk core _ _ _ _ => decide (core < 192)
  | .collRecompute core _ _ => decide (core < 192)
  | .genHoldExpiry core _ => decide (core < 192)
  | .auditCopyComplete _ => true
  | .hostDmaAccess off acc => decide (off < 2 ^ 36) && acc.wf off
  | .hostLinkTimeout _ => true
  | .registerWrite off _ => decide (off < 2 ^ 20) && decide (off % 4 = 0)
  | .sratioWrite core _ => decide (core < 192)
  | .powerThrottle _ => true
  | .attestRequest => true
  | .snapshotGo _ => true
  | .snapshotTimer => true
  | .snapinEdge => true
  | .snapshotWritten => true
  | .deviceReset => true
  | .bootStage0 _ _ => true
  | .bootStage1 _ _ => true
  | .bootStage2 _ _ => true
  | .bootStage3 => true
  | .dieLinkLoss _ => true
  | .dramRecalibration _ _ => true
  | .ptpSync _ _ _ => true
  | .hostLinkLeavesL0 => true
  | .hostLinkReturnsL0 => true
  | .linkWidthRetrain _ w => decide (w.toNat < 3)
  | .grandmasterLoss => true

end Sys2Proof
end

