-- ==== Sys2Proof/Decode.lean ====
section
/-! DEFINITION. The decoder and the encoder (spec/04_encoding.md, R57 to R81). `decodeWord` reads one word in a
class and gathers both static causes ILLOP and ILLOPD (R81); a word with neither is an instruction. `encode` is written
from the same tables. Each format has one packing and one unpacking, and the fields are cut nowhere else. -/

namespace Sys2Proof

/-- The five classes of R57. -/
inductive Cls where
  | u | v | m | e | c
  deriving DecidableEq, Repr

def Cls.code : Cls → BitVec 4
  | .u => 0 | .v => 1 | .m => 2 | .e => 3 | .c => 4
def Cls.ofCode (x : BitVec 4) : Option Cls :=
  if x = 0 then some .u else if x = 1 then some .v else if x = 2 then some .m else if x = 3 then some .e
  else if x = 4 then some .c else none

/-- A clause header (R57). -/
structure Header where
  cls  : Cls
  cnt  : BitVec 4
  wait : BitVec 8
  t    : Bool
  deriving DecidableEq, Repr

/-- Reads a header; none is the ILLCL fate of R80. -/
def Header.decode (w : Dword) : Option Header :=
  match Cls.ofCode (w.extractLsb' 60 4) with
  | none => none
  | some cl =>
    let cnt := w.extractLsb' 56 4
    let t := w.getLsbD 47
    if w.extractLsb' 0 47 = 0 && !(t && (cl == .c || cnt == 0)) then
      some { cls := cl, cnt := cnt, wait := w.extractLsb' 48 8, t := t }
    else none

def Header.encode (h : Header) : Dword :=
  h.cls.code ++ h.cnt ++ h.wait ++ BitVec.ofBool h.t ++ (0 : BitVec 47)

/-- The class of word `k` (1 ..) of a clause (R58). -/
def Header.classOf (h : Header) (k : Nat) : Cls :=
  if h.t && k == h.cnt.toNat + 1 then .c else h.cls

/-! ## Codes of the fields -/

def VTy.code : VTy → BitVec 4
  | .i32 => 0 | .n32 => 1 | .i64 => 2 | .n64 => 3 | .f32 => 4 | .f16 => 5 | .bf16 => 6 | .e4m3 => 7
  | .i16 => 8 | .n16 => 9 | .i8 => 10 | .n8 => 11 | .e5m2 => 12
def VTy.ofCode (x : BitVec 4) : Option VTy :=
  match x.toNat with
  | 0 => some .i32 | 1 => some .n32 | 2 => some .i64 | 3 => some .n64 | 4 => some .f32 | 5 => some .f16
  | 6 => some .bf16 | 7 => some .e4m3 | 8 => some .i16 | 9 => some .n16 | 10 => some .i8 | 11 => some .n8
  | 12 => some .e5m2 | _ => none
def Rnd.code : Rnd → BitVec 2
  | .rne => 0 | .rtz => 1 | .rup => 2 | .rdn => 3
def Rnd.ofCode (x : BitVec 2) : Rnd :=
  match x.toNat with
  | 0 => .rne | 1 => .rtz | 2 => .rup | _ => .rdn
def Cc.code : Cc → Nat
  | .eq => 0 | .ne => 1 | .lt => 2 | .le => 3 | .gt => 4 | .ge => 5
def Cc.ofCode : Nat → Cc
  | 0 => .eq | 1 => .ne | 2 => .lt | 3 => .le | 4 => .gt | _ => .ge
def Sz.code : Sz → Nat
  | .b8 => 0 | .b16 => 1 | .b32 => 2 | .b64 => 3 | .b128 => 4
def Sz.ofCode : Nat → Sz
  | 0 => .b8 | 1 => .b16 | 2 => .b32 | 3 => .b64 | _ => .b128
def Ord.code : Ord → BitVec 2
  | .rlx => 0 | .acq => 1 | .rel => 2 | .acqrel => 3
def Ord.ofCode (x : BitVec 2) : Ord :=
  match x.toNat with
  | 0 => .rlx | 1 => .acq | 2 => .rel | _ => .acqrel
def Scope.code : Scope → BitVec 3
  | .none => 0 | .blk => 1 | .core => 2 | .die => 3 | .dev => 4 | .sys => 5
def Scope.ofCode (x : BitVec 3) : Option Scope :=
  match x.toNat with
  | 0 => some .none | 1 => some .blk | 2 => some .core | 3 => some .die | 4 => some .dev | 5 => some .sys
  | _ => Option.none
def AOp.code : AOp → Nat
  | .addI32 => 0 | .addF32 => 1 | .addF16 => 2 | .addBf16 => 3 | .minI32 => 4 | .minN32 => 5 | .minF32 => 6
  | .maxI32 => 7 | .maxN32 => 8 | .maxF32 => 9 | .andB32 => 10 | .orB32 => 11 | .xorB32 => 12 | .incwN32 => 13
  | .addI64 => 14 | .minI64 => 15 | .minN64 => 16 | .maxI64 => 17 | .maxN64 => 18 | .andB64 => 19 | .orB64 => 20
  | .xorB64 => 21 | .xchgB32 => 22 | .casB32 => 23 | .bumpN32 => 24 | .xchgB64 => 25 | .casB64 => 26
  | .bumpN64 => 27
def AOp.ofCode : Nat → AOp
  | 0 => .addI32 | 1 => .addF32 | 2 => .addF16 | 3 => .addBf16 | 4 => .minI32 | 5 => .minN32 | 6 => .minF32
  | 7 => .maxI32 | 8 => .maxN32 | 9 => .maxF32 | 10 => .andB32 | 11 => .orB32 | 12 => .xorB32 | 13 => .incwN32
  | 14 => .addI64 | 15 => .minI64 | 16 => .minN64 | 17 => .maxI64 | 18 => .maxN64 | 19 => .andB64 | 20 => .orB64
  | 21 => .xorB64 | 22 => .xchgB32 | 23 => .casB32 | 24 => .bumpN32 | 25 => .xchgB64 | 26 => .casB64
  | _ => .bumpN64
/-- The opcode of `atoml` for a 32-bit operation (R77). -/
def AOp.localOpc (k : AOp) : Nat := if k.code < 14 then 0xEC + k.code else 0xFA + (k.code - 22)

def ROp.code : ROp → Nat
  | .add => 0 | .min => 1 | .max => 2 | .and => 3 | .or => 4

/-- The operand id of an operand (R14). -/
def Opnd.id : Opnd → BitVec 10
  | .v r => BitVec.ofNat 10 r.val
  | .s r => BitVec.ofNat 10 (640 + r.val)
  | .lane => 768 | .tid => 769 | .fslot => 770 | .blk => 771
  | .const k => BitVec.ofNat 10 (784 + k.val)
/-- The operand an id names; ids 772..783 and 816..1023 are reserved (R14, R63). -/
def Opnd.ofId (x : BitVec 10) : Option Opnd :=
  if h : x.toNat < 640 then some (.v ⟨x.toNat, h⟩)
  else if h : x.toNat < 768 then some (.s ⟨x.toNat - 640, by omega⟩)
  else if x.toNat = 768 then some .lane
  else if x.toNat = 769 then some .tid
  else if x.toNat = 770 then some .fslot
  else if x.toNat = 771 then some .blk
  else if h : 784 ≤ x.toNat ∧ x.toNat < 816 then some (.const ⟨x.toNat - 784, by omega⟩)
  else none

/-- A v-register as an operand id. -/
def VReg.id (r : VReg) : BitVec 10 := BitVec.ofNat 10 r.val
/-- An s-register as an operand id. -/
def SReg.id (r : SReg) : BitVec 10 := BitVec.ofNat 10 (640 + r.val)
/-- A predicate in a 10-bit position (R63). -/
def Pred.id (p : Pred) : BitVec 10 := BitVec.ofNat 10 p.val

/-! ## The formats of R60 and R62 -/

/-- A word as opcode, common part and body (R60). -/
structure Raw where
  opc   : BitVec 8
  stall : BitVec 4
  set   : Bool
  tok   : BitVec 3
  gneg  : Bool
  gp    : BitVec 4
  body  : BitVec 43
  deriving DecidableEq, Repr

def Raw.pack (r : Raw) : Dword :=
  r.opc ++ r.stall ++ BitVec.ofBool r.set ++ r.tok ++ BitVec.ofBool r.gneg ++ r.gp ++ r.body
def Raw.unpack (w : Dword) : Raw :=
  { opc := w.extractLsb' 56 8, stall := w.extractLsb' 52 4, set := w.getLsbD 51, tok := w.extractLsb' 48 3,
    gneg := w.getLsbD 47, gp := w.extractLsb' 43 4, body := w.extractLsb' 0 43 }

/-- V3 with its modifier field (R62, R64). -/
structure FV3 where
  d : BitVec 10
  a : BitVec 10
  b : BitVec 10
  ty : BitVec 4
  rnd : BitVec 2
  sat : Bool
  na : Bool
  nb : Bool
  aa : Bool
  ab : Bool
  z : BitVec 2
  deriving DecidableEq, Repr
def FV3.pack (f : FV3) : BitVec 43 :=
  f.d ++ f.a ++ f.b ++ f.ty ++ f.rnd ++ BitVec.ofBool f.sat ++ BitVec.ofBool f.na ++ BitVec.ofBool f.nb
    ++ BitVec.ofBool f.aa ++ BitVec.ofBool f.ab ++ f.z
def FV3.unpack (w : BitVec 43) : FV3 :=
  { d := w.extractLsb' 33 10, a := w.extractLsb' 23 10, b := w.extractLsb' 13 10, ty := w.extractLsb' 9 4,
    rnd := w.extractLsb' 7 2, sat := w.getLsbD 6, na := w.getLsbD 5, nb := w.getLsbD 4, aa := w.getLsbD 3,
    ab := w.getLsbD 2, z := w.extractLsb' 0 2 }

/-- V4 with its m field (R62, R64). -/
structure FV4 where
  d : BitVec 10
  a : BitVec 10
  b : BitVec 10
  e : BitVec 10
  m2 : Bool
  m1 : Bool
  m0 : Bool
  deriving DecidableEq, Repr
def FV4.pack (f : FV4) : BitVec 43 :=
  f.d ++ f.a ++ f.b ++ f.e ++ BitVec.ofBool f.m2 ++ BitVec.ofBool f.m1 ++ BitVec.ofBool f.m0
def FV4.unpack (w : BitVec 43) : FV4 :=
  { d := w.extractLsb' 33 10, a := w.extractLsb' 23 10, b := w.extractLsb' 13 10, e := w.extractLsb' 3 10,
    m2 := w.getLsbD 2, m1 := w.getLsbD 1, m0 := w.getLsbD 0 }

/-- VI (R62). -/
structure FVI where
  d : BitVec 10
  a : BitVec 10
  imm : BitVec 23
  deriving DecidableEq, Repr
def FVI.pack (f : FVI) : BitVec 43 := f.d ++ f.a ++ f.imm
def FVI.unpack (w : BitVec 43) : FVI :=
  { d := w.extractLsb' 33 10, a := w.extractLsb' 23 10, imm := w.extractLsb' 0 23 }

/-- U3 (R62). -/
structure FU3 where
  d : BitVec 7
  a : BitVec 7
  b : BitVec 7
  imm : BitVec 22
  deriving DecidableEq, Repr
def FU3.pack (f : FU3) : BitVec 43 := f.d ++ f.a ++ f.b ++ f.imm
def FU3.unpack (w : BitVec 43) : FU3 :=
  { d := w.extractLsb' 36 7, a := w.extractLsb' 29 7, b := w.extractLsb' 22 7, imm := w.extractLsb' 0 22 }

/-- M (R62, R65). -/
structure FM where
  data : BitVec 10
  addr : BitVec 10
  off : BitVec 18
  ord : BitVec 2
  sc : BitVec 3
  deriving DecidableEq, Repr
def FM.pack (f : FM) : BitVec 43 := f.data ++ f.addr ++ f.off ++ f.ord ++ f.sc
def FM.unpack (w : BitVec 43) : FM :=
  { data := w.extractLsb' 33 10, addr := w.extractLsb' 23 10, off := w.extractLsb' 5 18,
    ord := w.extractLsb' 3 2, sc := w.extractLsb' 0 3 }

/-- MX; `waitc` and `ldnb` share its cuts (R62, R175, R196). -/
structure FMX where
  data : BitVec 10
  addr : BitVec 10
  base : BitVec 10
  u : BitVec 8
  ord : BitVec 2
  sc : BitVec 3
  deriving DecidableEq, Repr
def FMX.pack (f : FMX) : BitVec 43 := f.data ++ f.addr ++ f.base ++ f.u ++ f.ord ++ f.sc
def FMX.unpack (w : BitVec 43) : FMX :=
  { data := w.extractLsb' 33 10, addr := w.extractLsb' 23 10, base := w.extractLsb' 13 10,
    u := w.extractLsb' 5 8, ord := w.extractLsb' 3 2, sc := w.extractLsb' 0 3 }

/-- B (R62). -/
structure FB where
  off : BitVec 32
  z : BitVec 11
  deriving DecidableEq, Repr
def FB.pack (f : FB) : BitVec 43 := f.off ++ f.z
def FB.unpack (w : BitVec 43) : FB := { off := w.extractLsb' 11 32, z := w.extractLsb' 0 11 }

/-- E (R197). -/
structure FE where
  s : BitVec 7
  rel : Bool
  rs : BitVec 3
  be : Bool
  bar : BitVec 4
  cs : BitVec 3
  x : BitVec 24
  deriving DecidableEq, Repr
def FE.pack (f : FE) : BitVec 43 :=
  f.s ++ BitVec.ofBool f.rel ++ f.rs ++ BitVec.ofBool f.be ++ f.bar ++ f.cs ++ f.x
def FE.unpack (w : BitVec 43) : FE :=
  { s := w.extractLsb' 36 7, rel := w.getLsbD 35, rs := w.extractLsb' 32 3, be := w.getLsbD 31,
    bar := w.extractLsb' 27 4, cs := w.extractLsb' 24 3, x := w.extractLsb' 0 24 }

/-! ## Decoding with both causes -/

/-- What a field or a word decodes to: its value, whether it meets ILLOP or ILLOPD, one more than the highest
v-register it names (R32), and the feature bits it needs (R73). -/
structure Dec (α : Type) where
  val    : Option α
  illop  : Bool := false
  illopd : Bool := false
  top    : Nat := 0
  need   : Nat := 0
  deriving DecidableEq, Repr

namespace Dec
variable {α β : Type}
/-- A field that any value of the bits is good for. -/
def ok (x : α) : Dec α := { val := some x }
/-- An unassigned opcode (R73). -/
def unassigned : Dec α := { val := none, illop := true }
/-- Reads one more field. -/
def app (f : Dec (α → β)) (x : Dec α) : Dec β :=
  { val := match f.val, x.val with
      | some g, some y => some (g y)
      | _, _ => none
    illop := f.illop || x.illop, illopd := f.illopd || x.illopd, top := Nat.max f.top x.top,
    need := f.need + x.need }
/-- A condition whose failure is ILLOP. -/
def chk (f : Dec α) (b : Bool) : Dec α := { f with illop := f.illop || !b }
/-- Needs feature bits. -/
def feat (f : Dec α) (n : Nat) : Dec α := { f with need := n }
/-- The value of a word that meets no cause. -/
def get (f : Dec α) : Option α := if f.illop || f.illopd then none else f.val
end Dec

/-- The common part, with its checks (R60, R68, R80). -/
def decCtl (r : TokRule) (w : Raw) : Dec Ctl :=
  let c : Ctl := { stall := w.stall, set := w.set, tok := w.tok, gneg := w.gneg, gp := w.gp.toFin }
  { val := some c, illop := !c.wf r }
/-- A destination v-register of `n` registers (R63). -/
def decV (n : Nat) (x : BitVec 10) : Dec VReg :=
  if h : x.toNat < 640 then
    { val := some ⟨x.toNat, h⟩, illopd := !VRegFits ⟨x.toNat, h⟩ n, top := x.toNat + n }
  else { val := none, illopd := true }
/-- The v-registers an operand covers, one more than the highest. -/
def Opnd.top (x : Opnd) (n : Nat) : Nat :=
  match x with
  | .v r => r.val + n
  | _ => 0
/-- An operand id that a check of its kind accepts (R63). -/
def decO (n : Nat) (good : Opnd → Bool) (x : BitVec 10) : Dec Opnd :=
  match Opnd.ofId x with
  | some y => { val := some y, illopd := !good y, top := y.top n }
  | none => { val := none, illopd := true }
/-- A readable operand of 32 or 64 bits (R15). -/
def decR (wide : Bool) (x : BitVec 10) : Dec Opnd := decO (wN wide) (fun y => y.fits wide) x
/-- A 64-bit address or target (R17, R74). -/
def decBase (x : BitVec 10) : Dec Opnd := decO 2 Opnd.isBase x
/-- The data of a store of a size (R154). -/
def decData (sz : Sz) (x : BitVec 10) : Dec Opnd := decO sz.regs (fun y => y.data sz) x
/-- An s-register as an operand id. -/
def decS (x : BitVec 10) : Dec SReg :=
  if h : 640 ≤ x.toNat ∧ x.toNat < 768 then Dec.ok ⟨x.toNat - 640, by omega⟩
  else { val := none, illopd := true }
/-- A predicate position of 10 bits (R63). -/
def decP (x : BitVec 10) : Dec Pred :=
  if h : x.toNat < 16 then Dec.ok ⟨x.toNat, h⟩ else { val := none, illopd := true }
/-- A predicate position of a U word (R63). -/
def decP7 (x : BitVec 7) : Dec Pred :=
  if h : x.toNat < 16 then Dec.ok ⟨x.toNat, h⟩ else { val := none, illopd := true }
/-- A type code that an opcode accepts (R64, R76). -/
def decTy (good : VTy → Bool) (x : BitVec 4) : Dec VTy :=
  match VTy.ofCode x with
  | some t => { val := some t, illop := !good t }
  | none => { val := none, illop := true }
/-- The destination type code of `cvt` in its b field (R141). -/
def decTyB (x : BitVec 10) : Dec VTy :=
  if x.toNat < 16 then decTy (fun _ => true) (x.extractLsb' 0 4) else { val := none, illop := true }
/-- Whether a type code names a 64-bit integer type. A reserved or unaccepted TYPE leaves the width of the operands unstated:
they are then judged at 64 bits exactly when the code is that of a 64-bit integer type (DESIGN CHOICE, log entry 51). -/
def wideCode (x : BitVec 4) : Bool := x == 2 || x == 3
/-- Whether the b field of `cvt` names a 64-bit destination; a value of 13 and more names none (R141). -/
def wideB (x : BitVec 10) : Bool := decide (x.toNat < 16) && wideCode (x.extractLsb' 0 4)
/-- An order that an opcode accepts (R77). -/
def decOrd (good : Ord → Bool) (x : BitVec 2) : Dec Ord :=
  { val := some (Ord.ofCode x), illop := !good (Ord.ofCode x) }
/-- A scope, with the condition it must meet beside the order (R65). -/
def decSc (good : Scope → Bool) (x : BitVec 3) : Dec Scope :=
  match Scope.ofCode x with
  | some s => { val := some s, illop := !good s }
  | none => { val := none, illop := true }

/-- The V3 modifier bits an opcode leaves unused are 0 (R64, R76). -/
def FV3.only (f : FV3) (rnd sat nab : Bool) : Bool :=
  (rnd || f.rnd == 0) && (sat || !f.sat) && (nab || !(f.na || f.nb || f.aa || f.ab)) && f.z == 0
/-- `m = 0` in V3. -/
def FV3.noM (f : FV3) : Bool := f.only false false false && f.ty == 0
/-- The modifiers of a floating-point V3 word. -/
def FV3.mods (f : FV3) : FMod :=
  { rnd := Rnd.ofCode f.rnd, sat := f.sat, na := f.na, nb := f.nb, aa := f.aa, ab := f.ab }
/-- The rounding mode of a floating-point V4 word. -/
def FV4.rnd (f : FV4) : Rnd := Rnd.ofCode (BitVec.ofBool f.m2 ++ BitVec.ofBool f.m1)

/-! ## Class C (R74) -/

def decC (r : Raw) : Dec Instr :=
  let v := FV3.unpack r.body
  let vi := FVI.unpack r.body
  let fb := FB.unpack r.body
  let cn := decCtl .never r
  match r.opc.toNat with
  | 0x00 => Dec.ok Instr.nop |>.app cn |>.chk (r.body == 0)
  | 0x01 => Dec.ok Instr.bra |>.app cn |>.app (Dec.ok fb.off) |>.chk (fb.z == 0)
  | 0x02 => Dec.ok Instr.brx |>.app cn |>.app (decBase v.a) |>.chk (v.d == 0 && v.b == 0 && v.noM)
  | 0x03 => Dec.ok Instr.call |>.app cn |>.app (Dec.ok fb.off) |>.chk (fb.z == 0)
  | 0x04 => Dec.ok Instr.callx |>.app cn |>.app (decBase v.a) |>.chk (v.d == 0 && v.b == 0 && v.noM)
  | 0x05 => Dec.ok Instr.ret |>.app cn |>.chk (r.body == 0)
  | 0x06 => Dec.ok Instr.reform |>.app cn |>.chk (r.body == 0)
  | 0x07 => Dec.ok Instr.bjoin |>.app cn |>.chk (r.body == 0)
  | 0x08 => Dec.ok Instr.exit |>.app cn |>.chk (r.body == 0)
  | 0x09 => Dec.ok Instr.trap |>.app cn |>.app (Dec.ok (vi.imm.extractLsb' 0 8))
              |>.chk (vi.d == 0 && vi.a == 0 && vi.imm.extractLsb' 8 15 == 0)
  | 0x0A => Dec.ok Instr.brk |>.app cn |>.chk (r.body == 0)
  | 0x0B => Dec.ok Instr.tret |>.app cn |>.chk (r.body == 0)
  | 0x0C => Dec.ok Instr.yield |>.app cn |>.chk (r.body == 0)
  | 0x0D => Dec.ok Instr.sleep |>.app cn |>.app (decR false v.a) |>.chk (v.d == 0 && v.b == 0 && v.noM)
  | 0x0E => Dec.ok Instr.srd |>.app (decCtl .must r) |>.app (decV (wN (vi.imm.getLsbD 12)) vi.d)
              |>.app (Dec.ok (vi.imm.getLsbD 12)) |>.app (Dec.ok (vi.imm.extractLsb' 0 12))
              |>.chk (vi.a == 0 && vi.imm.extractLsb' 13 10 == 0 && srListed (vi.imm.extractLsb' 0 12))
  | 0x0F => Dec.ok Instr.swr |>.app cn |>.app (decR (vi.imm.getLsbD 12) vi.a)
              |>.app (Dec.ok (vi.imm.getLsbD 12)) |>.app (Dec.ok (vi.imm.extractLsb' 0 12))
              |>.chk (vi.d == 0 && vi.imm.extractLsb' 13 10 == 0 && srWritable (vi.imm.extractLsb' 0 12))
  | _ => Dec.unassigned

/-! ## Class U (R75) -/

/-- The second source of a U word with an immediate form (R75). -/
def decUS (im : Bool) (f : FU3) : Dec USrc :=
  if im then { val := some (.imm f.imm), illop := f.b != 0 }
  else { val := some (.reg f.b.toFin), illop := f.imm != 0 }

def decU (r : Raw) : Dec Instr :=
  let f := FU3.unpack r.body
  let im := r.opc.getLsbD 7
  let cn := decCtl .never r
  let cm := decCtl .must r
  let d : Dec SReg := Dec.ok f.d.toFin
  let a : Dec SReg := Dec.ok f.a.toFin
  let b : Dec SReg := Dec.ok f.b.toFin
  let s := decUS im f
  let yes : Dec Bool := Dec.ok true
  let no : Dec Bool := Dec.ok false
  match r.opc.toNat % 128 with
  | 0x00 => Dec.ok Instr.sadd |>.app cn |>.app d |>.app a |>.app s
  | 0x01 => Dec.ok Instr.ssub |>.app cn |>.app d |>.app a |>.app s
  | 0x02 => Dec.ok Instr.smul |>.app cn |>.app d |>.app a |>.app s
  | 0x03 => Dec.ok Instr.smulh |>.app cn |>.app yes |>.app d |>.app a |>.app s
  | 0x04 => Dec.ok Instr.smulh |>.app cn |>.app no |>.app d |>.app a |>.app s
  | 0x05 => Dec.ok Instr.smad |>.app cn |>.app d |>.app a |>.app s
  | 0x06 => Dec.ok Instr.sand |>.app cn |>.app d |>.app a |>.app s
  | 0x07 => Dec.ok Instr.sor |>.app cn |>.app d |>.app a |>.app s
  | 0x08 => Dec.ok Instr.sxor |>.app cn |>.app d |>.app a |>.app s
  | 0x09 => Dec.ok Instr.snot |>.app cn |>.app d |>.app a |>.chk (!im && f.b == 0 && f.imm == 0)
  | 0x0A => Dec.ok Instr.sshl |>.app cn |>.app d |>.app a |>.app s
  | 0x0B => Dec.ok Instr.sshr |>.app cn |>.app d |>.app a |>.app s
  | 0x0C => Dec.ok Instr.ssar |>.app cn |>.app d |>.app a |>.app s
  | 0x0D => Dec.ok Instr.smin |>.app cn |>.app yes |>.app d |>.app a |>.app s
  | 0x0E => Dec.ok Instr.smin |>.app cn |>.app no |>.app d |>.app a |>.app s
  | 0x0F => Dec.ok Instr.smax |>.app cn |>.app yes |>.app d |>.app a |>.app s
  | 0x10 => Dec.ok Instr.smax |>.app cn |>.app no |>.app d |>.app a |>.app s
  | 0x11 => Dec.ok Instr.ssel |>.app cn |>.app d |>.app a |>.app b |>.app (Dec.ok (f.imm.extractLsb' 0 4).toFin)
              |>.app (Dec.ok (f.imm.getLsbD 4)) |>.chk (!im && f.imm.extractLsb' 5 17 == 0)
  | 0x12 => Dec.ok Instr.smov |>.app cn |>.app d |>.app a |>.chk (!im && f.b == 0 && f.imm == 0)
  | 0x13 => Dec.ok Instr.sclz |>.app cn |>.app d |>.app a |>.chk (!im && f.b == 0 && f.imm == 0)
  | 0x14 => Dec.ok Instr.spopc |>.app cn |>.app d |>.app a |>.chk (!im && f.b == 0 && f.imm == 0)
  | 0x15 => Dec.ok Instr.sbfe |>.app cn |>.app no |>.app d |>.app a |>.app (Dec.ok (f.imm.extractLsb' 0 6))
              |>.app (Dec.ok (f.imm.extractLsb' 6 7))
              |>.chk (!im && f.b == 0 && f.imm.extractLsb' 13 9 == 0 && decide ((f.imm.extractLsb' 6 7).toNat ≤ 64))
  | 0x16 => Dec.ok Instr.sbfe |>.app cn |>.app yes |>.app d |>.app a |>.app (Dec.ok (f.imm.extractLsb' 0 6))
              |>.app (Dec.ok (f.imm.extractLsb' 6 7))
              |>.chk (!im && f.b == 0 && f.imm.extractLsb' 13 9 == 0 && decide ((f.imm.extractLsb' 6 7).toNat ≤ 64))
  | 0x18 => Dec.ok Instr.sli |>.app cn |>.app d |>.app (Dec.ok f.imm) |>.chk (!im && f.a == 0 && f.b == 0)
  | 0x19 => Dec.ok Instr.slih |>.app cn |>.app d |>.app a |>.app (Dec.ok f.imm) |>.chk (!im && f.b == 0)
  | 0x20 => Dec.ok Instr.scmp |>.app cn |>.app (Dec.ok .eq) |>.app yes |>.app (decP7 f.d) |>.app a |>.app s
  | 0x21 => Dec.ok Instr.scmp |>.app cn |>.app (Dec.ok .ne) |>.app yes |>.app (decP7 f.d) |>.app a |>.app s
  | 0x22 => Dec.ok Instr.scmp |>.app cn |>.app (Dec.ok .lt) |>.app yes |>.app (decP7 f.d) |>.app a |>.app s
  | 0x23 => Dec.ok Instr.scmp |>.app cn |>.app (Dec.ok .le) |>.app yes |>.app (decP7 f.d) |>.app a |>.app s
  | 0x24 => Dec.ok Instr.scmp |>.app cn |>.app (Dec.ok .gt) |>.app yes |>.app (decP7 f.d) |>.app a |>.app s
  | 0x25 => Dec.ok Instr.scmp |>.app cn |>.app (Dec.ok .ge) |>.app yes |>.app (decP7 f.d) |>.app a |>.app s
  | 0x2A => Dec.ok Instr.scmp |>.app cn |>.app (Dec.ok .lt) |>.app no |>.app (decP7 f.d) |>.app a |>.app s
  | 0x2B => Dec.ok Instr.scmp |>.app cn |>.app (Dec.ok .le) |>.app no |>.app (decP7 f.d) |>.app a |>.app s
  | 0x2C => Dec.ok Instr.scmp |>.app cn |>.app (Dec.ok .gt) |>.app no |>.app (decP7 f.d) |>.app a |>.app s
  | 0x2D => Dec.ok Instr.scmp |>.app cn |>.app (Dec.ok .ge) |>.app no |>.app (decP7 f.d) |>.app a |>.app s
  | 0x30 | 0x31 | 0x32 | 0x33 =>
      Dec.ok Instr.sld |>.app cm |>.app (Dec.ok (Sz.ofCode (r.opc.toNat % 4))) |>.app d |>.app a
        |>.app (Dec.ok f.imm) |>.chk (!im && f.b == 0)
  | 0x34 | 0x35 | 0x36 | 0x37 =>
      Dec.ok Instr.sst |>.app (decCtl .may r) |>.app (Dec.ok (Sz.ofCode (r.opc.toNat % 4))) |>.app a
        |>.app (Dec.ok f.imm) |>.app b |>.chk (!im && f.d == 0)
  | 0x38 | 0x39 | 0x3A | 0x3B =>
      Dec.ok Instr.sldl |>.app cm |>.app (Dec.ok (Sz.ofCode (r.opc.toNat % 4))) |>.app d |>.app a
        |>.app (Dec.ok f.imm) |>.chk (!im && f.b == 0)
  | _ => Dec.unassigned

/-! ## Class V (R76) -/

/-- Integer V3 words with two sources. -/
def decI2 (mk : Ctl → VTy → VReg → Opnd → Opnd → Instr) (good : VTy → Bool) (r : Raw) : Dec Instr :=
  let f := FV3.unpack r.body
  let w := wideCode f.ty
  Dec.ok mk |>.app (decCtl .never r) |>.app (decTy good f.ty) |>.app (decV (wN w) f.d) |>.app (decR w f.a)
    |>.app (decR w f.b) |>.chk (f.only false false false)
/-- Integer V3 words with two sources and SAT. -/
def decI2S (mk : Ctl → VTy → Bool → VReg → Opnd → Opnd → Instr) (good : VTy → Bool) (r : Raw) : Dec Instr :=
  let f := FV3.unpack r.body
  let w := wideCode f.ty
  Dec.ok mk |>.app (decCtl .never r) |>.app (decTy good f.ty) |>.app (Dec.ok f.sat) |>.app (decV (wN w) f.d)
    |>.app (decR w f.a) |>.app (decR w f.b) |>.chk (f.only false true false)
/-- Integer V3 words with one source. -/
def decI1 (mk : Ctl → VTy → VReg → Opnd → Instr) (good : VTy → Bool) (r : Raw) : Dec Instr :=
  let f := FV3.unpack r.body
  let w := wideCode f.ty
  Dec.ok mk |>.app (decCtl .never r) |>.app (decTy good f.ty) |>.app (decV (wN w) f.d) |>.app (decR w f.a)
    |>.chk (f.b == 0 && f.only false false false)
/-- Integer V3 words with one source and SAT. -/
def decI1S (mk : Ctl → VTy → Bool → VReg → Opnd → Instr) (good : VTy → Bool) (r : Raw) : Dec Instr :=
  let f := FV3.unpack r.body
  let w := wideCode f.ty
  Dec.ok mk |>.app (decCtl .never r) |>.app (decTy good f.ty) |>.app (Dec.ok f.sat) |>.app (decV (wN w) f.d)
    |>.app (decR w f.a) |>.chk (f.b == 0 && f.only false true false)
/-- Floating-point V3 words with two sources and modifiers. -/
def decF2 (mk : Ctl → VTy → FMod → VReg → Opnd → Opnd → Instr) (rs : Bool) (r : Raw) : Dec Instr :=
  let f := FV3.unpack r.body
  Dec.ok mk |>.app (decCtl .never r) |>.app (decTy VTy.fp f.ty) |>.app (Dec.ok f.mods) |>.app (decV 1 f.d)
    |>.app (decR false f.a) |>.app (decR false f.b) |>.chk (f.only rs rs true)
/-- Floating-point V4 words. -/
def decF4 (mk : Ctl → VTy → Rnd → Bool → VReg → Opnd → Opnd → Opnd → Instr) (t : VTy) (r : Raw) : Dec Instr :=
  let f := FV4.unpack r.body
  Dec.ok mk |>.app (decCtl .never r) |>.app (Dec.ok t) |>.app (Dec.ok f.rnd) |>.app (Dec.ok f.m0)
    |>.app (decV 1 f.d) |>.app (decR false f.a) |>.app (decR false f.b) |>.app (decR false f.e)
/-- `frcp fsqrt frsq fexp2 flog2` (R139). -/
def decF1 (mk : Ctl → Rnd → VReg → Opnd → Instr) (r : Raw) : Dec Instr :=
  let f := FV3.unpack r.body
  Dec.ok mk |>.app (decCtl .must r) |>.app (Dec.ok (Rnd.ofCode f.rnd)) |>.app (decV 1 f.d) |>.app (decR false f.a)
    |>.chk (f.ty == 4 && f.b == 0 && f.only true false false)
/-- `cmp` (R136). -/
def decCmp (cc : Cc) (r : Raw) : Dec Instr :=
  let f := FV3.unpack r.body
  let w := wideCode f.ty
  Dec.ok Instr.cmp |>.app (decCtl .never r) |>.app (Dec.ok cc) |>.app (decTy VTy.int f.ty) |>.app (decP f.d)
    |>.app (decR w f.a) |>.app (decR w f.b) |>.chk (f.only false false false)
/-- `fcmp` (R138). -/
def decFcmp (cc : Cc) (r : Raw) : Dec Instr :=
  let f := FV3.unpack r.body
  Dec.ok Instr.fcmp |>.app (decCtl .never r) |>.app (Dec.ok cc) |>.app (Dec.ok f.mods) |>.app (decP f.d)
    |>.app (decR false f.a) |>.app (decR false f.b) |>.chk (f.ty == 4 && f.only false false true)
/-- Types `.i32` and `.i64` of the lane words. -/
def laneTy (f : FV3) : Bool := (f.ty == 0 || f.ty == 2) && f.only false false false
/-- `shfl shflx shflu shfld` (R149, R150). -/
def decShfl (mk : Ctl → Bool → VReg → Opnd → Opnd → Instr) (r : Raw) : Dec Instr :=
  let f := FV3.unpack r.body
  let w := wideCode f.ty
  Dec.ok mk |>.app (decCtl .must r) |>.app (Dec.ok w) |>.app (decV (wN w) f.d) |>.app (decR w f.a)
    |>.app (decR false f.b) |>.chk (laneTy f)
/-- `redx` (R151). -/
def decRedx (op : ROp) (r : Raw) : Dec Instr :=
  let f := FV3.unpack r.body
  Dec.ok Instr.redx |>.app (decCtl .must r) |>.app (Dec.ok op) |>.app (decTy (fun t => t.redOk op) f.ty)
    |>.app (decS f.d) |>.app (decR (wideCode f.ty) f.a) |>.chk (f.b == 0 && f.only false false false)

/-- Class V, opcodes of the V3, V4 and VI formats. A word whose destination is a predicate (`vany`, `vall`, `elect`, `ptest` of
class M) counts as one that writes a register, so that SET = 0 on it raises ILLOP (R68; DESIGN CHOICE, log entry 51). -/
def decV32 (r : Raw) : Dec Instr :=
  let f := FV3.unpack r.body
  let q := FV4.unpack r.body
  let vi := FVI.unpack r.body
  let cn := decCtl .never r
  let cm := decCtl .must r
  let w := wideCode f.ty
  match r.opc.toNat with
  | 0x00 => decI2S Instr.add VTy.intPacked r
  | 0x01 => decI2S Instr.sub VTy.intPacked r
  | 0x02 => decI2S Instr.mul VTy.int16up r
  | 0x03 => decI2 Instr.mulh VTy.int r
  | 0x04 => Dec.ok Instr.mad |>.app cn |>.app (Dec.ok q.m2) |>.app (Dec.ok q.m1) |>.app (Dec.ok q.m0)
              |>.app (decV (wN q.m1) q.d) |>.app (decR q.m1 q.a) |>.app (decR q.m1 q.b) |>.app (decR q.m1 q.e)
  | 0x05 => Dec.ok Instr.madw |>.app cn |>.app (Dec.ok q.m2) |>.app (decV 2 q.d) |>.app (decR false q.a)
              |>.app (decR false q.b) |>.app (decR true q.e) |>.chk (!q.m1 && !q.m0)
  | 0x06 => decI2 Instr.and VTy.int r
  | 0x07 => decI2 Instr.or VTy.int r
  | 0x08 => decI2 Instr.xor VTy.int r
  | 0x09 => decI1 Instr.not VTy.int r
  | 0x0A => decI2 Instr.shl VTy.int r
  | 0x0B => decI2 Instr.shr VTy.int r
  | 0x0C => decI2 Instr.sar VTy.int r
  | 0x0D => decI2 Instr.rot VTy.int r
  | 0x0E => decI2 Instr.min VTy.intPacked r
  | 0x0F => decI2 Instr.max VTy.intPacked r
  | 0x10 => decI1S Instr.abs VTy.signedPacked r
  | 0x11 => decI1S Instr.neg VTy.signedPacked r
  | 0x12 => Dec.ok Instr.sel |>.app cn |>.app (Dec.ok q.m1) |>.app (decV (wN q.m1) q.d) |>.app (decR q.m1 q.a)
              |>.app (decR q.m1 q.b) |>.app (decP q.e) |>.chk (!q.m2 && !q.m0)
  | 0x13 => decI1 Instr.mov VTy.int r
  | 0x14 => Dec.ok Instr.movi |>.app cn |>.app (decV 1 vi.d) |>.app (Dec.ok vi.imm) |>.chk (vi.a == 0)
  | 0x15 => decI1 Instr.clz VTy.int r
  | 0x16 => decI1 Instr.popc VTy.int r
  | 0x17 => decI1 Instr.brev VTy.int r
  | 0x18 => Dec.ok Instr.bfe |>.app cn |>.app (Dec.ok q.m2) |>.app (Dec.ok q.m1) |>.app (decV (wN q.m1) q.d)
              |>.app (decR q.m1 q.a) |>.app (decR false q.b) |>.app (decR false q.e) |>.chk (!q.m0)
  | 0x19 => Dec.ok Instr.bfi |>.app cn |>.app (Dec.ok q.m1) |>.app (decV (wN q.m1) q.d)
              |>.app (decR q.m1 q.a) |>.app (decR false q.b) |>.app (decR false q.e) |>.chk (!q.m2 && !q.m0)
  | 0x1A => Dec.ok Instr.addc |>.app cn |>.app (Dec.ok q.m1) |>.app (decV (wN q.m1) q.d)
              |>.app (decR q.m1 q.a) |>.app (decR q.m1 q.b) |>.app (decP q.e) |>.chk (!q.m2 && !q.m0)
  | 0x20 => decCmp .eq r
  | 0x21 => decCmp .ne r
  | 0x22 => decCmp .lt r
  | 0x23 => decCmp .le r
  | 0x24 => decCmp .gt r
  | 0x25 => decCmp .ge r
  | 0x40 => decF2 Instr.fadd true r
  | 0x41 => decF2 Instr.fsub true r
  | 0x42 => decF2 Instr.fmul true r
  | 0x43 => decF4 Instr.ffma .f32 r
  | 0x44 => decF4 Instr.ffma .f16 r
  | 0x45 => decF4 Instr.ffma .bf16 r
  | 0x46 => decF2 Instr.fmin false r
  | 0x47 => decF2 Instr.fmax false r
  | 0x48 => Dec.ok Instr.fclass |>.app cn |>.app (decTy VTy.fp f.ty) |>.app (decV 1 f.d) |>.app (decR false f.a)
              |>.chk (f.b == 0 && f.only false false false)
  | 0x49 => Dec.ok Instr.fround |>.app cn |>.app (decTy VTy.fp f.ty) |>.app (Dec.ok (Rnd.ofCode f.rnd))
              |>.app (decV 1 f.d) |>.app (decR false f.a) |>.chk (f.b == 0 && f.only true false false)
  | 0x4A => decF1 Instr.frcp r
  | 0x4B => decF1 Instr.fsqrt r
  | 0x4C => decF1 Instr.frsq r
  | 0x4D => decF1 Instr.fexp2 r
  | 0x4E => decF1 Instr.flog2 r
  | 0x4F => Dec.ok Instr.fdiv |>.app cm |>.app (Dec.ok (Rnd.ofCode f.rnd)) |>.app (decV 1 f.d)
              |>.app (decR false f.a) |>.app (decR false f.b) |>.chk (f.ty == 4 && f.only true false false)
  | 0x50 => decF4 Instr.fdot .f16 r
  | 0x51 => decF4 Instr.fdot .bf16 r
  | 0x52 => decF4 Instr.fdot .e4m3 r
  | 0x58 => decFcmp .eq r
  | 0x59 => decFcmp .ne r
  | 0x5A => decFcmp .lt r
  | 0x5B => decFcmp .le r
  | 0x5C => decFcmp .gt r
  | 0x5D => decFcmp .ge r
  | 0x80 => Dec.ok Instr.cvt |>.app cn |>.app (decTy (fun _ => true) f.ty) |>.app (Dec.ok (Rnd.ofCode f.rnd))
              |>.app (Dec.ok f.sat) |>.app (decV (wN (wideB f.b)) f.d) |>.app (decR w f.a)
              |>.app (decTyB f.b) |>.chk (f.only true true false)
  | 0x81 => Dec.ok Instr.pack |>.app cn |>.app (decTy VTy.packed f.ty) |>.app (Dec.ok (Rnd.ofCode f.rnd))
              |>.app (Dec.ok f.sat) |>.app (decV 1 f.d) |>.app (decR false f.a) |>.app (decR false f.b)
              |>.chk (f.only true true false)
  | 0x82 => Dec.ok Instr.unpack |>.app cn |>.app (decTy VTy.packed f.ty) |>.app (decV 1 f.d)
              |>.app (decR false f.a) |>.app (decR false f.b) |>.chk (f.only false false false)
  | 0x83 => Dec.ok Instr.perm |>.app cn |>.app (decV 1 q.d) |>.app (decR false q.a) |>.app (decR false q.b)
              |>.app (decR false q.e) |>.chk (!q.m2 && !q.m1 && !q.m0)
  | 0xC0 => Dec.ok Instr.bal |>.app cm |>.app (decS f.d) |>.app (decP f.a) |>.chk (f.b == 0 && f.noM)
  | 0xC1 => Dec.ok Instr.vany |>.app cm |>.app (decP f.d) |>.app (decP f.a) |>.chk (f.b == 0 && f.noM)
  | 0xC2 => Dec.ok Instr.vall |>.app cm |>.app (decP f.d) |>.app (decP f.a) |>.chk (f.b == 0 && f.noM)
  | 0xC3 => Dec.ok Instr.rdfirst |>.app cm |>.app (Dec.ok w) |>.app (decS f.d) |>.app (decR w f.a)
              |>.chk (f.b == 0 && laneTy f)
  | 0xC4 => Dec.ok Instr.rdfirstChk |>.app cm |>.app (Dec.ok w) |>.app (decS f.d) |>.app (decR w f.a)
              |>.app (decP f.b) |>.chk (laneTy f)
  | 0xC5 => Dec.ok Instr.rdlane |>.app cm |>.app (Dec.ok w) |>.app (decS f.d) |>.app (decR w f.a)
              |>.app (decR false f.b) |>.chk (laneTy f)
  | 0xC6 => decShfl Instr.shfl r
  | 0xC7 => decShfl Instr.shflx r
  | 0xC8 => decShfl Instr.shflu r
  | 0xC9 => decShfl Instr.shfld r
  | 0xCA => decRedx .add r
  | 0xCB => decRedx .min r
  | 0xCC => decRedx .max r
  | 0xCD => decRedx .and r
  | 0xCE => decRedx .or r
  | 0xCF => Dec.ok Instr.scanx |>.app cm |>.app (decTy (fun t => t == .i32 || t == .n32 || t == .f32) f.ty)
              |>.app (decV 1 f.d) |>.app (decR false f.a) |>.chk (f.b == 0 && f.only false false false)
  | 0xD0 => Dec.ok Instr.lanes |>.app cm |>.app (decV 1 f.d) |>.chk (f.a == 0 && f.b == 0 && f.noM)
  | 0xD1 => Dec.ok Instr.elect |>.app cm |>.app (decP f.d) |>.chk (f.a == 0 && f.b == 0 && f.noM)
  | _ => Dec.unassigned

/-! ## Class M (R77) -/

/-- The address of a global form: M for X = 0, MX for X = 1 (R77). -/
def decAddr (x : Bool) (r : Raw) : Dec MAddr :=
  let f := FM.unpack r.body
  let g := FMX.unpack r.body
  if x then Dec.ok MAddr.idx |>.app (decS g.base) |>.app (decV 1 g.addr) |>.chk (g.u == 0)
  else Dec.ok MAddr.off |>.app (decBase f.addr) |>.app (Dec.ok f.off)

/-- The data register of an atomic (R77, R166). -/
def decA (k : AOp) (x : BitVec 10) : Dec VReg :=
  if h : x.toNat < 640 then
    { val := some ⟨x.toNat, h⟩, illopd := !k.regOk ⟨x.toNat, h⟩, top := x.toNat + k.regs }
  else { val := none, illopd := true }

/-- A word of the M form: the base x of a block- or thread-relative form. R17 calls x a base register and R162 says only that
it supplies a 32-bit value: any readable operand id may stand there, a constant and a lane value among them (DESIGN CHOICE,
log entry 51). -/
def decOff (f : FM) : Dec Opnd := decR false f.addr
/-- ORD as an order and SCOPE beside it. -/
def scFor (f : FM) : Scope → Bool := fun s => scOk (Ord.ofCode f.ord) s
def scForBlk (f : FM) : Scope → Bool := fun s => scBlk (Ord.ofCode f.ord) s

def decLd (s : Nat) (x : Bool) (r : Raw) : Dec Instr :=
  let f := FM.unpack r.body
  let sz := Sz.ofCode s
  Dec.ok Instr.ld |>.app (decCtl .must r) |>.app (Dec.ok sz) |>.app (decOrd Ord.isLoad f.ord)
    |>.app (decSc (scFor f) f.sc) |>.app (decV sz.regs f.data) |>.app (decAddr x r)
def decLdNc (s : Nat) (x : Bool) (r : Raw) : Dec Instr :=
  let f := FM.unpack r.body
  let sz := Sz.ofCode s
  Dec.ok Instr.ldNc |>.app (decCtl .must r) |>.app (Dec.ok sz)
    |>.app (decSc (fun _ => true) f.sc) |>.app (decV sz.regs f.data) |>.app (decAddr x r) |>.chk (f.ord == 0)
def decSt (s : Nat) (x : Bool) (r : Raw) : Dec Instr :=
  let f := FM.unpack r.body
  let sz := Sz.ofCode s
  Dec.ok Instr.st |>.app (decCtl .may r) |>.app (Dec.ok sz) |>.app (decOrd Ord.isStore f.ord)
    |>.app (decSc (scFor f) f.sc) |>.app (decAddr x r) |>.app (decData sz f.data)
def decLdl (s : Nat) (k : Bool) (r : Raw) : Dec Instr :=
  let f := FM.unpack r.body
  let sz := Sz.ofCode s
  Dec.ok Instr.ldl |>.app (decCtl .must r) |>.app (Dec.ok sz) |>.app (Dec.ok k) |>.app (decOrd Ord.isLoad f.ord)
    |>.app (decSc (scForBlk f) f.sc) |>.app (decV sz.regs f.data) |>.app (decOff f) |>.app (Dec.ok f.off)
def decStl (s : Nat) (k : Bool) (r : Raw) : Dec Instr :=
  let f := FM.unpack r.body
  let sz := Sz.ofCode s
  Dec.ok Instr.stl |>.app (decCtl .may r) |>.app (Dec.ok sz) |>.app (Dec.ok k) |>.app (decOrd Ord.isStore f.ord)
    |>.app (decSc (scForBlk f) f.sc) |>.app (decOff f) |>.app (Dec.ok f.off) |>.app (decData sz f.data)
/-- `m[4:0] = 0` in the M form. -/
def FM.noM (f : FM) : Bool := f.ord == 0 && f.sc == 0
def decLdp (s : Nat) (r : Raw) : Dec Instr :=
  let f := FM.unpack r.body
  let sz := Sz.ofCode s
  Dec.ok Instr.ldp |>.app (decCtl .must r) |>.app (Dec.ok sz) |>.app (decV sz.regs f.data) |>.app (decOff f)
    |>.app (Dec.ok f.off) |>.chk f.noM
def decStp (s : Nat) (r : Raw) : Dec Instr :=
  let f := FM.unpack r.body
  let sz := Sz.ofCode s
  Dec.ok Instr.stp |>.app (decCtl .may r) |>.app (Dec.ok sz) |>.app (decOff f)
    |>.app (Dec.ok f.off) |>.app (decData sz f.data) |>.chk f.noM
def decAtom (k : Nat) (x : Bool) (r : Raw) : Dec Instr :=
  let f := FM.unpack r.body
  let q := AOp.ofCode k
  Dec.ok Instr.atom |>.app (decCtl .must r) |>.app (Dec.ok q) |>.app (decOrd (fun _ => true) f.ord)
    |>.app (decSc (scFor f) f.sc) |>.app (decA q f.data) |>.app (decAddr x r)
def decRed (k : Nat) (x : Bool) (r : Raw) : Dec Instr :=
  let f := FM.unpack r.body
  let q := AOp.ofCode k
  Dec.ok Instr.red |>.app (decCtl .may r) |>.app (Dec.ok q) |>.app (decOrd Ord.isStore f.ord)
    |>.app (decSc (scFor f) f.sc) |>.app (decAddr x r) |>.app (decO (wN q.wide) (fun y => redData q y) f.data)
def decAtoml (k : Nat) (r : Raw) : Dec Instr :=
  let f := FM.unpack r.body
  let q := AOp.ofCode k
  Dec.ok Instr.atoml |>.app (decCtl .must r) |>.app (Dec.ok q) |>.app (decOrd (fun _ => true) f.ord)
    |>.app (decSc (scForBlk f) f.sc) |>.app (decA q f.data) |>.app (decOff f) |>.app (Dec.ok f.off)
/-- `waitc` (R175). -/
def decWaitc (cc : Cc) (uns : Bool) (r : Raw) : Dec Instr :=
  let g := FMX.unpack r.body
  Dec.ok Instr.waitc |>.app (decCtl .never r) |>.app (Dec.ok cc) |>.app (Dec.ok uns)
    |>.app (decOrd Ord.isLoad g.ord) |>.app (decSc (fun s => scOk (Ord.ofCode g.ord) s) g.sc)
    |>.app (decBase g.addr) |>.app (decR false g.data) |>.app (decR false g.base) |>.chk (g.u == 0)

/-- The M words 0x60 to 0x74. -/
def decM6 (r : Raw) : Dec Instr :=
  let f := FM.unpack r.body
  let g := FMX.unpack r.body
  let cn := decCtl .never r
  let cm := decCtl .must r
  let cy := decCtl .may r
  let off : Dec (BitVec 18) := Dec.ok f.off
  let sc := decSc (scFor f) f.sc
  let any := decSc (fun _ => true) f.sc
  match r.opc.toNat with
  | 0x60 => Dec.ok Instr.ptest |>.app cm |>.app (decP f.data) |>.app (decOff f) |>.app off |>.chk f.noM
  | 0x61 => Dec.ok Instr.fence |>.app cy |>.app (decOrd (fun o => o != .rlx) f.ord)
              |>.app (decSc (fun s => s != .none) f.sc) |>.chk (f.data == 0 && f.addr == 0 && f.off == 0)
  | 0x62 => Dec.ok Instr.efence |>.app cy |>.app (decSc (fun s => s != .none) f.sc)
              |>.chk (f.data == 0 && f.addr == 0 && f.off == 0 && f.ord == 0)
  | 0x63 => Dec.ok Instr.cinv |>.app cy |>.app (decBase f.addr) |>.app off |>.app (decR false f.data) |>.chk f.noM
  | 0x64 => Dec.ok Instr.cwb |>.app cy |>.app (decOff f) |>.app off |>.app (decR false f.data) |>.chk f.noM
  | 0x65 => Dec.ok Instr.mon |>.app cy |>.app (decBase f.addr) |>.app off |>.chk (f.data == 0 && f.noM)
  | 0x66 => Dec.ok Instr.mwait |>.app cn |>.app (decOrd Ord.isLoad f.ord) |>.app sc |>.app (decR false f.data)
              |>.chk (f.addr == 0 && f.off == 0)
  | 0x67 => Dec.ok Instr.tktake |>.app cm |>.app (decV 1 f.data) |>.app (decBase f.addr) |>.app off |>.chk f.noM
  | 0x68 => Dec.ok Instr.tkwait |>.app cn |>.app (decOrd Ord.isLoad f.ord) |>.app sc |>.app (decBase f.addr)
              |>.app off |>.app (decR false f.data)
  | 0x69 => Dec.ok Instr.tkserve |>.app cy |>.app (decOrd Ord.isStore f.ord) |>.app sc |>.app (decBase f.addr)
              |>.app off |>.chk (f.data == 0)
  | 0x6A => Dec.ok Instr.binit |>.app cy |>.app (decR false f.addr) |>.app (decR false f.data)
              |>.chk (f.off == 0 && f.noM)
  | 0x6B => Dec.ok Instr.barr |>.app cn |>.app any |>.app (decR false f.addr)
              |>.chk (f.data == 0 && f.off == 0 && f.ord == 0)
  | 0x6C => Dec.ok Instr.bwait |>.app cn |>.app any |>.app (decR false f.addr) |>.app (decR false f.data)
              |>.chk (f.off == 0 && f.ord == 0)
  | 0x6D => Dec.ok Instr.bsync |>.app cn |>.app any |>.app (decR false f.addr)
              |>.chk (f.data == 0 && f.off == 0 && f.ord == 0)
  | 0x6E => Dec.ok Instr.cbar |>.app cn |>.app (decSc (fun s => s == .none || s == .dev || s == .sys) f.sc)
              |>.app (Dec.ok (f.off.extractLsb' 0 2))
              |>.chk (f.data == 0 && f.addr == 0 && f.off.extractLsb' 2 16 == 0 && f.ord == 0)
  | 0x70 => Dec.ok Instr.cvjoin |>.app cn |>.app (Dec.ok (f.sc.extractLsb' 0 2)) |>.app (decBase f.addr) |>.app off
              |>.app (decR false f.data) |>.chk (f.ord == 0 && !f.sc.getLsbD 2)
  | 0x71 => Dec.ok Instr.cvld |>.app cm |>.app (decV 1 f.data) |>.app (Dec.ok (f.off.getLsbD 1))
              |>.chk (f.addr == 0 && (f.off == 1 || f.off == 2) && f.noM)
  | 0x72 => Dec.ok Instr.cvleave |>.app cn |>.chk (r.body == 0)
  | 0x73 => Dec.ok Instr.stepn |>.app cn |>.chk (r.body == 0) |>.feat 32
  | 0x74 => Dec.ok Instr.ldnb |>.app cm |>.app (decV 1 g.data) |>.app (decR false g.addr) |>.app (decR false g.base)
              |>.app (Dec.ok g.u) |>.chk (g.ord == 0 && g.sc == 0) |>.feat 32
  | 0x76 => decWaitc .eq false r
  | 0x77 => decWaitc .ne false r
  | 0x78 => decWaitc .lt false r
  | 0x79 => decWaitc .le false r
  | 0x7A => decWaitc .gt false r
  | 0x7B => decWaitc .ge false r
  | 0x7C => decWaitc .lt true r
  | 0x7D => decWaitc .le true r
  | 0x7E => decWaitc .gt true r
  | 0x7F => decWaitc .ge true r
  | _ => Dec.unassigned

def decM (r : Raw) : Dec Instr :=
  let f := FM.unpack r.body
  let n := r.opc.toNat
  let x := n % 2 == 1
  if n < 0x0A then decLd (n / 2) x r
  else if n < 0x10 then Dec.unassigned
  else if n < 0x1A then decLdNc ((n - 0x10) / 2) x r
  else if n < 0x20 then Dec.unassigned
  else if n < 0x2A then decSt ((n - 0x20) / 2) x r
  else if n < 0x30 then Dec.unassigned
  else if n < 0x35 then decLdl (n - 0x30) false r
  else if n < 0x38 then Dec.unassigned
  else if n < 0x3D then decLdl (n - 0x38) true r
  else if n < 0x40 then Dec.unassigned
  else if n < 0x45 then decStl (n - 0x40) false r
  else if n < 0x48 then Dec.unassigned
  else if n < 0x4D then decStl (n - 0x48) true r
  else if n < 0x50 then Dec.unassigned
  else if n < 0x55 then decLdp (n - 0x50) r
  else if n < 0x58 then Dec.unassigned
  else if n < 0x5D then decStp (n - 0x58) r
  else if n < 0x5E then Dec.unassigned
  else if n = 0x5E then Dec.ok Instr.lda |>.app (decCtl .must r) |>.app (decV 1 f.data) |>.app (decOff f)
              |>.app (Dec.ok f.off) |>.chk f.noM
  else if n = 0x5F then Dec.ok Instr.sta |>.app (decCtl .may r) |>.app (decOff f)
              |>.app (Dec.ok f.off) |>.app (decR false f.data) |>.chk f.noM
  else if n < 0x80 then decM6 r
  else if n < 0xB8 then decAtom ((n - 0x80) / 2) x r
  else if n < 0xC0 then Dec.unassigned
  else if n < 0xEC then decRed ((n - 0xC0) / 2) x r
  else if n < 0xFA then decAtoml (n - 0xEC) r
  else if n < 0xFD then decAtoml (n - 0xFA + 22) r
  else Dec.unassigned

/-! ## Class E (R79, R197) -/

def FE.ctl (f : FE) : ECtl :=
  { rel := f.rel, rs := (Scope.ofCode f.rs).getD .none, be := f.be, bar := f.bar, cs := f.cs }
/-- The common fields of an engine word that accepts REL, BE and CS as the flags say (R197). -/
def decECtl (rel be cs : Bool) (f : FE) : Dec ECtl :=
  { val := some f.ctl, illop := !(f.ctl.wf rel be cs && (Scope.ofCode f.rs).isSome) }

def decE (r : Raw) : Dec Instr :=
  let f := FE.unpack r.body
  let cn := decCtl .never r
  let cy := decCtl .may r
  let s : Dec SReg := Dec.ok f.s.toFin
  let rb := decECtl true true false f
  let bo := decECtl false true false f
  let all := decECtl true true true f
  let bank : Dec (BitVec 3) := Dec.ok (f.x.extractLsb' 0 3)
  match r.opc.toNat with
  | 0x00 =>
    let noCtl := f.ctl.wf false false false && (Scope.ofCode f.rs).isSome && f.x.extractLsb' 2 22 == 0
    match (f.x.extractLsb' 0 2).toNat with
    | 0 => Dec.ok Instr.mxownTake |>.app cn |>.chk (noCtl && f.s == 0) |>.feat 2
    | 1 => Dec.ok Instr.mxownPass |>.app cn |>.app s |>.chk noCtl |>.feat 2
    | 2 => Dec.ok Instr.mxownRelease |>.app cn |>.chk (noCtl && f.s == 0) |>.feat 2
    | _ => { val := none, illop := true }
  | 0x01 => Dec.ok Instr.mxload |>.app cy |>.app rb |>.app s |>.app bank |>.chk (f.x.extractLsb' 3 21 == 0) |>.feat 2
  | 0x02 => Dec.ok Instr.mxevict |>.app cy |>.app bo |>.app bank |>.chk (f.s == 0 && f.x.extractLsb' 3 21 == 0)
              |>.feat 2
  | 0x03 => Dec.ok Instr.mxres |>.app cy |>.app bo |>.app s |>.chk (f.x == 0) |>.feat 2
  | 0x04 => Dec.ok Instr.mma |>.app cy |>.app rb |>.app s |>.chk (f.x == 0) |>.feat 2
  | 0x05 => Dec.ok Instr.mmal |>.app cy |>.app rb |>.app s |>.chk (f.x == 0) |>.feat 6
  | 0x06 => Dec.ok Instr.mxgrad |>.app cy |>.app rb |>.app s |>.chk (f.x == 0) |>.feat 2
  | 0x07 => Dec.ok Instr.mxzero |>.app cy |>.app bo |>.app (Dec.ok (f.x.extractLsb' 0 12))
              |>.app (Dec.ok (f.x.extractLsb' 12 12)) |>.chk (f.s == 0) |>.feat 2
  | 0x10 => Dec.ok Instr.cpy |>.app cy |>.app rb |>.app s |>.app (Dec.ok (f.x.extractLsb' 0 6))
              |>.chk (f.x.extractLsb' 6 18 == 0)
  | 0x11 => Dec.ok Instr.cpyo |>.app cy |>.app all |>.app s |>.chk (f.x == 0)
  | 0x12 => Dec.ok Instr.binsc |>.app cy |>.app all |>.app s |>.chk (f.x == 0)
  | 0x20 => Dec.ok Instr.npost |>.app cy |>.app rb |>.app s |>.app (Dec.ok (f.x.extractLsb' 0 12))
              |>.app (Dec.ok (f.x.extractLsb' 12 6)) |>.chk (f.x.extractLsb' 18 6 == 0)
  | 0x21 => Dec.ok Instr.ltrig |>.app cy |>.app bo |>.chk (f.s == 0 && f.x == 0)
  | 0x22 => Dec.ok Instr.lwait |>.app cn |>.app s
              |>.chk (f.ctl.wf false false false && (Scope.ofCode f.rs).isSome && f.x == 0)
  | 0x30 => Dec.ok Instr.coll |>.app cy |>.app rb |>.app s |>.chk (f.x == 0) |>.feat 8
  | 0x31 => Dec.ok Instr.cstat |>.app cy |>.app bo |>.app s |>.app (Dec.ok (f.x.extractLsb' 0 16))
              |>.chk (f.x.extractLsb' 16 8 == 0) |>.feat 8
  | _ => Dec.unassigned

/-- Decodes one word in a class: its value and every static cause it meets (R73 to R81). -/
def decodeWord (k : Cls) (w : Dword) : Dec Instr :=
  let r := Raw.unpack w
  match k with
  | .c => decC r
  | .u => decU r
  | .v => decV32 r
  | .m => decM r
  | .e => decE r

/-- The instruction of a word that meets neither ILLOP nor ILLOPD by its bits alone. -/
def decodeInstr (k : Cls) (w : Dword) : Option Instr := (decodeWord k w).get

/-- Whether a word is a terminator or a wait, which R59 lets stand last only. -/
def mustBeLast (k : Cls) (w : Dword) : Bool :=
  let n := (w.extractLsb' 56 8).toNat
  match k with
  | .c => decide (1 ≤ n) && decide (n ≤ 13)
  | .m => n == 0x66 || n == 0x68 || n == 0x6B || n == 0x6C || n == 0x6D || n == 0x6E || n == 0x73
          || (decide (0x76 ≤ n) && decide (n ≤ 0x7F))
  | _ => false

/-! ## The encoder -/

/-- The word of an opcode, a common part and a body (R60). -/
def wd (opc : Nat) (c : Ctl) (body : BitVec 43) : Dword :=
  Raw.pack { opc := BitVec.ofNat 8 opc, stall := c.stall, set := c.set, tok := c.tok, gneg := c.gneg,
             gp := BitVec.ofFin c.gp, body := body }

/-- A V3 body with integer modifiers. -/
def bV3 (d a b : BitVec 10) (ty : BitVec 4) (rnd : BitVec 2) (sat : Bool) : BitVec 43 :=
  FV3.pack { d := d, a := a, b := b, ty := ty, rnd := rnd, sat := sat, na := false, nb := false, aa := false,
             ab := false, z := 0 }
/-- A V3 body with floating-point modifiers. -/
def bV3f (d a b : BitVec 10) (ty : BitVec 4) (m : FMod) : BitVec 43 :=
  FV3.pack { d := d, a := a, b := b, ty := ty, rnd := m.rnd.code, sat := m.sat, na := m.na, nb := m.nb, aa := m.aa,
             ab := m.ab, z := 0 }
/-- A V4 body. -/
def bV4 (d a b e : BitVec 10) (m2 m1 m0 : Bool) : BitVec 43 :=
  FV4.pack { d := d, a := a, b := b, e := e, m2 := m2, m1 := m1, m0 := m0 }
/-- A floating-point V4 body. -/
def bV4f (d a b e : BitVec 10) (rnd : Rnd) (sat : Bool) : BitVec 43 :=
  FV4.pack { d := d, a := a, b := b, e := e, m2 := rnd.code.getLsbD 1, m1 := rnd.code.getLsbD 0, m0 := sat }
def bVI (d a : BitVec 10) (imm : BitVec 23) : BitVec 43 := FVI.pack { d := d, a := a, imm := imm }
def bU3 (d a b : BitVec 7) (imm : BitVec 22) : BitVec 43 := FU3.pack { d := d, a := a, b := b, imm := imm }
def bM (data addr : BitVec 10) (off : BitVec 18) (ord : Ord) (sc : Scope) : BitVec 43 :=
  FM.pack { data := data, addr := addr, off := off, ord := ord.code, sc := sc.code }
def bB (off : BitVec 32) : BitVec 43 := FB.pack { off := off, z := 0 }
def bE (s : BitVec 7) (e : ECtl) (x : BitVec 24) : BitVec 43 :=
  FE.pack { s := s, rel := e.rel, rs := e.rs.code, be := e.be, bar := e.bar, cs := e.cs, x := x }
/-- A U word with an immediate form. -/
def wdU (opc : Nat) (c : Ctl) (d : BitVec 7) (a : SReg) (b : USrc) : Cls × Dword :=
  match b with
  | .reg r => (.u, wd opc c (bU3 d (BitVec.ofFin a) (BitVec.ofFin r) 0))
  | .imm i => (.u, wd (opc + 128) c (bU3 d (BitVec.ofFin a) 0 i))
/-- A global M word in the form its address asks for. -/
def wdM (opc : Nat) (c : Ctl) (data : BitVec 10) (m : MAddr) (ord : Ord) (sc : Scope) : Cls × Dword :=
  match m with
  | .off x i => (.m, wd opc c (bM data x.id i ord sc))
  | .idx s v => (.m, wd (opc + 1) c
      (FMX.pack { data := data, addr := VReg.id v, base := SReg.id s, u := 0, ord := ord.code, sc := sc.code }))
/-- `srd` and `swr` hold the number and the size in imm (R122). -/
def srImm (num : BitVec 12) (wide : Bool) : BitVec 23 := (0 : BitVec 10) ++ BitVec.ofBool wide ++ num
/-- No common field (R207, `lwait`). -/
def ECtl.zero : ECtl := { rel := false, rs := .none, be := false, bar := 0, cs := 0 }

/-- The class and the word of an instruction; the event rows have none. -/
def encode : Instr → Option (Cls × Dword)
  | .nop c => some (.c, wd 0x00 c 0)
  | .bra c off => some (.c, wd 0x01 c (bB off))
  | .brx c a => some (.c, wd 0x02 c (bV3 0 a.id 0 0 0 false))
  | .call c off => some (.c, wd 0x03 c (bB off))
  | .callx c a => some (.c, wd 0x04 c (bV3 0 a.id 0 0 0 false))
  | .ret c => some (.c, wd 0x05 c 0)
  | .reform c => some (.c, wd 0x06 c 0)
  | .bjoin c => some (.c, wd 0x07 c 0)
  | .exit c => some (.c, wd 0x08 c 0)
  | .trap c n => some (.c, wd 0x09 c (bVI 0 0 ((0 : BitVec 15) ++ n)))
  | .brk c => some (.c, wd 0x0A c 0)
  | .tret c => some (.c, wd 0x0B c 0)
  | .yield c => some (.c, wd 0x0C c 0)
  | .sleep c a => some (.c, wd 0x0D c (bV3 0 a.id 0 0 0 false))
  | .srd c d w n => some (.c, wd 0x0E c (bVI (VReg.id d) 0 (srImm n w)))
  | .swr c a w n => some (.c, wd 0x0F c (bVI 0 a.id (srImm n w)))
  | .sadd c d a b => some (wdU 0x00 c (BitVec.ofFin d) a b)
  | .ssub c d a b => some (wdU 0x01 c (BitVec.ofFin d) a b)
  | .smul c d a b => some (wdU 0x02 c (BitVec.ofFin d) a b)
  | .smulh c sg d a b => some (wdU (if sg then 0x03 else 0x04) c (BitVec.ofFin d) a b)
  | .smad c d a b => some (wdU 0x05 c (BitVec.ofFin d) a b)
  | .sand c d a b => some (wdU 0x06 c (BitVec.ofFin d) a b)
  | .sor c d a b => some (wdU 0x07 c (BitVec.ofFin d) a b)
  | .sxor c d a b => some (wdU 0x08 c (BitVec.ofFin d) a b)
  | .snot c d a => some (.u, wd 0x09 c (bU3 (BitVec.ofFin d) (BitVec.ofFin a) 0 0))
  | .sshl c d a b => some (wdU 0x0A c (BitVec.ofFin d) a b)
  | .sshr c d a b => some (wdU 0x0B c (BitVec.ofFin d) a b)
  | .ssar c d a b => some (wdU 0x0C c (BitVec.ofFin d) a b)
  | .smin c sg d a b => some (wdU (if sg then 0x0D else 0x0E) c (BitVec.ofFin d) a b)
  | .smax c sg d a b => some (wdU (if sg then 0x0F else 0x10) c (BitVec.ofFin d) a b)
  | .ssel c d a b p neg => some (.u, wd 0x11 c (bU3 (BitVec.ofFin d) (BitVec.ofFin a) (BitVec.ofFin b)
      ((0 : BitVec 17) ++ BitVec.ofBool neg ++ (BitVec.ofFin p : BitVec 4))))
  | .smov c d a => some (.u, wd 0x12 c (bU3 (BitVec.ofFin d) (BitVec.ofFin a) 0 0))
  | .sclz c d a => some (.u, wd 0x13 c (bU3 (BitVec.ofFin d) (BitVec.ofFin a) 0 0))
  | .spopc c d a => some (.u, wd 0x14 c (bU3 (BitVec.ofFin d) (BitVec.ofFin a) 0 0))
  | .sbfe c sg d a pos len => some (.u, wd (if sg then 0x16 else 0x15) c
      (bU3 (BitVec.ofFin d) (BitVec.ofFin a) 0 ((0 : BitVec 9) ++ len ++ pos)))
  | .sli c d imm => some (.u, wd 0x18 c (bU3 (BitVec.ofFin d) 0 0 imm))
  | .slih c d a imm => some (.u, wd 0x19 c (bU3 (BitVec.ofFin d) (BitVec.ofFin a) 0 imm))
  | .scmp c cc sg d a b => some (wdU (if sg then 0x20 + cc.code else 0x28 + cc.code) c (BitVec.ofNat 7 d.val) a b)
  | .sld c sz d a imm => some (.u, wd (0x30 + sz.code) c (bU3 (BitVec.ofFin d) (BitVec.ofFin a) 0 imm))
  | .sst c sz a imm b => some (.u, wd (0x34 + sz.code) c (bU3 0 (BitVec.ofFin a) (BitVec.ofFin b) imm))
  | .sldl c sz d a imm => some (.u, wd (0x38 + sz.code) c (bU3 (BitVec.ofFin d) (BitVec.ofFin a) 0 imm))
  | .add c ty sat d a b => some (.v, wd 0x00 c (bV3 (VReg.id d) a.id b.id ty.code 0 sat))
  | .sub c ty sat d a b => some (.v, wd 0x01 c (bV3 (VReg.id d) a.id b.id ty.code 0 sat))
  | .mul c ty sat d a b => some (.v, wd 0x02 c (bV3 (VReg.id d) a.id b.id ty.code 0 sat))
  | .mulh c ty d a b => some (.v, wd 0x03 c (bV3 (VReg.id d) a.id b.id ty.code 0 false))
  | .mad c uns w sat d a b e => some (.v, wd 0x04 c (bV4 (VReg.id d) a.id b.id e.id uns w sat))
  | .madw c uns d a b e => some (.v, wd 0x05 c (bV4 (VReg.id d) a.id b.id e.id uns false false))
  | .and c ty d a b => some (.v, wd 0x06 c (bV3 (VReg.id d) a.id b.id ty.code 0 false))
  | .or c ty d a b => some (.v, wd 0x07 c (bV3 (VReg.id d) a.id b.id ty.code 0 false))
  | .xor c ty d a b => some (.v, wd 0x08 c (bV3 (VReg.id d) a.id b.id ty.code 0 false))
  | .not c ty d a => some (.v, wd 0x09 c (bV3 (VReg.id d) a.id 0 ty.code 0 false))
  | .shl c ty d a b => some (.v, wd 0x0A c (bV3 (VReg.id d) a.id b.id ty.code 0 false))
  | .shr c ty d a b => some (.v, wd 0x0B c (bV3 (VReg.id d) a.id b.id ty.code 0 false))
  | .sar c ty d a b => some (.v, wd 0x0C c (bV3 (VReg.id d) a.id b.id ty.code 0 false))
  | .rot c ty d a b => some (.v, wd 0x0D c (bV3 (VReg.id d) a.id b.id ty.code 0 false))
  | .min c ty d a b => some (.v, wd 0x0E c (bV3 (VReg.id d) a.id b.id ty.code 0 false))
  | .max c ty d a b => some (.v, wd 0x0F c (bV3 (VReg.id d) a.id b.id ty.code 0 false))
  | .abs c ty sat d a => some (.v, wd 0x10 c (bV3 (VReg.id d) a.id 0 ty.code 0 sat))
  | .neg c ty sat d a => some (.v, wd 0x11 c (bV3 (VReg.id d) a.id 0 ty.code 0 sat))
  | .sel c w d a b p => some (.v, wd 0x12 c (bV4 (VReg.id d) a.id b.id (Pred.id p) false w false))
  | .mov c ty d a => some (.v, wd 0x13 c (bV3 (VReg.id d) a.id 0 ty.code 0 false))
  | .movi c d imm => some (.v, wd 0x14 c (bVI (VReg.id d) 0 imm))
  | .clz c ty d a => some (.v, wd 0x15 c (bV3 (VReg.id d) a.id 0 ty.code 0 false))
  | .popc c ty d a => some (.v, wd 0x16 c (bV3 (VReg.id d) a.id 0 ty.code 0 false))
  | .brev c ty d a => some (.v, wd 0x17 c (bV3 (VReg.id d) a.id 0 ty.code 0 false))
  | .bfe c uns w d a pos len => some (.v, wd 0x18 c (bV4 (VReg.id d) a.id pos.id len.id uns w false))
  | .bfi c w d a pos len => some (.v, wd 0x19 c (bV4 (VReg.id d) a.id pos.id len.id false w false))
  | .addc c w d a b p => some (.v, wd 0x1A c (bV4 (VReg.id d) a.id b.id (Pred.id p) false w false))
  | .cmp c cc ty d a b => some (.v, wd (0x20 + cc.code) c (bV3 (Pred.id d) a.id b.id ty.code 0 false))
  | .fadd c ty m d a b => some (.v, wd 0x40 c (bV3f (VReg.id d) a.id b.id ty.code m))
  | .fsub c ty m d a b => some (.v, wd 0x41 c (bV3f (VReg.id d) a.id b.id ty.code m))
  | .fmul c ty m d a b => some (.v, wd 0x42 c (bV3f (VReg.id d) a.id b.id ty.code m))
  | .ffma c ty rnd sat d a b e => some (.v, wd (0x43 + (ty.code.toNat - 4)) c
      (bV4f (VReg.id d) a.id b.id e.id rnd sat))
  | .fmin c ty m d a b => some (.v, wd 0x46 c (bV3f (VReg.id d) a.id b.id ty.code m))
  | .fmax c ty m d a b => some (.v, wd 0x47 c (bV3f (VReg.id d) a.id b.id ty.code m))
  | .fclass c ty d a => some (.v, wd 0x48 c (bV3 (VReg.id d) a.id 0 ty.code 0 false))
  | .fround c ty rnd d a => some (.v, wd 0x49 c (bV3 (VReg.id d) a.id 0 ty.code rnd.code false))
  | .frcp c rnd d a => some (.v, wd 0x4A c (bV3 (VReg.id d) a.id 0 4 rnd.code false))
  | .fsqrt c rnd d a => some (.v, wd 0x4B c (bV3 (VReg.id d) a.id 0 4 rnd.code false))
  | .frsq c rnd d a => some (.v, wd 0x4C c (bV3 (VReg.id d) a.id 0 4 rnd.code false))
  | .fexp2 c rnd d a => some (.v, wd 0x4D c (bV3 (VReg.id d) a.id 0 4 rnd.code false))
  | .flog2 c rnd d a => some (.v, wd 0x4E c (bV3 (VReg.id d) a.id 0 4 rnd.code false))
  | .fdiv c rnd d a b => some (.v, wd 0x4F c (bV3 (VReg.id d) a.id b.id 4 rnd.code false))
  | .fdot c ty rnd sat d a b e => some (.v, wd (0x50 + (ty.code.toNat - 5)) c
      (bV4f (VReg.id d) a.id b.id e.id rnd sat))
  | .fcmp c cc m d a b => some (.v, wd (0x58 + cc.code) c (bV3f (Pred.id d) a.id b.id 4 m))
  | .cvt c ty rnd sat d a dst => some (.v, wd 0x80 c
      (bV3 (VReg.id d) a.id ((0 : BitVec 6) ++ dst.code) ty.code rnd.code sat))
  | .pack c ty rnd sat d a b => some (.v, wd 0x81 c (bV3 (VReg.id d) a.id b.id ty.code rnd.code sat))
  | .unpack c ty d a i => some (.v, wd 0x82 c (bV3 (VReg.id d) a.id i.id ty.code 0 false))
  | .perm c d a b e => some (.v, wd 0x83 c (bV4 (VReg.id d) a.id b.id e.id false false false))
  | .bal c d p => some (.v, wd 0xC0 c (bV3 (SReg.id d) (Pred.id p) 0 0 0 false))
  | .vany c d p => some (.v, wd 0xC1 c (bV3 (Pred.id d) (Pred.id p) 0 0 0 false))
  | .vall c d p => some (.v, wd 0xC2 c (bV3 (Pred.id d) (Pred.id p) 0 0 0 false))
  | .rdfirst c w d a => some (.v, wd 0xC3 c (bV3 (SReg.id d) a.id 0 (if w then 2 else 0) 0 false))
  | .rdfirstChk c w d a p => some (.v, wd 0xC4 c (bV3 (SReg.id d) a.id (Pred.id p) (if w then 2 else 0) 0 false))
  | .rdlane c w d a i => some (.v, wd 0xC5 c (bV3 (SReg.id d) a.id i.id (if w then 2 else 0) 0 false))
  | .shfl c w d a b => some (.v, wd 0xC6 c (bV3 (VReg.id d) a.id b.id (if w then 2 else 0) 0 false))
  | .shflx c w d a b => some (.v, wd 0xC7 c (bV3 (VReg.id d) a.id b.id (if w then 2 else 0) 0 false))
  | .shflu c w d a b => some (.v, wd 0xC8 c (bV3 (VReg.id d) a.id b.id (if w then 2 else 0) 0 false))
  | .shfld c w d a b => some (.v, wd 0xC9 c (bV3 (VReg.id d) a.id b.id (if w then 2 else 0) 0 false))
  | .redx c op ty d a => some (.v, wd (0xCA + op.code) c (bV3 (SReg.id d) a.id 0 ty.code 0 false))
  | .scanx c ty d a => some (.v, wd 0xCF c (bV3 (VReg.id d) a.id 0 ty.code 0 false))
  | .lanes c d => some (.v, wd 0xD0 c (bV3 (VReg.id d) 0 0 0 0 false))
  | .elect c p => some (.v, wd 0xD1 c (bV3 (Pred.id p) 0 0 0 0 false))
  | .ld c sz ord sc d m => some (wdM (2 * sz.code) c (VReg.id d) m ord sc)
  | .ldNc c sz sc d m => some (wdM (0x10 + 2 * sz.code) c (VReg.id d) m .rlx sc)
  | .st c sz ord sc m a => some (wdM (0x20 + 2 * sz.code) c a.id m ord sc)
  | .ldl c sz k ord sc d x i => some (.m, wd ((if k then 0x38 else 0x30) + sz.code) c (bM (VReg.id d) x.id i ord sc))
  | .stl c sz k ord sc x i a => some (.m, wd ((if k then 0x48 else 0x40) + sz.code) c (bM a.id x.id i ord sc))
  | .ldp c sz d x i => some (.m, wd (0x50 + sz.code) c (bM (VReg.id d) x.id i .rlx .none))
  | .stp c sz x i a => some (.m, wd (0x58 + sz.code) c (bM a.id x.id i .rlx .none))
  | .lda c d x i => some (.m, wd 0x5E c (bM (VReg.id d) x.id i .rlx .none))
  | .sta c x i a => some (.m, wd 0x5F c (bM a.id x.id i .rlx .none))
  | .atom c k ord sc d m => some (wdM (0x80 + 2 * k.code) c (VReg.id d) m ord sc)
  | .red c k ord sc m a => some (wdM (0xC0 + 2 * k.code) c a.id m ord sc)
  | .atoml c k ord sc d x i => some (.m, wd k.localOpc c (bM (VReg.id d) x.id i ord sc))
  | .ptest c p x i => some (.m, wd 0x60 c (bM (Pred.id p) x.id i .rlx .none))
  | .fence c ord sc => some (.m, wd 0x61 c (bM 0 0 0 ord sc))
  | .efence c sc => some (.m, wd 0x62 c (bM 0 0 0 .rlx sc))
  | .cinv c x i b => some (.m, wd 0x63 c (bM b.id x.id i .rlx .none))
  | .cwb c x i b => some (.m, wd 0x64 c (bM b.id x.id i .rlx .none))
  | .waitc c cc uns ord sc x cmp t => some (.m, wd ((if uns then 0x7A else 0x76) + cc.code) c
      (FMX.pack { data := cmp.id, addr := x.id, base := t.id, u := 0, ord := ord.code, sc := sc.code }))
  | .mon c x i => some (.m, wd 0x65 c (bM 0 x.id i .rlx .none))
  | .mwait c ord sc t => some (.m, wd 0x66 c (bM t.id 0 0 ord sc))
  | .tktake c d x i => some (.m, wd 0x67 c (bM (VReg.id d) x.id i .rlx .none))
  | .tkwait c ord sc x i t => some (.m, wd 0x68 c (bM t.id x.id i ord sc))
  | .tkserve c ord sc x i => some (.m, wd 0x69 c (bM 0 x.id i ord sc))
  | .binit c i n => some (.m, wd 0x6A c (bM n.id i.id 0 .rlx .none))
  | .barr c sc i => some (.m, wd 0x6B c (bM 0 i.id 0 .rlx sc))
  | .bwait c sc i k => some (.m, wd 0x6C c (bM k.id i.id 0 .rlx sc))
  | .bsync c sc i => some (.m, wd 0x6D c (bM 0 i.id 0 .rlx sc))
  | .cbar c sc slot => some (.m, wd 0x6E c (bM 0 0 ((0 : BitVec 16) ++ slot) .rlx sc))
  | .cvjoin c slot x i n => some (.m, wd 0x70 c
      (FM.pack { data := n.id, addr := x.id, off := i, ord := 0, sc := (0 : BitVec 1) ++ slot }))
  | .cvld c d two => some (.m, wd 0x71 c (bM (VReg.id d) 0 (if two then 2 else 1) .rlx .none))
  | .cvleave c => some (.m, wd 0x72 c 0)
  | .stepn c => some (.m, wd 0x73 c 0)
  | .ldnb c d o t u => some (.m, wd 0x74 c
      (FMX.pack { data := VReg.id d, addr := o.id, base := t.id, u := u, ord := 0, sc := 0 }))
  | .mxownTake c => some (.e, wd 0x00 c (bE 0 ECtl.zero 0))
  | .mxownPass c s => some (.e, wd 0x00 c (bE (BitVec.ofFin s) ECtl.zero 1))
  | .mxownRelease c => some (.e, wd 0x00 c (bE 0 ECtl.zero 2))
  | .mxload c e s b => some (.e, wd 0x01 c (bE (BitVec.ofFin s) e ((0 : BitVec 21) ++ b)))
  | .mxevict c e b => some (.e, wd 0x02 c (bE 0 e ((0 : BitVec 21) ++ b)))
  | .mxres c e s => some (.e, wd 0x03 c (bE (BitVec.ofFin s) e 0))
  | .mma c e s => some (.e, wd 0x04 c (bE (BitVec.ofFin s) e 0))
  | .mmal c e s => some (.e, wd 0x05 c (bE (BitVec.ofFin s) e 0))
  | .mxgrad c e s => some (.e, wd 0x06 c (bE (BitVec.ofFin s) e 0))
  | .mxzero c e first cnt => some (.e, wd 0x07 c (bE 0 e (cnt ++ first)))
  | .cpy c e s k => some (.e, wd 0x10 c (bE (BitVec.ofFin s) e ((0 : BitVec 18) ++ k)))
  | .cpyo c e s => some (.e, wd 0x11 c (bE (BitVec.ofFin s) e 0))
  | .binsc c e s => some (.e, wd 0x12 c (bE (BitVec.ofFin s) e 0))
  | .npost c e s node n => some (.e, wd 0x20 c (bE (BitVec.ofFin s) e ((0 : BitVec 6) ++ n ++ node)))
  | .ltrig c e => some (.e, wd 0x21 c (bE 0 e 0))
  | .lwait c s => some (.e, wd 0x22 c (bE (BitVec.ofFin s) ECtl.zero 0))
  | .coll c e s => some (.e, wd 0x30 c (bE (BitVec.ofFin s) e 0))
  | .cstat c e s d => some (.e, wd 0x31 c (bE (BitVec.ofFin s) e ((0 : BitVec 8) ++ d)))
  | .clauseIssue _ _ => none
  | .mxownGrant _ => none
  | .bankEmptying _ => none
  | .mxloadExec _ => none
  | .mxevictExec _ => none
  | .mxresExec _ => none
  | .mmaExec _ => none
  | .mmalExec _ => none
  | .mxgradExec _ => none
  | .mxzeroExec _ => none
  | .cpyExec _ _ => none
  | .cpyoExec _ _ => none
  | .binscExec _ _ => none
  | .npostExec _ _ => none
  | .ltrigExec _ _ => none
  | .cstatExec _ _ => none
  | .operationComplete _ _ => none
  | .asyncCauseDelivery _ _ => none
  | .reformBinDue _ _ => none
  | .sleepWake _ _ => none
  | .monitorWake _ _ => none
  | .monitorFallback _ _ => none
  | .waitTimeout _ _ => none
  | .tkwaitGrant _ _ => none
  | .ticketBoost _ _ => none
  | .boostExpire _ _ => none
  | .releaseWave _ => none
  | .stepnRelease _ => none
  | .slotWriteRelease _ => none
  | .convoyDetach _ _ => none
  | .ftimerFire _ _ => none
  | .blockDormant _ => none
  | .blockRevive _ => none
  | .blockRetire _ => none
  | .launchCompletion _ => none
  | .nodeWake _ _ => none
  | .gangFlush _ _ => none
  | .blockPlace _ => none
  | .launchHold _ => none
  | .drainStart _ => none
  | .contextResume _ => none
  | .drainDeadline _ => none
  | .nodeUnfreeze _ _ => none
  | .ctxdEnable _ _ => none
  | .ctxdDisable _ _ => none
  | .ctxdRst _ => none
  | .xinv _ => none
  | .pageFaultResponse _ _ _ => none
  | .homeRead _ _ => none
  | .homeWrite _ _ => none
  | .homeAtomic _ _ => none
  | .mergeReply _ => none
  | .fillReply _ _ => none
  | .l1LineAgeOut _ _ => none
  | .dramScrub _ => none
  | .remoteRequest _ _ _ => none
  | .remoteReply _ _ => none
  | .remoteTimeout _ => none
  | .remoteTagExpire _ _ => none
  | .linkFail _ => none
  | .portRetrain _ => none
  | .linkTrained _ _ _ _ => none
  | .linkTableFlood _ _ _ => none
  | .domainFormed => none
  | .domctlWrite _ => none
  | .collStart _ _ _ => none
  | .collChunk _ _ _ _ _ => none
  | .collRecompute _ _ _ => none
  | .genHoldExpiry _ _ => none
  | .auditCopyComplete _ => none
  | .hostDmaAccess _ _ => none
  | .hostLinkTimeout _ => none
  | .registerWrite _ _ => none
  | .sratioWrite _ _ => none
  | .powerThrottle _ => none
  | .attestRequest => none
  | .snapshotGo _ => none
  | .snapshotTimer => none
  | .snapinEdge => none
  | .snapshotWritten => none
  | .deviceReset => none
  | .bootStage0 _ _ => none
  | .bootStage1 _ _ => none
  | .bootStage2 _ _ => none
  | .bootStage3 => none
  | .dieLinkLoss _ => none
  | .dramRecalibration _ _ => none
  | .ptpSync _ _ _ => none
  | .hostLinkLeavesL0 => none
  | .hostLinkReturnsL0 => none
  | .linkWidthRetrain _ _ => none
  | .grandmasterLoss => none

/-! ## The table's words -/

/-- The instruction that the decoder reads from a clause header in bits 63..0 and an instruction word in bits
127..64: the class of the word is the one the header gives it (R58). A table word shorter than the two has zeros above
its bits; `nbits` bounds what is read. -/
def decodeTableWord (nbits w : Nat) : Option Instr :=
  let x : BitVec 128 := BitVec.ofNat 128 (w % 2 ^ nbits)
  match Header.decode (x.extractLsb' 0 64) with
  | none => none
  | some h => decodeInstr (h.classOf 1) (x.extractLsb' 64 64)

end Sys2Proof
end

