-- ==== Sys2Proof/Machine/State.lean ====
section
/-! DEFINITION. The state of the device: every piece of state the spec names, as plain data, and the state right after
reset. Sparse maps list only what differs from the value an unlisted key reads as. -/

namespace Sys2Proof.Machine

/-! ## Threads and fronds -/

/-- A cause of R366 by its bit number, with what EADDR and EINFO receive. -/
structure Cause where
  bit   : Nat
  addr  : Dword
  info  : Dword
  deriving DecidableEq, Repr

/-- What a result names: a vector register, a predicate, a uniform register. -/
inductive Reg where
  | v (n : Nat) | p (n : Nat) | s (n : Nat)
  deriving DecidableEq, Repr

/-- When a result lands (R68, R69): at a slice cycle, for a fixed latency; with a reply from a home slice; for any other
token-tracked word, once global time has passed the instant of its issue. -/
inductive Due where
  | cyc (n : Nat) | reply | land (tok : Nat) (time : Nat)
  deriving DecidableEq, Repr
/-- A result not yet there (R69); `old` is the value before the write. -/
structure Pend where
  reg : Reg
  due : Due
  old : Dword
  bad : Bool
  deriving DecidableEq, Repr

/-- What a waiting thread waits for (R25). Physical addresses are those its check translated to. -/
inductive WaitKind where
  | bjoin
  | sleep (due : Nat)
  | watch (va : Dword) (pa : Nat) (cc : Cc) (uns : Bool) (cmp : Word) (ord : Ord)
  | mwait (ord : Ord)
  | ticket (va : Dword) (pa : Nat) (ticket : Word) (ord : Ord)
  | barr (i phase : Nat)
  | phase (i : Nat) (k : BitVec 16)
  | cbar (slot : Nat)
  | lwait (va : Dword) (pa : Nat)
  | stepn
  deriving DecidableEq, Repr

/-- A wait: the clause and word that began it, its deadline and its next re-evaluation instant in GTIME (0 for none),
the instant of its release wave once it is satisfied and the line whose write satisfied it (R400), and whether a ticket in host memory
has been found served, so that its Swap comes next (R184). -/
structure WaitRec where
  kind     : WaitKind
  clause   : Dword
  pos      : Nat
  deadline : Nat
  poll     : Nat
  scope    : Scope
  wave     : Option Nat
  line     : Nat
  got      : Bool
  deriving DecidableEq, Repr

/-- Why a thread is parked (R25): a page of its context, met by an access or a fetch; a scratchpad line of its block, with
the offset of its access; its word, which `cvld`'s hold rule or an engine word's acceptance keeps at issue. -/
inductive Park where
  | page (page : Nat) (va : Dword) (fetch : Bool)
  | line (n off : Nat)
  | issue
  deriving DecidableEq, Repr

/-- The five states of R25. -/
inductive Status where
  | eligible | waiting (w : WaitRec) | parked (p : Park) | filed (bin : Nat) | exited
  deriving DecidableEq, Repr

/-- A thread (R25, R33, R366, R367). Vector registers not listed read 0; `vbad` and `pbad` mark poison (R386);
`cvline` is the line that a parked `cvld` reads when it is replayed (R384). `dues` are the words whose token counts down
without a reply: the token and the instant of issue of each (R67). -/
structure Thread where
  pc      : Dword
  rslot   : Nat
  last    : Bool
  status  : Status
  slot    : Nat
  lane    : Nat
  v       : Map Word
  vbad    : List Nat
  p       : BitVec 16
  pbad    : BitVec 16
  tok     : Map Nat
  depth   : Nat
  fctl    : Dword
  fpflags : Dword
  cause   : Dword
  epc     : Dword
  eslot   : Dword
  tvec    : Dword
  eaddr   : Dword
  einfo   : Dword
  handler : Bool
  async   : List Cause
  pend    : List Pend
  dues    : List (Nat × Nat)
  cvline  : Option Dword
  deriving DecidableEq, Repr

/-- A group of threads that issue together: a sub-frond, or the frond's own threads, with the repeat count of R37. -/
structure Group where
  tids : List Nat
  rep  : Nat
  prev : List Nat
  skip : List Nat
  deriving DecidableEq, Repr

/-- A clause in flight (R36): its issue set in ascending lane, its header, and the word that issues next. -/
structure Run where
  tids   : List Nat
  clause : Dword
  hdr    : Header
  pos    : Nat
  deriving DecidableEq, Repr

/-- The engine operations (R79). -/
inductive OpKind where
  | mxload (bank : Nat) | mxevict (bank : Nat) | mxres | mma | mmal | mxgrad | mxzero (first count : Nat)
  | cpy (slice : Nat) | cpyo | binsc | npost (node count : Nat) | ltrig | coll | cstat (domain : Nat)
  deriving DecidableEq, Repr

/-- What an accepted engine word starts (R198): the parameters kept, the accumulator rows named, the ranges locked, the
scratchpad lines that lose presence, the status fields it initialises, whether it needs the matrix array. -/
structure Plan where
  kind   : OpKind
  words  : List Word
  rows   : Nat × Nat
  ranges : List (Nat × Nat × Bool)
  lines  : List Nat
  init   : List (Nat × List Byte)
  owned  : Bool
  deriving DecidableEq, Repr

/-- What the engine slice has captured of an engine word that waits for its acceptance (R198): the parameter block's
offset or address, and what the accepted word starts. -/
structure EHold where
  parm : Dword
  plan : Plan
  deriving DecidableEq, Repr

/-- What a read for an engine has brought of one range within a line (R204). -/
structure Got where
  va   : Dword
  data : List Byte
  bad  : Bool
  deriving DecidableEq, Repr

/-- What an early read has taken of a register (R69): the thread, 1024 for the frond's own registers; the value and its poison. -/
structure Took where
  tid : Nat
  reg : Reg
  val : Dword
  bad : Bool
  deriving DecidableEq, Repr

/-- A frond slot of a block (R29, R30, R370). `turn` is the group whose turn is next: 0 the frond's own threads, then the
sub-fronds in order. `issued` and `since` say, for each slice in its own cycles, when a clause of the frond last issued
on it and since when the frond has been ready for it (R38). `held` marks a write to a step slot that waits at issue
(R347); `eblk` is the parameter block that a `coll` has asked for and what has come of it, no bytes for a load that
ended with the code in `va` (R198); `fetch` is since when a fetch waits for the host link (R393). `took` is what the early reads
of a word that waits for the other values have taken (R69). -/
structure Frond where
  s      : Map Dword
  sbad   : List Nat
  own    : Group
  subs   : List Group
  turn   : Nat
  run    : Option Run
  cyc    : Nat
  issued : Map Nat
  since  : Map Nat
  ftimer : Dword
  scyc   : Dword
  pend   : List Pend
  held   : Bool
  ehold  : Option EHold
  eblk   : Option (Option Got)
  fetch  : Option Nat
  took   : List Took
  deriving DecidableEq, Repr

/-! ## Blocks -/

/-- A named barrier (R185). `ops` are the engine operations that a `bsync` phase waits for (R187). -/
structure Barrier where
  c   : Nat
  a   : Nat
  p   : BitVec 16
  ops : List Nat
  deriving DecidableEq, Repr

/-- The fields of a code-object header that a block keeps (R54). -/
structure CodeHdr where
  features : Nat
  entry    : Nat
  trap     : Nat
  regs     : Nat
  scratch  : Nat
  priv     : Nat
  accum    : Nat
  bx       : Nat
  byy      : Nat
  bz       : Nat
  pslot    : Nat
  pskew    : Nat
  cohn     : Nat
  codesz   : Nat
  datasz   : Nat
  ctoff    : Nat
  ctn      : Nat
  deriving DecidableEq, Repr

/-- Where a block stands (R34, R50, R331): resident on a core, dormant with its save and whether its event has occurred,
retired: awaiting its completion flush, then counted while its launch's
completion actions go on. -/
inductive Place where
  | resident (core : Nat) | dormant (base size : Nat) (pages : List Nat) (woken : Bool) | retired (core : Nat) (counted : Bool)
  deriving DecidableEq, Repr

/-- A block's cohort slot (R48). -/
structure CohSlot where
  id  : Nat
  idx : Nat
  deriving DecidableEq, Repr

/-- A word that a thread wrote and that an engine operation may still read as it was (R306, R307): its index, what it held
and its poison, the thread, the place of the write in issue order; the threads after which it happened (R274), the places where a
release has published it, the frond slots whose later operations an `efence` has put after it, whether an operation of the matrix
stream has been put after it (R273). -/
structure Late where
  word : Nat
  old  : Word
  bad  : Bool
  tid  : Nat
  seq  : Nat
  known : List Nat
  pubAt : List Nat
  fenced : List Nat
  stream : Bool
  deriving DecidableEq, Repr

/-- A release in the scratchpad that waits for what it orders (R157): its place in issue order, its thread, its token, its acquire and
the scope of the release, the bytes it writes; for an atomic its operation, its operands and its destination. -/
structure LocalRel where
  seq   : Nat
  tid   : Nat
  tok   : Option Nat
  acq   : Scope
  rel   : Scope
  addrs : List Nat
  bytes : List Byte
  bad   : Bool
  rmw   : Option (AOp × Dword × Dword × Nat)
  deriving DecidableEq, Repr

/-- A block (R33). `published` says that the running `stepn` has published its step (R195); `tickets` are the ticket words
of which one of its threads is the holder, each with the HOLDER written, `home` the core of its last placement (R183),
`fin` counts the steps of its completion (R331). `saveFailed` says that a failed save has been recorded, `saveTried` that one has failed
since R49 last began to hold (R341). `stas` are accumulator values that no edge orders before later
operations (R307), `late` are scratchpad words written since an operation was accepted that still runs (R306), `rels` the releases in the
scratchpad that have still to perform (R157). -/
structure Block where
  ctx     : Nat
  launch  : Nat
  idx     : Nat
  place   : Place
  obase   : Dword
  hdr     : CodeHdr
  arg     : Dword
  tile    : Word × Word × Word
  nblk    : Word
  prio    : Nat
  gang    : Nat
  pbase   : Dword
  threads : Map Thread
  fronds  : Map Frond
  scr     : Map Byte
  scrBad  : List Nat
  absent  : List Nat
  acc     : Map Word
  accBad  : List Nat
  bars    : Map Barrier
  skwbase : Dword
  skwrows : Dword
  paced   : Bool
  step    : Word
  published : Bool
  coh     : List CohSlot
  convoy  : Option Nat
  trigged : Bool
  boosts  : List (Nat × Nat × Nat)
  tickets : List (Nat × Nat)
  home    : Nat
  lastWait : Nat
  saveFailed : Bool
  saveTried : Bool
  fin     : Nat
  stas    : List Late
  late    : List Late
  rels    : List LocalRel
  deriving DecidableEq, Repr

/-! ## Cores -/

/-- An L1 line (R247): 64 bytes, the fill instant, and for a private line its block, its line of the virtual address space and
whether it is dirty. -/
structure L1Line where
  data  : List Byte
  bad   : Bool
  time    : Nat
  priv  : Option Nat
  vline : Nat
  dirty : Bool
  deriving DecidableEq, Repr

/-- Where a loaded value goes: a v-register of a thread, an s-register of a frond, an engine operation that reads, the
evaluation of a thread's watched word, the parameter block of a `coll` in a frond's issue set. -/
inductive Dst where
  | v (n : Nat) | s (slot n : Nat) | op (id len : Nat) | eval | block (slot : Nat)
  deriving DecidableEq, Repr

/-- A read that waits for a line's reply (R251): who reads, which bytes, where they go, its token, its acquire, its
virtual address. -/
structure Join where
  bid  : Nat
  tid  : Nat
  tids : List Nat
  va   : Dword
  dst  : Dst
  sz   : Sz
  off  : Nat
  tok  : Nat
  acq  : Scope
  seq  : Nat
  deriving DecidableEq, Repr

/-- A store of the core to a line whose fill is on its way: its place in issue order, offset, bytes, poison (R248). -/
structure Over where
  seq   : Nat
  off   : Nat
  bytes : List Byte
  bad   : Bool
  deriving DecidableEq, Repr

/-- What a home slice answers a read with: the line, its poison, the instant of the read's place in the order (R242). -/
structure LineRep where
  data : List Byte
  bad  : Bool
  time   : Nat
  deriving DecidableEq, Repr

/-- An entry of the fill tracker (R251): `install` is cleared by an invalidation since the entry was sent, `nc` is set
while only uncached reads have joined. -/
structure Fill where
  line    : Nat
  install : Bool
  nc      : Bool
  joins   : List Join
  laid    : List Over
  reply   : Option LineRep
  seq     : Nat
  deriving DecidableEq, Repr

/-- On whose behalf a request is made: threads, whose token it carries; a waiting thread's watched word (R175); an engine
operation; a launch's signal store (R331). -/
inductive Asker where
  | thread | eval | engine (id : Nat) | launch (l : Nat)
  deriving DecidableEq, Repr

/-- What a core has sent to a home slice and is not yet accepted (R241). A read stands for its tracker entry. `serve` on host
memory has cleared HOLDER once `half` is set (R184). -/
inductive ReqKind where
  | read
  | write (off : Nat) (bytes : List Byte) (bad : Bool)
  | atomic (off : Nat) (k : AOp) (a b : Dword) (bad : Bool) (dst : Option Nat)
  | take (off : Nat) (dst : Nat)
  | serve (off : Nat) (half : Bool)
  deriving DecidableEq, Repr

/-- A request in issue order. `tids` are the threads whose token it carries; `va` is its virtual address, `time` the
instant it was sent; `rel` is the scope of a release, none once or where nothing keeps it from performing (R157). -/
structure Req where
  seq  : Nat
  time : Nat
  va   : Dword
  line : Nat
  bid  : Nat
  tid  : Nat
  tids : List Nat
  tok  : Option Nat
  acq  : Scope
  rel  : Scope
  who  : Asker
  kind : ReqKind
  deriving DecidableEq, Repr

/-- An accepted engine operation (R198, R202): its word's fields, the captured parameter block, the accumulator rows
and scratchpad lines it names, its next row, the stage it has reached in it and the number it keeps from one stage to the
next, what it has read and not yet used, how its execution has ended; `link` is the access that waits for the host
link and since when (R393); `stale` are accumulator values that it may read as they were (R307). -/
structure Op where
  id     : Nat
  kind   : OpKind
  opc    : Nat
  bid    : Nat
  tid    : Nat
  tids   : List Nat
  slot   : Nat
  tok    : Option Nat
  ctl    : ECtl
  parm   : Dword
  words  : List Word
  seq    : Nat
  rows   : Nat × Nat
  lines  : List Nat
  next   : Nat
  stage  : Nat
  keep   : Nat
  inbox  : List Got
  begun  : Bool
  done   : Bool
  cause  : Option Cause
  waits  : Option Nat
  denied : List Nat
  link   : Option (Nat × Dword)
  frozen : Bool
  stale  : List Late
  deriving DecidableEq, Repr

/-- A range of the range-lock table (R206). -/
structure Lock where
  op   : Nat
  ctx  : Nat
  lo   : Nat
  hi   : Nat
  dest : Bool
  deriving DecidableEq, Repr

/-- A reform bin (R42): its key, the s-registers of its first thread's frond when that was filed, its threads. -/
structure Bin where
  bid     : Nat
  pc      : Dword
  filedAt : Nat
  full    : Bool
  tids    : List Nat
  s       : Map Dword
  sbad    : List Nat
  deriving DecidableEq, Repr

/-- A weight bank (R209): STATE, CLASS, ZP, PAIR, TILEID, its scale and its tile's 8,192 elements (none in
the odd bank of a BF16 pair), and whether its tile was poisoned. -/
structure Bank where
  st    : Nat
  cls   : Nat
  zp    : Nat
  pair  : Bool
  tile  : Word
  scale : Word
  elems : List Nat
  bad   : Bool
  deriving DecidableEq, Repr

/-- A cached leaf translation (R379): context, 64 KiB page, the leaf entry and the bits below its page. -/
structure Tlb where
  ctx  : Nat
  page : Nat
  pa   : Nat
  pte  : Dword
  deriving DecidableEq, Repr

/-- A core. `ratios` are the slice ratios in force where they are not yet those of SRATIO, which was written last at `ratioAt`
(R399). -/
structure Core where
  l1     : Map L1Line
  fills  : List Fill
  reqs   : List Req
  queue  : List Op
  locks  : List Lock
  banks  : Map Bank
  owner  : Option Nat
  prev   : Option Nat
  takes  : List (Nat × Nat)
  bins   : Map Bin
  tlb    : List Tlb
  sratio : Dword
  ratios : Map Nat
  ratioAt : Nat
  refage : Dword
  cycAt  : Nat
  coreCyc : Nat
  sliceCyc : Map Nat
  deriving DecidableEq, Repr

/-! ## Launches, nodes and contexts -/

/-- A task record (R318). -/
structure TaskRec where
  code   : Dword
  arg    : Dword
  tile   : Word × Word × Word
  count  : Nat
  succ   : Dword
  siga   : Dword
  sigv   : Dword
  flags  : Word
  cohoff : Nat
  deriving DecidableEq, Repr

/-- A convoy member (R260): its stream, position, bits, the instant of its last advance, and the `cvld` words held of it: each one's
frond slot, since when, of how many lines (R193). -/
structure Member where
  base : Dword
  count : Nat
  pos  : Nat
  active : Bool
  detached : Bool
  adv  : Nat
  parked : List (Nat × Nat × Nat)
  deriving DecidableEq, Repr

/-- A cohort of a launch (R46), with its convoy state and its barrier arrivals (R190). -/
structure Cohort where
  members : List Nat
  convoy  : Bool
  slip    : Nat
  rel     : Nat
  arrived : List Nat
  conv    : Map Member
  deriving DecidableEq, Repr

/-- A launch (R326 to R335): its records (several for a gang), its blocks by linear index, those counted after their
flush, the next of its completion actions. `ready` is the instant it began to wait for room; `copyOf` marks an audit copy
(R389). A record that a node consumes in skip state is a launch of no block (R323). -/
structure Launch where
  ctx     : Nat
  node    : Nat
  recAddr : Dword
  recs    : List TaskRec
  rawRecs : List (List Byte)
  hdr     : CodeHdr
  count   : Nat
  next    : Nat
  retired : List Nat
  killed  : List Nat
  counted : Nat
  cohorts : List Cohort
  seen    : Nat
  ready   : Nat
  hold    : Bool
  acts    : Option Nat
  copyOf  : Option Nat
  copyBad : Bool
  places  : Map Nat
  linkSince : Option Nat
  deriving DecidableEq, Repr

/-- An audit in progress (R389): the sampled launch, the copy, the first CRC and the descriptor. -/
structure Audit where
  orig : Nat
  copy : Nat
  crc  : Dword
  outs : List (Dword × Dword)
  shadow : Dword
  deriving DecidableEq, Repr

/-- A page fault outstanding (R380): its 64 KiB page, its record when written, what it merges. -/
structure PageFault where
  page : Nat
  va   : Dword
  time : Nat
  recNo : Option Nat
  info : Nat
  n    : Nat
  source : Word
  obj  : Dword
  blk  : Word
  node : Nat
  deriving DecidableEq, Repr

/-- A node of a context as the sequencer holds it (R320 to R326). `wait` says that its entry or line awaits a page. -/
structure Node where
  ok    : Bool
  wait  : Bool
  qbase : Dword
  htl   : Dword
  pred  : Dword
  size  : Nat
  prio  : Nat
  gang  : Nat
  flush : Nat
  st    : Nat
  head  : Word
  tail  : Word
  gate  : Word
  seen  : List (Nat × Nat)
  deriving DecidableEq, Repr

/-- What a join cell has still to do (R333, R334): the launch whose decrement fired it, 0 for an early start; its target node, the
record to publish (no bytes for none, or once it is published), its first slot's number once slots are reserved, whether GATE
follows. -/
structure Post where
  cell  : Dword
  owner : Nat
  node  : Nat
  raw   : List Byte
  first : Option Nat
  gate  : Bool
  deriving DecidableEq, Repr

/-- A context (R313 to R317). `waits` are pages that an access of the sequencer, the hub or another device waits for, each with its
agent's number, `denied` those it was refused; `early` are the
join cells whose record was posted early, `asked` those whose early record awaits a page, `posts` the posts of cells that
have begun (R333, R334), `logs` the records that wait for the host link (R381, R393). -/
structure Ctx where
  en      : Bool
  desc    : Nat
  st      : Nat
  disabling : Bool
  deadline : Option Nat
  ptroot  : Dword
  nodesAt : Dword
  nnode   : Nat
  msix    : Nat
  dorm    : Dword
  dormsz  : Dword
  privb   : Dword
  privsz  : Dword
  flog    : Dword
  log2n   : Nat
  nodes   : Map Node
  regions : Map (Nat × Nat)
  faults  : List PageFault
  waits   : List (Nat × Nat)
  denied  : List (Nat × Nat)
  early   : List Nat
  asked   : List Nat
  posts   : List Post
  logs    : List (List Byte)
  deriving DecidableEq, Repr

/-! ## Home slices, fabric and system -/

/-- A read of a remote device that has joined a merge entry (R245): its device and tag, the offset and length of what it
reads. -/
structure OtherJoin where
  src : Nat
  tag : Nat
  off : Nat
  n   : Nat
  deriving DecidableEq, Repr

/-- A merge entry (R242): the line's reply, as of its point of the order, the joined fills by core and place in its issue
order, the other requesters that have joined, whether it is open. -/
structure Merge where
  line  : Nat
  rep   : LineRep
  joins : List (Nat × Nat)
  others : List OtherJoin
  opened : Bool
  deriving DecidableEq, Repr

/-- An atomic that a home slice has accepted, whose result its atomic unit has still to send: its core, the request, the
value and its poison. -/
structure AtomOut where
  core : Nat
  req  : Req
  val  : Dword
  bad  : Bool
  deriving DecidableEq, Repr
/-- A line that a home slice's atomic unit holds, with the atomics that are queued in it (R244). -/
structure AtomLine where
  line : Nat
  queue : List AtomOut
  deriving DecidableEq, Repr

/-- A thread's monitor (R176, R246): its line (of the target's home slice, or the remote window's), its place in issue order,
`armed` false for one that re-evaluates every 1 µs, `hit` once a write has signalled it, `due` the instant of the release wave
that the write gave it (R178). -/
structure Mon where
  bid   : Nat
  tid   : Nat
  va    : Dword
  line  : Nat
  seq   : Nat
  time    : Nat
  armed : Bool
  hit   : Bool
  due   : Nat
  deriving DecidableEq, Repr

/-- A waiter of another device at a home slice (R183, R246, R253): its device, the tag under which it armed a monitor here or the
HOLDER that its `tkwait` would write, the line, the instant of arming, whether a write has signalled it; for a ticket the word and
its block's PRIO. -/
structure FarMon where
  src  : Nat
  tag  : Nat
  line : Nat
  time : Nat
  hit  : Bool
  ticket : Option (Nat × Nat)
  deriving DecidableEq, Repr

/-- A remote request of this device (R351): the reads that its reply serves; the links it goes over, none while no path
leads to its target or when that is this device; how often it has been sent; whether its target has accepted it. -/
structure RemoteReq where
  tag   : Nat
  dev   : Nat
  off   : Nat
  sent  : Nat
  path  : Option (List Link)
  sends : Nat
  accepted : Bool
  core  : Nat
  req   : Req
  joins : List Join
  deriving DecidableEq, Repr

/-- A kept reply (R351). -/
structure KeptTag where
  src  : Nat
  tag  : Nat
  rep  : RemoteRep
  time   : Nat
  deriving DecidableEq, Repr

/-- A fabric port (R353, R354). -/
structure Port where
  st    : Nat
  width : Nat
  ndev  : Nat
  nport : Nat
  fails : Nat
  time    : Nat
  deriving DecidableEq, Repr

/-- A packet that this device has sent with a chunk's elements (R359, R364): its destination, its operation's DOMAIN and GEN,
its map's epoch, its send time, up or down the tree, the elements. -/
structure SentPkt where
  dst   : Nat
  dom   : Nat
  gen   : Nat
  epoch : Nat
  time    : Nat
  chunk : Nat
  up    : Bool
  bytes : List Byte
  deriving DecidableEq, Repr

/-- A link table that this device has sent over a live link (R356, R364): the port, the device it describes, its version, its send
time, the links. -/
structure Flood where
  port    : Nat
  dev     : Nat
  version : Nat
  time    : Nat
  links   : List Link
  deriving DecidableEq, Repr

/-- A tree of R357: its root and each other device with its parent. -/
structure Tree where
  root : Nat
  par  : List (Nat × Nat)
  deriving DecidableEq, Repr
/-- A packet that a port has let in for a run (R359, R364): its chunk, whether it comes up the tree. -/
structure GotPkt where
  chunk : Nat
  up    : Bool
  pkt   : Packet
  deriving DecidableEq, Repr

/-- A collective operation that the engine holds (R361, R363): the devices of its start map, whether its fields have been
found equal, whether it has started, the end of its hold for a retired GEN, RECOMP, the chunks still to run, whether a
failure has paused it; its domain, the chunks that every other device had marked when they were last compared (R361, R362), those
that this device has marked, those whose part it has sent up its tree, and the final status word that it has still to write. `since` is
the first epoch whose packets it takes, `got` the packets it has taken, `along` the tree of each chunk that it has started (R358). -/
structure CollRun where
  core  : Nat
  op    : Nat
  dom   : Nat
  gen   : Nat
  devs  : List Nat
  equal : Bool
  started : Bool
  holdTo : Nat
  recomp : Nat
  todo   : List Nat
  marked : List Nat
  own   : List Nat
  sentUp : List Nat
  paused : Bool
  final  : Option Nat
  since  : Nat
  got    : List GotPkt
  along  : List (Nat × Tree)
  deriving DecidableEq, Repr

/-- The fabric block and the collective engine (R350 to R365). `version` is that of this device's own link table, `mine` the versions of
it that it has flooded; `floods` are the tables that it last sent over each port, `sent` the packets that it has sent and no port would
discard yet; `arrived` are the requests that wait at this device's window, each with EXPCTL as it arrived (R350). -/
structure Fabric where
  ports   : Map Port
  domctl  : Dword
  expctl  : Dword
  version : Nat
  mine    : List (Nat × List Link)
  tables  : Map (Nat × List Link)
  floods  : List Flood
  devs    : List Nat
  links   : List Link
  trees   : List Tree
  epoch   : Nat
  changed : Nat
  forming : Bool
  dstate  : Nat
  parted  : Bool
  recomps : Nat
  fails   : Nat
  gen     : Nat
  runs    : List CollRun
  retired : List (Nat × Nat)
  sent    : List SentPkt
  remote  : List RemoteReq
  arrived : List (Nat × Nat × Dword)
  kept    : List KeptTag
  deriving DecidableEq, Repr

/-- A latched snapshot (R401): its bytes, the frozen masters that it captures, 0 for the host's DMA channels, and the halted
management cores. -/
structure Snap where
  bytes  : List Byte
  frozen : List Nat
  mgmt   : List Nat
  deriving DecidableEq, Repr

/-- A record of the device error log (R402): its code, location and detail, the instant. -/
structure ErrRec where
  code   : Nat
  loc    : Option Nat
  detail : Option Nat
  time   : Nat
  deriving DecidableEq, Repr

/-- Registers of the identity, sequencer, audit, timer, power, snapshot and error-log blocks (R314, R379, R389 to
R402), and the state of boot and of the host link. `haltedMgmt` are the management cores that an illegal access halted (R390), by what
they write: 0, 2 and 3 snapshots, 1 the error log; `errs` the records that wait for the latter; `nearAt` is since when every measured offset to the
grandmaster has been within 20 ns (R398). -/
structure Sys where
  stage   : Nat
  err     : Nat
  halted  : Bool
  retryAt : Nat
  stopped : Bool
  m0      : List Byte
  m2      : List Byte
  devid   : Nat
  hwbase  : Nat
  nonce   : List Byte
  attest  : Bool
  report  : List Byte
  hostL0  : Bool
  hostAt  : Nat
  tcap    : Dword
  draint  : Dword
  xinv    : Dword
  audctl  : Dword
  audits  : List Audit
  audited : Nat
  tstat   : Dword
  didt    : Dword
  dormt   : Dword
  pwrlim  : Dword
  mhz     : Map Nat
  snapctl  : Dword
  snaptime : Dword
  snapbuf  : Dword
  snapseq  : Nat
  snapmiss : Nat
  snap    : List Snap
  snapat  : Nat
  ehead   : Word
  etail   : Word
  errbase : Dword
  edrop   : Word
  corrStack : Map Nat
  corrCore : Map Nat
  frozenDma : Bool
  haltedMgmt : List Nat
  errs    : List ErrRec
  nearAt  : Option Nat
  msix    : List Nat
  deriving DecidableEq, Repr

/-! ## The order of the steps -/

/-- A word of a core's memories (R265): of the scratchpad or accumulator store, a v-, predicate or s-register of a block; of
an L1 line; of a weight bank; of the clause cache. -/
inductive SramWord where
  | scratch (bid word : Nat) | acc (bid value : Nat) | vreg (bid tid n : Nat) | preg (bid tid n : Nat) | sreg (bid slot n : Nat)
  | l1 (line : Nat) | bank (n : Nat) | clause
  deriving DecidableEq, Repr

/-- What happens that is no row of the opcode table: the host's own stores to its memory; errors of the memory cells (R262,
R265), of which a core corrects its own when `fixed`; replacement in a core's L1 and among its cached translations, whose
choice the spec leaves open (R247, R249, R250, R379); what other devices send: the acceptance of a request of this device
(R202), the signal of a monitor that it armed elsewhere (R246), a boost for the holder of a ticket word (R183), the end of a
monitor that was armed here; a request of this device sent again (R351); a release in the scratchpad performs (R157). -/
inductive Input where
  | hostStore (pa : Nat) (bytes : List Byte)
  | symbols (line count : Nat)
  | sram (core : Nat) (word : SramWord) (fixed : Bool)
  | replaceLine (core line : Nat)
  | replaceTlb (core ctx page : Nat)
  | farAccepted (tag : Nat)
  | farSignal (bid tid : Nat)
  | farBoost (slot core prio : Nat)
  | farDisarm (src tag : Nat)
  | resend (tag : Nat)
  | localRelease (bid seq : Nat)
  deriving DecidableEq, Repr

/-- The agent that moves: a frond's slice, an agent named by an event row, the outside. -/
inductive Move where
  | run (core slot : Nat)
  | event (i : Instr)
  | input (x : Input)
  deriving DecidableEq, Repr

/-- A turn: `dt` ns of global time pass, `gap` further slice cycles pass for the frond that runs, then the move. -/
structure Turn where
  dt   : Nat
  gap  : Nat
  move : Move
  deriving DecidableEq, Repr

/-- A boost that this device has sent to another device for the holder that HOLDER names there (R183). -/
structure Boost where
  holder : Word
  prio   : Nat
  time     : Nat
  deriving DecidableEq, Repr

/-- The machine. `queued` are the reads that wait at a home slice, oldest first (R245): its slice, its core (1,024 + the device
for another device's), the read's place in issue order or its tag. -/
structure State where
  part   : Config.Part
  gtime  : Nat
  mem    : List Host.Cell
  memBad : List Nat
  memErr : Map Nat
  merges : List Merge
  queued : List (Nat × Nat × Nat)
  atoms  : List AtomLine
  mons   : List Mon
  far    : List FarMon
  boosts : List Boost
  cores  : Map Core
  blocks : Map Block
  launches : Map Launch
  ctxs   : Map Ctx
  fab    : Fabric
  sys    : Sys
  agenda : List Turn
  focus  : Option (Nat × Nat)
  free   : Nat
  seq    : Nat
  deriving DecidableEq, Repr

/-- The ways the machine stops with a fault. -/
inductive Fault where
  /-- Raised by `step` at any turn after a die-to-die edge was lost until a device reset: the edge's loss stops the
  device (R397). Safe: the spec gives the device no further behaviour. -/
  | deviceStopped
  deriving DecidableEq, Repr

/-- The ways a step has no meaning. -/
inductive Refusal where
  /-- Raised by an arm of `exec` for a mnemonic not modelled yet. Safe: no claim about it can be proved. -/
  | notModelled (mnemonic : String)
  /-- Raised by an instruction word that no clause in flight presents: a word executes only for the issue set of its
  frond (R36), and `step` never presents one otherwise. Safe: the spec gives a word without an issue set no meaning. -/
  | noIssue
  deriving DecidableEq, Repr

/-- The outcome of a step. -/
abbrev Out := Host.Outcome State Fault Refusal

/-! ## Reset -/

/-- A core after reset (R209, R399, R51). -/
def Core.init : Core :=
  { l1 := [], fills := [], reqs := [], queue := [], locks := [], banks := [], owner := none, prev := none, takes := [],
    bins := [], tlb := [], sratio := 0xFFFFFF, ratios := [], ratioAt := 0, refage := 64, cycAt := 0, coreCyc := 0, sliceCyc := [] }
/-- A context after reset (R314, R316). -/
def Ctx.init : Ctx :=
  { en := false, desc := 0, st := 0, disabling := false, deadline := none, ptroot := 0, nodesAt := 0, nnode := 0,
    msix := 0, dorm := 0, dormsz := 0, privb := 0, privsz := 0, flog := 0, log2n := 0, nodes := [], regions := [],
    faults := [], waits := [], denied := [], early := [], asked := [], posts := [], logs := [] }
/-- A port after reset (R354). -/
def Port.init : Port := { st := 0, width := 0, ndev := 0, nport := 0, fails := 0, time := 0 }
/-- The fabric block after reset (R350, R354, R355). -/
def Fabric.init : Fabric :=
  { ports := [], domctl := 0, expctl := 0, version := 0, mine := [], tables := [], floods := [], devs := [], links := [], trees := [], epoch := 0, changed := 0,
    forming := false, dstate := 0, parted := false, recomps := 0, fails := 0, gen := 0, runs := [], retired := [],
    sent := [], remote := [], arrived := [], kept := [] }
/-- The system registers after reset (R314, R379, R389, R394, R396, R398, R399, R401, R402). -/
def Sys.init (pwrlim : Nat) : Sys :=
  { stage := 0, err := 0, halted := false, retryAt := 0, stopped := false, m0 := List.replicate 64 0, m2 := List.replicate 64 0,
    devid := 0, hwbase := 0, nonce := List.replicate 32 0, attest := false, report := [], hostL0 := false, hostAt := 0,
    tcap := 0xFFFFFFFF, draint := 10000000, xinv := 0, audctl := 0, audits := [], audited := 0, tstat := 0,
    didt := 0x410, dormt := 20000, pwrlim := BitVec.ofNat 64 pwrlim, mhz := [], snapctl := 0, snaptime := 0, snapbuf := 0,
    snapseq := 0, snapmiss := 0, snap := [], snapat := 0, ehead := 0, etail := 0, errbase := 0, edrop := 0, corrStack := [],
    corrCore := [], frozenDma := false, haltedMgmt := [], errs := [], nearAt := none, msix := [] }

/-- The device after reset on a part. -/
def State.resetOn (p : Config.Part) : State :=
  { part := p, gtime := 0, mem := [], memBad := [], memErr := [], merges := [], queued := [], atoms := [], mons := [], far := [],
    boosts := [], cores := [], blocks := [],
    launches := [], ctxs := [], fab := Fabric.init, sys := Sys.init p.pwrlim, agenda := [], focus := none, free := 0,
    seq := 1 }

/-- The device right after reset: an EX-960 (the log names the choice of the part). -/
def State.reset : State := State.resetOn .ex960

end Sys2Proof.Machine
end

