-- ==== Sys2Proof/Machine/Fp.lean ====
section
/-! DEFINITION. Number formats and exact arithmetic (spec/05_numbers.md, R82 to R106): decoding, rounding with its
flags, the basic operations, the six functions of R95, conversions and exact sums. Values are exact dyadic numbers until
the one rounding of R88. -/

namespace Sys2Proof.Machine

/-! ## Formats and values (R84, R85) -/

/-- A floating-point format: exponent bits, fraction bits, bias, and whether it is E4M3, which has no infinity. -/
structure Fmt where
  eb   : Nat
  mb   : Nat
  bias : Nat
  e4m3 : Bool
  deriving DecidableEq, Repr

def fp32 : Fmt := { eb := 8, mb := 23, bias := 127, e4m3 := false }
def fp16 : Fmt := { eb := 5, mb := 10, bias := 15, e4m3 := false }
def bf16 : Fmt := { eb := 8, mb := 7, bias := 127, e4m3 := false }
def fe4m3 : Fmt := { eb := 4, mb := 3, bias := 7, e4m3 := true }
def fe5m2 : Fmt := { eb := 5, mb := 2, bias := 15, e4m3 := false }

/-- A decoded value: the finite ones are (-1)^neg * m * 2^e; m = 0 is a signed zero. -/
inductive Val where
  | nan | inf (neg : Bool) | fin (neg : Bool) (m : Nat) (e : Int)
  deriving DecidableEq, Repr

/-- The bits of a format. -/
def Fmt.width (f : Fmt) : Nat := 1 + f.eb + f.mb
/-- Smallest exponent of a normal value. -/
def Fmt.emin (f : Fmt) : Int := 1 - f.bias
/-- The canonical NaN (R84, R86). -/
def Fmt.nan (f : Fmt) : Nat := if f.e4m3 then 0x7F else (2 ^ f.eb - 1) * 2 ^ f.mb + 2 ^ (f.mb - 1)
/-- The encoding of MAX (R84). -/
def Fmt.max (f : Fmt) : Nat := if f.e4m3 then 0x7E else (2 ^ f.eb - 1) * 2 ^ f.mb - 1
/-- Infinity of a sign, or NaN where the format has none. -/
def Fmt.signBit (f : Fmt) (neg : Bool) : Nat := if neg then 2 ^ (f.eb + f.mb) else 0
def Fmt.inf (f : Fmt) (neg : Bool) : Nat :=
  if f.e4m3 then 0x7F else (2 ^ f.eb - 1) * 2 ^ f.mb + f.signBit neg
def Fmt.maxS (f : Fmt) (neg : Bool) : Nat := f.max + f.signBit neg
def Fmt.zero (f : Fmt) (neg : Bool) : Nat := f.signBit neg

/-- R85. -/
def Fmt.decode (f : Fmt) (x : Nat) : Val :=
  let neg := x.testBit (f.eb + f.mb)
  let e := x / 2 ^ f.mb % 2 ^ f.eb
  let m := x % 2 ^ f.mb
  if e = 2 ^ f.eb - 1 && !(f.e4m3 && m != 2 ^ f.mb - 1) then
    if f.e4m3 then .nan else if m = 0 then .inf neg else .nan
  else if e = 0 then .fin neg m (f.emin - f.mb)
  else .fin neg (2 ^ f.mb + m) ((e : Int) - f.bias - f.mb)

/-! ## Rounding (R88 to R90) -/

/-- A delivered value and the flags it raises: bit 0 invalid, 1 divide by zero, 2 overflow, 3 underflow, 4 inexact
(R72). -/
structure FRes where
  bits  : Nat
  flags : Nat
  deriving DecidableEq, Repr

def fInvalid : Nat := 1
def fDivZero : Nat := 2
def fOver : Nat := 4
def fUnder : Nat := 8
def fInexact : Nat := 16

/-- Position of the leading one plus one. -/
def bitLen (m : Nat) : Nat := if m = 0 then 0 else Nat.log2 m + 1

/-- Rounds m * 2^-shift to an integer under a mode; `sticky` stands for a nonzero rest below m. The second result says
whether the value changed. -/
def roundShift (rnd : Rnd) (neg : Bool) (m : Nat) (shift : Int) (sticky : Bool) : Nat × Bool :=
  match shift with
  | .negSucc k => (m * 2 ^ (k + 1), sticky)
  | .ofNat k =>
    let n := m / 2 ^ k
    let r := m % 2 ^ k
    let changed := r != 0 || sticky
    let up := match rnd with
      | .rtz => false
      | .rup => !neg && changed
      | .rdn => neg && changed
      | .rne =>
        if k = 0 then false
        else
          let half := 2 ^ (k - 1)
          decide (r > half) || (decide (r = half) && (sticky || n % 2 == 1))
    (if up then n + 1 else n, changed)

/-- Whether n * 2^q exceeds MAX (R89). -/
def aboveMax (f : Fmt) (n : Nat) (q : Int) : Bool :=
  let emax : Int := if f.e4m3 then 8 else f.bias
  let mx : Nat := if f.e4m3 then 14 else 2 ^ (f.mb + 1) - 1
  let d := q - (emax - f.mb)
  match d with
  | .ofNat k => decide (n * 2 ^ k > mx)
  | .negSucc k => decide (n > mx * 2 ^ (k + 1))

/-- The encoding of n * 2^q, which the format represents. -/
def encodeFin (f : Fmt) (neg : Bool) (n : Nat) (q : Int) : Nat :=
  let n1 := if n ≥ 2 ^ (f.mb + 1) then n / 2 else n
  let q1 := if n ≥ 2 ^ (f.mb + 1) then q + 1 else q
  f.signBit neg + (if n1 < 2 ^ f.mb then n1 else (q1 + f.mb + f.bias).toNat * 2 ^ f.mb + (n1 - 2 ^ f.mb))

/-- An overflowing result (R89). -/
def overflowBits (f : Fmt) (rnd : Rnd) (sat neg : Bool) : Nat :=
  if sat then f.maxS neg
  else if f.e4m3 then f.nan
  else
    match rnd, neg with
    | .rne, _ => f.inf neg
    | .rtz, _ => f.maxS neg
    | .rup, false => f.inf false
    | .rup, true => f.maxS true
    | .rdn, false => f.maxS false
    | .rdn, true => f.inf true

/-- Rounds the nonzero value m * 2^e (with a rest below m when `sticky`) to a format (R88 to R90). -/
def roundTo (f : Fmt) (rnd : Rnd) (sat neg : Bool) (m : Nat) (e : Int) (sticky : Bool) : FRes :=
  let top : Int := e + bitLen m - 1
  let qU := top - f.mb
  let q := (if top < f.emin then f.emin else top) - f.mb
  let u := roundShift rnd neg m (qU - e) sticky
  let b := roundShift rnd neg m (q - e) sticky
  if aboveMax f u.1 qU then { bits := overflowBits f rnd sat neg, flags := fOver + fInexact }
  else
    -- below the smallest normal: the value rounded with unbounded exponent has its leading one below emin
    let tiny := decide (qU + bitLen u.1 - 1 < f.emin)
    let fl := if b.2 then (if tiny && b.1 != 0 then fUnder + fInexact else fInexact) else 0
    { bits := encodeFin f neg b.1 q, flags := fl }

/-- An infinite result that arises from an infinite operand (R89, R96). -/
def infResult (f : Fmt) (sat neg : Bool) : FRes :=
  if sat then { bits := f.maxS neg, flags := fInexact }
  else if f.e4m3 then { bits := f.nan, flags := fInvalid }
  else { bits := f.inf neg, flags := 0 }
/-- A NaN result with flags. -/
def nanResult (f : Fmt) (flags : Nat) : FRes := { bits := f.nan, flags := flags }

/-- Delivers an exact value in a format. -/
def deliver (f : Fmt) (rnd : Rnd) (sat : Bool) (v : Val) (flags : Nat) : FRes :=
  match v with
  | .nan => nanResult f flags
  | .inf neg => let r := infResult f sat neg; { r with flags := r.flags ||| flags }
  | .fin neg m e =>
    if m = 0 then { bits := f.zero neg, flags := flags }
    else let r := roundTo f rnd sat neg m e false; { r with flags := r.flags ||| flags }

/-! ## Exact sums and products (R88, R92, R101) -/

/-- The exact product, and whether it is 0 times infinity. -/
def mulVal (a b : Val) : Val × Bool :=
  match a, b with
  | .nan, _ => (.nan, false)
  | _, .nan => (.nan, false)
  | .inf n, .inf k => (.inf (n != k), false)
  | .inf n, .fin k m _ => if m = 0 then (.nan, true) else (.inf (n != k), false)
  | .fin k m _, .inf n => if m = 0 then (.nan, true) else (.inf (n != k), false)
  | .fin n m e, .fin k p q => (.fin (n != k) (m * p) (e + q), false)

/-- The least exponent of the finite terms. -/
def minExp : List Val → Int
  | [] => 0
  | [.fin _ _ e] => e
  | .fin _ _ e :: t => min e (minExp t)
  | _ :: t => minExp t
/-- The sum of the finite terms in units of 2^e. -/
def sumUnits (e : Int) : List Val → Int
  | [] => 0
  | .fin n m k :: t => (if n then -((m * 2 ^ (k - e).toNat : Nat) : Int) else ((m * 2 ^ (k - e).toNat : Nat) : Int))
                         + sumUnits e t
  | _ :: t => sumUnits e t
/-- Whether a term is a zero of a sign. -/
def isZeroOf (neg : Bool) : Val → Bool
  | .fin n m _ => n == neg && m == 0
  | _ => false

/-- The exact sum of terms: NaN, an infinity, or a finite value with the zero rule of R88 and R101. The second result is
the invalid flag of infinities of opposite sign. A NaN among the terms decides before the infinities, without the flag (DESIGN
CHOICE, log entry 54: R92 gives no order between the two). -/
def sumVals (rnd : Rnd) (ts : List Val) : Val × Bool :=
  if ts.any (fun t => decide (t = .nan)) then (.nan, false)
  else
    let pos := ts.any (fun t => decide (t = .inf false))
    let neg := ts.any (fun t => decide (t = .inf true))
    if pos && neg then (.nan, true)
    else if pos then (.inf false, false)
    else if neg then (.inf true, false)
    else
      let e := minExp ts
      let u := sumUnits e ts
      if u = 0 then
        if ts.all (isZeroOf true) then (.fin true 0 0, false)
        else if ts.all (isZeroOf false) then (.fin false 0 0, false)
        else (.fin (decide (rnd = .rdn)) 0 0, false)
      else (.fin (decide (u < 0)) u.natAbs e, false)

/-- A sum delivered in a format. -/
def sumTo (f : Fmt) (rnd : Rnd) (sat : Bool) (ts : List Val) (flags : Nat) : FRes :=
  let r := sumVals rnd ts
  deliver f rnd sat r.1 (if r.2 then flags ||| fInvalid else flags)
/-- The sign changed. -/
def negVal : Val → Val
  | .nan => .nan
  | .inf n => .inf (!n)
  | .fin n m e => .fin (!n) m e

/-- `fadd`, `fsub`, `fmul` (R92). -/
def faddOp (f : Fmt) (rnd : Rnd) (sat : Bool) (a b : Nat) : FRes := sumTo f rnd sat [f.decode a, f.decode b] 0
def fsubOp (f : Fmt) (rnd : Rnd) (sat : Bool) (a b : Nat) : FRes := sumTo f rnd sat [f.decode a, negVal (f.decode b)] 0
def fmulOp (f : Fmt) (rnd : Rnd) (sat : Bool) (a b : Nat) : FRes :=
  let r := mulVal (f.decode a) (f.decode b)
  deliver f rnd sat r.1 (if r.2 then fInvalid else 0)
/-- A sum of products and an addend, rounded once (R92). A product 0 × ∞ raises invalid also beside a NaN element or addend;
opposite infinities beside a NaN do not (DESIGN CHOICE for `fdot`, log entry 54: R92 and R140 do not say). -/
def dotOp (f : Fmt) (rnd : Rnd) (sat : Bool) (ps : List (Val × Val)) (c : Val) : FRes :=
  let qs := ps.map (fun p => mulVal p.1 p.2)
  sumTo f rnd sat (qs.map (·.1) ++ [c]) (if qs.any (·.2) then fInvalid else 0)
def ffmaOp (f : Fmt) (rnd : Rnd) (sat : Bool) (a b c : Nat) : FRes :=
  dotOp f rnd sat [(f.decode a, f.decode b)] (f.decode c)

/-- RNE32 of an exact value (R102). -/
def rne32 (v : Val) : Nat := (deliver fp32 .rne false v 0).bits
/-- RNE32 of the product of two FP32 values. -/
def mul32 (a b : Nat) : Nat := (fmulOp fp32 .rne false a b).bits
/-- RNE32 of the sum of two FP32 values. -/
def add32 (a b : Nat) : Nat := (faddOp fp32 .rne false a b).bits

/-! ## Comparison (R93) -/

/-- Whether a < b for values that are no NaN, with -0 = +0. -/
def ltVal (a b : Val) : Bool :=
  match a, b with
  | .nan, _ => false
  | _, .nan => false
  | .inf n, .inf k => n && !k
  | .inf n, _ => n
  | _, .inf k => !k
  | _, _ => decide (sumUnits (minExp [a, negVal b]) [a, negVal b] < 0)
def eqVal (a b : Val) : Bool :=
  match a, b with
  | .nan, _ => false
  | _, .nan => false
  | .inf n, .inf k => n == k
  | .inf _, _ => false
  | _, .inf _ => false
  | _, _ => decide (sumUnits (minExp [a, negVal b]) [a, negVal b] = 0)
/-- The sign of a value. -/
def Val.neg : Val → Bool
  | .nan => false
  | .inf n => n
  | .fin n _ _ => n

/-- `fmin` and `fmax` (R93). -/
def fminOp (f : Fmt) (mx : Bool) (a b : Nat) : Nat :=
  let x := f.decode a
  let y := f.decode b
  if x = .nan then (if y = .nan then f.nan else b)
  else if y = .nan then a
  else
    let aLess := ltVal x y || (eqVal x y && x.neg)
    if aLess != mx then a else b

/-- `fcmp`: the result, and whether invalid is raised (R93). -/
def fcmpOp (cc : Cc) (a b : Nat) : Bool × Bool :=
  let x := fp32.decode a
  let y := fp32.decode b
  let unord := decide (x = .nan) || decide (y = .nan)
  match cc with
  | .eq => (eqVal x y, false)
  | .ne => (!eqVal x y, false)
  | .lt => (ltVal x y, unord)
  | .le => (ltVal x y || eqVal x y, unord)
  | .gt => (ltVal y x, unord)
  | .ge => (ltVal y x || eqVal x y, unord)

/-- The class mask of R139. -/
def fclassOp (f : Fmt) (a : Nat) : Nat :=
  match f.decode a with
  | .nan => 256
  | .inf true => 1
  | .inf false => 128
  | .fin neg m _ =>
    if m = 0 then (if neg then 8 else 16)
    else if m < 2 ^ f.mb then (if neg then 4 else 32)
    else (if neg then 2 else 64)

/-- `fround` (R94). -/
def froundOp (f : Fmt) (rnd : Rnd) (a : Nat) : Nat :=
  match f.decode a with
  | .nan => f.nan
  | .inf neg => f.inf neg
  | .fin neg m e =>
    if m = 0 || 0 ≤ e then a
    else
      let n := (roundShift rnd neg m (-e) false).1
      if n = 0 then f.zero neg else (roundTo f .rne false neg n 0 false).bits

/-! ## The functions of R95 -/

/-- The integer square root, by bits from `2^k` down. -/
def isqrtFrom : Nat → Nat → Nat → Nat
  | 0, n, r => if (r + 1) * (r + 1) ≤ n then r + 1 else r
  | k + 1, n, r =>
    let c := r + 2 ^ (k + 1)
    isqrtFrom k n (if c * c ≤ n then c else r)
/-- The integer square root. -/
def isqrt (n : Nat) : Nat := isqrtFrom (bitLen n / 2) n 0

/-- The quotient of two nonzero values. -/
def divFin (rnd : Rnd) (neg : Bool) (m : Nat) (e : Int) (p : Nat) (q : Int) : FRes :=
  let n := m * 2 ^ 200 / p
  roundTo fp32 rnd false neg n (e - q - 200) (m * 2 ^ 200 % p != 0)
/-- `fdiv` (R95). -/
def fdivOp (rnd : Rnd) (a b : Nat) : FRes :=
  let x := fp32.decode a
  let y := fp32.decode b
  match x, y with
  | .nan, _ => nanResult fp32 0
  | _, .nan => nanResult fp32 0
  | .inf _, .inf _ => nanResult fp32 fInvalid
  | .inf n, .fin k _ _ => { bits := fp32.inf (n != k), flags := 0 }
  | .fin n _ _, .inf k => { bits := fp32.zero (n != k), flags := 0 }
  | .fin n m e, .fin k p q =>
    if p = 0 then
      if m = 0 then nanResult fp32 fInvalid else { bits := fp32.inf (n != k), flags := fDivZero }
    else if m = 0 then { bits := fp32.zero (n != k), flags := 0 }
    else divFin rnd (n != k) m e p q
/-- `frcp` (R95). -/
def frcpOp (rnd : Rnd) (a : Nat) : FRes := fdivOp rnd 0x3F800000 a
/-- A value m * 2^e with an even exponent and m wide enough for its root. -/
def evenExp (m : Nat) (e : Int) : Nat × Int := if e % 2 = 0 then (m, e) else (2 * m, e - 1)
/-- `fsqrt` (R95). -/
def fsqrtOp (rnd : Rnd) (a : Nat) : FRes :=
  match fp32.decode a with
  | .nan => nanResult fp32 0
  | .inf true => nanResult fp32 fInvalid
  | .inf false => { bits := fp32.inf false, flags := 0 }
  | .fin neg m e =>
    if m = 0 then { bits := a, flags := 0 }
    else if neg then nanResult fp32 fInvalid
    else
      let x := evenExp m e
      let n := x.1 * 2 ^ 160
      let r := isqrt n
      roundTo fp32 rnd false false r (x.2 / 2 - 80) (r * r != n)
/-- `frsq` (R95). -/
def frsqOp (rnd : Rnd) (a : Nat) : FRes :=
  match fp32.decode a with
  | .nan => nanResult fp32 0
  | .inf true => nanResult fp32 fInvalid
  | .inf false => { bits := fp32.zero false, flags := 0 }
  | .fin neg m e =>
    if m = 0 then { bits := fp32.inf neg, flags := fDivZero }
    else if neg then nanResult fp32 fInvalid
    else
      let x := evenExp m e
      let r := isqrt (2 ^ 240 / x.1)
      roundTo fp32 rnd false false r (-(x.2 / 2) - 120) (r * r * x.1 != 2 ^ 240)

/-- Fraction bits of the fixed-point evaluations below. -/
def fxBits : Nat := 320
/-- The natural logarithm of 2, times 2^320, rounded down. -/
def ln2Fx : Nat :=
  0xb17217f7d1cf79abc9e3b39803f2f6af40f343267298b62d8a0d175b8baafa2be7b876206debac98
/-- The exponential series in fixed point: the sum of the terms y^k / k! from the k-th on. -/
def expSeries : Nat → Nat → Nat → Nat → Nat
  | 0, _, _, _ => 0
  | fuel + 1, k, term, y => term + expSeries fuel (k + 1) (term * y / 2 ^ fxBits / k) y
/-- `fexp2` (R95): exact at integers; otherwise 2^floor times the series of the fraction. -/
def fexp2Op (rnd : Rnd) (a : Nat) : FRes :=
  match fp32.decode a with
  | .nan => nanResult fp32 0
  | .inf true => { bits := fp32.zero false, flags := 0 }
  | .inf false => { bits := fp32.inf false, flags := 0 }
  | .fin neg m e =>
    -- operands of magnitude 2^9 and more are all beyond the range of FP32 on their side
    if m != 0 && decide (e + bitLen m > 9) then
      roundTo fp32 rnd false false 1 (if neg then -600 else 600) false
    else
      let x : Int := if neg then -((m : Int) * 2 ^ (e + fxBits).toNat) else (m : Int) * 2 ^ (e + fxBits).toNat
      let whole := x / (2 ^ fxBits : Nat)
      let frac := (x % (2 ^ fxBits : Nat)).toNat
      if frac = 0 then roundTo fp32 rnd false false 1 whole false
      else
        let y := frac * ln2Fx / 2 ^ fxBits
        let n := expSeries 90 1 (2 ^ fxBits) y
        roundTo fp32 rnd false false (n / 2 ^ 40) (whole + 40 - fxBits) true
/-- The series of the inverse hyperbolic tangent: the sum of z^(2k+1) / (2k+1). -/
def atanhSeries : Nat → Nat → Nat → Nat → Nat
  | 0, _, _, _ => 0
  | fuel + 1, k, pow, z2 => pow / (2 * k + 1) + atanhSeries fuel (k + 1) (pow * z2 / 2 ^ fxBits) z2
/-- `flog2` (R95): exact at powers of two; otherwise the exponent plus the logarithm of the significand. -/
def flog2Op (rnd : Rnd) (a : Nat) : FRes :=
  match fp32.decode a with
  | .nan => nanResult fp32 0
  | .inf true => nanResult fp32 fInvalid
  | .inf false => { bits := fp32.inf false, flags := 0 }
  | .fin neg m e =>
    if m = 0 then { bits := fp32.inf true, flags := fDivZero }
    else if neg then nanResult fp32 fInvalid
    else
      let l := bitLen m - 1
      let k : Int := e + l
      if m = 2 ^ l then
        if k = 0 then { bits := 0, flags := 0 }
        else roundTo fp32 rnd false (decide (k < 0)) k.natAbs 0 false
      else
        -- z = (f - 1) / (f + 1) for the significand f = m / 2^l
        let z := (m - 2 ^ l) * 2 ^ fxBits / (m + 2 ^ l)
        let ln := 2 * atanhSeries 110 0 z (z * z / 2 ^ fxBits)
        let frac : Int := ((ln * 2 ^ fxBits / ln2Fx : Nat) : Int)
        let r : Int := k * (2 ^ fxBits : Nat) + frac
        roundTo fp32 rnd false (decide (r < 0)) (r.natAbs / 2 ^ 40) (40 - fxBits) true

/-! ## Conversions (R96 to R98) -/

/-- Between floating-point formats (R96). -/
def cvtFF (f g : Fmt) (rnd : Rnd) (sat : Bool) (a : Nat) : FRes := deliver g rnd sat (f.decode a) 0
/-- A value of a format copied to the same format: only a NaN changes, to the canonical one (R141). -/
def copyFF (f : Fmt) (a : Nat) : FRes := if f.decode a = .nan then nanResult f 0 else { bits := a, flags := 0 }
/-- From a format to an integer type given by its least and greatest values (R97). -/
def cvtFI (f : Fmt) (lo hi : Int) (rnd : Rnd) (a : Nat) : Int × Nat :=
  match f.decode a with
  | .nan => (0, fInvalid)
  | .inf true => (lo, fInvalid)
  | .inf false => (hi, fInvalid)
  | .fin neg m e =>
    let r := roundShift rnd neg m (-e) false
    let v : Int := if neg then -(r.1 : Int) else r.1
    if v < lo then (lo, fInvalid)
    else if v > hi then (hi, fInvalid)
    else (v, if r.2 then fInexact else 0)
/-- From an integer to a format (R98). -/
def cvtIF (g : Fmt) (rnd : Rnd) (sat : Bool) (x : Int) : FRes :=
  if x = 0 then { bits := 0, flags := 0 } else roundTo g rnd sat (decide (x < 0)) x.natAbs 0 false

end Sys2Proof.Machine
end

