-- ==== Sys2Proof/Machine/Mem.lean ====
section
/-! DEFINITION. Memory at the home slices: bytes and their order (R53), writes and reads of a line (R241 to R246), poison
(R262, R263, R386), the device error log (R388, R402) and its snapshot trigger (R401). -/

namespace Sys2Proof.Machine

/-! ## Bytes -/

/-- The number that little-endian bytes hold (R53). -/
def leNat : List Byte → Nat
  | [] => 0
  | b :: t => b.toNat + 256 * leNat t
/-- The `n` little-endian bytes of a number (R53). -/
def leBytes : Nat → Nat → List Byte
  | 0, _ => []
  | n + 1, v => BitVec.ofNat 8 v :: leBytes n (v / 256)

/-- The byte of memory at a physical address; an unlisted one reads 0 (the log says where this is a choice). -/
def Memory.get (m : List Host.Cell) (a : Nat) : Byte := Map.getD m a 0
/-- Writes a byte; a byte that an unlisted address reads as is not listed. -/
def Memory.set (m : List Host.Cell) (a : Nat) (v : Byte) : List Host.Cell := Map.set m (0 : Byte) a v
/-- The canonical form of memory: addresses strictly rising, no entry equal to what an unlisted address reads as. -/
def Memory.wf (m : List Host.Cell) : Bool := Map.canon (0 : Byte) m
/-- `n` bytes from an address. -/
def Memory.read (m : List Host.Cell) (a : Nat) : Nat → List Byte
  | 0 => []
  | n + 1 => Memory.get m a :: Memory.read m (a + 1) n
/-- Writes bytes from an address upwards. -/
def Memory.write (m : List Host.Cell) (a : Nat) : List Byte → List Host.Cell
  | [] => m
  | b :: t => Memory.write (Memory.set m a b) (a + 1) t

/-- The aligned number of `n` bytes at a physical address. -/
def State.num (s : State) (pa n : Nat) : Nat := leNat (Memory.read s.mem pa n)

/-- Part of a line replaced by bytes at an offset. -/
def overlay (line : List Byte) (off : Nat) (bytes : List Byte) : List Byte :=
  line.take off ++ bytes ++ line.drop (off + bytes.length)

/-! ## Where an address lies (R238 to R240) -/

/-- The ranges of the physical address space. -/
inductive Region where
  | dram | control | host | none
  deriving DecidableEq, Repr

/-- R238. -/
def regionOf (p : Config.Part) (pa : Nat) : Region :=
  if pa < p.dram then .dram
  else if pa < Config.csBase then .none
  else if pa < Config.hostBase then .control
  else if pa < Config.paEnd then .host
  else .none

/-- Bit `i` of an address. -/
def abit (pa i : Nat) : Bool := pa.testBit i
/-- A bit as a number. -/
def b2n (b : Bool) : Nat := if b then 1 else 0
/-- The stack that holds an address (R239). -/
def stackOf (p : Config.Part) (pa : Nat) : Nat :=
  match p with
  | .ex960 => (pa / 2 ^ 12 % 8) ^^^ (pa / 2 ^ 21 % 8) ^^^ (pa / 2 ^ 30 % 8)
  | .ex920 => (pa / 2 ^ 12 % 4) ^^^ (pa / 2 ^ 21 % 4) ^^^ (pa / 2 ^ 30 % 4)
/-- The offset of an address in its stack (R239). -/
def stackOffset (p : Config.Part) (pa : Nat) : Nat :=
  match p with
  | .ex960 => pa / 2 ^ 15 % 2 ^ 24 * 4096 + pa % 4096
  | .ex920 => pa / 2 ^ 14 % 2 ^ 24 * 4096 + pa % 4096
/-- A line's home slice, by its device-wide number (R240). -/
def homeSlice (p : Config.Part) (pa : Nat) : Nat :=
  let h := (pa / 2 ^ 6 % 32) ^^^ (pa / 2 ^ 15 % 32) ^^^ (pa / 2 ^ 24 % 32) ^^^ (pa / 2 ^ 33 % 32)
  stackOf p pa / 2 * 32 + h

/-- The lower half of a register. -/
def lo32 (d : Dword) : Word := d.setWidth 32

/-! ## Release waves (R399, R400) -/

/-- Fronds per release wave (R399). -/
def waveSize (s : State) : Nat :=
  let w := (s.sys.didt.extractLsb' 0 7).toNat
  if w = 0 then 1 else Nat.min w 64
/-- ns between waves (R399). -/
def waveGap (s : State) : Nat := (s.sys.didt.extractLsb' 8 4).toNat
/-- The place of a number in a list. -/
def indexIn (l : List Nat) (n : Nat) : Nat := (l.takeWhile (· != n)).length
/-- The instant at which a frond slot is released, among the slots of its core that one event releases, in ascending order
(R400). -/
def waveDue (s : State) (slots : List Nat) (slot : Nat) : Nat := s.gtime + indexIn slots slot / waveSize s * waveGap s

/-! ## Writes at a home slice (R241, R243, R246, R263) -/

/-- The core and frond slot of a monitor's thread while it waits there. -/
def waiterPlace (s : State) (m : Mon) : Option (Nat × Nat) :=
  match s.blocks.get? m.bid with
  | none => none
  | some b =>
    match b.place, b.threads.get? m.tid with
    | .resident core, some t => (match t.status with | .waiting _ => some (core, t.slot) | _ => none)
    | _, _ => none
/-- Whether a write of its line is one that a monitor's waiter may go on by: for a `tkwait`, only one that leaves SERVE equal to its
ticket (R181). -/
def Mon.wakes (m : Mon) (s : State) : Bool :=
  match (s.blocks.get? m.bid).bind (fun b : Block => (b.threads.get? m.tid).map Thread.status) with
  | some (.waiting w) => (match w.kind with
    | .ticket _ pa k _ => s.num (m.line * 64 + pa % 64 / 16 * 16 + 4) 4 == k.toNat
    | _ => true)
  | _ => true
/-- Whether a write of a line signals a monitor now. -/
def Mon.signalled (m : Mon) (s : State) (line : Nat) : Bool := m.line == line && m.armed && !m.hit && m.wakes s
/-- The frond slots of a core that have a waiter among some monitors. -/
def wokenSlots (s : State) (p : Mon → Bool) (core : Nat) : List Nat :=
  (List.range Config.slots).filter (fun k => s.mons.any (fun m => p m && waiterPlace s m == some (core, k)))
/-- The instant at which the waiter of a monitor goes on when one event signals some monitors (R178, R400). -/
def Mon.dueIn (m : Mon) (s : State) (p : Mon → Bool) : Nat :=
  match waiterPlace s m with
  | some (core, k) => waveDue s (wokenSlots s p core) k
  | none => s.gtime
/-- A monitored line is written: its armed monitors are signalled (R246), each with the wave in which its frond goes on
(R178). -/
def signalLine (s : State) (line : Nat) : State :=
  { s with
    mons := s.mons.map (fun m => if m.signalled s line then { m with hit := true, due := m.dueIn s (·.signalled s line) } else m),
    far := s.far.map (fun m => if m.line = line then { m with hit := true } else m) }
/-- A write closes the open merge entry of its line (R243). -/
def closeMerge (s : State) (line : Nat) : State :=
  { s with merges := s.merges.map (fun m => if m.line = line then { m with opened := false } else m) }
/-- A line's poison mark after a write of some bytes (R263). -/
def markAfter (s : State) (line n : Nat) (bad : Bool) : List Nat :=
  if bad then addNat s.memBad line
  else if n = 64 then delNat s.memBad line
  else s.memBad
/-- Acceptance of a write within one line: the bytes, the poison mark, merge entries, monitors. -/
def acceptWrite (s : State) (pa : Nat) (bytes : List Byte) (bad : Bool) : State :=
  let line := pa / 64
  let s1 := { s with mem := Memory.write s.mem pa bytes, memBad := markAfter s line bytes.length bad }
  signalLine (closeMerge s1 line) line

/-! ## Snapshots (R401) -/

/-- The lowest-numbered program counter of a list. -/
def minPc : List Dword → Nat
  | [] => 0
  | [x] => x.toNat
  | x :: t => Nat.min x.toNat (minPc t)
/-- The threads of a frond slot. -/
def Block.members (b : Block) (slot : Nat) : List (Nat × Thread) := b.threads.filter (fun e => e.2.slot == slot)
/-- Whether a thread is eligible. -/
def Thread.eligible (t : Thread) : Bool := decide (t.status = .eligible)
/-- Whether a thread has exited. -/
def Thread.exited (t : Thread) : Bool := decide (t.status = .exited)
/-- The position of a block in its convoy. -/
def convoyPos (s : State) (b : Block) : Nat :=
  match b.convoy, s.launches.get? b.launch with
  | some id, some x => (((x.cohorts[id]?).bind (fun c : Cohort => c.conv.get? b.idx)).map (fun m : Member => m.pos)).getD 0
  | _, _ => 0
/-- What a snapshot latches of a resident block: context, index, code object, and for each frond its lowest PC, its eligible
mask, its causes, STEP and CVPOS. -/
def latchBlock (s : State) (b : Block) : List Byte :=
  let frond (f : Nat) : List Byte :=
    let ts := (b.members f).map (·.2)
    leBytes 8 (minPc (ts.map (·.pc)))
      ++ leBytes 4 (ts.foldl (fun n t => if t.eligible then n + 2 ^ t.lane else n) 0)
      ++ leBytes 4 (ts.foldl (fun n t => n ||| t.cause.toNat) 0)
      ++ leBytes 4 b.step.toNat ++ leBytes 4 (convoyPos s b)
  leBytes 4 b.ctx ++ leBytes 4 b.idx ++ leBytes 8 b.obase.toNat ++ (b.fronds.keys.map frond).flatten
/-- What a snapshot latches of an engine channel: state, parameter block address, frozen bit. -/
def latchOp (o : Op) : List Byte :=
  leBytes 4 (if o.done then 2 else if o.begun then 1 else 0) ++ leBytes 8 o.parm.toNat ++ leBytes 4 (b2n o.frozen)
/-- The engine operations of every core. -/
def State.ops (s : State) : List Op := (s.cores.map (fun c => c.2.queue)).flatten
/-- Whether an operation is one of a hub channel. -/
def Op.onHub (o : Op) : Bool :=
  match o.kind with
  | .npost _ _ | .ltrig | .coll | .cstat _ => true
  | _ => false
/-- The bus masters that a snapshot latches: the matrix stream and the eight copy channels of each core (R200), the operations on the
hub, the host's DMA channels, the four management cores (R394). -/
def masters (s : State) : Nat := (1 + Config.copyChannels) * s.part.cores + (s.ops.filter Op.onHub).length + 5
/-- What a snapshot latches, in a header of 64 bytes, 256 bytes for each resident block, 64 bytes for each master, idle ones too. -/
def latch (s : State) : Snap :=
  let res := s.blocks.filter (fun b => match b.2.place with | .resident _ => true | _ => false)
  let content := leBytes 8 s.gtime ++ (res.map (fun b => latchBlock s b.2)).flatten ++ (s.ops.map latchOp).flatten
    ++ leBytes 1 (b2n s.sys.frozenDma) ++ s.sys.haltedMgmt.map (BitVec.ofNat 8)
  { bytes := (List.range (64 + 256 * res.length + 64 * masters s)).map (Config.snapLayout content)
    frozen := (if s.sys.frozenDma then [0] else []) ++ (s.ops.filter (·.frozen)).map (·.id)
    mgmt := s.sys.haltedMgmt }
/-- A trigger: ignored before stage 4 (R403), and after a trigger of the same instant that has fired (R401); it latches when armed;
otherwise it is missed. -/
def snapFire (s : State) : State :=
  if s.sys.stage < 4 || (s.sys.snapat = s.gtime && (!s.sys.snap.isEmpty || s.sys.snapseq != 0)) then s
  else if s.sys.snapctl.getLsbD 0 then
    { s with sys := { s.sys with snapctl := s.sys.snapctl &&& ~~~1#64, snap := s.sys.snap ++ [latch s], snapat := s.gtime } }
  else { s with sys := { s.sys with snapmiss := Nat.min 65535 (s.sys.snapmiss + 1) } }

/-! ## The device error log (R388, R402) -/

/-- Resolves the symbol errors of a line as it is read (R262): one is corrected and counted, two to seven poison the line; for
eight or more a free value says whether the error is detected. The second result says that a device error event is due. -/
def resolveLine (s : State) (line : Nat) : State × Bool :=
  match s.memErr.get? line with
  | none => (s, false)
  | some n =>
    let st := stackOf s.part (line * 64)
    let s1 := { s with memErr := s.memErr.del line }
    let bad (s : State) : State := { s with memBad := addNat s.memBad line }
    if n = 0 then (s1, false)
    else if n = 1 then
      ({ s1 with sys := { s1.sys with corrStack := s1.sys.corrStack.put st (Nat.min (2 ^ 64 - 1) (s1.sys.corrStack.getD st 0 + 1)) } },
        false)
    else if n ≤ 7 then (bad s1, true)
    else
      let s2 := { s1 with free := s1.free + 1 }
      if Config.freeBit (Config.freeAt s.free 0 0) then (bad s2, true)
      else
        let bytes := (List.range 64).map (fun i => (Config.freeDword (Config.freeAt s.free 0 1 + i)).setWidth 8)
        ({ s2 with mem := Memory.write s2.mem (line * 64) bytes }, false)
/-- The dormancy saves in use, as physical pages (R385, R390). -/
def savedPages (s : State) : List Nat :=
  (s.blocks.map (fun b => match b.2.place with | .dormant _ _ pages _ => pages | _ => [])).flatten

/-- Whether a management core may not write at an address: nothing is fitted there, or it reaches a protected range (R390). -/
def mgmtIllegal (s : State) (pa : Nat) : Bool :=
  match regionOf s.part pa with
  | .dram => (savedPages s).contains (pa / 65536)
  | .host => false
  | _ => true
/-- A record of the device error log, or one more in DROPS. A location or detail that the spec does not state is free. The management
core that would write it into a protected range is halted (R390); its record and the event of the halt wait, as later ones do, until it
is back in service (DESIGN CHOICE, log entry 37: the spec does not say what becomes of them). -/
def devRecord (s : State) (e : ErrRec) : State × Bool :=
  let n := s.sys.etail - s.sys.ehead
  let open_ (x : Option Nat) (k : Nat) : Nat := x.getD (Config.freeDword (Config.freeAt s.free 0 k)).toNat
  let slot := s.sys.errbase.toNat + 32 * (s.sys.etail.toNat % 256)
  if s.sys.haltedMgmt.contains 1 then ({ s with sys := { s.sys with errs := s.sys.errs ++ [e] } }, false)
  else if n.toNat < 256 && mgmtIllegal s slot then
    let halt : ErrRec := { code := 3, loc := none, detail := none, time := s.gtime }
    ({ s with sys := { s.sys with haltedMgmt := addNat s.sys.haltedMgmt 1, errs := s.sys.errs ++ [e, halt] } }, false)
  else if n.toNat ≥ 256 then
    ({ s with sys := { s.sys with edrop := if s.sys.edrop = 0xFFFFFFFF#32 then s.sys.edrop else s.sys.edrop + 1 } }, false)
  else
    let pa := slot
    let r := leBytes 4 e.code ++ leBytes 4 0 ++ leBytes 8 e.time ++ leBytes 8 (open_ e.loc 2) ++ leBytes 8 (open_ e.detail 3)
    let s1 := { s with free := s.free + 1 }
    let x := if regionOf s.part pa = .dram then
        let q := resolveLine s1 (pa / 64)
        (acceptWrite q.1 pa r false, q.2)
      else (s1, false)
    ({ x.1 with sys := { x.1.sys with etail := x.1.sys.etail + 1, msix := x.1.sys.msix ++ [0] } }, x.2)
/-- Records a device error event (R388, R402): the record, then TAIL, then vector 0. The write of a record reads the rest of its
line (R263), which may bring an event of its own; a line brings one at most, and the log has 128 lines. A snapshot may be
triggered (R401). -/
def devErrorN : Nat → State → ErrRec → State
  | 0, s, _ => s
  | fuel + 1, s, e =>
    let x := devRecord s e
    let s1 := if x.1.sys.snapctl.getLsbD 1 then snapFire x.1 else x.1
    if x.2 then
      devErrorN fuel s1 { code := 1, loc := some (stackOf s.part (s.sys.errbase.toNat + 32 * (s.sys.etail.toNat % 256))),
                          detail := none, time := s.gtime }
    else s1
/-- A device error event is recorded. -/
def devError (s : State) (code : Nat) (loc detail : Option Nat) : State :=
  devErrorN 129 s { code := code, loc := loc, detail := detail, time := s.gtime }
/-- The management core that writes the error log is back in service: the records that wait are written, oldest first. -/
def flushErrs (s : State) : State :=
  s.sys.errs.foldl (devErrorN 129) { s with sys := { s.sys with errs := [], haltedMgmt := delNat s.sys.haltedMgmt 1 } }

/-! ## Reads at a home slice -/

/-- A line is read at its home slice, or by the scrub (R262, R264): its errors are resolved, and a poisoned one is recorded. -/
def touchLine (s : State) (line : Nat) : State :=
  let x := resolveLine s line
  if x.2 then devError x.1 1 (some (stackOf s.part (line * 64))) none else x.1

/-- A write within one line at its home slice, or by the host: a partial one first reads the rest of the line (R263). -/
def homeWrite (s : State) (pa : Nat) (bytes : List Byte) (bad : Bool) : State :=
  let s0 := if bytes.length = 64 then { s with memErr := s.memErr.del (pa / 64) } else touchLine s (pa / 64)
  acceptWrite s0 pa bytes bad

/-- A line's 64 bytes. -/
def lineBytes (s : State) (line : Nat) : List Byte := Memory.read s.mem (line * 64) 64
/-- Whether a line is marked poisoned. -/
def lineBad (s : State) (line : Nat) : Bool := s.memBad.contains line

/-- The lines a byte range covers. -/
def linesOf (pa n : Nat) : List Nat :=
  if n = 0 then [] else (List.range ((pa + n - 1) / 64 - pa / 64 + 1)).map (· + pa / 64)
/-- Reads every line of a range. -/
def touchRange (s : State) (pa n : Nat) : State := (linesOf pa n).foldl touchLine s

/-! ## Room for a read (R242, R245) -/

/-- Merge entries in use at a line's home slice. -/
def entriesAt (s : State) (line : Nat) : Nat :=
  (s.merges.filter (fun m => homeSlice s.part (m.line * 64) == homeSlice s.part (line * 64))).length
/-- The open merge entry of a line. -/
def openMerge (s : State) (line : Nat) : Option Merge := s.merges.find? (fun m => m.line == line && m.opened)
/-- Whether a line's home slice has an entry for a read that waits for none: one is in use by no read and no read waits for it. -/
def newRoom (s : State) (line : Nat) : Bool :=
  decide (entriesAt s line < Config.mergeEntries) && !s.queued.any (fun e => e.1 == homeSlice s.part (line * 64))
/-- Whether the home slice can accept a read of a core: into an open entry, or into a new one. -/
def coreRoom (s : State) (line : Nat) : Bool := regionOf s.part (line * 64) != .dram || (openMerge s line).isSome || newRoom s line
/-- Whether the home slice can accept a read of the hub: into an open entry with a free slot, or into a new entry. -/
def readRoom (s : State) (line : Nat) : Bool :=
  match openMerge s line with
  | some m => decide (m.others.length < Config.otherSlots)
  | none => newRoom s line
/-- Whether a home slice's atomic unit holds a line (R244). -/
def heldLine (s : State) (line : Nat) : Bool := s.atoms.any (fun a => a.line == line)
/-- Whether the atomic unit at a line's home slice can take an atomic to it: the line is held, or fewer lines are than the unit
holds. -/
def atomRoom (s : State) (line : Nat) : Bool :=
  heldLine s line || decide ((s.atoms.filter (fun a =>
    homeSlice s.part (a.line * 64) == homeSlice s.part (line * 64))).length < Config.atomLines)
/-- Whether an agent that has its answer within the step can make an atomic to a line now: no other atomic is queued there, and the
unit has room (R244). -/
def atomFree (s : State) (line : Nat) : Bool := regionOf s.part (line * 64) != .dram || (!heldLine s line && atomRoom s line)
/-- A value read from a line as an evaluation sees it: that of a poisoned line is free (DESIGN CHOICE, log entry 52: R387 does
not name a watched word). -/
def seenWord (s : State) (bad : Bool) (v : Nat) : State × Nat :=
  if bad then ({ s with free := s.free + 1 }, (Config.freeDword (Config.freeAt s.free 0 6)).toNat % 2 ^ 32) else (s, v)
/-- The reply that a read accepted now receives. -/
def lineRep (s : State) (line : Nat) : LineRep := { data := lineBytes s line, bad := lineBad s line, time := s.gtime }
/-- A line is read at its home slice by an agent that has the reply within the step: it joins the open entry, whose reply it receives,
or opens one and closes it with its reply (R242, R262). -/
def seeLine (s : State) (line : Nat) : State := if (openMerge s line).isSome then s else touchLine s line
/-- The reply that such a read receives. -/
def lineNow (s : State) (line : Nat) : LineRep :=
  match openMerge s line with
  | some m => m.rep
  | none => lineRep s line
/-- Bytes of a line as such a read delivers them. -/
def nowBytes (s : State) (pa n : Nat) : List Byte :=
  match openMerge s (pa / 64) with
  | some m => (m.rep.data.drop (pa % 64)).take n
  | none => Memory.read s.mem pa n
/-- The lines of a range are read so. -/
def seeRange (s : State) (pa n : Nat) : State := (linesOf pa n).foldl seeLine s

/-- An MSI-X message to the host (R393). -/
def msix (s : State) (vector : Nat) : State := { s with sys := { s.sys with msix := s.sys.msix ++ [vector] } }

end Sys2Proof.Machine
end

