-- ==== Sys2Proof/Machine/Csr.lean ====
section
/-! DEFINITION. The registers of the device control space as an access reads them (R392 to R402, R314, R350, R354, R355,
R379, R389). -/

namespace Sys2Proof.Machine

/-- The context with a number. -/
def State.ctx (s : State) (c : Nat) : Ctx := s.ctxs.getD c Ctx.init
/-- Changes a context. -/
def State.updCtx (s : State) (c : Nat) (f : Ctx → Ctx) : State := { s with ctxs := s.ctxs.put c (f (s.ctx c)) }
/-- The core with a number. -/
def State.core (s : State) (c : Nat) : Core := s.cores.getD c Core.init
/-- Changes a core. -/
def State.updCore (s : State) (c : Nat) (f : Core → Core) : State := { s with cores := s.cores.put c (f (s.core c)) }

/-! ## The device control space -/

/-- A dword of 32-bit halves. -/
def dw (hi lo : Word) : Dword := hi ++ lo
/-- A 64-bit register from a number. -/
def d64 (n : Nat) : Dword := BitVec.ofNat 64 n
/-- The dword at an index of a list of bytes. -/
def dwordAt (l : List Byte) (i : Nat) : Dword := d64 (leNat ((l.drop (8 * i)).take 8))

/-- Blocks of a context now resident: a retired one is counted until its completion flush (R331, R343). -/
def residentOf (s : State) (c : Nat) : Nat :=
  (s.blocks.filter (fun e => e.2.ctx == c && (match e.2.place with
    | .dormant _ _ _ _ => false
    | .retired _ counted => !counted
    | _ => true))).length
/-- Whether a block is dormant. -/
def Block.dormant (b : Block) : Bool :=
  match b.place with
  | .dormant _ _ _ _ => true
  | _ => false
/-- Blocks of a context now dormant. -/
def dormantOf (s : State) (c : Nat) : Nat := (s.blocks.filter (fun e => e.2.ctx == c && e.2.dormant)).length

/-- CSTATc (R314). -/
def cstatReg (s : State) (c : Nat) : Dword :=
  d64 (residentOf s c * 2 ^ 32 + dormantOf s c % 65536 * 2 ^ 16 + (s.ctx c).st)
/-- CTXDc (R314). -/
def ctxdReg (s : State) (c : Nat) : Dword := d64 ((s.ctx c).desc * 64 + b2n (s.ctx c).en)
/-- LLTj (R354). -/
def lltReg (s : State) (j : Nat) : Dword :=
  let p := s.fab.ports.getD j Port.init
  d64 (p.fails * 2 ^ 24 + p.width * 2 ^ 18 + p.st * 2 ^ 16 + p.nport * 2 ^ 10 + p.ndev)
/-- The dword of the device control space at an 8-aligned offset from CS; offsets that no map names read 0 (R392). -/
def controlReg (s : State) (off : Nat) : Dword :=
  let full := s.part.full
  if off = 0x0 then d64 (s.sys.err * 65536 + s.sys.stage)
  else if off = 0x8 then d64 s.sys.devid
  else if off = 0x10 then d64 (s.sys.hwbase * 2 ^ 36)
  else if 0x40 ≤ off && off < 0x60 then dwordAt s.sys.nonce ((off - 0x40) / 8)
  else if off = 0x60 then d64 (b2n s.sys.attest)
  else if 0x1000 ≤ off && off < 0x17A0 then (if s.sys.stage < 3 then 0 else Config.freeDword (2 ^ 40 + off))
  else if 0x2000 ≤ off && off < 0x2000 + s.sys.report.length then dwordAt s.sys.report ((off - 0x2000) / 8)
  else if 0x10000 ≤ off && off < 0x10200 then ctxdReg s ((off - 0x10000) / 8)
  else if 0x10200 ≤ off && off < 0x10400 then cstatReg s ((off - 0x10200) / 8)
  else if off = 0x10400 then s.sys.tcap
  else if off = 0x10408 then s.sys.draint
  else if off = 0x10410 then s.sys.xinv
  else if 0x20000 ≤ off && off < 0x20080 then (if full then lltReg s ((off - 0x20000) / 8) else 0)
  else if off = 0x20080 then (if full then s.fab.domctl else 0)
  else if off = 0x20088 then (if full then s.fab.expctl else 0)
  else if off = 0x30000 then (if full then s.sys.audctl else 0)
  else if off = 0x40000 then s.sys.tstat
  else if off = 0x50000 then s.sys.didt
  else if off = 0x50008 then s.sys.dormt
  else if off = 0x50010 then s.sys.pwrlim
  else if 0x50100 ≤ off && off < 0x50100 + 8 * s.part.cores then (s.core ((off - 0x50100) / 8)).sratio
  else if 0x50800 ≤ off && off < 0x50800 + 8 * s.part.cores then (s.core ((off - 0x50800) / 8)).refage
  else if off = 0x60000 then s.sys.snapctl
  else if off = 0x60008 then s.sys.snaptime
  else if off = 0x60010 then s.sys.snapbuf
  else if off = 0x60018 then d64 (s.sys.snapseq * 2 ^ 32 + s.sys.snapmiss * 65536 + b2n (!s.sys.snap.isEmpty))
  else if off = 0x70000 then dw s.sys.etail s.sys.ehead
  else if off = 0x70008 then s.sys.errbase
  else if off = 0x70010 then s.sys.edrop.setWidth 64
  else if 0x70100 ≤ off && off < 0x70100 + 8 * 8 then d64 (s.sys.corrStack.getD ((off - 0x70100) / 8) 0)
  else if 0x70200 ≤ off && off < 0x70200 + 8 * s.part.cores then d64 (s.sys.corrCore.getD ((off - 0x70200) / 8) 0)
  else 0
/-- `n` bytes of the device control space. -/
def controlBytes (s : State) (off n : Nat) : List Byte :=
  (List.range n).map (fun j => BitVec.ofNat 8 ((controlReg s ((off + j) / 8 * 8)).toNat / 2 ^ (8 * ((off + j) % 8))))

end Sys2Proof.Machine
end

