-- ==== Sys2Proof/Machine/Xlat.lean ====
section
/-! DEFINITION. Translation and its checks (R155, R377 to R379, R390), accesses of the sequencer under a context's
translation, and the context fault log with its page-fault records (R380 to R382). -/

namespace Sys2Proof.Machine

/-! ## Translation -/

/-- How an access uses a page. -/
inductive Acc where
  | read | write | fetch
  deriving DecidableEq, Repr

/-- The end of a table walk: a leaf with the physical address, not present, malformed. -/
inductive Walk where
  | leaf (pa : Nat) (pte : Dword) | absent | malformed
  deriving DecidableEq, Repr

/-- FRAME of an entry (R378). -/
def pteFrame (e : Dword) : Nat := (e.extractLsb' 16 36).toNat * 65536
/-- The must-be-0 bits of an entry (R378). -/
def pteClean (e : Dword) : Bool := e.extractLsb' 52 12 == 0 && e.extractLsb' 5 11 == 0
def pteV (e : Dword) : Bool := e.getLsbD 0
def pteW (e : Dword) : Bool := e.getLsbD 1
def pteX (e : Dword) : Bool := e.getLsbD 2
def pteNC (e : Dword) : Bool := e.getLsbD 3
def pteLeaf (e : Dword) : Bool := e.getLsbD 4

/-- The line of the entry `i` of a table, when it lies in device DRAM. -/
def pteLine (s : State) (table i : Nat) : Option Nat :=
  if table + 65536 ≤ s.part.dram then some ((table + 8 * i) / 64) else none
/-- Reads the entry `i` of the table at a physical address, in device DRAM (R377), as its home slice delivers the line (R242, R262):
the lines read before and this one, the state after it, the entry, none for a poisoned one. An entry of a table that does not lie in
device DRAM reads 0 (DESIGN CHOICE, log entry 52). -/
def pteAt (x : List Nat × State) (table i : Nat) : (List Nat × State) × Option Dword :=
  match pteLine x.2 table i with
  | none => (x, some 0)
  | some l =>
    let s := seeLine x.2 l
    ((x.1 ++ [l], s), if (lineNow s l).bad then none else some (BitVec.ofNat 64 (leNat (nowBytes s (table + 8 * i) 8))))

/-- The three levels of R377: the lines read, the state after them, and where the walk ends. A poisoned entry is taken as a
malformed one: the spec names no outcome of it (DESIGN CHOICE, log entry 52). -/
def walkRead (s : State) (root va : Nat) : (List Nat × State) × Walk :=
  match pteAt ([], s) root (va / 2 ^ 42 % 8192) with
  | (x, none) => (x, .malformed)
  | (x, some e1) =>
    if !pteV e1 then (x, .absent)
    else if !pteClean e1 || pteLeaf e1 then (x, .malformed)
    else
      match pteAt x (pteFrame e1) (va / 2 ^ 29 % 8192) with
      | (x, none) => (x, .malformed)
      | (x, some e2) =>
        if !pteV e2 then (x, .absent)
        else if !pteClean e2 then (x, .malformed)
        else if pteLeaf e2 then
          (x, if pteFrame e2 % 2 ^ 29 = 0 then .leaf (pteFrame e2 + va % 2 ^ 29) e2 else .malformed)
        else
          match pteAt x (pteFrame e2) (va / 2 ^ 16 % 8192) with
          | (x, none) => (x, .malformed)
          | (x, some e3) =>
            if !pteV e3 then (x, .absent)
            else if !pteClean e3 || !pteLeaf e3 then (x, .malformed)
            else (x, .leaf (pteFrame e3 + va % 2 ^ 16) e3)
/-- Where the walk of an address ends. -/
def walk (s : State) (root va : Nat) : Walk := (walkRead s root va).2
/-- The state after a walk: the lines of its entries have been read. -/
def touchWalk (s : State) (root va : Nat) : State := (walkRead s root va).1.2
/-- The lines of a context's translation of an address are read. -/
def touchVa (s : State) (ctx va : Nat) : State := touchWalk s (s.ctx ctx).ptroot.toNat (va % 2 ^ 55)

/-- Whether the home slices have room for the reads of a core's walk (R245). -/
def walkRoom (s : State) (ctx va : Nat) : Bool := (walkRead s (s.ctx ctx).ptroot.toNat (va % 2 ^ 55)).1.1.all (coreRoom s)

/-- What an access meets (R155): where it is performed, or the condition that stops it. -/
inductive Chk where
  | ok (pa : Nat) (nc : Bool) | remote (dev off : Nat) | misal | accv (code : Nat) | absent
  deriving DecidableEq, Repr

/-- Whether a byte of the device control space, by its offset from CS, belongs to a register that some agent may write: those
only the host and the management complex write (R392). EHEAD is the lower half of its dword (R402). -/
def controlWritable (p : Config.Part) (off : Nat) : Bool :=
  let r := off / 8 * 8
  r == 0x8 || r == 0x10 || (0x40 ≤ r && r < 0x68)
  || (0x10000 ≤ r && r < 0x10200) || r == 0x10400 || r == 0x10408 || r == 0x10410
  || (p.full && (r == 0x20080 || r == 0x20088 || r == 0x30000))
  || r == 0x50000 || r == 0x50008 || r == 0x50010 || (0x50100 ≤ r && r < 0x50100 + 8 * p.cores)
  || (0x50800 ≤ r && r < 0x50800 + 8 * p.cores)
  || r == 0x60000 || r == 0x60008 || r == 0x60010
  || off / 4 * 4 == 0x70000 || r == 0x70008
/-- Whether a write of `n` bytes at a physical address reaches such a register. -/
def controlHit (s : State) (pa n : Nat) : Bool :=
  regionOf s.part pa == .control && (List.range n).any (fun k => controlWritable s.part (pa - Config.csBase + k))

/-- The checks on a leaf (R238, R378, R390). -/
def leafChk (s : State) (pa : Nat) (pte : Dword) (a : Acc) : Chk :=
  if a = .write && !pteW pte then .accv 4
  else if a = .fetch && !pteX pte then .accv 7
  else
    match regionOf s.part pa with
    | .none => .accv 5
    | .dram => if (savedPages s).contains (pa / 65536) then .accv 5 else .ok pa (pteNC pte)
    | .host => if (savedPages s).contains (pa / 65536) then .accv 5 else .ok pa (pteNC pte)
    | .control =>
      if a = .write && controlWritable s.part (pa - Config.csBase) then .accv 5 else .ok pa true

/-- Translates a local-window address by a fresh walk (R377, R378). -/
def freshChk (s : State) (ctx va : Nat) (a : Acc) : Chk :=
  match walk s (s.ctx ctx).ptroot.toNat (va % 2 ^ 55) with
  | .absent => .absent
  | .malformed => .accv 8
  | .leaf pa pte => leafChk s pa pte a

/-- The translation a core has cached for a page (R379). -/
def tlbFind (l : List Tlb) (ctx page : Nat) : Option Tlb := l.find? (fun t => t.ctx == ctx && t.page == page)

/-- Translates for a core: a cached leaf is used, and a permission failure through it is checked by a fresh walk
(R379). -/
def coreChk (s : State) (core ctx va : Nat) (a : Acc) : Chk :=
  match tlbFind (s.core core).tlb ctx (va / 65536) with
  | none => freshChk s ctx va a
  | some t =>
    match leafChk s (t.pa + va % 65536) t.pte a with
    | .accv 4 => freshChk s ctx va a
    | .accv 7 => freshChk s ctx va a
    | r => r

/-- Whether an access of a core walks: no cached leaf serves it, or the one that does fails it a permission (R379). -/
def coreWalks (s : State) (core ctx : Nat) (va : Dword) (a : Acc) : Bool :=
  if va.toNat / 2 ^ 55 ≠ 0 then false
  else
    match tlbFind (s.core core).tlb ctx (va.toNat / 65536) with
    | none => true
    | some t => (match leafChk s (t.pa + va.toNat % 65536) t.pte a with
      | .accv 4 => true
      | .accv 7 => true
      | _ => false)
/-- The walks of some accesses of a core read their lines (R262); none while a home slice has no room for them (R245). -/
def walkAll (s : State) (core ctx : Nat) (vas : List Dword) (a : Acc) : Option State :=
  vas.foldl (fun (o : Option State) va => o.bind (fun s =>
    if !coreWalks s core ctx va a then some s
    else if walkRoom s ctx va.toNat then some (touchVa s ctx va.toNat) else none)) (some s)
/-- Reads the lines of a core's walk, and caches the leaf that it leads to; the oldest entry makes room (R379). -/
def tlbFill (s0 : State) (core ctx va : Nat) : State :=
  if (tlbFind (s0.core core).tlb ctx (va / 65536)).isSome then s0
  else
    let s := touchVa s0 ctx va
    match walk s (s.ctx ctx).ptroot.toNat (va % 2 ^ 55) with
    | .leaf pa pte => s.updCore core (fun k =>
        { k with tlb := ({ ctx := ctx, page := va / 65536, pa := pa - va % 65536, pte := pte } :: k.tlb).take
                          Config.tlbEntries })
    | _ => s

/-- An access through the remote window as its issuing device sees it: it ends unperformed when the device belongs to no
formed domain, or DEV is not in the domain map (R352). -/
def windowChk (s : State) (n : Nat) : Chk :=
  let dev := n / 2 ^ 45 % 1024
  if !s.part.full then .accv 2
  else if s.fab.devs.isEmpty then .accv 0x24
  else if !s.fab.devs.contains dev then .accv 0x20
  else .remote dev (n % 2 ^ 45)
/-- The checks of R155 in their order, for an access of a core of `align` bytes, or of the first byte of one that need not be aligned. -/
def accessChk (s : State) (core ctx : Nat) (va : Dword) (align : Nat) (a : Acc) : Chk :=
  let n := va.toNat
  if n % align ≠ 0 then .misal
  else if n / 2 ^ 56 ≠ 0 then .accv 1
  else if va.getLsbD 55 then windowChk s n
  else
    match coreChk s core ctx n a with
    | .ok pa nc => if a = .write && controlHit s pa align then .accv 5 else .ok pa nc
    | r => r

/-- The checks for an agent that caches no translation: the sequencer, the hub, the audit unit. -/
def seqChk (s : State) (ctx : Nat) (va : Dword) (a : Acc) : Chk :=
  let n := va.toNat
  if n / 2 ^ 56 ≠ 0 then .accv 1
  else if va.getLsbD 55 then .accv 5
  else freshChk s ctx n a

/-! ## Reads and writes under a context's translation -/

/-- Whether a run of bytes can be accessed: its first page that is absent, or the first condition met. -/
def rangeChk (s : State) (ctx : Nat) (va : Dword) (n : Nat) (a : Acc) : Chk :=
  let first := va.toNat / 65536
  let pages := if n = 0 then 0 else (va.toNat + n - 1) / 65536 - first + 1
  let chks := (List.range pages).map (fun i =>
    seqChk s ctx (if i = 0 then va else BitVec.ofNat 64 ((first + i) * 65536)) a)
  let hit (i : Nat) : Bool := match chks[i]? with
    | some (.ok pa _) => controlHit s pa (Nat.min (65536 - pa % 65536) (va.toNat + n - Nat.max va.toNat ((first + i) * 65536)))
    | _ => false
  match chks.find? (fun c => match c with | .ok _ _ => false | _ => true) with
  | some c => c
  | none => if a = .write && (List.range pages).any hit then .accv 5 else (chks.head?).getD (.ok 0 false)
/-- The translations of a range of bytes are read, a page at a time (R262). -/
def touchPages (s : State) (ctx : Nat) (va : Dword) (n : Nat) : State :=
  (List.range (if n = 0 then 0 else (va.toNat + n - 1) / 65536 - va.toNat / 65536 + 1)).foldl (fun s i =>
    touchVa s ctx (Nat.max va.toNat ((va.toNat / 65536 + i) * 65536))) s

/-- Whether the home slices have room for the reads of the walks of a range of bytes (R245). -/
def pagesRoom (s : State) (ctx : Nat) (va : Dword) (n : Nat) : Bool :=
  (List.range (if n = 0 then 0 else (va.toNat + n - 1) / 65536 - va.toNat / 65536 + 1)).all (fun i =>
    walkRoom s ctx (Nat.max va.toNat ((va.toNat / 65536 + i) * 65536)))
/-- The lines that a read of a range goes over are read, those of its translations first (R262). -/
def vtouch (s : State) (ctx : Nat) (va : Dword) (n : Nat) : State :=
  (linesOf va.toNat n).foldl (fun s l =>
    let a := BitVec.ofNat 64 (Nat.max (l * 64) va.toNat)
    let s1 := touchVa s ctx a.toNat
    match seqChk s1 ctx a .read with
    | .ok pa _ => if regionOf s.part pa == .dram then seeLine s1 (pa / 64) else s1
    | _ => s1) s
/-- A byte at a physical address as a read delivers it: of the line, or of a register of the control space (R242, R392). -/
def byteNow (s : State) (pa : Nat) : Byte :=
  if regionOf s.part pa == .control then ((controlBytes s (pa - Config.csBase) 1).head?).getD 0
  else ((nowBytes s pa 1).head?).getD 0
/-- Reads bytes at virtual addresses, a line at a time; a byte that cannot be read is absent from the answer. -/
def vread (s : State) (ctx : Nat) (va : Dword) (n : Nat) : Option (List Byte) :=
  let parts := (List.range n).map (fun i =>
    match seqChk s ctx (va + BitVec.ofNat 64 i) .read with
    | .ok pa _ => some (byteNow s pa)
    | _ => none)
  if parts.all Option.isSome then some (parts.filterMap id) else none

/-- Whether any line that backs a readable range is poisoned. -/
def vbad (s : State) (ctx : Nat) (va : Dword) (n : Nat) : Bool :=
  (linesOf va.toNat n).any (fun l =>
    match seqChk s ctx (BitVec.ofNat 64 (Nat.max (l * 64) va.toNat)) .read with
    | .ok pa _ => (lineNow s (pa / 64)).bad
    | _ => false)

/-- Writes bytes at virtual addresses, one acceptance for each line; `fuel` bounds the lines. -/
def vwriteLines : Nat → State → Nat → Dword → List Byte → Bool → State
  | 0, s, _, _, _, _ => s
  | fuel + 1, s, ctx, va, bytes, bad =>
    match bytes with
    | [] => s
    | _ =>
      let k := 64 - va.toNat % 64
      let s1 := match seqChk s ctx va .write with
        | .ok pa _ => if regionOf s.part pa == .control then s else homeWrite s pa (bytes.take k) bad
        | _ => s
      vwriteLines fuel s1 ctx (va + BitVec.ofNat 64 k) (bytes.drop k) bad

/-- Writes a run of bytes when all of it can be written. -/
def vwrite (s : State) (ctx : Nat) (va : Dword) (bytes : List Byte) : Option State :=
  match rangeChk s ctx va bytes.length .write with
  | .ok _ _ => some (vwriteLines (bytes.length / 64 + 2) s ctx va bytes false)
  | _ => none

/-- A 32-bit word at a virtual address. -/
def vword (s : State) (ctx : Nat) (va : Dword) : Option Word := (vread s ctx va 4).map (fun b => BitVec.ofNat 32 (leNat b))

/-! ## The context fault log (R381, R382) -/

/-- The 64 bytes of a record (R382). -/
def mkRecord (kind : Nat) (source : Word) (time : Nat) (addr obj : Dword) (blk : Word) (node : Nat)
    (info1 info2 : Dword) : List Byte :=
  leBytes 2 kind ++ leBytes 2 0 ++ leBytes 4 source.toNat ++ leBytes 8 time ++ leBytes 8 addr.toNat
    ++ leBytes 8 obj.toNat ++ leBytes 4 blk.toNat ++ leBytes 4 node ++ leBytes 8 info1.toNat ++ leBytes 8 info2.toNat
    ++ leBytes 8 0

/-- What became of a record. -/
inductive Logged where
  | written (n : Nat) | full | lost | wait
  deriving DecidableEq, Repr

/-- WHERE of a source that is no thread (R382). -/
def noWhere : Word := 0xFFFFFFFF
/-- WHERE of a thread (R382). -/
def whereOf (core slot : Nat) : Word := BitVec.ofNat 32 (core + 256 * slot)

/-- Whether a range lies in host memory while the host link is out of L0 (R393), or in a line on which atomics are queued (R244). -/
def linkAway (s : State) (c : Nat) (va : Dword) (n : Nat) : Bool :=
  (linesOf va.toNat n).any (fun l =>
    match seqChk s c (BitVec.ofNat 64 (Nat.max (l * 64) va.toNat)) .read with
    | .ok pa _ => (!s.sys.hostL0 && regionOf s.part pa == .host) || heldLine s (pa / 64)
    | _ => false)
/-- Writes a record of a context: its bytes, TAIL with release at system scope, the message. A log that cannot be
written loses the record with a device error event (R381); one in host memory waits for the host link (R393). -/
def logRecord (s0 : State) (c : Nat) (r : List Byte) : State × Logged :=
  let x := s0.ctx c
  let s := vtouch s0 c x.flog 64
  if linkAway s0 c x.flog 64 then (s0, .wait)
  else match vword s c x.flog, vword s c (x.flog + 4) with
  | some head, some tail =>
    if vbad s c x.flog 64 then (devError s 6 none none, .lost)
    else if (tail - head).toNat ≥ 2 ^ x.log2n then (s, .full)
    else
      let slot := x.flog + 64 + BitVec.ofNat 64 (64 * (tail.toNat % 2 ^ x.log2n))
      match (if linkAway s c slot 64 then none else some (vwrite s c slot r)) with
      | none => (s, .wait)
      | some none => (devError s 6 none none, .lost)
      | some (some s1) =>
        match vwrite s1 c (x.flog + 4) (leBytes 4 (tail.toNat + 1)) with
        | none => (devError s1 6 none none, .lost)
        | some s2 => (msix s2 x.msix, .written tail.toNat)
  | _, _ => (devError s 6 none none, .lost)

/-- Writes a record of a kind other than 1: for lack of room it is dropped and counted in DROPS (R381); behind others that wait for
the host link it waits. -/
def logEvent (s : State) (c : Nat) (r : List Byte) : State :=
  let hold (s : State) : State := s.updCtx c (fun x => { x with logs := x.logs ++ [r] })
  if !(s.ctx c).logs.isEmpty then hold s
  else match logRecord s c r with
  | (s1, .wait) => hold s1
  | (s1, .full) =>
    let x := s1.ctx c
    match vword s1 c (x.flog + 12) with
    | some d => (vwrite s1 c (x.flog + 12) (leBytes 4 (d.toNat + 1))).getD s1
    | none => s1
  | (s1, _) => s1

/-- The records of a context that wait for the host link are tried again, oldest first. -/
def flushLogs (s : State) (c : Nat) : State :=
  (s.ctx c).logs.foldl (fun s r => logEvent s c r) (if (s.ctx c).logs.isEmpty then s else s.updCtx c (fun x => { x with logs := [] }))

/-- The record of a page fault. -/
def faultRecord (f : PageFault) : List Byte :=
  mkRecord 1 f.source f.time f.va f.obj f.blk f.node (BitVec.ofNat 64 f.info) (BitVec.ofNat 64 f.n)

/-- Writes the records that await room, oldest first (R380, R381). A lost record leaves its page answered as by RESP 2:
the pages so answered are the second result. -/
def flushFaults (s : State) (c : Nat) : State × List Nat :=
  (s.ctx c).faults.foldl (fun (acc : State × List Nat) f =>
    if f.recNo.isSome then acc
    else
      match logRecord acc.1 c (faultRecord f) with
      | (s1, .written n) =>
        (s1.updCtx c (fun x => { x with faults := x.faults.map (fun g =>
          if g.page = f.page && g.recNo.isNone then { g with recNo := some n } else g) }), acc.2)
      | (s1, .full) => (s1, acc.2)
      | (s1, .wait) => (s1, acc.2)
      | (s1, .lost) =>
        (s1.updCtx c (fun x => { x with faults := x.faults.filter (fun g => !(g.page == f.page)) }), f.page :: acc.2))
    (s, [])

/-- Accesses, `n` of them, meet V = 0 in one page: they join the fault outstanding on it, or open one and write its record
(R380). The second result lists pages whose record was lost. -/
def pageFault (s : State) (c : Nat) (va : Dword) (info n : Nat) (source : Word) (obj : Dword) (blk : Word)
    (node : Nat) : State × List Nat :=
  let page := va.toNat % 2 ^ 55 / 65536
  match (s.ctx c).faults.find? (fun f => f.page == page) with
  | some f =>
    if f.recNo.isSome then (s, [])
    else (s.updCtx c (fun x => { x with faults := x.faults.map (fun g =>
      if g.page = page then { g with info := g.info ||| info, n := g.n + n } else g) }), [])
  | none =>
    let f : PageFault := { page := page, va := va, time := s.gtime, recNo := none, info := info, n := n, source := source, obj := obj,
                           blk := blk, node := node }
    flushFaults (s.updCtx c (fun x => { x with faults := x.faults ++ [f] })) c

end Sys2Proof.Machine
end

