-- ==== Sys2Proof/Machine/Ops.lean ====
section
/-! DEFINITION. The named operations over threads, fronds, blocks and cores: registers with their pending results and
poison, tokens, releases, the killing of a block, taking a trap and returning from one (R366 to R373). -/

namespace Sys2Proof.Machine

/-! ## Registers of a thread -/

/-- A vector register. -/
def Thread.getV (t : Thread) (n : Nat) : Word := t.v.getD n 0
/-- A vector register, written whole, with its poison (R386). -/
def Thread.putV (t : Thread) (n : Nat) (x : Word) (bad : Bool) : Thread :=
  { t with v := t.v.set 0 n x, vbad := markNat t.vbad n bad }
/-- A predicate; p15 reads true (R15). -/
def Thread.getP (t : Thread) (n : Nat) : Bool := n == 15 || t.p.getLsbD n
/-- A bit of a 16-bit value set or cleared. -/
def setBit16 (x : BitVec 16) (n : Nat) (b : Bool) : BitVec 16 :=
  if b then x ||| (1#16 <<< n) else x &&& ~~~(1#16 <<< n)
/-- Writes a predicate; a write to p15 is discarded (R15, R63). -/
def Thread.putP (t : Thread) (n : Nat) (b bad : Bool) : Thread :=
  if n = 15 then t else { t with p := setBit16 t.p n b, pbad := setBit16 t.pbad n bad }
/-- A uniform register of a frond. -/
def Frond.getS (f : Frond) (n : Nat) : Dword := f.s.getD n 0
/-- Writes a uniform register with its poison. -/
def Frond.putS (f : Frond) (n : Nat) (x : Dword) (bad : Bool) : Frond :=
  { f with s := f.s.set 0 n x, sbad := markNat f.sbad n bad }

/-- Whether a register is poisoned in a lane. -/
def regBad (f : Frond) (t : Thread) : Reg → Bool
  | .v n => t.vbad.contains n
  | .p n => n != 15 && t.pbad.getLsbD n
  | .s n => f.sbad.contains n

/-- A token counter (R67). -/
def Thread.getTok (t : Thread) (k : Nat) : Nat := t.tok.getD k 0
/-- Sets a token counter. -/
def Thread.setTok (t : Thread) (k n : Nat) : Thread := { t with tok := t.tok.set 0 k n }
/-- A token is set once more in a thread (R67). -/
def Thread.incTok (t : Thread) (k : Nat) : Thread := t.setTok k (t.getTok k + 1)
/-- A token-tracked result has been written (R67). -/
def Thread.decTok (t : Thread) (k : Nat) : Thread := t.setTok k (t.getTok k - 1)

/-- The registers an operand names in an operation of 32 or 64 bits. -/
def opndRegs (x : Opnd) (wide : Bool) : List Reg :=
  match x with
  | .v r => if wide then [.v r.val, .v (r.val + 1)] else [.v r.val]
  | .s r => [.s r.val]
  | _ => []
/-- `n` v-registers from `d`. -/
def vregs (d n : Nat) : List Reg := (List.range n).map (fun i => .v (d + i))

/-! ## Blocks, threads and fronds of the state -/

def State.block (s : State) (bid : Nat) : Option Block := s.blocks.get? bid
def State.updBlock (s : State) (bid : Nat) (f : Block → Block) : State := { s with blocks := s.blocks.modify bid f }
def Block.thread (b : Block) (tid : Nat) : Option Thread := b.threads.get? tid
def Block.updThread (b : Block) (tid : Nat) (f : Thread → Thread) : Block :=
  { b with threads := b.threads.modify tid f }
def Block.updThreads (b : Block) (tids : List Nat) (f : Nat → Thread → Thread) : Block :=
  { b with threads := b.threads.mapVal (fun k t => if tids.contains k then f k t else t) }
def Block.updFrond (b : Block) (slot : Nat) (f : Frond → Frond) : Block := { b with fronds := b.fronds.modify slot f }
def State.thread (s : State) (bid tid : Nat) : Option Thread := (s.block bid).bind (fun b => b.thread tid)
def State.updThread (s : State) (bid tid : Nat) (f : Thread → Thread) : State :=
  s.updBlock bid (fun b => b.updThread tid f)
def State.updThreads (s : State) (bid : Nat) (tids : List Nat) (f : Nat → Thread → Thread) : State :=
  s.updBlock bid (fun b => b.updThreads tids f)
def State.updFrond (s : State) (bid slot : Nat) (f : Frond → Frond) : State :=
  s.updBlock bid (fun b => b.updFrond slot f)
def State.launch (s : State) (l : Nat) : Option Launch := s.launches.get? l
def State.updLaunch (s : State) (l : Nat) (f : Launch → Launch) : State :=
  { s with launches := s.launches.modify l f }
/-- A fresh identifier. -/
def State.fresh (s : State) : Nat × State := (s.seq, { s with seq := s.seq + 1 })

/-- The core a block stands on. -/
def Block.core? (b : Block) : Option Nat :=
  match b.place with
  | .resident k => some k
  | _ => none
/-- The core a block stands on, 0 for none. -/
def Block.core (b : Block) : Nat := (b.core?).getD 0
/-- Threads of a block that have not exited. -/
def Block.live (b : Block) : List (Nat × Thread) := b.threads.filter (fun e => !e.2.exited)
/-- Members of a frond that have not exited (R45). -/
def Block.liveMembers (b : Block) (slot : Nat) : List (Nat × Thread) := (b.members slot).filter (fun e => !e.2.exited)
/-- Insertion by a key, smallest first. -/
def insBy (key : Nat → Nat) (x : Nat) : List Nat → List Nat
  | [] => [x]
  | y :: t => if key x ≤ key y then x :: y :: t else y :: insBy key x t
/-- A list in rising order of a key. -/
def sortBy (key : Nat → Nat) : List Nat → List Nat
  | [] => []
  | x :: t => insBy key x (sortBy key t)
/-- The lane of a thread. -/
def Block.laneOf (b : Block) (tid : Nat) : Nat := ((b.thread tid).map (·.lane)).getD 0
/-- Threads in ascending lane. -/
def Block.byLane (b : Block) (tids : List Nat) : List Nat := sortBy b.laneOf tids

/-- The resident block that owns a frond slot of a core. -/
def State.blockAt (s : State) (core slot : Nat) : Option (Nat × Block) :=
  s.blocks.find? (fun e => e.2.core? == some core && (e.2.fronds.get? slot).isSome)

/-- Whether scope takes in the die or more (R157). -/
def wideScope : Scope → Bool
  | .die | .dev | .sys => true
  | _ => false

/-- The clean global lines leave the L1; replies sent for before install nothing (R249, R251). -/
def Core.invalGlobal (k : Core) : Core :=
  { k with l1 := k.l1.filter (fun e => e.2.priv.isSome), fills := k.fills.map (fun f => { f with install := false }) }
/-- An acquire at a scope, made by a core (R157). -/
def acquireAt (s : State) (core : Nat) (sc : Scope) : State :=
  if wideScope sc then s.updCore core Core.invalGlobal else s
/-- One line leaves the L1 (R249). -/
def Core.invalLine (k : Core) (line : Nat) : Core :=
  { k with l1 := k.l1.filter (fun e => !(e.1 == line && e.2.priv.isNone)),
           fills := k.fills.map (fun f => if f.line = line then { f with install := false } else f) }

/-! ## What threads know of accumulator writes (R273, R274, R307) -/

/-- Where a release has published: at a named barrier, by its number, and there in a phase that has completed; by a fence; at a home
slice; at a word of the scratchpad. -/
def atFence : Nat := 16
def atHome : Nat := 17
def atDone (bar : Nat) : Nat := 32 + bar
def atScr (word : Nat) : Nat := 64 + word
/-- A release by some threads publishes the accumulator writes that happened before it. -/
def Block.publish (b : Block) (tids : List Nat) (place : List Nat) : Block :=
  { b with stas := b.stas.map (fun e => if tids.any e.known.contains then { e with pubAt := place.foldl addNat e.pubAt } else e) }
/-- An acquire by some threads: the writes published at certain places happened before what follows. What an acquire outside the named
barriers has read from is not followed up: it takes in every release of its kind (DESIGN CHOICE, log entry 57). -/
def Block.learn (b : Block) (tids : List Nat) (at_ : Nat → Bool) : Block :=
  { b with stas := b.stas.map (fun e => if e.pubAt.any at_ then { e with known := tids.foldl addNat e.known } else e) }
/-- Whether a place is one at which a home slice's word, a word of a wait or a fence has published. -/
def widePlace (p : Nat) : Bool := p == atFence || p == atHome
/-- An acquire of some threads of a block has completed. -/
def learnAt (s : State) (bid : Nat) (tids : List Nat) (at_ : Nat → Bool) : State := s.updBlock bid (fun b => b.learn tids at_)
/-- A phase of a barrier completes: its waiters know what the arrivals published. -/
def Block.phaseLearn (b : Block) (bar : Nat) (waiters : List Nat) : Block :=
  { b.learn waiters (· == bar) with
    stas := (b.learn waiters (· == bar)).stas.map (fun e =>
      if e.pubAt.contains bar then { e with pubAt := addNat (delNat e.pubAt bar) (atDone bar) } else e) }

/-! ## Release of waiters (R400) -/

/-- A thread goes on after its wait. -/
def Thread.wake (t : Thread) : Thread := { t with status := .eligible }
/-- A satisfied wait that its release wave has still to reach. -/
def Thread.waveTo (t : Thread) (due : Nat) : Thread :=
  match t.status with
  | .waiting w => { t with status := .waiting { w with wave := some due } }
  | _ => t

/-- The frond slots of some threads, ascending, without repeats. -/
def slotsOf (b : Block) (tids : List Nat) : List Nat :=
  (List.range Config.slots).filter (fun sl => tids.any (fun t => ((b.thread t).map (·.slot)) == some sl))

/-- Releases threads of one block whose event has come, each at its instant (R400). Threads of a dormant block only mark it
for revival (R50). -/
def releaseAs (s : State) (bid : Nat) (tids : List Nat) (due : Thread → Nat) : State :=
  match s.block bid with
  | none => s
  | some b =>
    let free (t : Thread) : Thread := if due t ≤ s.gtime then t.wake else t.waveTo (due t)
    let b1 := b.updThreads tids (fun _ t => free t)
    let place := match b.place with
      | .dormant base size pages _ => if tids.isEmpty then b.place else .dormant base size pages true
      | p => p
    { s with blocks := s.blocks.put bid { b1 with place := place } }
/-- A dormant block is marked for revival (R50). -/
def wakeBlock (s : State) (bid : Nat) : State :=
  s.updBlock bid (fun b => match b.place with
    | .dormant base size pages _ => { b with place := .dormant base size pages true }
    | _ => b)
/-- Threads of one block whose event has come: fronds in ascending FSLOT, WAVE at a time, GAP ns apart (R400). -/
def releaseWaiters (s : State) (bid : Nat) (tids : List Nat) : State :=
  match s.block bid with
  | none => s
  | some b => releaseAs s bid tids (fun t => waveDue s (slotsOf b tids) t.slot)

/-- Threads of a block whose wait meets a condition and is not yet satisfied. -/
def Block.waitersFor (b : Block) (p : WaitRec → Bool) : List Nat :=
  (b.threads.filter (fun e => match e.2.status with | .waiting w => w.wave.isNone && p w | _ => false)).map (·.1)

/-- The acquire of the waits that end in a block: of the L1 when one of them has a wide scope (R157), and of what other threads have
released, for `cbar` and `stepn` (R272). -/
def acquireFor (s : State) (bid : Nat) (b : Block) (tids : List Nat) : State :=
  let waits (p : WaitRec → Bool) (t : Nat) : Bool := match b.thread t with
    | some u => (match u.status with | .waiting w => p w | _ => false)
    | none => false
  let s1 := match b.core? with
    | some k => if tids.any (waits (fun w => wideScope w.scope)) then s.updCore k Core.invalGlobal else s
    | none => s
  learnAt s1 bid (tids.filter (waits (fun w => match w.kind with
    | .cbar _ | .stepn => true
    | _ => false))) widePlace
/-- Releases the threads of a block whose wait meets a condition, with the acquire of their scopes (R157). -/
def releaseWhere (s : State) (bid : Nat) (p : WaitRec → Bool) : State :=
  match s.block bid with
  | none => s
  | some b => releaseWaiters (acquireFor s bid b (b.waitersFor p)) bid (b.waitersFor p)
/-- Some threads of several blocks: a block's identity and its threads. -/
abbrev Waiters := List (Nat × List Nat)
/-- The frond slots of a core among some threads of several blocks. -/
def slotsOnCore (s : State) (l : Waiters) (core : Nat) : List Nat :=
  (List.range Config.slots).filter (fun k => l.any (fun e => match s.block e.1 with
    | some b => b.core? == some core && (slotsOf b e.2).contains k
    | none => false))
/-- Releases threads of several blocks for one event: the waves of a core go over all of them (R400). -/
def releaseMany (s : State) (l : Waiters) : State :=
  l.foldl (fun t e => match t.block e.1 with
    | none => t
    | some b => releaseAs (acquireFor t e.1 b e.2) e.1 e.2 (fun x => match b.core? with
        | some core => waveDue s (slotsOnCore s l core) x.slot
        | none => s.gtime)) s

/-- Releases `bjoin` when every member of the frond that has not exited waits at one (R45). -/
def bjoinCheck (s : State) (bid slot : Nat) : State :=
  match s.block bid with
  | none => s
  | some b =>
    let ms := b.liveMembers slot
    let at_ (t : Thread) : Bool := match t.status with
      | .waiting w => decide (w.kind = .bjoin)
      | _ => false
    if !ms.isEmpty && ms.all (fun e => at_ e.2) then
      s.updThreads bid (ms.map (·.1)) (fun _ t => t.wake)
    else s

/-! ## Named barriers (R185 to R188) -/

/-- A barrier that was not initialised has C = 0 (R185). -/
def Barrier.init : Barrier := { c := 0, a := 0, p := 0, ops := [] }
def Block.bar (b : Block) (i : Nat) : Barrier := b.bars.getD i Barrier.init
def Block.setBar (b : Block) (i : Nat) (x : Barrier) : Block := { b with bars := b.bars.put i x }

/-- Whether a phase `k` has completed when `p` phases have (R188). -/
def phaseDone (p k : BitVec 16) : Bool := decide (1 ≤ (p - k).toNat) && decide ((p - k).toNat ≤ 32767)

/-- Completes the phase of a barrier when its condition holds, and releases its waiters (R185, R187, R188). -/
def barCheck (s : State) (bid i : Nat) : State :=
  match s.block bid with
  | none => s
  | some b =>
    let x := b.bar i
    let full := if x.c = 0 then decide (0 < x.a) && decide (x.a ≥ b.live.length) else decide (x.a ≥ x.c)
    if full && x.ops.isEmpty then
      let p := x.p + 1
      let mine (w : WaitRec) : Bool := match w.kind with
        | .barr j ph => j == i && ph == x.p.toNat
        | .phase j k => j == i && phaseDone p k
        | _ => false
      let s1 := s.updBlock bid (fun b => (b.setBar i { x with a := 0, p := p }).phaseLearn i (b.waitersFor mine))
      releaseWhere s1 bid mine
    else s
/-- One arrival at a barrier (R185, R189). -/
def barArrive (s : State) (bid i : Nat) : State :=
  barCheck (s.updBlock bid (fun b => let x := b.bar i; b.setBar i { x with a := x.a + 1 })) bid i
/-- Every barrier of a block is tested again: a thread exited or an engine operation ended. -/
def barsRecheck (s : State) (bid : Nat) : State := (List.range 16).foldl (fun s i => barCheck s bid i) s

/-! ## Cohorts (R190) and convoys (R194) -/

/-- The block of a launch with a linear index. -/
def State.blockOf (s : State) (l idx : Nat) : Option (Nat × Block) :=
  s.blocks.find? (fun e => e.2.launch == l && e.2.idx == idx)
/-- Whether a block of a launch has retired or been killed. -/
def Launch.gone (x : Launch) (idx : Nat) : Bool := x.retired.contains idx || x.killed.contains idx

/-- The members of a cohort and the slot by which each of their blocks names it. -/
def cohortSlot (b : Block) (id : Nat) : Nat := indexIn (b.coh.map (·.id)) id

/-- Releases the `cbar` waiters of a cohort when every member has arrived, retired or been killed (R190). -/
def cbarCheck (s : State) (l id : Nat) : State :=
  match s.launch l with
  | none => s
  | some x =>
    match x.cohorts[id]? with
    | none => s
    | some c =>
      if !c.arrived.isEmpty && c.members.all (fun m => c.arrived.contains m || x.gone m) then
        let s1 := s.updLaunch l (fun x => { x with cohorts := x.cohorts.set id { c with arrived := [] } })
        releaseMany s1 (c.members.filterMap (fun m => (s1.blockOf l m).map (fun e =>
          (e.1, e.2.waitersFor (fun w => decide (w.kind = .cbar (cohortSlot e.2 id)))))))
      else s
/-- Tests every cohort of a launch. -/
def cbarRecheck (s : State) (l : Nat) : State :=
  match s.launch l with
  | none => s
  | some x => (List.range x.cohorts.length).foldl (fun s i => cbarCheck s l i) s
/-- A block whose live threads all wait at `cbar` on a slot arrives at that cohort (R190). -/
def cbarArrive (s : State) (bid : Nat) : State :=
  match s.block bid with
  | none => s
  | some b =>
    (List.range b.coh.length).foldl (fun s i =>
      let all := !b.live.isEmpty && b.live.all (fun e => match e.2.status with
        | .waiting w => w.wave.isNone && decide (w.kind = .cbar i)
        | _ => false)
      match b.coh[i]? with
      | some c =>
        if all then
          cbarCheck (s.updLaunch b.launch (fun x =>
            match x.cohorts[c.id]? with
            | some h => { x with cohorts := x.cohorts.set c.id { h with arrived := addNat h.arrived b.idx } }
            | none => x)) b.launch c.id
        else s
      | none => s) s

/-- The lowest position among the active members of a convoy. -/
def lowestActive (c : Cohort) : Option Nat :=
  (c.conv.filter (fun e => e.2.active)).foldl (fun (o : Option Nat) e => match o with
    | some n => some (Nat.min n e.2.pos)
    | none => some e.2.pos) none
/-- The lowest position among the other active members of a convoy, and whether one of those at it has lines left: a member
that stands at its count holds nothing behind it (R261). -/
def lowestOther (c : Cohort) (idx : Nat) : Option (Nat × Bool) :=
  (c.conv.filter (fun e => e.1 != idx && e.2.active)).foldl (fun (o : Option (Nat × Bool)) e =>
    let more := decide (e.2.pos < e.2.count)
    match o with
    | none => some (e.2.pos, more)
    | some (n, m) => if e.2.pos < n then some (e.2.pos, more) else if e.2.pos = n then some (n, m || more) else some (n, m)) none
/-- The hold rule for an active member that would read `n` lines (R193). -/
def convoyHeld (c : Cohort) (idx : Nat) (m : Member) (n : Nat) : Bool :=
  m.active && (match lowestOther c idx with
    | some (l, more) => more && decide (l + c.slip < m.pos + n)
    | none => false)
/-- The holds that stand now: since when. -/
def Cohort.holds (c : Cohort) : List Nat :=
  c.conv.flatMap (fun e => (e.2.parked.filter (fun h => convoyHeld c e.1 e.2 h.2.2)).map (fun h => h.2.1))
/-- The moment the first of the members that are held was parked (R193). -/
def Cohort.heldAt (c : Cohort) : Option Nat :=
  c.holds.foldl (fun (o : Option Nat) h => some (Nat.min (o.getD h) h)) none
/-- A member of a convoy changed. -/
def updMember (s : State) (l id idx : Nat) (f : Member → Member) : State :=
  s.updLaunch l (fun x =>
    match x.cohorts[id]? with
    | some c => { x with cohorts := x.cohorts.set id { c with conv := c.conv.modify idx f } }
    | none => x)
/-- A block leaves its convoy: both bits clear, its stream ends (R194). -/
def convoyLeave (s : State) (bid : Nat) : State :=
  match s.block bid with
  | none => s
  | some b =>
    match b.convoy with
    | none => s
    | some id =>
      (updMember s b.launch id b.idx (fun m => { m with active := false, detached := false, parked := [] })).updBlock bid
        (fun b => { b with convoy := none })

/-! ## Killing a block (R34, R205, R335, R373, R387) -/

/-- Whether an operation is a bank command that has begun and not ended. -/
def Op.movesBank (o : Op) : Bool :=
  o.stage != 0 && !o.done && (match o.kind with | .mxload _ => true | .mxevict _ => true | _ => false)
/-- Removes what a block holds on a core: its operations that are not frozen, their locks, its private lines, its
requests for data, its place as owner (R34, R205, R207). A bank that its command was filling or evicting is left empty (DESIGN
CHOICE, log entry 25: R205 stops the command, and R303 names no state for what it leaves). -/
def Core.dropBlock (k : Core) (bid : Nat) : Core :=
  let mine := (k.queue.filter (fun o => o.bid == bid)).map (·.id)
  let stops := k.queue.any (fun o => o.bid == bid && o.movesBank)
  { k with queue := k.queue.filter (fun o => !(o.bid == bid && !o.frozen)),
           locks := k.locks.filter (fun x => !mine.contains x.op),
           l1 := k.l1.filter (fun e => !(e.2.priv == some bid)),
           takes := k.takes.filter (fun t => !(t.1 == bid)),
           banks := if stops then k.banks.filter (fun e => e.2.st == 2) else k.banks,
           bins := k.bins.filter (fun e => !(e.2.bid == bid)),
           owner := if k.owner = some bid then none else k.owner }

/-- DSTATE of a formed domain: 2 while a map is being formed or a run is paused, then 3 where a run has ended partitioned (R235). -/
def Fabric.settled (f : Fabric) : Fabric :=
  if f.devs.isEmpty then f
  else { f with dstate := if f.forming || f.runs.any (·.paused) then 2 else if f.parted then 3 else 1 }
/-- Collective operations run no longer: their generations are retired (R364). With the last of those that a failure has paused the
recomputation ends (R361). -/
def Fabric.without (f : Fabric) (gone : CollRun → Bool) (now : Nat) : Fabric :=
  let rest := f.runs.filter (fun r => !gone r)
  let ended := f.runs.any (·.paused) && !rest.any (·.paused)
  Fabric.settled { f with runs := rest, recomps := if ended then f.recomps + 1 else f.recomps,
                          retired := f.retired ++ (f.runs.filter gone).map (fun r => (r.gen, now)) }
/-- The collective operations of a block run no longer (R205). -/
def dropRuns (s : State) (bid : Nat) : State :=
  { s with fab := s.fab.without (fun r => (s.core r.core).queue.any (fun o => o.id == r.op && o.bid == bid)) s.gtime }
/-- Removes a block from the machine: its resources, monitors, private region and convoy membership. -/
def removeBlock (s : State) (bid : Nat) (b : Block) : State :=
  let s1 := convoyLeave (dropRuns s bid) bid
  let prevCtx (k : Core) : Core := if k.owner = some bid then { k with prev := some b.ctx } else k
  let s2 := match b.place with
    | .resident k => s1.updCore k (fun c => (prevCtx c).dropBlock bid)
    | .retired k _ => s1.updCore k (fun c => (prevCtx c).dropBlock bid)
    | .dormant _ _ _ _ => s1
  let s3 := s2.updCtx b.ctx (fun c => { c with regions := c.regions.del bid })
  { s3 with blocks := s3.blocks.del bid, mons := s3.mons.filter (fun m => !(m.bid == bid)),
            focus := if s3.focus.map (·.1) = some bid then none else s3.focus }

/-- A drain without a resident block ends (R316, R338). -/
def drainCheck (s : State) (c : Nat) : State :=
  let x := s.ctx c
  if x.st = 2 && residentOf s c = 0 then
    s.updCtx c (fun x => { x with st := if x.disabling then 0 else 3, disabling := false, deadline := none })
  else s

/-- The node a launch came from. -/
def State.nodeOf (s : State) (l : Nat) : Nat := ((s.launch l).map (·.node)).getD 0

/-- Kills a block: no record (a forced reset). -/
def killQuiet (s : State) (bid : Nat) : State :=
  match s.block bid with
  | none => s
  | some b =>
    let s1 := removeBlock s bid b
    drainCheck (cbarRecheck (s1.updLaunch b.launch (fun x => { x with killed := addNat x.killed b.idx })) b.launch) b.ctx
/-- Kills a block with a record of kind 3 (R335, R382). -/
def killBlock (s : State) (bid reason : Nat) (source : Word) (addr info2 : Dword) : State :=
  match s.block bid with
  | none => s
  | some b =>
    let r := mkRecord 3 source s.gtime addr b.obase (BitVec.ofNat 32 b.idx) (s.nodeOf b.launch)
      (BitVec.ofNat 64 reason) info2
    logEvent (killQuiet s bid) b.ctx r
/-- A thread or operation uses a poisoned value (R387). -/
def killPoison (s : State) (bid slot : Nat) (addr : Dword) : State :=
  killBlock s bid 3 (whereOf (((s.block bid).map Block.core).getD 0) slot) addr 0

/-- Ends an audit whose copy met an access it may not make: a record of kind 8, and the copy alone is killed (R389). -/
def endAudit (s : State) (copy : Nat) (addr : Dword) : State :=
  match s.launch copy with
  | none => s
  | some x =>
    let r := mkRecord 8 noWhere s.gtime x.recAddr (((x.recs.head?).map (·.code)).getD 0) 0 x.node addr 0
    let bids := (s.blocks.filter (fun e => e.2.launch == copy)).map (·.1)
    (bids.foldl killQuiet (logEvent s x.ctx r)).updLaunch copy (fun x => { x with copyBad := true, next := x.count })
/-- Whether a launch is an audit copy (R389). -/
def State.isCopy (s : State) (l : Nat) : Bool := ((s.launch l).bind (·.copyOf)).isSome

/-! ## Taking a trap (R366 to R373) -/

/-- CAUSE with a bit set. -/
def causeBit (n : Nat) : Dword := 1#64 <<< n
/-- The lowest-numbered cause of a list (R368). -/
def lowestCause : List Cause → Option Cause
  | [] => none
  | c :: t =>
    match lowestCause t with
    | some d => if d.bit < c.bit then some d else some c
    | none => some c
/-- Writes CAUSE, EADDR and EINFO for causes raised together (R366, R368). -/
def Thread.raised (t : Thread) (cs : List Cause) : Thread :=
  match lowestCause cs with
  | none => t
  | some c => { t with cause := cs.foldl (fun x c => x ||| causeBit c.bit) t.cause, eaddr := c.addr, einfo := c.info }

/-- A trap raised in a lane: its thread, its causes, and the EPC and ESLOT that its entry or R80 names. -/
structure Raise where
  tid    : Nat
  causes : List Cause
  epc    : Dword
  eslot  : Nat
  deriving DecidableEq, Repr

/-- A thread enters its handler (R369): PC := OBASE + TVEC, resume slot 0. -/
def Thread.enter (t : Thread) (obase : Dword) (r : Raise) : Thread :=
  let u := t.raised r.causes
  { u with epc := r.epc, eslot := BitVec.ofNat 64 r.eslot, pc := obase + t.tvec, rslot := 0, last := false,
           status := .eligible, handler := true }

/-- A group with no history of issues. -/
def Group.new (tids : List Nat) : Group := { tids := tids, rep := 0, prev := [], skip := [] }

/-- A frond that has issued nothing, with its uniform registers. -/
def Frond.fresh (s : Map Dword) (sbad : List Nat) : Frond :=
  { s := s, sbad := sbad, own := Group.new [], subs := [], turn := 0, run := none, cyc := 0, issued := [], since := [], ftimer := 0,
    scyc := 0, pend := [], held := false, ehold := none, eblk := none, fetch := none, took := [] }
/-- ACCV with code 0x09, which ends an audit (R389). -/
def auditCause (c : Cause) : Bool := c.bit == 4 && c.info == 9
/-- TAKING A TRAP. The lanes that raise a cause leave the issue set and form one new sub-frond of their frond; a lane
already in its handler kills the block (R371), and so does a lane without a handler (R373). -/
def takeTrap (s : State) (bid slot : Nat) (rs : List Raise) : State :=
  match s.block bid with
  | none => s
  | some b =>
    if rs.isEmpty then s
    else if s.isCopy b.launch && rs.any (fun r => r.causes.any auditCause) then
      endAudit s b.launch (((rs.head?).bind (fun r => (r.causes.head?).map (·.addr))).getD 0)
    else
      let bad := rs.find? (fun r => ((b.thread r.tid).map (·.handler)).getD false)
      match bad with
      | some r =>
        let c := ((b.thread r.tid).map (fun t => (t.raised r.causes).cause)).getD 0
        killBlock s bid 2 (whereOf b.core slot) r.epc c
      | none =>
        match rs.find? (fun r => ((b.thread r.tid).map (fun t => t.tvec == 0)).getD false) with
        | some r =>
          let c := ((b.thread r.tid).map (fun t => (t.raised r.causes).cause)).getD 0
          killBlock s bid 1 (whereOf b.core slot) r.epc c
        | none =>
          let tids := rs.map (·.tid)
          let b1 := rs.foldl (fun b r => b.updThread r.tid (fun t => t.enter b.obase r)) b
          let b2 := b1.updFrond slot (fun f =>
            { f with subs := f.subs ++ [Group.new tids],
                     run := f.run.map (fun u => { u with tids := u.tids.filter (fun t => !tids.contains t) }) })
          { s with blocks := s.blocks.put bid b2 }

/-- A group without the threads that have left their handler; a sub-frond without any ceases (R372), and the rotation goes
on from the same place (R370). -/
def Block.dropSubs (b : Block) (slot : Nat) : Block :=
  let inside (t : Nat) : Bool := ((b.thread t).map (fun x => x.handler && !x.exited)).getD false
  let keep (l : List Group) : List Group :=
    (l.map (fun g => { g with tids := g.tids.filter inside })).filter (fun g => !g.tids.isEmpty)
  b.updFrond slot (fun f =>
    { f with subs := keep f.subs, turn := if f.turn = 0 then 0 else 1 + (keep (f.subs.take (f.turn - 1))).length })

/-- RETURNING FROM A TRAP (R119, R372): PC := EPC and resume slot := ESLOT, 16 held as 15 with the last-word bit. -/
def Thread.leave (t : Thread) : Thread :=
  let k := t.eslot.toNat
  { t with pc := t.epc, rslot := if k = 16 then 15 else k, last := k == 16, handler := false }

/-- An asynchronous cause reaches a thread (R203, R371): the oldest is delivered when it next becomes eligible. -/
def Thread.queueCause (t : Thread) (c : Cause) : Thread := { t with async := t.async ++ [c] }

/-- A thread that exits (R117): its pending results are discarded. -/
def Thread.exit (t : Thread) : Thread := { t with status := .exited, pend := [], tok := [], dues := [], async := [] }
/-- The lowest-tid thread of a block that has not exited. -/
def Block.lowest (b : Block) : Option Nat := (b.live.head?).map (·.1)
/-- A cause reaches the issuing thread of an operation, the lowest-tid live thread when that one has exited, or kills
the block when none is left (R203). -/
def sendCause (s : State) (bid tid : Nat) (c : Cause) : State :=
  match s.block bid with
  | none => s
  | some b =>
    let dst := if ((b.thread tid).map (fun t => !t.exited)).getD false then some tid else b.lowest
    match dst with
    | some t => s.updThread bid t (fun t => t.queueCause c)
    | none => killBlock s bid 5 noWhere c.addr 0

/-! ## Lanes that leave the issue set -/

/-- A lane parked in mid-clause holds the clause and the word's position (R384). -/
def Thread.park (t : Thread) (p : Park) (clause : Dword) (pos : Nat) : Thread :=
  { t with status := .parked p, pc := clause, rslot := if pos = 16 then 15 else pos, last := pos == 16 }
/-- Takes lanes out of the clause in flight. -/
def Frond.leaveRun (f : Frond) (tids : List Nat) : Frond :=
  { f with run := f.run.map (fun u => { u with tids := u.tids.filter (fun t => !tids.contains t) }) }

end Sys2Proof.Machine
end

