-- ==== Sys2Proof/Machine/Operands.lean ====
section
/-! DEFINITION. How a word issues: its issue set and active lanes (R61, R107), operand values (R108), early reads and
writes (R69), tokens (R67), poisoned guards (R387), fixed latencies (R66, R68), and the end of a word (R36, R58). -/

namespace Sys2Proof.Machine

/-- A word's issue: its frond, the registers as the word reads them, the clause in flight, the active lanes, the place of
its accesses in issue order. -/
structure Issue where
  bid  : Nat
  slot : Nat
  core : Nat
  blk  : Block
  fr   : Frond
  run  : Run
  act  : List Nat
  seq  : Nat
  deriving DecidableEq, Repr

/-- The issue of the frond that moves. -/
def State.issue? (s : State) : Option Issue :=
  match s.focus with
  | none => none
  | some (bid, slot) =>
    match s.block bid with
    | none => none
    | some b =>
      match b.fronds.get? slot with
      | none => none
      | some f =>
        match f.run with
        | none => none
        | some u => some { bid := bid, slot := slot, core := b.core, blk := b, fr := f, run := u, act := u.tids, seq := s.seq }

/-- The address of the word that issues (R58). -/
def Issue.word (i : Issue) : Dword := i.run.clause + BitVec.ofNat 64 (8 * i.run.pos)
/-- The address of the next clause (R58). -/
def Run.next (u : Run) : Dword := u.clause + BitVec.ofNat 64 (8 * (u.hdr.cnt.toNat + 2))
/-- NEXT of R107. -/
def Issue.next (i : Issue) : Dword := i.run.next

/-! ## Operand values (R108) -/

/-- A thread as the word reads it. -/
def Issue.thr (i : Issue) (tid : Nat) : Option Thread := i.blk.thread tid
/-- A v-register in a lane; a lane without the thread reads 0. -/
def Issue.v (i : Issue) (tid n : Nat) : Word := ((i.thr tid).map (fun t => t.getV n)).getD 0
/-- A v-register, or the pair from it. -/
def Issue.vw (i : Issue) (tid n : Nat) (wide : Bool) : Dword :=
  if wide then i.v tid (n + 1) ++ i.v tid n else (i.v tid n).setWidth 64
/-- A predicate in a lane. -/
def Issue.p (i : Issue) (tid n : Nat) : Bool := ((i.thr tid).map (fun t => t.getP n)).getD false
/-- A uniform register. -/
def Issue.s (i : Issue) (n : Nat) : Dword := i.fr.getS n
/-- The lane of a thread. -/
def Issue.lane (i : Issue) (tid : Nat) : Nat := i.blk.laneOf tid
/-- OPND(x, l): 32-bit values are zero-extended (R108). -/
def Issue.opnd (i : Issue) (tid : Nat) (x : Opnd) (wide : Bool) : Dword :=
  match x with
  | .v r => i.vw tid r.val wide
  | .s r => if wide then i.s r.val else (lo32 (i.s r.val)).setWidth 64
  | .lane => BitVec.ofNat 64 (i.lane tid)
  | .tid => BitVec.ofNat 64 tid
  | .fslot => BitVec.ofNat 64 i.slot
  | .blk => BitVec.ofNat 64 (i.blk.idx % 2 ^ 32)
  | .const k => BitVec.ofNat 64 k.val
/-- A 32-bit operand. -/
def Issue.o32 (i : Issue) (tid : Nat) (x : Opnd) : Word := lo32 (i.opnd tid x false)
/-- Whether any of some registers is poisoned in a lane (R386). -/
def Issue.bad (i : Issue) (tid : Nat) (rs : List Reg) : Bool :=
  match i.thr tid with
  | some t => rs.any (regBad i.fr t)
  | none => false
/-- The lowest active lane's thread. -/
def Issue.low (i : Issue) : Nat := (i.act.head?).getD 0

/-! ## Early reads and writes (R69) -/

/-- Whether a result has not landed at a slice cycle. -/
def Pend.out (p : Pend) (now : Nat) : Bool :=
  match p.due with
  | .cyc d => decide (now < d)
  | _ => true
/-- Whether a result is token-tracked. -/
def Pend.tracked (p : Pend) : Bool :=
  match p.due with
  | .cyc _ => false
  | _ => true
/-- Whether a result waits for a reply. -/
def Pend.waits (p : Pend) : Bool := decide (p.due = .reply)
/-- The result still pending on a register at a slice cycle. -/
def pendOn (f : Frond) (t : Thread) (now : Nat) (r : Reg) : Option Pend :=
  let here (p : Pend) : Bool := decide (p.reg = r) && p.out now
  match r with
  | .s _ => f.pend.find? here
  | _ => t.pend.find? here
/-- Whether a token-tracked write to a register is pending (R69). -/
def tokenPend (f : Frond) (t : Thread) (r : Reg) : Bool :=
  let here (p : Pend) : Bool := decide (p.reg = r) && p.tracked
  match r with
  | .s _ => f.pend.any here
  | _ => t.pend.any here
/-- FCTL.CHK (R71). -/
def Thread.chk (t : Thread) : Bool := t.fctl.getLsbD 0

/-- A value written to a register of a thread, without latency. -/
def Thread.poke (t : Thread) (r : Reg) (x : Dword) (bad : Bool) : Thread :=
  match r with
  | .v n => t.putV n (lo32 x) bad
  | .p n => t.putP n (x.getLsbD 0) bad
  | .s _ => t
/-- What an early read returns in a lane with CHK = 0 in place of the register's present value: the value before the pending write,
where a free value picks that one. A register that waits for a reply still holds the value before it. -/
def earlyPick (n tid k : Nat) (p : Pend) : Option (Dword × Bool) :=
  if !p.waits && Config.freeBit (Config.freeAt n tid k) then some (p.old, p.bad) else none
/-- What the waiting word of a frond has already taken of a register (R69). -/
def Frond.taken (f : Frond) (tid : Nat) (r : Reg) : Option Took := f.took.find? (fun x => x.tid == tid && decide (x.reg = r))
/-- The registers of a lane as a word reads them; the free values of its reads are counted from `base`. -/
def viewThread (f : Frond) (now n tid base : Nat) (rs : List Reg) (t : Thread) : Thread :=
  (List.range rs.length).foldl (fun u k =>
    match rs[k]? with
    | none => u
    | some r =>
      match f.taken tid r with
      | some x => u.poke r x.val x.bad
      | none =>
        match (pendOn f t now r).bind (earlyPick n tid (base + k)) with
        | some (x, bad) => u.poke r x bad
        | none => u) t
/-- The uniform registers as a word reads them. -/
def viewFrond (n : Nat) (rs : List Reg) (f : Frond) : Frond :=
  (List.range rs.length).foldl (fun u k =>
    match (rs[k]? : Option Reg) with
    | some (.s j) =>
      match f.taken 1024 (.s j) with
      | some x => u.putS j x.val x.bad
      | none =>
        match (f.pend.find? (fun p => decide (p.reg = Reg.s j) && p.out f.cyc)).bind (earlyPick n 1024 k) with
        | some (x, bad) => u.putS j x bad
        | none => u
    | _ => u) f
/-- A read of a register whose result is pending and that the word has not yet taken: the thread, 1024 for the frond; the number of
its free value, the register, the pending result, the value that it holds and its poison. -/
structure EarlyRead where
  tid  : Nat
  k    : Nat
  reg  : Reg
  pend : Pend
  val  : Dword
  bad  : Bool
  deriving DecidableEq, Repr
/-- The value and poison of a register of a thread. -/
def Thread.peek (t : Thread) (r : Reg) : Dword × Bool :=
  match r with
  | .v n => ((t.getV n).setWidth 64, t.vbad.contains n)
  | .p n => (if t.getP n then 1 else 0, n != 15 && t.pbad.getLsbD n)
  | .s _ => (0, false)
/-- The early reads of some registers in some threads. -/
def earlyReads (f : Frond) (now base : Nat) (ts : List (Nat × Thread)) (rs : List Reg) : List EarlyRead :=
  ts.flatMap (fun e => (List.range rs.length).filterMap (fun k =>
    match rs[k]? with
    | none => none
    | some r =>
      let x : Nat × Dword × Bool := match r with
        | .s n => (1024, f.getS n, f.sbad.contains n)
        | _ => (e.1, e.2.peek r)
      if (f.taken x.1 r).isSome then none
      else (pendOn f e.2 now r).map (fun p => { tid := x.1, k := base + k, reg := r, pend := p, val := x.2.1, bad := x.2.2 })))
/-- Whether a read takes the value that a reply has still to bring, as a free value says: its word waits for it (R69). -/
def EarlyRead.wants (n : Nat) (r : EarlyRead) : Bool := r.pend.waits && !Config.freeBit (Config.freeAt n r.tid r.k)
/-- What a read takes of the value before the pending write. -/
def EarlyRead.take (n : Nat) (r : EarlyRead) : Option Took :=
  if !Config.freeBit (Config.freeAt n r.tid r.k) then none
  else if r.pend.waits then some { tid := r.tid, reg := r.reg, val := r.val, bad := r.bad }
  else some { tid := r.tid, reg := r.reg, val := r.pend.old, bad := r.pend.bad }
/-- A word waits for the values that some of its early reads want; what the others have taken is kept. -/
def keepReads (s : State) (bid slot : Nat) (rs : List EarlyRead) : State :=
  { s.updFrond bid slot (fun f => { f with took := f.took ++ rs.filterMap (EarlyRead.take s.free) }) with free := s.free + 1 }

/-! ## The start of a word -/

/-- The guard of a word in a thread (R60). -/
def guardOf (c : Ctl) (t : Thread) : Bool := (t.getP c.gp.val) != c.gneg
/-- Whether a thread of a word's issue set makes an early access: its guard, and in an active lane the registers read
and written (R69). What `rdlane` or a shuffle reads in another lane is read as old or new and raises nothing, as R145 says. -/
def earlyIn (f : Frond) (now : Nat) (c : Ctl) (rd wr : List Reg) (active : Bool) (t : Thread) : Bool :=
  (pendOn f t now (.p c.gp.val)).isSome && c.gp != 15
    || (active && (rd.any (fun r => (pendOn f t now r).isSome) || wr.any (tokenPend f t)))

/-- How a word starts: it cannot issue yet, it waits for what an early read wants, it has ended at once, or it goes on with its active
lanes. -/
inductive Start where
  | pass | wait (s : State) | stop (s : State) | go (i : Issue) (s : State)
  deriving DecidableEq, Repr

/-- Raises one cause in some threads at the word that issues (R80). -/
def Issue.raise (i : Issue) (s : State) (tids : List Nat) (c : Cause) : State :=
  takeTrap s i.bid i.slot (tids.map (fun t => { tid := t, causes := [c], epc := i.run.clause, eslot := i.run.pos }))

/-- A word takes its start: checks of R69 and R387, its active lanes, room in the token counters (R67). `once` is true
for U and E words, whose guard is evaluated in the lowest lane alone (R61). Where the threads of the issue set differ in
FCTL.CHK, that of a thread with the early access decides for a V, M or C word, that of any thread for a U or E word (DESIGN
CHOICE, log entry 7: R69 does not say whose). -/
def startWord (c : Ctl) (rd wr : List Reg) (once : Bool) (i : Issue) (s : State) : Start :=
  let now := i.fr.cyc
  let tids := if once then i.run.tids.take 1 else i.run.tids
  let regs := Reg.p c.gp.val :: rd
  let ts := tids.filterMap (fun t => (i.thr t).map (fun x => (t, x)))
  let early := ts.filter (fun e => earlyIn i.fr now c rd wr (guardOf c e.2) e.2)
  let checks := if once then i.run.tids.any (fun t => ((i.thr t).map Thread.chk).getD false)
                else early.any (fun e => e.2.chk)
  if !early.isEmpty && checks then
    .stop (i.raise s i.run.tids { bit := 10, addr := i.word, info := 0 })
  else if ts.any (fun e => c.gp != 15 && e.2.pbad.getLsbD c.gp.val) then
    .stop (killPoison s i.bid i.slot i.word)
  else
    let view := i.blk.updThreads tids (fun t x => viewThread i.fr now s.free t 0 regs x)
    let fr := viewFrond s.free regs i.fr
    let act := tids.filter (fun t => ((view.thread t).map (guardOf c)).getD false)
    let i1 := { i with blk := view, fr := fr, act := act }
    let counted := if once then (if act.isEmpty then [] else i.run.tids) else act
    if c.set && counted.any (fun t => ((i.thr t).map (fun x => decide (63 ≤ x.getTok c.tok.toNat))).getD false) then .pass
    else if (earlyReads i.fr now 0 (ts.filter (fun e => act.contains e.1)) regs).any (EarlyRead.wants s.free) then
      .wait (keepReads s i.bid i.slot (earlyReads i.fr now 0 (ts.filter (fun e => act.contains e.1)) regs))
    else .go i1 (if early.isEmpty then s else { s with free := s.free + 1 })

/-! ## The end of a word (R36, R58, R66) -/

/-- The targets of a word that moves no PC. -/
def noTarget : Nat → Option Dword := fun _ => none

/-- A thread whose word was kept at issue goes on (R25). -/
def Thread.accepted (t : Thread) : Thread :=
  { t with status := if t.status = .parked .issue then .eligible else t.status }
/-- The clause in flight goes to its next word, or ends: each thread of its issue set continues at its own target or at
the next clause, with resume slot 0 (R28). -/
def endWord (c : Ctl) (bid slot : Nat) (target : Nat → Option Dword) (s : State) : State :=
  match s.block bid with
  | none => s
  | some b =>
    match b.fronds.get? slot with
    | none => s
    | some f =>
      match f.run with
      | none => s
      | some u =>
        let cyc := f.cyc + c.stall.toNat + 1
        if u.pos > u.hdr.cnt.toNat || u.tids.isEmpty then
          let b1 := b.updThreads u.tids (fun t x =>
            { x.accepted with pc := (target t).getD u.next, rslot := 0, last := false })
          let b2 := b1.updFrond slot (fun f => { f with run := none, cyc := cyc, ehold := none, eblk := none, took := [] })
          s.updBlock bid (fun _ => b2)
        else
          let b1 := (b.updThreads u.tids (fun _ x => x.accepted)).updFrond slot
            (fun f => { f with run := some { u with pos := u.pos + 1 }, cyc := cyc, ehold := none, eblk := none, took := [] })
          s.updBlock bid (fun _ => b1)

/-! ## Token-tracked results that no reply brings (R67 to R69) -/

/-- A pending mark in a list, in place of those of its register that have no reply to wait for; none beside one that waits
for a reply. -/
def addLand (p : Pend) (l : List Pend) : List Pend :=
  if l.any (fun q => decide (q.reg = p.reg) && q.waits) then l
  else p :: l.filter (fun q => !decide (q.reg = p.reg))
/-- Marks the registers that a token-tracked word has written in a thread; `old` is the thread before the word. A write to p15
is ignored (R15). -/
def Thread.landing (t old : Thread) (tok now : Nat) (wr : List Reg) : Thread :=
  wr.foldl (fun t r => match r with
    | .s _ => t
    | .p 15 => t
    | _ => { t with pend := addLand { reg := r, due := .land tok now, old := (old.peek r).1, bad := (old.peek r).2 } t.pend }) t
/-- The same for the uniform registers of a frond. -/
def Frond.landing (f old : Frond) (tok now : Nat) (wr : List Reg) : Frond :=
  wr.foldl (fun f r => match r with
    | .s n => { f with pend := addLand { reg := r, due := .land tok now, old := old.getS n, bad := old.sbad.contains n } f.pend }
    | _ => f) f
/-- The threads whose token a word counts: those in which it executes, every thread of the issue set for a word that executes
once (R67). An E word and `sst` count where they are accepted. -/
def Issue.counted (i : Issue) (c : Ctl) (wr : List Reg) (once : Bool) : List Nat :=
  if !c.set || i.act.isEmpty || (once && wr.isEmpty) then [] else if once then i.run.tids else i.act
/-- A token counts up with the issue of a word that no reply answers; it counts down when the result lands. -/
def Thread.countDue (t old : Thread) (k now : Nat) : Thread :=
  if t.getTok k ≤ old.getTok k then { t.incTok k with dues := t.dues ++ [(k, now)] } else t
/-- The threads that are still in the clause in flight of an issue's frond. -/
def Issue.left (i : Issue) (s : State) : List Nat :=
  ((((s.block i.bid).bind (fun b => b.fronds.get? i.slot)).bind (fun f => f.run)).map (·.tids)).getD []
/-- After a word with a token: the counters of the threads that are still in its clause and wait for no reply (R67). -/
def countWord (c : Ctl) (wr : List Reg) (once : Bool) (i : Issue) (s : State) : State :=
  s.updThreads i.bid ((i.counted c wr once).filter (i.left s).contains) (fun t x => match i.thr t with
    | some old => x.countDue old c.tok.toNat s.gtime
    | none => x)
/-- After a word with a token, its results are pending in the lanes that are still in its clause. -/
def markLanding (c : Ctl) (wr : List Reg) (i : Issue) (s : State) : State :=
  if !c.set || wr.isEmpty || i.act.isEmpty then s
  else
    let k := c.tok.toNat
    let mark (t : Nat) (x : Thread) : Thread := match i.thr t with
      | some old => x.landing old k s.gtime wr
      | none => x
    (s.updThreads i.bid (i.act.filter (i.left s).contains) mark).updFrond i.bid i.slot
      (fun f => f.landing i.fr k s.gtime wr)
/-- The results issued before an instant have landed. -/
def landed (now : Nat) (l : List Pend) : List Pend :=
  l.filter (fun p => match p.due with
    | .land _ t => decide (now ≤ t)
    | _ => true)
/-- What a thread's words issued before an instant have brought has landed, and their tokens have counted down (R67). -/
def Thread.land (now : Nat) (t : Thread) : Thread :=
  let u := (t.dues.filter (fun d => decide (d.2 < now))).foldl (fun u d => u.decTok d.1) t
  { u with pend := landed now t.pend, dues := t.dues.filter (fun d => decide (now ≤ d.2)) }
/-- An early write leaves whichever of the two writes lands last (R69): a free value says whether the pending one does. -/
def raceBack (wr : List Reg) (i : Issue) (n : Nat) (s : State) : State :=
  let lost (l : List Pend) (r : Reg) : Bool := l.any (fun p => decide (p.reg = r) && p.tracked && !p.waits)
  let free (t : Nat) (r : Reg) : Bool := Config.freeBit (Config.freeAt n t (32 + wr.idxOf r))
  let back (t : Nat) (x : Thread) : Thread := match i.thr t with
    | some old => wr.foldl (fun x r =>
        if lost old.pend r && free t r then x.poke r (old.peek r).1 (old.peek r).2 else x) x
    | none => x
  let backS (f : Frond) : Frond := wr.foldl (fun f r => match r with
    | .s k => if lost i.fr.pend r && free 1024 r then f.putS k (i.fr.getS k) (i.fr.sbad.contains k) else f
    | _ => f) f
  if i.fr.pend.any (fun p => wr.contains p.reg && p.tracked && !p.waits)
      || i.act.any (fun t => ((i.thr t).map (fun x => x.pend.any (fun p => wr.contains p.reg && p.tracked && !p.waits))).getD false) then
    (s.updThreads i.bid i.act back).updFrond i.bid i.slot backS
  else s

/-- Executes a word: `body` gives its effect in the active lanes and the PCs it sets, or none while it cannot issue. -/
def exWord (c : Ctl) (rd wr : List Reg) (once : Bool) (s : State)
    (body : Issue → State → Option (State × (Nat → Option Dword))) : Out :=
  match s.issue? with
  | none => .refused .noIssue
  | some i =>
    match startWord c rd wr once i s with
    | .pass => .next s
    | .wait s1 => .next s1
    | .stop s1 => .next (endWord c i.bid i.slot noTarget s1)
    | .go i1 s1 =>
      match body i1 s1 with
      | none => .next s
      | some (s2, t) =>
        let i0 := { i with act := i1.act }
        .next (endWord c i.bid i.slot t (markLanding c wr i0 (countWord c wr once i0 (raceBack wr i0 s.free s2))))

/-- A vector word that always issues. -/
def exVec (c : Ctl) (rd wr : List Reg) (s : State) (body : Issue → State → State) : Out :=
  exWord c rd wr false s (fun i s => some (body i s, noTarget))
/-- A uniform word that always issues: once, or not at all. -/
def exUni (c : Ctl) (rd wr : List Reg) (s : State) (body : Issue → State → State) : Out :=
  exWord c rd wr true s (fun i s => some (if i.act.isEmpty then s else body i s, noTarget))

/-! ## Results -/

/-- The pending results of a thread that still matter, without those of a register. -/
def prunePend (now : Nat) (r : Reg) (l : List Pend) : List Pend :=
  l.filter (fun p => !(decide (p.reg = r) && !p.waits) && p.out now)
/-- A 32-bit result of fixed latency. -/
def Thread.resV (t : Thread) (now lat n : Nat) (x : Word) (bad : Bool) : Thread :=
  let p : Pend := { reg := .v n, due := .cyc (now + lat), old := (t.getV n).setWidth 64, bad := t.vbad.contains n }
  { t with pend := p :: prunePend now (.v n) t.pend }.putV n x bad
/-- A 32- or 64-bit result of fixed latency (R108). -/
def Thread.resVW (t : Thread) (now lat n : Nat) (wide : Bool) (x : Dword) (bad : Bool) : Thread :=
  if wide then (t.resV now lat n (lo32 x) bad).resV now lat (n + 1) (lo32 (x >>> 32)) bad
  else t.resV now lat n (lo32 x) bad
/-- A predicate result of fixed latency. -/
def Thread.resP (t : Thread) (now lat n : Nat) (x bad : Bool) : Thread :=
  if n = 15 then t
  else
    let p : Pend := { reg := .p n, due := .cyc (now + lat), old := if t.getP n then 1 else 0, bad := t.pbad.getLsbD n }
    { t with pend := p :: prunePend now (.p n) t.pend }.putP n x bad
/-- A 32- or 64-bit value written with no latency. -/
def Thread.putVW (t : Thread) (n : Nat) (wide : Bool) (x : Dword) (bad : Bool) : Thread :=
  if wide then (t.putV n (lo32 x) bad).putV (n + 1) (lo32 (x >>> 32)) bad else t.putV n (lo32 x) bad

/-- Writes a result in each active lane. -/
def Issue.lanes (i : Issue) (s : State) (f : Nat → Thread → Thread) : State := s.updThreads i.bid i.act f
/-- Writes a uniform register. -/
def Issue.putS (i : Issue) (s : State) (d : Nat) (x : Dword) (bad : Bool) : State :=
  s.updFrond i.bid i.slot (fun f => f.putS d x bad)
/-- The members of the frond that have not exited and are not active. -/
def Issue.others (i : Issue) : List Nat := ((i.blk.liveMembers i.slot).map (·.1)).filter (fun t => !i.act.contains t)
/-- A frond-wide write of a predicate (R109): every member that has not exited. In a member that is not active a result with
a token is pending as in an active lane, though no counter of that member counts it (DESIGN CHOICE, log entry 7: R147 does not
say), and a free value says whether an earlier pending write lands last. -/
def Issue.putAll (i : Issue) (s : State) (c : Ctl) (lat : Nat) (d : Nat) (x bad : Bool) : State :=
  let wr := [Reg.p d]
  if lat = 0 then
    let s1 := s.updThreads i.bid ((i.blk.liveMembers i.slot).map (·.1)) (fun _ t => t.putP d x bad)
    let s2 := raceBack wr { i with act := i.others } s.free s1
    s2.updThreads i.bid i.others (fun t y => match i.thr t with
      | some old => y.landing old c.tok.toNat s.gtime wr
      | none => y)
  else s.updThreads i.bid ((i.blk.liveMembers i.slot).map (·.1)) (fun _ t => t.resP i.fr.cyc lat d x bad)
/-- A word with a frond-wide predicate result: it makes an early write when a token-tracked write to the predicate is pending
in any member (R69). -/
def exAll (c : Ctl) (rd wr : List Reg) (d : Pred) (once : Bool) (s : State) (body : Issue → State → State) : Out :=
  exWord c rd wr once s (fun i s =>
    let early := i.others.any (fun t => ((i.thr t).map (fun x => tokenPend i.fr x (.p d.val))).getD false)
    let chk := i.run.tids.any (fun t => ((i.thr t).map Thread.chk).getD false)
    some (if i.act.isEmpty then s
          else if early && chk then i.raise s i.run.tids { bit := 10, addr := i.word, info := 0 }
          else
            let r := body i s
            if early then { r with free := r.free + 1 } else r, noTarget))

/-- A vector word of fixed latency with a vector destination: `f` computes the result from the sources of a lane, each
read at its own width. -/
def vop (c : Ctl) (lat : Nat) (d : VReg) (dw : Bool) (srcs : List (Opnd × Bool)) (more : List Reg)
    (f : Issue → Nat → List Dword → Dword) (s : State) : Out :=
  let rd := (srcs.map (fun x => opndRegs x.1 x.2)).flatten ++ more
  exVec c rd (vregs d.val (wN dw)) s (fun i s =>
    i.lanes s (fun tid t =>
      t.resVW i.fr.cyc lat d.val dw (f i tid (srcs.map (fun x => i.opnd tid x.1 x.2))) (i.bad tid rd)))

/-- A vector word of fixed latency with a predicate destination. -/
def vpred (c : Ctl) (lat : Nat) (d : Pred) (srcs : List (Opnd × Bool)) (f : List Dword → Bool) (s : State) : Out :=
  let rd := (srcs.map (fun x => opndRegs x.1 x.2)).flatten
  exVec c rd [.p d.val] s (fun i s =>
    i.lanes s (fun tid t =>
      t.resP i.fr.cyc lat d.val (f (srcs.map (fun x => i.opnd tid x.1 x.2))) (i.bad tid rd)))

/-- The registers of a U word's second source. -/
def usRegs : USrc → List Reg
  | .reg r => [.s r.val]
  | .imm _ => []
/-- The value of a U word's second source (R124). -/
def Issue.us (i : Issue) : USrc → Dword
  | .reg r => i.s r.val
  | .imm x => x.signExtend 64
/-- A uniform word: s[d] := f a b (R124, R125). -/
def uop (c : Ctl) (d a : SReg) (b : USrc) (f : Dword → Dword → Dword) (s : State) : Out :=
  let rd := Reg.s a.val :: usRegs b
  exUni c rd [.s d.val] s (fun i s =>
    i.putS s d.val (f (i.s a.val) (i.us b)) (rd.any (fun r => match r with | .s n => i.fr.sbad.contains n | _ => false)))

/-- Whether any of some uniform registers is poisoned. -/
def Issue.sBad (i : Issue) (ns : List Nat) : Bool := ns.any (fun n => i.fr.sbad.contains n)

end Sys2Proof.Machine
end

