-- ==== Sys2Proof/Machine/Flags.lean ====
section
/-! DEFINITION. Packed elements (R83), integer delivery (R82), the floating-point flags in a lane and the trap FPX
(R72, R90, R91), and the combinators of the floating-point words. -/

namespace Sys2Proof.Machine

/-! ## Elements (R83) -/

/-- The width of an element of a type code. -/
def tyW : VTy → Nat
  | .i64 => 64 | .n64 => 64
  | .i32 => 32 | .n32 => 32 | .f32 => 32
  | .f16 => 16 | .bf16 => 16 | .i16 => 16 | .n16 => 16
  | .e4m3 => 8 | .e5m2 => 8 | .i8 => 8 | .n8 => 8
/-- Whether an operand of a type is 64 bits wide. -/
def tyWide : VTy → Bool
  | .i64 => true | .n64 => true | _ => false
/-- Whether an integer type is signed. -/
def tySigned : VTy → Bool
  | .i64 => true | .i32 => true | .i16 => true | .i8 => true | _ => false
/-- The elements that one register holds. -/
def tyCount (t : VTy) : Nat := if tyWide t then 1 else 32 / tyW t
/-- The floating-point format of a type code. -/
def tyFmt : VTy → Option Fmt
  | .f32 => some fp32 | .f16 => some fp16 | .bf16 => some bf16 | .e4m3 => some fe4m3 | .e5m2 => some fe5m2
  | _ => none
/-- The format of a floating-point type code, FP32 for the others. -/
def tyFmtD (t : VTy) : Fmt := (tyFmt t).getD fp32

/-- Element `i` of width `w`. -/
def elem (w i : Nat) (x : Dword) : Nat := x.toNat / 2 ^ (w * i) % 2 ^ w
/-- Elements put together from the low bits upwards. -/
def joinElems (w : Nat) : List Nat → Nat
  | [] => 0
  | e :: t => e % 2 ^ w + 2 ^ w * joinElems w t
/-- The elements of a register of a type. -/
def elems (t : VTy) (x : Dword) : List Nat := (List.range (tyCount t)).map (fun i => elem (tyW t) i x)
/-- A register of elements. -/
def ofElems (t : VTy) (es : List Nat) : Dword := BitVec.ofNat 64 (joinElems (tyW t) es)

/-! ## Integers (R82) -/

/-- The value of a `w`-bit integer. -/
def intOf (w : Nat) (sg : Bool) (x : Nat) : Int := if sg && x.testBit (w - 1) then (x : Int) - 2 ^ w else x
/-- Delivers an exact integer at width `w`: modulo 2^w, or clamped to the type. -/
def intTo (w : Nat) (sg sat : Bool) (x : Int) : Nat :=
  let lo : Int := if sg then -2 ^ (w - 1) else 0
  let hi : Int := if sg then 2 ^ (w - 1) - 1 else 2 ^ w - 1
  let y := if sat then max lo (min hi x) else x
  (y % 2 ^ w).toNat
/-- An integer operation on each element of one or two operands. -/
def intMap1 (t : VTy) (sat : Bool) (f : Int → Int) (a : Dword) : Dword :=
  ofElems t ((elems t a).map (fun x => intTo (tyW t) (tySigned t) sat (f (intOf (tyW t) (tySigned t) x))))
def intMap2 (t : VTy) (sat : Bool) (f : Int → Int → Int) (a b : Dword) : Dword :=
  ofElems t (List.zipWith (fun x y => intTo (tyW t) (tySigned t) sat
    (f (intOf (tyW t) (tySigned t) x) (intOf (tyW t) (tySigned t) y))) (elems t a) (elems t b))

/-- Whether a condition holds of two integers (R93, R128, R136). -/
def ccInt (cc : Cc) (x y : Int) : Bool :=
  match cc with
  | .eq => decide (x = y)
  | .ne => decide (x ≠ y)
  | .lt => decide (x < y)
  | .le => decide (x ≤ y)
  | .gt => decide (y < x)
  | .ge => decide (y ≤ x)

/-! ## Modifiers (R64, R92) -/

/-- Absolute value first, then negation, of one element of a format. -/
def fmodEl (f : Fmt) (ab ng : Bool) (x : Nat) : Nat :=
  let top := 2 ^ (f.eb + f.mb)
  let y := if ab then x % top else x
  if ng then (if y ≥ top then y - top else y + top) else y
/-- The modified operands a and b. -/
def modA (f : Fmt) (m : FMod) (x : Nat) : Nat := fmodEl f m.aa m.na x
def modB (f : Fmt) (m : FMod) (x : Nat) : Nat := fmodEl f m.ab m.nb x

/-! ## Flags in a lane (R72, R90, R91) -/

/-- Flags ORed into FPFLAGS. -/
def Thread.flag (t : Thread) (fl : Nat) : Thread := { t with fpflags := t.fpflags ||| BitVec.ofNat 64 (fl % 32) }
/-- Whether FCTL enables any of some flags: flag bit k is enabled by FCTL bit k + 1. -/
def Thread.enables (t : Thread) (fl : Nat) : Bool := t.fctl.toNat / 2 % 32 &&& fl != 0
/-- The union of flags. -/
def flagsOf (rs : List FRes) : Nat := rs.foldl (fun n r => n ||| r.flags) 0

/-- The trap FPX of a lane that raised flags (R366). -/
def Issue.fpx (i : Issue) (tid fl : Nat) : Raise :=
  { tid := tid, causes := [{ bit := 12, addr := i.word, info := BitVec.ofNat 64 (fl % 32) }], epc := i.run.clause,
    eslot := i.run.pos }
/-- Completes a floating-point word: FPFLAGS in every active lane, the result where no enabled flag is raised, FPX in
the other lanes (R91). -/
def Issue.fpDone (i : Issue) (s : State) (fl : Nat → Nat) (put : Nat → Thread → Thread) : State :=
  let on (tid : Nat) : Bool := ((i.thr tid).map (fun t => t.enables (fl tid))).getD false
  let s1 := i.lanes s (fun tid t => let u := t.flag (fl tid); if on tid then u else put tid u)
  takeTrap s1 i.bid i.slot ((i.act.filter on).map (fun tid => i.fpx tid (fl tid)))

/-- A floating-point word with a vector destination; latency 0 marks a token-tracked result. -/
def fvop (c : Ctl) (lat : Nat) (d : VReg) (dw : Bool) (srcs : List (Opnd × Bool)) (f : List Dword → Dword × Nat)
    (s : State) : Out :=
  let rd := (srcs.map (fun x => opndRegs x.1 x.2)).flatten
  exVec c rd (vregs d.val (if dw then 2 else 1)) s (fun i s =>
    let r (tid : Nat) : Dword × Nat := f (srcs.map (fun x => i.opnd tid x.1 x.2))
    i.fpDone s (fun tid => (r tid).2) (fun tid t =>
      if lat = 0 then t.putVW d.val dw (r tid).1 (i.bad tid rd)
      else t.resVW i.fr.cyc lat d.val dw (r tid).1 (i.bad tid rd)))

/-- A source of a list. -/
def src (l : List Dword) (k : Nat) : Dword := (l[k]?).getD 0
/-- Packed results with the union of their flags (R83). -/
def ofRes (t : VTy) (rs : List FRes) : Dword × Nat := (ofElems t (rs.map (·.bits)), flagsOf rs)
/-- A two-operand operation on each element, with modifiers. -/
def fmap2 (t : VTy) (m : FMod) (f : Fmt → Nat → Nat → FRes) (l : List Dword) : Dword × Nat :=
  let g := tyFmtD t
  ofRes t (List.zipWith (fun x y => f g (modA g m x) (modB g m y)) (elems t (src l 0)) (elems t (src l 1)))
/-- A three-operand operation on each element. -/
def fmap3 (t : VTy) (f : Fmt → Nat → Nat → Nat → FRes) (l : List Dword) : Dword × Nat :=
  let g := tyFmtD t
  let abs := List.zip (elems t (src l 0)) (elems t (src l 1))
  ofRes t (List.zipWith (fun x y => f g x.1 x.2 y) abs (elems t (src l 2)))
/-- A one-operand operation on each element. -/
def fmap1 (t : VTy) (f : Fmt → Nat → FRes) (l : List Dword) : Dword × Nat :=
  let g := tyFmtD t
  ofRes t ((elems t (src l 0)).map (f g))

end Sys2Proof.Machine
end

