-- ==== Sys2Proof/Machine/Registers.lean ====
section
/-! DEFINITION. The clocks of the slices (R375, R399) and the special registers (R70). -/

namespace Sys2Proof.Machine

/-! ## Slice clocks (R375, R399) -/

/-- The core clock of a die, in MHz (R399). -/
def mhzOf (s : State) (core : Nat) : Nat := s.sys.mhz.getD (Config.dieOf core) 4000
/-- Core cycles at an instant: those counted up to the last change of the clock, and those since. -/
def coreCyclesAt (s : State) (core now : Nat) : Nat :=
  let k := s.core core
  k.coreCyc + (now - k.cycAt) * mhzOf s core / 1000
/-- Core cycles since reset. -/
def coreCycles (s : State) (core : Nat) : Nat := coreCyclesAt s core s.gtime
/-- The ratio that SRATIO gives a slice, in sixteenths: 0 to 3 for a vector slice, 4 the uniform slice, 5 the engine slice (R399). -/
def Core.ratioOf (k : Core) (slice : Nat) : Nat := Nat.max 4 ((k.sratio.toNat / 2 ^ (4 * slice) % 16) + 1)
/-- ns after a write of SRATIO by which a slice runs at its new ratio (R399). -/
def ratioBound : Nat := 1000
/-- The ratio in force on a slice: until its next clause issue, and for 1 µs at most, the one before the last write of SRATIO (R399). -/
def sliceRatio (s : State) (core slice : Nat) : Nat :=
  let k := s.core core
  match k.ratios.get? slice with
  | some r => if s.gtime < k.ratioAt + ratioBound then r else k.ratioOf slice
  | none => k.ratioOf slice
/-- Cycles of a slice since reset: those counted, those since at the ratio that was in force then, and those at the one of SRATIO. -/
def sliceCycles (s : State) (core slice : Nat) : Nat :=
  let k := s.core core
  let all := coreCycles s core - k.coreCyc
  let old := match k.ratios.get? slice with
    | some _ => coreCyclesAt s core (Nat.min s.gtime (k.ratioAt + ratioBound)) - k.coreCyc
    | none => 0
  k.sliceCyc.getD slice 0 + (old * (k.ratios.getD slice 0) + (all - old) * k.ratioOf slice) / 16
/-- Counts a core's cycles up to now, before a change of its clock or of a ratio. -/
def settleClock (s : State) (core : Nat) : State :=
  let cyc := coreCycles s core
  let sl : Map Nat := (List.range 6).map (fun i => (i, sliceCycles s core i))
  s.updCore core (fun k => { k with cycAt := s.gtime, coreCyc := cyc, sliceCyc := sl,
                                    ratios := if s.gtime < k.ratioAt + ratioBound then k.ratios else [] })
/-- A clause issues on a slice: a new ratio takes effect there (R399). -/
def newRatio (s : State) (core slice : Nat) : State :=
  if ((s.core core).ratios.get? slice).isSome then
    (settleClock s core).updCore core (fun k => { k with ratios := k.ratios.del slice })
  else s

/-! ## Special registers (R70) -/

/-- The state of the convoy a block has joined (R260). -/
def convoyOf (s : State) (b : Block) : Option (Cohort × Member) :=
  match b.convoy, s.launch b.launch with
  | some id, some x =>
    match x.cohorts[id]? with
    | some c => (c.conv.get? b.idx).map (fun m => (c, m))
    | none => none
  | _, _ => none
/-- One bit for each member of a cohort by its place in the member list. -/
def memberBits (c : Cohort) (p : Member → Bool) : Nat :=
  (List.range c.members.length).foldl (fun n i =>
    match c.members[i]? with
    | some b => if ((c.conv.get? b).map p).getD false then n + 2 ^ i else n
    | none => n) 0
/-- MXOWN (R208). -/
def mxownReg (s : State) (core : Nat) : Dword :=
  let k := s.core core
  match k.owner.bind s.block with
  | some b => d64 (2 ^ 63 + b.ctx * 2 ^ 32 + b.idx % 2 ^ 32)
  | none => 0
/-- BANKSTn (R209). -/
def bankReg (s : State) (core n : Nat) : Dword :=
  match (s.core core).banks.get? n with
  | some b => dw b.tile (BitVec.ofNat 32 (b.zp * 2 ^ 8 + b.cls * 2 ^ 5 + b2n b.pair * 16 + b.st))
  | none => 0
/-- Whether a paced block's SKEW reads its limit (R345). -/
def skewReg (b : Block) : Dword := if b.paced then d64 b.hdr.pskew else 0

/-- A special register as a thread reads it (R70, R122). -/
def specialReg (s : State) (b : Block) (core slot : Nat) (f : Frond) (tid : Nat) (t : Thread) (n : Nat) : Dword :=
  if n = 0x000 then d64 t.lane
  else if n = 0x001 then d64 tid
  else if n = 0x002 then b.tile.1.setWidth 64
  else if n = 0x003 then b.tile.2.1.setWidth 64
  else if n = 0x004 then b.tile.2.2.setWidth 64
  else if n = 0x005 then b.nblk.setWidth 64
  else if n = 0x006 then d64 slot
  else if n = 0x007 then d64 core
  else if n = 0x008 then d64 s.sys.devid
  else if n = 0x009 then d64 b.ctx
  else if n = 0x00A then d64 b.prio
  else if n = 0x00B then b.obase
  else if n = 0x010 then t.epc
  else if n = 0x011 then t.eslot
  else if n = 0x012 then t.cause
  else if n = 0x013 then t.tvec
  else if n = 0x014 then t.eaddr
  else if n = 0x015 then t.einfo
  else if n = 0x018 then t.fctl
  else if n = 0x019 then t.fpflags
  else if n = 0x020 then d64 s.gtime
  else if n = 0x021 then d64 (sliceCycles s core (slot % 4)) + f.scyc
  else if n = 0x022 then f.ftimer
  else if n = 0x030 then (if b.paced then b.step.setWidth 64 else 0)
  else if n = 0x031 then skewReg b
  else if 0x032 ≤ n && n ≤ 0x035 then
    match b.coh[n - 0x032]? with
    | some c => d64 (c.idx * 2 ^ 16 + 256 + c.id)
    | none => 0
  else if n = 0x040 then
    match convoyOf s b with
    | some (_, m) => d64 (b2n m.detached * 2 ^ 33 + b2n m.active * 2 ^ 32 + m.pos)
    | none => 0
  else if n = 0x041 then
    match convoyOf s b with
    | some (c, _) => d64 (memberBits c (·.detached) * 2 ^ 32 + memberBits c (·.active))
    | none => 0
  else if n = 0x042 then ((convoyOf s b).map (fun e => d64 e.1.slip)).getD 0
  else if n = 0x043 then ((convoyOf s b).map (fun e => d64 e.1.rel)).getD 0
  else if n = 0x050 then mxownReg s core
  else if 0x051 ≤ n && n ≤ 0x058 then bankReg s core (n - 0x051)
  else if n = 0x060 then b.skwbase
  else if n = 0x061 then b.skwrows
  else if n = 0x070 then s.part.caps0
  else if n = 0x080 then s.sys.didt
  else if n = 0x081 then (s.core core).sratio
  else if n = 0x082 then s.sys.dormt
  else if n = 0x083 then (s.core core).refage
  else 0

/-- A write of a special register held by the thread (R71, R72, R366, R367). -/
def Thread.writeSpecial (t : Thread) (n : Nat) (x : Dword) : Thread :=
  if n = 0x010 then { t with epc := x &&& ~~~7#64 }
  else if n = 0x011 then { t with eslot := if (x.toNat % 32) > 16 then 16 else d64 (x.toNat % 32) }
  else if n = 0x012 then { t with cause := t.cause &&& ~~~x }
  else if n = 0x013 then { t with tvec := x &&& 0xFFFFFFF8#64 }
  else if n = 0x018 then { t with fctl := x &&& 0x3F#64 }
  else if n = 0x019 then { t with fpflags := x &&& 0x1F#64 }
  else t
/-- A write of a special register held by the block (R255). -/
def Block.writeSpecial (b : Block) (n : Nat) (x : Dword) : Block :=
  if n = 0x060 then { b with skwbase := x &&& 0xFFFFFF00#64 }
  else if n = 0x061 then { b with skwrows := x &&& 0xFFF#64 }
  else b
/-- A write of a special register held by the frond (R375). -/
def Frond.writeSpecial (f : Frond) (n : Nat) (x : Dword) : Frond := if n = 0x022 then { f with ftimer := x } else f

end Sys2Proof.Machine
end

