-- ==== Sys2Proof/Machine/Atomics.lean ====
section
/-! DEFINITION. The atomic operations (R78, R167): their widths and what they compute. -/

namespace Sys2Proof.Machine

/-- Whether an operation is on 64 bits (R78). -/
def aopWide : AOp → Bool
  | .addI64 => true | .minI64 => true | .minN64 => true | .maxI64 => true | .maxN64 => true | .andB64 => true
  | .orB64 => true | .xorB64 => true | .xchgB64 => true | .casB64 => true | .bumpN64 => true
  | _ => false
/-- Bytes of an operation. -/
def aopBytes (k : AOp) : Nat := if aopWide k then 8 else 4
/-- The access size of an operation. -/
def aopSz (k : AOp) : Sz := if aopWide k then .b64 else .b32
/-- Whether an operation is a compare-and-swap. -/
def aopCas : AOp → Bool
  | .casB32 => true | .casB64 => true | _ => false
/-- The atomics that host memory accepts: FetchAdd, Swap, CAS (R166). -/
def aopHost : AOp → Bool
  | .addI32 => true | .addI64 => true | .xchgB32 => true | .xchgB64 => true | .casB32 => true | .casB64 => true
  | _ => false

/-- A floating-point add of an atomic, element by element (R167). -/
def aopFadd (t : VTy) (x y : Dword) : Dword :=
  ofElems t (List.zipWith (fun a b => (faddOp (tyFmtD t) .rne false a b).bits) (elems t x) (elems t y))
/-- The new value and the value returned: `old` is the location's value, `a` the operand (for `cas` the compare value),
`b` the new value of a `cas` (R167). -/
def aopApply (k : AOp) (old a b : Dword) : Dword × Dword :=
  let w := 8 * aopBytes k
  let m (x : Dword) : Dword := d64 (x.toNat % 2 ^ w)
  let sg (x : Dword) : Int := intOf w true (x.toNat % 2 ^ w)
  let pick (c : Bool) : Dword := if c then old else m a
  let bump : Dword × Dword := if old.toNat < (m a).toNat then (m (old + 1), old) else (old, m (BitVec.allOnes 64))
  match k with
  | .addI32 => (m (old + a), old)
  | .addI64 => (m (old + a), old)
  | .addF32 => (aopFadd .f32 old (m a), old)
  | .addF16 => (aopFadd .f16 old (m a), old)
  | .addBf16 => (aopFadd .bf16 old (m a), old)
  | .minI32 => (pick (decide (sg old ≤ sg a)), old)
  | .minI64 => (pick (decide (sg old ≤ sg a)), old)
  | .maxI32 => (pick (decide (sg a ≤ sg old)), old)
  | .maxI64 => (pick (decide (sg a ≤ sg old)), old)
  | .minN32 => (pick (decide (old.toNat ≤ (m a).toNat)), old)
  | .minN64 => (pick (decide (old.toNat ≤ (m a).toNat)), old)
  | .maxN32 => (pick (decide ((m a).toNat ≤ old.toNat)), old)
  | .maxN64 => (pick (decide ((m a).toNat ≤ old.toNat)), old)
  | .minF32 => (d64 (fminOp fp32 false old.toNat (m a).toNat), old)
  | .maxF32 => (d64 (fminOp fp32 true old.toNat (m a).toNat), old)
  | .andB32 => (m (old &&& a), old)
  | .andB64 => (m (old &&& a), old)
  | .orB32 => (m (old ||| a), old)
  | .orB64 => (m (old ||| a), old)
  | .xorB32 => (m (old ^^^ a), old)
  | .xorB64 => (m (old ^^^ a), old)
  | .incwN32 => (if (m a).toNat ≤ old.toNat then 0 else m (old + 1), old)
  | .xchgB32 => (m a, old)
  | .xchgB64 => (m a, old)
  | .casB32 => (if old = m a then m b else old, old)
  | .casB64 => (if old = m a then m b else old, old)
  | .bumpN32 => bump
  | .bumpN64 => bump

end Sys2Proof.Machine
end

