-- ==== Sys2Proof/Machine/Access.lean ====
section
/-! DEFINITION. Thread accesses to global memory: their checks (R155, R159, R389), holds (R157, R195 to R201), the paths of
R156 (L1, home slice, host link, remote window, device control space), parking and page faults (R380, R384), and the
landing of results (R158). A target is a physical address; one of 2^52 or more is an offset in another device's window. -/

namespace Sys2Proof.Machine

/-! ## Targets -/

/-- The target of an access through the remote window (R237). -/
def remoteTgt (dev off : Nat) : Nat := Config.paEnd + dev * 2 ^ 45 + off
def tgtRemote (t : Nat) : Bool := decide (Config.paEnd ≤ t)
def tgtHost (s : State) (t : Nat) : Bool := regionOf s.part t == .host
def tgtControl (s : State) (t : Nat) : Bool := regionOf s.part t == .control
def tgtDram (s : State) (t : Nat) : Bool := regionOf s.part t == .dram
/-- Targets at which poisoned data kills the block (R387). -/
def tgtOutside (s : State) (t : Nat) : Bool := !tgtDram s t

/-- Bytes of an access size. -/
def szBytes : Sz → Nat
  | .b8 => 1 | .b16 => 2 | .b32 => 4 | .b64 => 8 | .b128 => 16
/-- The registers of an access size (R154). -/
def szRegs (d : Nat) (sz : Sz) : List Reg := vregs d sz.regs
/-- The bytes of a data operand (R154). -/
def Issue.data (i : Issue) (tid : Nat) (x : Opnd) (sz : Sz) : List Byte :=
  match sz, x with
  | .b128, .v r => ((List.range 4).map (fun k => leBytes 4 (i.v tid (r.val + k)).toNat)).flatten
  | .b64, _ => leBytes 8 (i.opnd tid x true).toNat
  | _, _ => leBytes (szBytes sz) (i.opnd tid x false).toNat
/-- The registers of a data operand. -/
def dataRegs (x : Opnd) (sz : Sz) : List Reg :=
  match x with
  | .v r => szRegs r.val sz
  | .s r => [.s r.val]
  | _ => []

/-! ## Range locks (R159) -/

/-- The index of the first entry of the range-lock table that a thread's access meets. An entry's index is its place among the
entries in force, in the order they were entered: it falls when an earlier one leaves (DESIGN CHOICE, log entry 25: the spec gives
no allocation of the 64). -/
def lockHit (k : Core) (ctx lo n : Nat) (write : Bool) : Option Nat :=
  let hits := k.locks.map (fun x => x.ctx == ctx && (write || x.dest) && decide (lo < x.hi) && decide (x.lo < lo + n))
  if hits.any id then some (hits.takeWhile (fun h => !h)).length else none

/-! ## Audit copies (R389) -/

/-- The audit whose copy a block belongs to. -/
def auditOf (s : State) (b : Block) : Option Audit :=
  match (s.launch b.launch).bind (·.copyOf) with
  | some _ => s.sys.audits.find? (fun a => a.copy == b.launch)
  | none => none
/-- The OUT ranges before an address's own, and its offset, when one of them holds the address. -/
def outAt : List (Dword × Dword) → Nat → Nat → Option Nat
  | [], _, _ => none
  | (a, n) :: t, base, va =>
    if a.toNat ≤ va && va < a.toNat + n.toNat then some (base + (va - a.toNat)) else outAt t (base + n.toNat) va
/-- Where an audit copy's access goes: the shadow for the OUT ranges; other writes are discarded. -/
def auditVa (a : Audit) (va : Dword) (write : Bool) : Option Dword :=
  match outAt a.outs 0 va.toNat with
  | some k => some (a.shadow + d64 k)
  | none => if write then none else some va

/-! ## Checks of a lane's access -/

/-- How a memory word uses an address. -/
inductive Use where
  | load | store | atomic
  deriving DecidableEq, Repr
/-- What a lane's access meets (R155, R159). -/
inductive Fate where
  | go (tgt : Nat) (nc : Bool) | drop | trap (c : Cause) | park
  deriving DecidableEq, Repr

/-- MISAL, ACCV and ENGRC as causes (R366). -/
def misal (va : Dword) : Cause := { bit := 3, addr := va, info := 0 }
def accv (va : Dword) (code : Nat) : Cause := { bit := 4, addr := va, info := d64 code }
def engrc (va : Dword) (k : Nat) : Cause := { bit := 5, addr := va, info := d64 k }

/-- The address at which a word's access to an address is made: that of the shadow for an audit copy; none for a write that is
discarded (R389). -/
def Issue.accessVa (i : Issue) (s : State) (va : Dword) (write : Bool) : Option Dword :=
  match auditOf s i.blk with
  | some a => auditVa a va write
  | none => some va
/-- The check of one access of `n` bytes. -/
def globalFate (s : State) (i : Issue) (va : Dword) (n align : Nat) (u : Use) : Fate :=
  let wr := u != .load
  let audit := auditOf s i.blk
  let at_ := i.accessVa s va wr
  if audit.isSome && u == .atomic then (if va.toNat % align = 0 then .trap (accv va 9) else .trap (misal va))
  else
    match at_ with
    | none => .drop
    | some x =>
      match accessChk s i.core i.blk.ctx x align (if wr then .write else .read) with
      | .misal => .trap (misal va)
      | .accv k => .trap (accv va (if audit.isSome && va.getLsbD 55 && s.part.full then 9 else k))
      | .absent => .park
      | .remote dev off =>
        if audit.isSome then .trap (accv va 9)
        else
          match lockHit (s.core i.core) i.blk.ctx va.toNat n wr with
          | some k => .trap (engrc va k)
          | none => .go (remoteTgt dev off) true
      | .ok pa nc =>
        if audit.isSome && tgtHost s pa then .trap (accv va 9)
        else
          match lockHit (s.core i.core) i.blk.ctx va.toNat n wr with
          | some k => .trap (engrc va k)
          | none => .go pa nc

/-! ## Answers to page faults (R380, R381) -/

/-- Threads of a block in a frond slot that are parked on a page. -/
def parkedOn (b : Block) (slot page : Nat) : List (Nat × Thread) :=
  (b.members slot).filter (fun e => match e.2.status with
    | .parked (.page p _ _) => p == page
    | _ => false)
/-- The word position that a parked or returning thread holds. -/
def Thread.position (t : Thread) : Nat := if t.last then 16 else t.rslot
/-- The ESLOT of a parked thread whose page was refused: 0 for a fetch (R383), else its position. -/
def Thread.refusedSlot (t : Thread) : Nat :=
  match t.status with
  | .parked (.page _ _ true) => 0
  | _ => t.position
/-- The virtual address a parked thread waits for. -/
def Thread.parkVa (t : Thread) : Dword :=
  match t.status with
  | .parked (.page _ va _) => va
  | _ => 0
/-- The context of an engine operation: that of its block. -/
def opCtx (s : State) (o : Op) : Option Nat := (s.block o.bid).map (·.ctx)
/-- The waiting accesses of a page walk again (RESP 1). -/
def retryPage (s : State) (ctx page : Nat) : State :=
  let wake (t : Thread) : Thread := match t.status with
    | .parked (.page p _ _) => if p = page then t.wake else t
    | _ => t
  let go (b : Block) : Block := if b.ctx = ctx then { b with threads := b.threads.mapVal (fun _ t => wake t) } else b
  let op (o : Op) : Op := if o.waits = some page && opCtx s o == some ctx then { o with waits := none } else o
  let s1 := s.updCtx ctx (fun x => { x with waits := x.waits.filter (fun w => w.1 != page) })
  { s1 with blocks := s1.blocks.mapVal (fun _ b => go b),
            cores := s1.cores.mapVal (fun _ k => { k with queue := k.queue.map op }) }
/-- An engine operation that waits on a page is refused it. -/
def Op.deny (o : Op) (page : Nat) : Op :=
  if o.waits = some page then { o with waits := none, denied := page :: o.denied } else o
/-- The engine operations that wait on a page are refused it. -/
def denyOps (s : State) (ctx page : Nat) : State :=
  let op (o : Op) : Op := if opCtx s o == some ctx then o.deny page else o
  { s with cores := s.cores.mapVal (fun _ k => { k with queue := k.queue.map op }) }
/-- The waiting accesses of a page end with ACCV code 3; a waiting engine operation or access of the sequencer is marked
refused (RESP 2). -/
def failPage (s : State) (ctx page : Nat) : State :=
  let s0 := s.updCtx ctx (fun x =>
    { x with waits := x.waits.filter (fun w => w.1 != page), denied := x.denied ++ x.waits.filter (fun w => w.1 == page) })
  let s1 := denyOps s0 ctx page
  s1.blocks.keys.foldl (fun s bid =>
    match s.block bid with
    | none => s
    | some b =>
      if b.ctx != ctx then s
      else
        b.fronds.keys.foldl (fun s slot =>
          takeTrap s bid slot ((parkedOn b slot page).map (fun e =>
            { tid := e.1, causes := [accv e.2.parkVa 3], epc := e.2.pc, eslot := e.2.refusedSlot }))) s) s1
/-- Reports not-present accesses of a context to one page, and ends at once the accesses of pages whose record was lost. -/
def pageAbsent (s : State) (ctx : Nat) (va : Dword) (info n : Nat) (source : Word) (obj : Dword) (blk : Word)
    (node : Nat) : State :=
  let r := pageFault s ctx va info n source obj blk node
  r.2.foldl (fun s p => failPage s ctx p) r.1

/-- The page of a virtual address (R380). -/
def pageOf (va : Dword) : Nat := va.toNat % 2 ^ 55 / 65536
/-- Parks lanes of the clause in flight on translation, each with its address (R380, R384); INFO1 bit 1 of the record marks
a fetch. The lanes' accesses to one page are merged, but an issue set's one access (`whole`) counts once. -/
def Issue.parkPage (i : Issue) (s : State) (tids : List Nat) (va : Nat → Dword) (info : Nat) (whole : Bool) : State :=
  if tids.isEmpty then s
  else
    let park (tid : Nat) (t : Thread) : Thread :=
      t.park (.page (pageOf (va tid)) (va tid) (info == 2)) i.run.clause i.run.pos
    let s1 := (s.updThreads i.bid tids park).updFrond i.bid i.slot (fun f => f.leaveRun tids)
    (tids.map (fun tid => pageOf (va tid))).eraseDups.foldl (fun s page =>
      let on := tids.filter (fun tid => pageOf (va tid) == page)
      pageAbsent s i.blk.ctx (va (on.headD 0)) info (if whole then 1 else on.length) (whereOf i.core i.slot) i.blk.obase
        (BitVec.ofNat 32 i.blk.idx) (s.nodeOf i.blk.launch)) s1
/-- Parks lanes on an absent scratchpad line (R162), each with the offset of its access. -/
def Issue.parkLine (i : Issue) (s : State) (tids : List Nat) (line : Nat → Nat) (off : Nat → Nat) : State :=
  if tids.isEmpty then s
  else (s.updThreads i.bid tids (fun tid t => t.park (.line (line tid) (off tid)) i.run.clause i.run.pos)).updFrond i.bid i.slot
    (fun f => f.leaveRun tids)

/-- Raises a cause of its own in each of some lanes, at the word that issues (R80). -/
def Issue.raiseEach (i : Issue) (s : State) (rs : List (Nat × Cause)) : State :=
  takeTrap s i.bid i.slot
    (rs.map (fun r => { tid := r.1, causes := [r.2], epc := i.run.clause, eslot := i.run.pos }))

/-! ## Outstanding accesses and holds (R157) -/

/-- The acquire of a word of some threads completes: of the L1 (R157), and of what other threads have released (R274). -/
def acquireBy (s : State) (core bid : Nat) (tids : List Nat) (sc : Scope) : State :=
  if sc = .none then s else learnAt (acquireAt s core sc) bid tids widePlace
/-- Whether a request has a load part (R171). -/
def ReqKind.returns : ReqKind → Bool
  | .read => true
  | .atomic _ _ _ _ _ (some _) => true
  | .take _ _ => true
  | .serve _ _ => true
  | _ => false
/-- Whether a request writes. -/
def ReqKind.writes : ReqKind → Bool
  | .read => false
  | _ => true
/-- A request that counts as one of some threads, made before a place in issue order. -/
def Req.isOf (r : Req) (bid : Nat) (tids : List Nat) (before : Nat) : Bool :=
  r.bid == bid && decide (r.seq < before) && r.tids.any tids.contains
/-- The requests that atomic units hold. -/
def heldAtoms (s : State) : List Req := (s.atoms.map (·.queue)).flatten.map (·.req)
/-- The releases in the scratchpad of some threads that have still to perform (R157). -/
def relsOf (s : State) (bid : Nat) (tids : List Nat) : List LocalRel :=
  ((s.block bid).map (fun b => b.rels.filter (fun r => tids.contains r.tid))).getD []
/-- A load that has not completed, of any of some threads, among those issued before a place in the order. A block that has been
dormant since may have issued it on another core. -/
def loadOut (s : State) (bid : Nat) (tids : List Nat) (before : Nat) : Bool :=
  (relsOf s bid tids).any (fun r => r.rmw.isSome && decide (r.seq < before))
    || s.cores.any (fun e => e.2.fills.any (fun f => f.joins.any (fun j => j.bid == bid && decide (j.seq < before) && j.tids.any tids.contains))
      || e.2.reqs.any (fun r => r.isOf bid tids before && r.kind.returns))
    || (heldAtoms s).any (fun r => r.isOf bid tids before && r.kind.returns)
    || s.fab.remote.any (fun q => q.req.isOf bid tids before && q.req.kind.returns)
/-- Any access of some threads that has not performed. -/
def accessOut (s : State) (bid : Nat) (tids : List Nat) (before : Nat) : Bool :=
  loadOut s bid tids before || (relsOf s bid tids).any (fun r => decide (r.seq < before))
    || s.cores.any (fun e => e.2.reqs.any (fun r => r.isOf bid tids before))
    || s.fab.remote.any (fun q => !q.accepted && q.req.isOf bid tids before)
/-- An acquire of some threads that has not completed holds their later memory words (R157). -/
def acquireOut (s : State) (bid : Nat) (tids : List Nat) : Bool :=
  let mine (r : Req) : Bool := r.bid == bid && r.acq != .none && r.tids.any tids.contains
  (relsOf s bid tids).any (fun r => r.acq != .none)
    || s.cores.any (fun e => e.2.fills.any (fun f => f.joins.any (fun j => j.bid == bid && j.acq != .none && j.tids.any tids.contains))
      || e.2.reqs.any mine)
    || (heldAtoms s).any mine || s.fab.remote.any (fun q => mine q.req)
/-- Whether a request is a store that its core's L1 has accepted: a release is accepted there as it performs. -/
def Req.stores (r : Req) : Bool := r.rel == .none && (match r.kind with | .write _ _ _ => true | _ => false)
/-- Stores of a core made before a place in issue order, for which a release at a scope still waits (R157): those that no home slice has
acknowledged; at system scope also writes to host memory, and writes through the remote window that have no reply (R253). -/
def storesOut (s : State) (core : Nat) (sc : Scope) (before : Nat) : Bool :=
  wideScope sc
    && ((s.core core).reqs.any (fun r => decide (r.seq < before)
          && (if tgtDram s (r.line * 64) then r.stores else sc == .sys && r.rel == .none && r.kind.writes))
        || (sc == .sys && s.fab.remote.any (fun q => q.core == core && decide (q.tag < before) && decide (0 < q.sends)
          && q.req.kind.writes)))
/-- Whether a release by some threads, at a place in issue order, may perform (R157). -/
def releaseReady (s : State) (core bid : Nat) (tids : List Nat) (sc : Scope) (before : Nat) : Bool :=
  !accessOut s bid tids before && !storesOut s core sc before
/-- Whether an order has an acquire, a release. -/
def ordAcq : Ord → Bool
  | .acq => true | .acqrel => true | _ => false
def ordRel : Ord → Bool
  | .rel => true | .acqrel => true | _ => false
/-- The scope of an acquire of a word; none for a word without one. -/
def acqScope (o : Ord) (sc : Scope) : Scope := if ordAcq o then sc else .none
/-- The scope of a release; none for a word without one. -/
def relScope (o : Ord) (sc : Scope) : Scope := if ordRel o then (if sc = .none then .blk else sc) else .none
/-- Whether a memory word of some threads cannot issue yet: an acquire holds it, or it is a release that is performed where it
issues. A release at a home slice issues, and waits there (`Req.ready`). -/
def Issue.held (i : Issue) (s : State) (tids : List Nat) (o : Ord) (sc : Scope) : Bool :=
  acquireOut s i.bid tids || (ordRel o && !releaseReady s i.core i.bid tids sc s.seq)
/-- Whether a request of a core may perform: a release waits for what it orders (R157). -/
def Req.ready (r : Req) (s : State) (core : Nat) : Bool := r.rel == .none || releaseReady s core r.bid r.tids r.rel r.seq
/-- Whether a word's access to a line waits at issue: behind a release of its core to the line that has not performed, made before
it (R160, R248), or behind a request of its block that was made on another core (R275). -/
def Issue.behind (i : Issue) (s : State) (tgt : Nat) : Bool :=
  (s.core i.core).reqs.any (fun r => r.rel != .none && r.line == tgt / 64 && decide (r.seq < i.seq))
    || s.cores.any (fun e => e.1 != i.core && e.2.reqs.any (fun r => r.bid == i.bid && r.line == tgt / 64))

/-! ## Tokens and results (R67, R69, R158) -/

/-- Counts a token up in threads, when the word names one. -/
def countUp (s : State) (c : Ctl) (bid : Nat) (tids : List Nat) : State :=
  if c.set then s.updThreads bid tids (fun _ t => t.incTok c.tok.toNat) else s
/-- Counts a token down in threads that have not exited. -/
def countDown (s : State) (bid : Nat) (tids : List Nat) (tok : Option Nat) : State :=
  match tok with
  | some k => s.updThreads bid tids (fun _ t => if t.exited then t else t.decTok k)
  | none => s
/-- The token of a word. -/
def ctlToken (c : Ctl) : Option Nat := if c.set then some c.tok.toNat else none

/-- A token-tracked write is pending on registers of a thread. -/
def Thread.await (t : Thread) (rs : List Reg) : Thread :=
  { t with pend := rs.map (fun r => { reg := r, due := .reply, old := 0, bad := false }) ++ t.pend }
/-- Removes one pending write of each register. -/
def dropPend (rs : List Reg) (l : List Pend) : List Pend :=
  rs.foldl (fun l r => l.eraseP (fun p => decide (p.reg = r) && p.waits)) l
/-- Bytes written to the registers of a size (R154). -/
def Thread.load (t : Thread) (d : Nat) (sz : Sz) (bytes : List Byte) (bad : Bool) : Thread :=
  (List.range sz.regs).foldl (fun t k =>
    t.putV (d + k) (BitVec.ofNat 32 (leNat ((bytes.drop (4 * k)).take (Nat.min 4 (szBytes sz))))) bad) t
/-- A loaded value lands: its registers, its pending marks (R158). A result of an exited thread is discarded, that of a uniform
word when its whole issue set has exited (R117). -/
def landLoad (s : State) (bid tid : Nat) (tids : List Nat) (d : Dst) (sz : Sz) (bytes : List Byte) (bad : Bool) : State :=
  match d with
  | .v n => s.updThread bid tid (fun t =>
      if t.exited then t
      else let u := t.load n sz bytes bad; { u with pend := dropPend (szRegs n sz) u.pend })
  | .s slot n =>
    let live := tids.any (fun t => ((s.thread bid t).map (fun x => !x.exited)).getD false)
    s.updFrond bid slot (fun f =>
      let g := if live then f.putS n (d64 (leNat (bytes.take (szBytes sz)))) bad else f
      { g with pend := dropPend [.s n] g.pend })
  | _ => s
/-- What an engine operation has read waits for its use (R204). -/
def landGot (s : State) (id : Nat) (g : Got) : State :=
  { s with cores := s.cores.mapVal (fun _ (k : Core) =>
    { k with queue := k.queue.map (fun o => if o.id = id then { o with inbox := o.inbox ++ [g] } else o) }) }
/-- How many bytes a read asks for. -/
def Join.len (j : Join) : Nat :=
  match j.dst with
  | .op _ n => n
  | .block _ => 64
  | _ => szBytes j.sz
/-- Changes every read that waits for a reply. -/
def State.mapJoins (s : State) (g : Join → Join) : State :=
  { s with cores := s.cores.mapVal (fun _ (k : Core) => { k with fills := k.fills.map (fun f => { f with joins := f.joins.map g }) }),
           fab := { s.fab with remote := s.fab.remote.map (fun q => { q with joins := q.joins.map g }) } }
/-- The uniform loads of a frond slot that has been given to a new frond are discarded: their issue sets have exited (R117). -/
def dropUniform (s : State) (bid slot : Nat) : State :=
  let out (j : Join) : Join := match j.dst with
    | .s k _ => if j.bid = bid ∧ k = slot then { j with tids := [], dst := .op 0 0 } else j
    | _ => j
  s.mapJoins out
/-- Marks a destination as awaiting its result. -/
def awaitDst (s : State) (bid tid : Nat) (d : Dst) (sz : Sz) : State :=
  match d with
  | .v n => s.updThread bid tid (fun t => t.await (szRegs n sz))
  | .s slot n => s.updFrond bid slot (fun f =>
      { f with pend := { reg := .s n, due := .reply, old := 0, bad := false } :: f.pend })
  | _ => s
/-- A load ends without a value: nothing is written (R352). -/
def dropLoad (s : State) (bid tid : Nat) (d : Dst) (sz : Sz) : State :=
  match d with
  | .v n => s.updThread bid tid (fun t => { t with pend := dropPend (szRegs n sz) t.pend })
  | .s slot n => s.updFrond bid slot (fun f => { f with pend := dropPend [.s n] f.pend })
  | _ => s
/-- A read receives its value: its registers and its token, or the operation that asked. -/
def Join.land (j : Join) (s : State) (bytes : List Byte) (bad : Bool) : State :=
  match j.dst with
  | .op id _ => landGot s id { va := j.va, data := bytes, bad := bad }
  | .block slot => s.updFrond j.bid slot (fun f =>
      if f.eblk = some none then { f with eblk := some (some { va := j.va, data := bytes, bad := bad }) } else f)
  | d => countDown (landLoad s j.bid j.tid j.tids d j.sz bytes bad) j.bid j.tids (some j.tok)

/-! ## Sending (R156, R241, R248, R251, R351) -/

/-- The first hop of a device on a shortest path to devices within some distance of the target: to the neighbour with the lowest
id, by the lowest port. -/
def hopFrom (ls : List Link) (me : Nat) : Nat → List Nat → Option Link
  | 0, _ => none
  | n + 1, near =>
    match (ls.filter (fun l => l.a == me && near.contains l.b)).foldl (fun (best : Option Link) l => match best with
        | none => some l
        | some m => if l.b < m.b || (l.b == m.b && decide (l.p < m.p)) then some l else some m) none with
    | some l => some l
    | none => hopFrom ls me n (ls.foldl (fun (r : List Nat) l => if near.contains l.a then addNat r l.b else r) near)
/-- The hops from one device to another, each device choosing its own (R351). -/
def pathFrom (ls : List Link) (far : Nat) : Nat → Nat → Nat → Option (List Link)
  | 0, me, dev => if me = dev then some [] else none
  | n + 1, me, dev =>
    if me = dev then some []
    else (hopFrom ls me far [dev]).bind (fun l => (pathFrom ls far n l.b dev).map (l :: ·))
/-- The links over which a request to a device goes, of the map's links that are live (R351): none for this device itself, which
uses no link. -/
def pathOf (s : State) (dev : Nat) : Option (List Link) :=
  let live (l : Link) : Bool := l.a != s.sys.devid || (s.fab.ports.getD l.p Port.init).st == 2
  let n := s.fab.devs.length
  if dev = s.sys.devid then none else pathFrom (s.fab.links.filter live) n n s.sys.devid dev
/-- A request sent through the remote window; its tag is its place in issue order (R351). -/
def sendRemote (s : State) (core tgt : Nat) (r : Req) (js : List Join) : State :=
  let dev := (tgt - Config.paEnd) / 2 ^ 45
  let q : RemoteReq := { tag := r.seq, dev := dev, off := tgt % 2 ^ 45, sent := s.gtime, path := pathOf s dev, sends := b2n (r.rel == .none),
                         accepted := false, core := core, req := r, joins := js }
  { s with fab := { s.fab with remote := s.fab.remote ++ [q] } }
/-- Whether a remote request is the read of a line that a word has already sent, at or after a place in issue order. -/
def RemoteReq.sameRead (q : RemoteReq) (core tgt word : Nat) : Bool :=
  q.core == core && decide (word ≤ q.tag) && decide (q.req.kind = .read) && decide (q.req.who = .thread)
    && q.dev == (tgt - Config.paEnd) / 2 ^ 45 && q.off / 64 == tgt % 2 ^ 45 / 64
/-- A lane's read through the remote window: the lanes of one word that read one line make one request, so that they read one
value (R160, R270). -/
def readRemote (s : State) (core tgt word : Nat) (r : Req) (j : Join) : State :=
  if s.fab.remote.any (fun q => q.sameRead core tgt word) then
    { s with fab := { s.fab with remote := s.fab.remote.map (fun q =>
      if q.sameRead core tgt word then { q with joins := q.joins ++ [j], req := { q.req with tids := q.req.tids ++ j.tids } }
      else q) } }
  else sendRemote s core tgt r [j]
/-- Whether a read may receive the reply of an entry that is on its way: not one that was accepted before a monitor on the line was
armed by a thread of the word (R292). The lanes of a word receive one reply (R160, R270). -/
def mayJoin (s : State) (k : Core) (f : Fill) (bid : Nat) (lanes : List Nat) : Bool :=
  k.reqs.any (fun r => r.seq == f.seq)
    || !s.mons.any (fun m => m.bid == bid && lanes.contains m.tid && m.line == f.line && decide (f.seq < m.seq))
/-- A read of a line: it joins the entry of the fill tracker that is on its way, or takes a new one; none while the
tracker is full (R251). -/
def sendRead (s : State) (core line : Nat) (nc : Bool) (who : Asker) (lanes : List Nat) (j : Join) : Option State :=
  let k := s.core core
  let joins (f : Fill) : Bool := f.line == line && f.install && mayJoin s k f j.bid lanes
  if k.fills.any joins then
    some (s.updCore core (fun k => { k with fills := k.fills.map (fun f =>
      if joins f then { f with nc := f.nc && nc, joins := f.joins ++ [j] } else f) }))
  else if Config.fillEntries ≤ k.fills.length then none
  else
    let f : Fill := { line := line, install := true, nc := nc, joins := [j], laid := [], reply := none, seq := j.seq }
    let r : Req := { seq := j.seq, time := s.gtime, va := j.va, line := line, bid := j.bid, tid := j.tid, tids := [], tok := none, acq := .none,
                     rel := .none, who := who, kind := .read }
    some (s.updCore core (fun k =>
      { k with fills := k.fills.map (fun g => if g.line = line then { g with install := false } else g) ++ [f], reqs := k.reqs ++ [r] }))
/-- A request that writes is sent after the core's earlier ones. -/
def sendReq (s : State) (core : Nat) (r : Req) : State := s.updCore core (fun k => { k with reqs := k.reqs ++ [r] })
/-- A store updates a present line of its core's L1, and is laid over a fill on its way (R248). -/
def Core.storeOver (k : Core) (line off : Nat) (bytes : List Byte) (bad : Bool) (seq : Nat) : Core :=
  { k with
    l1 := k.l1.mapVal (fun n x =>
      if n = line && x.priv.isNone then { x with data := overlay x.data off bytes, bad := x.bad || bad } else x),
    fills := k.fills.map (fun f =>
      if f.line = line then { f with laid := f.laid ++ [{ seq := seq, off := off, bytes := bytes, bad := bad }] }
      else f) }

/-- The thread on whose behalf an access is made, and those whose access it counts as. -/
structure Party where
  tid  : Nat
  tids : List Nat
  deriving DecidableEq, Repr

/-- The present line of a core that a load may use (R156, R249). -/
def l1Hit (s : State) (core line : Nat) (nc : Bool) (acq : Scope) : Option L1Line :=
  match (s.core core).l1.get? line with
  | some x => if x.priv.isNone && !nc && !wideScope acq && decide (s.gtime < x.time + 100000) then some x else none
  | none => none
/-- Performs one load (R156): at the L1 when the line is present, otherwise at the line's home slice; a register of the
control space is read at once. None while the fill tracker is full. -/
def loadAt (s : State) (i : Issue) (c : Ctl) (p : Party) (va : Dword) (tgt : Nat) (nc : Bool) (sz : Sz) (acq : Scope)
    (d : Dst) : Option State :=
  let n := szBytes sz
  let off := tgt % 64
  let j : Join := { bid := i.bid, tid := p.tid, tids := p.tids, va := va, dst := d, sz := sz, off := off, tok := c.tok.toNat,
                    acq := acq, seq := s.seq }
  let s1 := { s with seq := s.seq + 1 }
  if tgtRemote tgt then
    let r : Req := { seq := s.seq, time := s.gtime, va := va, line := tgt / 64, bid := i.bid, tid := p.tid, tids := p.tids, tok := ctlToken c,
                     acq := acq, rel := .none, who := .thread, kind := .read }
    some (awaitDst (countUp (readRemote s1 i.core tgt i.seq r j) c i.bid p.tids) i.bid p.tid d sz)
  else if tgtControl s tgt then
    some (landLoad (acquireBy s i.core i.bid p.tids acq) i.bid p.tid p.tids d sz (controlBytes s (tgt - Config.csBase) n) false)
  else
    match l1Hit s i.core (tgt / 64) nc acq with
    | some x => some (landLoad (acquireBy s i.core i.bid p.tids acq) i.bid p.tid p.tids d sz ((x.data.drop off).take n) x.bad)
    | none => (sendRead s1 i.core (tgt / 64) nc .thread (p.tids ++ i.act) j).map (fun s2 =>
        awaitDst (countUp s2 c i.bid p.tids) i.bid p.tid d sz)

/-- Performs one store (R156, R248): written through to the home slice; a release is accepted into the L1 when it performs; a
write to the control space that passes its checks changes nothing (R392). -/
def storeAt (s : State) (i : Issue) (c : Ctl) (p : Party) (va : Dword) (tgt : Nat) (rel : Scope) (bytes : List Byte)
    (bad : Bool) : State :=
  let r : Req := { seq := s.seq, time := s.gtime, va := va, line := tgt / 64, bid := i.bid, tid := p.tid, tids := p.tids, tok := ctlToken c,
                   acq := .none, rel := rel, who := .thread, kind := .write (tgt % 64) bytes bad }
  let s1 := { s with seq := s.seq + 1 }
  if tgtRemote tgt then countUp (sendRemote s1 i.core tgt r []) c i.bid p.tids
  else if tgtControl s tgt then s
  else
    let s2 := if rel = .none then s1.updCore i.core (fun k => k.storeOver (tgt / 64) (tgt % 64) bytes bad s.seq) else s1
    countUp (sendReq s2 i.core r) c i.bid p.tids

/-- Sends one atomic, reduction or ticket request; a present copy of its line leaves the L1 (R156, R249). -/
def atomicAt (s : State) (i : Issue) (c : Ctl) (p : Party) (va : Dword) (tgt : Nat) (acq rel : Scope) (k : ReqKind) :
    State :=
  let r : Req := { seq := s.seq, time := s.gtime, va := va, line := tgt / 64, bid := i.bid, tid := p.tid, tids := p.tids, tok := ctlToken c,
                   acq := acq, rel := rel, who := .thread, kind := k }
  let s1 := { s with seq := s.seq + 1 }
  if tgtRemote tgt then countUp (sendRemote s1 i.core tgt r []) c i.bid p.tids
  else countUp (sendReq (s1.updCore i.core (fun k => k.invalLine (tgt / 64))) i.core r) c i.bid p.tids

/-! ## A word's accesses, lane by lane -/

/-- The fates of some lanes. -/
def fatesOf (l : List Nat) (f : Nat → Fate) : List (Nat × Fate) := l.map (fun t => (t, f t))
/-- Makes the accesses of a word: the lanes that perform, in ascending lane order (R160); the lanes that park; then the
lanes that trap (R155, R391). None while an access has no room. -/
def Issue.accesses (i : Issue) (s : State) (lanes : List Nat) (fate : Nat → Fate) (va : Nat → Dword) (info : Nat)
    (perform : State → Nat → Nat → Bool → Option State) : Option State :=
  let fs := fatesOf lanes fate
  let s1 := fs.foldl (fun (o : Option State) e =>
    match o, e.2 with
    | some s, .go tgt nc => if i.behind s tgt then none
        else perform (tlbFill s i.core i.blk.ctx ((i.accessVa s (va e.1) (info == 1)).getD 0).toNat) e.1 tgt nc
    | o, _ => o) (some s)
  s1.map (fun s1 =>
    let parks := fs.filterMap (fun e => if e.2 = .park then some e.1 else none)
    let traps := fs.filterMap (fun e => match e.2 with | .trap c => some (e.1, c) | _ => none)
    i.raiseEach (i.parkPage s1 parks va info false) traps)
/-- The addresses that the accesses of a word translate: not those that are misaligned (R155), nor those of an atomic that an audit copy
may not make (R389). -/
def Issue.walkVas (i : Issue) (s : State) (lanes : List Nat) (va : Nat → Dword) (n : Nat) (u : Use) : List Dword :=
  if u = .atomic && (auditOf s i.blk).isSome then []
  else (lanes.filter (fun t => (va t).toNat % n == 0)).filterMap (fun t => i.accessVa s (va t) (u != .load))
/-- The walks of a word's accesses have read their lines (R262, R377); none while a home slice has no room for them (R245). -/
def Issue.walked (i : Issue) (s : State) (lanes : List Nat) (va : Nat → Dword) (n : Nat) (u : Use)
    (go : State → Option (State × (Nat → Option Dword))) : Option (State × (Nat → Option Dword)) :=
  (walkAll s i.core i.blk.ctx (i.walkVas s lanes va n u) (if u = .load then .read else .write)).bind go
/-- The access of a uniform word: made once, its outcome shared by the whole issue set (R129). -/
def Issue.accessOnce (i : Issue) (s : State) (fate : Fate) (va : Dword) (info : Nat)
    (perform : State → Nat → Bool → Option State) : Option State :=
  match fate with
  | .go tgt nc => if i.behind s tgt then none
      else perform (tlbFill s i.core i.blk.ctx ((i.accessVa s va (info == 1)).getD 0).toNat) tgt nc
  | .drop => some s
  | .park => some (i.parkPage s i.run.tids (fun _ => va) info true)
  | .trap c => some (i.raiseEach s (i.run.tids.map (fun t => (t, c))))

/-- The lowest of some lanes in which a register that a word uses is poisoned (R382). -/
def Issue.badLane (i : Issue) (lanes : List Nat) (rs : List Reg) : Nat := (lanes.find? (fun t => i.bad t rs)).getD i.low
/-- Whether a poisoned register is among a word's address registers in an active lane (R387). -/
def Issue.badUse (i : Issue) (lanes : List Nat) (rs : List Reg) : Bool := lanes.any (fun t => i.bad t rs)
/-- The block dies of a poisoned value used by the word that issues (R387). -/
def Issue.poisoned (i : Issue) (s : State) (addr : Dword) : Option (State × (Nat → Option Dword)) :=
  some (killPoison s i.bid i.slot addr, noTarget)
/-- A word's effect that moves no PC. -/
def plain (s : Option State) : Option (State × (Nat → Option Dword)) := s.map (fun s => (s, noTarget))

end Sys2Proof.Machine
end

