-- ==== Sys2Proof/Machine/Local.lean ====
section
/-! DEFINITION. A block's own memories: the scratchpad with its skewed window, presence and poison (R162, R163, R254 to
R256), private memory in the L1 (R164, R250, R258), the accumulator store (R165, R257), and the paced step slots (R346,
R347). -/

namespace Sys2Proof.Machine

/-! ## Scratchpad -/

/-- A block's scratchpad allocation in bytes (R236). -/
def Block.alloc (b : Block) : Nat := (b.hdr.scratch + 4095) / 4096 * 4096
/-- A scratchpad or private offset: an operand and a signed byte offset (R162, R164). -/
def Issue.offset (i : Issue) (tid : Nat) (x : Opnd) (imm : BitVec 18) : Int := ((i.o32 tid x).toNat : Int) + imm.toInt
/-- The skewed window's map of a 4-aligned offset (R163). -/
def Block.skewWord (b : Block) (w : Nat) : Nat :=
  let base := b.skwbase.toNat
  let rows := b.skwrows.toNat
  if 0 < rows && base ≤ w && w < base + 256 * rows then
    let i := (w - base) / 256
    let j := (w - base) / 4 % 64
    base + 256 * i + 4 * ((i + j) % 64)
  else w
/-- Where each byte of an access lies. -/
def Block.scrAddrs (b : Block) (skew : Bool) (o n : Nat) : List Nat :=
  (List.range n).map (fun k =>
    let a := o + k
    if skew then b.skewWord (a / 4 * 4) + a % 4 else a)
/-- A byte of the scratchpad. -/
def Block.scrByte (b : Block) (a : Nat) : Byte := b.scr.getD a 0
/-- Bytes of the scratchpad from an offset. -/
def Block.scrBytes (b : Block) (o n : Nat) : List Byte := (List.range n).map (fun k => b.scrByte (o + k))
/-- A little-endian field of the scratchpad. -/
def Block.scrNum (b : Block) (o n : Nat) : Nat := leNat (b.scrBytes o n)
/-- Writes bytes at some addresses, with poison for their words: clean bytes clear it from the words that they overwrite whole
(R386; as R263 for a line, log entry 52). -/
def Block.scrPut (b : Block) (as : List Nat) (bytes : List Byte) (bad : Bool) : Block :=
  { b with scr := (as.zip bytes).foldl (fun m e => m.set 0 e.1 e.2) b.scr,
           scrBad := as.foldl (fun l a =>
             if bad then addNat l (a / 4)
             else if l.contains (a / 4) && (List.range 4).all (fun k => as.contains (a / 4 * 4 + k)) then delNat l (a / 4)
             else l) b.scrBad }
/-- Writes a run of bytes. -/
def Block.scrWrite (b : Block) (o : Nat) (bytes : List Byte) (bad : Bool) : Block :=
  b.scrPut ((List.range bytes.length).map (· + o)) bytes bad
/-- Whether a scratchpad access of a thread overlaps a release of its own that has still to perform (R160). -/
def Block.behindRel (b : Block) (tid : Nat) (as : List Nat) : Bool :=
  b.rels.any (fun r => r.tid == tid && r.addrs.any as.contains)
/-- Whether any word of some addresses is poisoned. -/
def Block.scrIsBad (b : Block) (as : List Nat) : Bool := as.any (fun a => b.scrBad.contains (a / 4))
/-- Whether any word of a range is poisoned. -/
def Block.rangeBad (b : Block) (o n : Nat) : Bool := b.scrBad.any (fun w => decide (o < 4 * w + 4) && decide (4 * w < o + n))
/-- The first absent line of some addresses. -/
def Block.absentIn (b : Block) (as : List Nat) : Option Nat :=
  (as.find? (fun a => b.absent.contains (a / 64))).map (· / 64)
/-- Whether any line of a range is absent. -/
def Block.rangeAbsent (b : Block) (o n : Nat) : Bool := (linesOf o n).any b.absent.contains

/-- Whether an incomplete `cpy` of a block writes a scratchpad line (R384). -/
def cpyWrites (k : Core) (bid line : Nat) : Bool :=
  k.queue.any (fun o => o.bid == bid && !o.done && o.lines.contains line && (match o.kind with
    | .cpy _ => true
    | _ => false))
/-- SCROV and ABSENT as causes (R366). -/
def scrov (o : Int) : Cause := { bit := 16, addr := BitVec.ofInt 64 o, info := 0 }
def absentCause (o : Int) : Cause := { bit := 18, addr := BitVec.ofInt 64 o, info := 0 }
def misalAt (o : Int) : Cause := misal (BitVec.ofInt 64 o)

/-- What a lane's scratchpad access meets (R162). -/
inductive ScrFate where
  | go (as : List Nat) | trap (c : Cause) | park (line off : Nat)
  deriving DecidableEq, Repr
/-- The checks of R162: `write` for `stl` and `atoml`. An offset of `sldl` that is misaligned and outside raises SCROV, as the
table of R162 has it first (DESIGN CHOICE, log entry 53: R129's table has MISAL first, and neither says which decides). -/
def scrFate (s : State) (i : Issue) (skew write : Bool) (o : Int) (n : Nat) : ScrFate :=
  if o < 0 || (i.blk.alloc : Int) < o + n then .trap (scrov o)
  else if o.toNat % n ≠ 0 then .trap (misalAt o)
  else
    let as := i.blk.scrAddrs skew o.toNat n
    if as.any (fun a => decide (i.blk.alloc ≤ a)) then .trap (scrov o)
    else
      match i.blk.absentIn as with
      | none => .go as
      | some line =>
        if write then .trap (engrc (BitVec.ofInt 64 o) 64)
        else if cpyWrites (s.core i.core) i.bid line then .park line o.toNat
        else .trap (absentCause o)
/-- Makes the scratchpad accesses of a word: lanes that perform in ascending order, lanes that park, lanes that trap. -/
def Issue.scrAccesses (i : Issue) (s : State) (lanes : List Nat) (fate : Nat → ScrFate)
    (perform : State → Nat → List Nat → State) : State :=
  let fs := lanes.map (fun t => (t, fate t))
  let s1 := fs.foldl (fun s e => match e.2 with | .go as => perform s e.1 as | _ => s) s
  let parks := fs.filterMap (fun e => match e.2 with | .park l o => some (e.1, l, o) | _ => none)
  let at_ (t : Nat) : Nat × Nat := ((parks.find? (fun e => e.1 == t)).map (·.2)).getD (0, 0)
  let traps := fs.filterMap (fun e => match e.2 with | .trap c => some (e.1, c) | _ => none)
  i.raiseEach (i.parkLine s1 (parks.map (·.1)) (fun t => (at_ t).1) (fun t => (at_ t).2)) traps

/-- Presence bits are set: threads parked on the lines go on, unless another of their lines is absent, which they meet
as they issue again (R222, R384). -/
def setPresent (s : State) (bid : Nat) (lines : List Nat) : State :=
  s.updBlock bid (fun b =>
    { b with absent := b.absent.filter (fun l => !lines.contains l),
             threads := b.threads.mapVal (fun _ t => match t.status with
               | .parked (.line l _) => if lines.contains l then t.wake else t
               | _ => t) })
/-- Threads parked on a line whose last `cpy` ended without setting its bit raise ABSENT (R384). -/
def raiseAbsent (s : State) (bid : Nat) (line : Nat) : State :=
  match s.block bid with
  | none => s
  | some b =>
    b.fronds.keys.foldl (fun s slot =>
      takeTrap s bid slot ((b.members slot).filterMap (fun e => match e.2.status with
        | .parked (.line l off) =>
          if l = line then some { tid := e.1, causes := [absentCause off], epc := e.2.pc, eslot := e.2.position } else none
        | _ => none))) s

/-! ## Paced step slots (R195, R346, R347) -/

/-- The members of a block's COH0 cohort. -/
def coh0Members (s : State) (b : Block) : List Nat :=
  match b.coh[0]?, s.launch b.launch with
  | some c, some x => ((x.cohorts[c.id]?).map (·.members)).getD []
  | _, _ => []
/-- Upstream blocks by linear index (R346). -/
def upstream (s : State) (b : Block) : List Nat := (coh0Members s b).filter (· != b.idx)
/-- Downstream blocks by linear index (R346). -/
def downstream (s : State) (b : Block) : List Nat :=
  (s.blocks.filter (fun e => e.2.launch == b.launch && e.2.idx != b.idx && (coh0Members s e.2).contains b.idx)).map
    (·.2.idx)
/-- Whether a block of the launch has gone. -/
def State.goneIn (s : State) (l idx : Nat) : Bool := ((s.launch l).map (fun x => x.gone idx)).getD true
/-- The steps that a block of the launch has completed; one that has gone counts as having completed every step. -/
def stepOf (s : State) (l idx : Nat) : Option Nat :=
  if s.goneIn l idx then none else (s.blockOf l idx).map (fun e => e.2.step.toNat)
/-- Whether writes into the step slot of a block's running step are held (R347). -/
def slotHeld (s : State) (b : Block) : Bool :=
  b.paced && decide (b.hdr.pskew + 1 ≤ b.step.toNat)
    && (downstream s b).any (fun d => match stepOf s b.launch d with
        | some n => decide (n + b.hdr.pskew < b.step.toNat + 1)
        | none => false)
/-- Whether a scratchpad range overlaps the slot of a block's running step. -/
def inSlot (b : Block) (o n : Nat) : Bool :=
  let lo := b.step.toNat % (b.hdr.pskew + 1) * b.hdr.pslot
  decide (o < lo + b.hdr.pslot) && decide (lo < o + n)

/-! ## Private memory -/

/-- PRIVOV with an offset or depth (R366). -/
def privov (o : Int) : Cause := { bit := 15, addr := 0, info := BitVec.ofInt 64 o }
/-- The virtual address of a private byte (R258). -/
def Block.privVa (b : Block) (tid p : Nat) : Dword :=
  b.pbase + d64 (p / 4 * 4 * b.threads.length + 4 * tid + p % 4)
/-- The pieces of a private access: an offset and a length within one word. -/
def privPieces (p n : Nat) : List (Nat × Nat) :=
  if n ≤ 4 then [(p, n)] else (List.range (n / 4)).map (fun k => (p + 4 * k, 4))
/-- The targets of a private access, or what stops it. -/
def privFate (s : State) (i : Issue) (tid p n : Nat) (write : Bool) : List (Nat × Bool × Nat) × Fate :=
  let one (q : Nat × Nat) : Fate × Nat :=
    match accessChk s i.core i.blk.ctx (i.blk.privVa tid q.1) 1 (if write then .write else .read) with
    | .ok pa nc => (.go pa nc, q.2)
    | .absent => (.park, q.2)
    | .accv k => (.trap (accv (i.blk.privVa tid q.1) k), q.2)
    | .misal => (.trap (misal (i.blk.privVa tid q.1)), q.2)
    | .remote _ _ => (.trap (accv (i.blk.privVa tid q.1) 5), q.2)
  let fs := (privPieces p n).map one
  match fs.find? (fun f => match f.1 with | .go _ _ => false | _ => true) with
  | some f => ([], f.1)
  | none => (fs.filterMap (fun f => match f.1 with | .go pa nc => some (pa, nc, f.2) | _ => none), .go 0 false)
/-- The virtual address at which a private access parks or traps. -/
def privStop (s : State) (i : Issue) (tid p n : Nat) (write : Bool) : Dword :=
  match (privPieces p n).find? (fun q =>
    match accessChk s i.core i.blk.ctx (i.blk.privVa tid q.1) 1 (if write then .write else .read) with
    | .ok _ _ => false
    | _ => true) with
  | some q => i.blk.privVa tid q.1
  | none => i.blk.privVa tid p

/-- Whether a core has no earlier access to a line on its way and the line's home has room, so that one is accepted as it is made, in
issue order (R241, R244, R251). -/
def quiet (s : State) (core line : Nat) (write : Bool) : Bool :=
  let k := s.core core
  !k.reqs.any (fun r => r.line == line) && !heldLine s line
    && (write || (!k.fills.any (fun f => f.line == line) && decide (k.fills.length < Config.fillEntries) && coreRoom s line))
/-- Writes a dirty private line back to its home slice; poison is carried without killing (R250, R387). -/
def writeBack (s : State) (core line : Nat) : State :=
  match (s.core core).l1.get? line with
  | some x =>
    if x.dirty then
      (homeWrite s (line * 64) x.data x.bad).updCore core (fun k =>
        { k with l1 := k.l1.modify line (fun x => { x with dirty := false }) })
    else s
  | none => s
/-- Whether a line of a core's L1 can be written back now: a clean one needs it not. -/
def canWriteBack (s : State) (core line : Nat) : Bool :=
  match (s.core core).l1.get? line with
  | some x => !x.dirty || quiet s core line true
  | none => true
/-- A line of a core's L1 is replaced; a dirty private one is written back first (R249, R250), in its turn (R241). -/
def replaceLine (s : State) (core line : Nat) : State :=
  if canWriteBack s core line then (writeBack s core line).updCore core (fun k => { k with l1 := k.l1.del line }) else s
/-- Room for a line in a core's L1 of 256 KiB (R4, R247): a full one replaces a line that a free value picks. -/
def l1Room (s : State) (core line : Nat) : State :=
  let l := (s.core core).l1
  let out := l.keys.filter (canWriteBack s core)
  if l.length < Config.l1Lines || (l.get? line).isSome then s
  else
    let n := (Config.freeDword (Config.freeAt s.free 0 5)).toNat % out.length
    replaceLine { s with free := s.free + 1 } core (out.getD n 0)
/-- The line of a block's private region, in virtual addresses, that a physical line backs (R258). -/
def privVline (s : State) (core bid line : Nat) : Nat :=
  match s.block bid with
  | none => 0
  | some b =>
    let first := b.pbase.toNat / 65536
    let pages := (b.pbase.toNat + b.hdr.priv * b.threads.length) / 65536 - first + 1
    let page := (List.range pages).find? (fun k =>
      match accessChk s core b.ctx (BitVec.ofNat 64 ((first + k) * 65536)) 1 .read with
      | .ok pa _ => pa / 65536 == line / 1024
      | _ => false)
    (first + page.getD 0) * 1024 + line % 1024
/-- A private line is brought into the L1, held write-back (R247): from its home slice, also where the L1 holds a global copy of
it, which may be older than the thread's own last write (R259). -/
def privFetch (s : State) (core bid line : Nat) : State :=
  if ((s.core core).l1.get? line).any (fun x => x.priv.isSome) then s
  else
    let s1 := l1Room (seeLine s line) core line
    s1.updCore core (fun k =>
      { k with l1 := k.l1.put line { data := (lineNow s1 line).data, bad := (lineNow s1 line).bad, time := s1.gtime,
                                     priv := some bid, vline := privVline s core bid line, dirty := false } })
/-- A line as its home slice delivers it, where the L1 does not hold it. -/
def homeLine (s : State) (line : Nat) : L1Line :=
  { data := (lineNow s line).data, bad := (lineNow s line).bad, time := 0, priv := none, vline := 0, dirty := false }
/-- A private line of the L1. -/
def privLine (s : State) (core line : Nat) : L1Line := ((s.core core).l1.get? line).getD (homeLine s line)
/-- Whether the accesses of a private word to some targets can be made now: those that the L1 holds as private lines, and the others
when nothing of the core to their lines is on its way (R241, R251). -/
def privReady (s : State) (core : Nat) (write : Bool) (ps : List (Nat × Bool × Nat)) : Bool :=
  ps.all (fun q => if q.2.1 then quiet s core (q.1 / 64) write
    else ((s.core core).l1.get? (q.1 / 64)).any (fun x => x.priv.isSome) || quiet s core (q.1 / 64) false)
/-- Reads the pieces of a private access: the state with its lines fetched, the bytes, the poison. -/
def privRead (s : State) (core bid : Nat) : List (Nat × Bool × Nat) → State × List Byte × Bool
  | [] => (s, [], false)
  | (pa, nc, n) :: t =>
    let s1 := if nc then seeLine s (pa / 64) else privFetch s core bid (pa / 64)
    let x := if nc then homeLine s1 (pa / 64) else privLine s1 core (pa / 64)
    let r := privRead s1 core bid t
    (r.1, (x.data.drop (pa % 64)).take n ++ r.2.1, x.bad || r.2.2)
/-- Writes the pieces of a private access into the L1, or through to memory on an uncached page. -/
def privWrite (s : State) (core bid : Nat) : List (Nat × Bool × Nat) → List Byte → Bool → State
  | [], _, _ => s
  | (pa, nc, n) :: t, bytes, bad =>
    let s1 :=
      if nc then homeWrite s pa (bytes.take n) bad
      else
        let s1 := privFetch s core bid (pa / 64)
        s1.updCore core (fun k => { k with l1 := k.l1.modify (pa / 64) (fun x =>
          { x with data := overlay x.data (pa % 64) (bytes.take n), bad := x.bad || bad, dirty := true }) })
    privWrite s1 core bid t (bytes.drop n) bad
/-! ## Accumulator store -/

/-- An accumulator value. -/
def Block.accAt (b : Block) (row col : Nat) : Word := b.acc.getD (64 * row + col) 0
/-- Writes an accumulator value. -/
def Block.accPut (b : Block) (row col : Nat) (x : Word) (bad : Bool) : Block :=
  { b with acc := b.acc.set 0 (64 * row + col) x, accBad := markNat b.accBad (64 * row + col) bad }
/-- Whether an accumulator value is poisoned. -/
def Block.accIsBad (b : Block) (row col : Nat) : Bool := b.accBad.contains (64 * row + col)
/-- Whether a matrix operation of a block that reads tiles is incomplete (R306). -/
def readsTiles (k : Core) (bid : Nat) : Bool :=
  k.queue.any (fun o => o.bid == bid && (match o.kind with
    | .mxload _ => true | .mma => true | .mmal => true | .mxgrad => true
    | _ => false))
/-- A thread writes bytes of the scratchpad. While an operation that reads tiles is incomplete, what the words held is kept: the
operation may still read it (R306). -/
def scrStore (s : State) (core bid tid : Nat) (as : List Nat) (bytes : List Byte) (bad : Bool) : State :=
  let on := readsTiles (s.core core) bid
  s.updBlock bid (fun b =>
    let old (w : Nat) : Late := { word := w, old := BitVec.ofNat 32 (b.scrNum (4 * w) 4), bad := b.scrBad.contains w, tid := tid,
                                  seq := s.seq, known := [tid], pubAt := [], fenced := [], stream := false }
    let c := b.scrPut as bytes bad
    if on then { c with late := c.late ++ ((as.map (· / 4)).eraseDups.map old) } else c)
/-- A thread writes an accumulator value: what it held is kept, for an operation that no edge orders after the write (R307). -/
def accStore (s : State) (bid tid row col : Nat) (x : Word) (bad : Bool) : State :=
  s.updBlock bid (fun b =>
    let old : Late := { word := 64 * row + col, old := b.accAt row col, bad := b.accIsBad row col, tid := tid, seq := s.seq,
                        known := [tid], pubAt := [], fenced := [], stream := false }
    { b.accPut row col x bad with stas := b.stas ++ [old] })
/-- A release by some threads: the accumulator writes that happened before it are published at some places (R273, R274). -/
def publishStas (s : State) (bid : Nat) (tids : List Nat) (places : List Nat) : State :=
  s.updBlock bid (fun b => b.publish tids places)
/-- An `efence` by some threads of a frond: the accumulator writes that happened before it are ordered before every later operation of
the frond (R273). -/
def fenceStas (s : State) (bid slot : Nat) (tids : List Nat) : State :=
  s.updBlock bid (fun b => { b with stas := b.stas.map (fun e =>
    if tids.any e.known.contains then { e with fenced := addNat e.fenced slot } else e) })
/-- Whether an accumulator write is ordered before an operation that a frond issues for some threads: by REL = 1, by an `efence`, or by
an operation before it in the matrix stream (R273). -/
def Late.before (e : Late) (slot : Nat) (tids : List Nat) (rel stream : Bool) : Bool :=
  (rel && tids.any e.known.contains) || e.fenced.contains slot || (stream && e.stream)
/-- What a word holds as an operation reads it, when some writes to it are unordered: a free value picks among what it holds and
what it held before each of them. -/
def lateValue (n : Nat) (l : List Late) (w : Nat) (x : Word × Bool) : Word × Bool :=
  (List.range l.length).foldl (fun (r : Word × Bool) k => match (l[k]? : Option Late) with
    | some e => if e.word = w && Config.freeBit (Config.freeAt n w (64 + k)) then (e.old, e.bad) else r
    | none => r) x
/-- The scratchpad of a block as an operation reads it (R306). -/
def Block.scrAs (b : Block) (o : Op) (n : Nat) : Block :=
  let l := b.late.filter (fun e => decide (o.seq < e.seq))
  (l.map (·.word)).eraseDups.foldl (fun c w =>
    let v := lateValue n l w (BitVec.ofNat 32 (b.scrNum (4 * w) 4), b.scrBad.contains w)
    c.scrWrite (4 * w) (leBytes 4 v.1.toNat) v.2) b
/-- The accumulators of a block as an operation reads them (R307). -/
def Block.accAs (b : Block) (o : Op) (n : Nat) : Block :=
  (o.stale.map (·.word)).eraseDups.foldl (fun c w =>
    let v := lateValue n o.stale w (b.accAt (w / 64) (w % 64), b.accIsBad (w / 64) (w % 64))
    c.accPut (w / 64) (w % 64) v.1 v.2) b
/-- Whether an accumulator value lies in some rows. -/
def Late.inRows (e : Late) (first n : Nat) : Bool := decide (64 * first ≤ e.word) && decide (e.word < 64 * (first + n))
/-- An operation has written some accumulator rows: what they held before is read no more. -/
def Block.settleRows (b : Block) (first n : Nat) : Block := { b with stas := b.stas.filter (fun e => !e.inRows first n) }
/-- Whether a row is named by an operation of a block that has not completed (R165, R202, R311). -/
def rowNamed (k : Core) (bid row : Nat) : Bool :=
  k.queue.any (fun o => o.bid == bid && decide (o.rows.1 ≤ row) && decide (row < o.rows.1 + o.rows.2))

end Sys2Proof.Machine
end

