-- ==== Sys2Proof/Machine/Control.lean ====
section
/-! DEFINITION. The control and system words (R110 to R123): branches, calls and returns, reform, joins, traps, sleep,
special registers. -/

namespace Sys2Proof.Machine

/-- A control word: its effect and the PCs it sets. -/
def exCtl (c : Ctl) (rd wr : List Reg) (s : State) (body : Issue → State → Option (State × (Nat → Option Dword))) : Out :=
  exWord c rd wr false s body
/-- A target for the active lanes. -/
def Issue.target (i : Issue) (f : Nat → Dword) : Nat → Option Dword :=
  fun t => if i.act.contains t then some (f t) else none
/-- The target of a B-format word (R62). -/
def Issue.bTarget (i : Issue) (off : BitVec 32) : Dword := i.run.clause + (off.signExtend 64 <<< 3)

/-- R120. -/
def execNop (c : Ctl) (s : State) : Out := exVec c [] [] s (fun _ s => s)
/-- R110. -/
def execBra (c : Ctl) (off : BitVec 32) (s : State) : Out :=
  exCtl c [] [] s (fun i s => some (s, i.target (fun _ => i.bTarget off)))

/-- Whether a target is a clause address. -/
def aligned8 (x : Dword) : Bool := x.toNat % 8 == 0
/-- R111: a lane with a misaligned target raises MISAL. -/
def execBrx (c : Ctl) (a : Opnd) (s : State) : Out :=
  exCtl c (opndRegs a true) [] s (fun i s =>
    if i.badUse i.act (opndRegs a true) then i.poisoned s (i.opnd i.low a true)
    else
      let bad := i.act.filter (fun t => !aligned8 (i.opnd t a true))
      some (i.raiseEach s (bad.map (fun t => (t, misal (i.opnd t a true)))), i.target (fun t => i.opnd t a true)))

/-! ## Calls (R112 to R114) -/

/-- BUDGET as a cause (R366). -/
def budgetCause (n : Nat) : Cause := { bit := 11, addr := 0, info := d64 n }
/-- How a call ends in a lane. -/
inductive CallEnd where
  | go (t : Dword) (pieces : List (Nat × Bool × Nat)) | park (va : Dword) | trap (c : Cause) | poison (va : Dword) | wait
  deriving DecidableEq, Repr
/-- What the call-target table answers for a target (R113). -/
inductive Lookup where
  | found (budget : Nat) | missing | park (va : Dword) | trap (c : Cause) | poison (va : Dword) | wait
  deriving DecidableEq, Repr
/-- A relaxed 8-byte load of an entry of the call-target table: the state with its line read, the entry, its poison. A line that the
L1 holds is read there; another one at its home slice, in its turn, and the L1 does not keep it. None while the load must wait: an
access of the core to the line is on its way, the slice has no room, or the host link is out of L0. -/
def entryLoad (s : State) (core pa : Nat) (nc : Bool) : Option (State × Nat × Bool) :=
  if tgtControl s pa then some (s, leNat (controlBytes s (pa - Config.csBase) 8), false)
  else
    match l1Hit s core (pa / 64) nc .none with
    | some x => some (s, leNat ((x.data.drop (pa % 64)).take 8), x.bad)
    | none =>
      if !quiet s core (pa / 64) false || (tgtHost s pa && !s.sys.hostL0) then none
      else
        let s1 := seeLine s (pa / 64)
        some (s1, leNat (nowBytes s1 pa 8), (lineNow s1 (pa / 64)).bad)
/-- Reads the call-target table from entry `k` on, `n` entries left: the state with the lines read (R262), the answer. The rule names no
outcome of an entry that lies in the remote window of a part that has one; it raises ACCV with code 0x02 there (DESIGN CHOICE, log
entry 59). -/
def lookupFrom (s : State) (i : Issue) (t : Dword) : Nat → Nat → State × Lookup
  | 0, _ => (s, .missing)
  | n + 1, k =>
    let va := i.blk.obase + d64 (i.blk.hdr.ctoff + 8 * k)
    match walkAll s i.core i.blk.ctx [va] .read with
    | none => (s, .wait)
    | some s0 =>
      match accessChk s0 i.core i.blk.ctx va 8 .read with
      | .ok pa nc =>
        match entryLoad (tlbFill s0 i.core i.blk.ctx va.toNat) i.core pa nc with
        | none => (s, .wait)
        | some (s1, e, bad) =>
          if bad then (s1, .poison va)
          else if d64 (e % 2 ^ 32) = t - i.blk.obase then (s1, .found (e / 2 ^ 32 % 65536)) else lookupFrom s1 i t n (k + 1)
      | .absent => (s0, .park va)
      | .accv c => (s0, .trap (accv va c))
      | .misal => (s0, .trap (misal va))
      | .remote _ _ => (s0, .trap (accv va 2))
/-- The 8 bytes of a thread's stack of return addresses at an offset: the state with their translations read and where they lie, or what
stops the access; none while it must wait (R241, R245). -/
def stackFate (s : State) (i : Issue) (tid p : Nat) (write : Bool) : Option (State × List (Nat × Bool × Nat) × Fate) :=
  (walkAll s i.core i.blk.ctx ((privPieces p 8).map (fun q => i.blk.privVa tid q.1)) (if write then .write else .read)).bind (fun s1 =>
    let f := privFate s1 i tid p 8 write
    if privReady s1 i.core write f.1 then some (s1, f) else none)
/-- The end of a call in a lane: depth, private stack and table checks (R113). -/
def callEnd (s : State) (i : Issue) (tid : Nat) (t : Dword) (look : Bool) : State × CallEnd :=
  let depth := ((i.thr tid).map (·.depth)).getD 0
    let push (s : State) : State × CallEnd :=
    if i.blk.hdr.priv < 8 * (depth + 1) then (s, .trap (privov depth))
    else
      let p := i.blk.hdr.priv - 8 * (depth + 1)
      match stackFate s i tid p true with
      | none => (s, .wait)
      | some (s1, ps, .go _ _) => (s1, .go t ps)
      | some (s1, _, .park) => (s1, .park (privStop s1 i tid p 8 true))
      | some (s1, _, .trap c) => (s1, .trap c)
      | some (s1, _, .drop) => (s1, .trap (privov depth))
  if look then
    if !aligned8 t then (s, .trap (misal t))
    else
      match lookupFrom s i t i.blk.hdr.ctn 0 with
      | (s1, .found n) => if i.blk.hdr.regs < n then (s1, .trap (budgetCause n)) else push s1
      | (s1, .missing) => (s1, .trap (budgetCause 0))
      | (s1, .park va) => (s1, .park va)
      | (s1, .trap c) => (s1, .trap c)
      | (s1, .poison va) => (s1, .poison va)
      | (s1, .wait) => (s1, .wait)
  else push s
/-- A call: each lane stores its return address and goes to its target, or parks, or traps (R113). -/
def callBody (i : Issue) (s : State) (target : Nat → Dword) (look : Bool) : Option (State × (Nat → Option Dword)) :=
  if acquireOut s i.bid i.act then none
  else
    let looked := i.act.foldl (fun (acc : State × List (Nat × CallEnd)) t =>
      let e := callEnd acc.1 i t (target t) look
      (e.1, acc.2 ++ [(t, e.2)])) (s, [])
    let ends := looked.2
    if ends.any (fun e => e.2 == .wait) then none
    else
    match ends.find? (fun e => match e.2 with | .poison _ => true | _ => false) with
    | some (_, .poison va) => i.poisoned s va
    | _ =>
      let s1 := ends.foldl (fun s e => match e.2 with
        | .go _ ps => (privWrite s i.core i.bid ps (leBytes 8 i.next.toNat) false).updThread i.bid e.1
            (fun t => { t with depth := t.depth + 1 })
        | _ => s) looked.1
      let va (t : Nat) : Dword := match ends.find? (fun e => e.1 == t) with
        | some (_, CallEnd.park va) => va
        | _ => 0
      let parks := ends.filterMap (fun e => match e.2 with | .park _ => some e.1 | _ => none)
      let traps := ends.filterMap (fun e => match e.2 with | .trap c => some (e.1, c) | _ => none)
      some (i.raiseEach (i.parkPage s1 parks va 0 false) traps, i.target target)
/-- R113. -/
def execCall (c : Ctl) (off : BitVec 32) (s : State) : Out :=
  exCtl c [] [] s (fun i s => callBody i s (fun _ => i.bTarget off) false)
/-- R113. -/
def execCallx (c : Ctl) (a : Opnd) (s : State) : Out :=
  exCtl c (opndRegs a true) [] s (fun i s =>
    if i.badUse i.act (opndRegs a true) then i.poisoned s (i.opnd i.low a true)
    else callBody i s (fun t => i.opnd t a true) true)

/-- How a return ends in a lane. -/
inductive RetEnd where
  | go (t : Dword) | park (va : Dword) | trap (c : Cause) | poison (va : Dword) | wait
  deriving DecidableEq, Repr
/-- The end of a return in a lane (R114), with the lines it read brought in. -/
def retEnd (s : State) (i : Issue) (tid : Nat) : State × RetEnd :=
  let depth := ((i.thr tid).map (·.depth)).getD 0
  if depth = 0 then (s, .trap (privov 0))
  else
    let p := i.blk.hdr.priv - 8 * depth
    match stackFate s i tid p false with
    | none => (s, .wait)
    | some (s1, ps, .go _ _) =>
      let r := privRead s1 i.core i.bid ps
      let t := d64 (leNat r.2.1)
      (r.1, if r.2.2 then .poison (i.blk.privVa tid p) else if aligned8 t then .go t else .trap (misal t))
    | some (s1, _, .park) => (s1, .park (privStop s1 i tid p 8 false))
    | some (s1, _, .trap c) => (s1, .trap c)
    | some (s1, _, .drop) => (s1, .trap (privov 0))
/-- R114. -/
def execRet (c : Ctl) (s : State) : Out :=
  exCtl c [] [] s (fun i s =>
    if acquireOut s i.bid i.act then none
    else
      let r := i.act.foldl (fun (acc : State × List (Nat × RetEnd)) t =>
        let e := retEnd acc.1 i t
        (e.1, acc.2 ++ [(t, e.2)])) (s, [])
      let ends := r.2
      if ends.any (fun e => e.2 == .wait) then none
      else
      match ends.find? (fun e => match e.2 with | .poison _ => true | _ => false) with
      | some (_, .poison va) => i.poisoned s va
      | _ =>
        let done := ends.filterMap (fun e => match e.2 with | .go _ => some e.1 | _ => none)
        let s1 := r.1.updThreads i.bid done (fun _ t => { t with depth := t.depth - 1 })
        let dst (t : Nat) : Option RetEnd := (ends.find? (fun e => e.1 == t)).map (·.2)
        let va (t : Nat) : Dword := match dst t with | some (.park va) => va | _ => 0
        let parks := ends.filterMap (fun e => match e.2 with | .park _ => some e.1 | _ => none)
        let traps := ends.filterMap (fun e => match e.2 with | .trap c => some (e.1, c) | _ => none)
        some (i.raiseEach (i.parkPage s1 parks va 0 false) traps,
          fun t => match dst t with | some (.go x) => some x | _ => none))

/-! ## Waits (R25) -/

/-- A wait that begins at the word that issues. -/
def Issue.waitRec (i : Issue) (k : WaitKind) (deadline : Nat) (sc : Scope) : WaitRec :=
  { kind := k, clause := i.run.clause, pos := i.run.pos, deadline := deadline, poll := 0, scope := sc, wave := none, line := 0, got := false }
/-- Threads begin to wait (R25); the instant counts for dormancy (R49). -/
def Issue.startWait (i : Issue) (s : State) (tids : List Nat) (w : Nat → WaitRec) : State :=
  if tids.isEmpty then s
  else (s.updThreads i.bid tids (fun t x => { x with status := .waiting (w t) })).updBlock i.bid
    (fun b => { b with lastWait := s.gtime })

/-- R116, R45. -/
def execBjoin (c : Ctl) (s : State) : Out :=
  exVec c [] [] s (fun i s =>
    bjoinCheck (i.startWait s i.act (fun _ => i.waitRec .bjoin 0 .none)) i.bid i.slot)
/-- R121: a duration of 0 does not wait. -/
def execSleep (c : Ctl) (a : Opnd) (s : State) : Out :=
  exCtl c (opndRegs a false) [] s (fun i s =>
    if i.badUse i.act (opndRegs a false) then i.poisoned s i.word
    else
      let ns (t : Nat) : Nat := (i.o32 t a).toNat
      plain (some (i.startWait s (i.act.filter (fun t => ns t != 0))
        (fun t => i.waitRec (.sleep (s.gtime + ns t)) 0 .none))))

/-! ## Reform (R42, R115) -/

/-- The open bin of a key. A bin that is due by its age and still waits takes further threads of its key (DESIGN CHOICE, log
entry 55: R42 closes a bin only at 32 threads). -/
def openBin (k : Core) (bid : Nat) (pc : Dword) : Option Nat :=
  (k.bins.find? (fun e => e.2.bid == bid && e.2.pc == pc && !e.2.full)).map (·.1)
/-- A free bin. -/
def freeBin (k : Core) : Option Nat := (List.range Config.binEntries).find? (fun n => (k.bins.get? n).isNone)
/-- Files one thread; without a free bin it stays eligible (R42). -/
def fileThread (i : Issue) (s : State) (tid : Nat) : State :=
  let k := s.core i.core
  let file (n : Nat) (b : Bin) : State :=
    (s.updCore i.core (fun k => { k with bins := k.bins.put n b })).updThread i.bid tid
      (fun t => { t with status := .filed n, pc := i.next, rslot := 0, last := false })
  match openBin k i.bid i.next with
  | some n =>
    match k.bins.get? n with
    | some b => file n { b with tids := b.tids ++ [tid], full := decide (32 ≤ b.tids.length + 1) }
    | none => s
  | none =>
    match freeBin k with
    | some n => file n { bid := i.bid, pc := i.next, filedAt := coreCycles s i.core, full := false, tids := [tid],
                         s := i.fr.s, sbad := i.fr.sbad }
    | none => s
/-- R115: in ascending tid; in a handler it files nothing (R370). -/
def execReform (c : Ctl) (s : State) : Out :=
  exVec c [] [] s (fun i s =>
    let ok := i.act.filter (fun t => ((i.thr t).map (fun x => !x.handler)).getD false)
    (sortBy id ok).foldl (fun s t => fileThread i s t) s)

/-! ## Exit (R117) -/

/-- What a block's exits bring about: joins, barriers and cohort arrivals are tested again (R45, R185, R190). -/
def afterExit (s : State) (bid slot : Nat) : State :=
  cbarArrive (barsRecheck (bjoinCheck (s.updBlock bid (fun b => b.dropSubs slot)) bid slot) bid) bid
/-- R117: the causes an exiting thread still held pass on (R203), its monitor is freed (R246). -/
def execExit (c : Ctl) (s : State) : Out :=
  exVec c [] [] s (fun i s =>
    if i.act.isEmpty then s
    else
      let held := (i.act.filterMap (fun t => (i.thr t).map (fun x => x.async.map (fun c => (t, c))))).flatten
      let s1 := s.updThreads i.bid i.act (fun _ t => t.exit)
      let s2 := { s1 with mons := s1.mons.filter (fun m => !(m.bid == i.bid && i.act.contains m.tid)) }
      let s3 := held.foldl (fun s e => sendCause s i.bid e.1 e.2) s2
      afterExit s3 i.bid i.slot)

/-! ## Traps (R118, R119) -/

/-- A trap whose EPC is the next clause (R118). -/
def Issue.softTrap (i : Issue) (s : State) (bit info : Nat) : State :=
  takeTrap s i.bid i.slot (i.act.map (fun t =>
    { tid := t, causes := [{ bit := bit, addr := i.word, info := d64 info }], epc := i.next, eslot := 0 }))
/-- R118: SWTRAP. -/
def execTrap (c : Ctl) (n : BitVec 8) (s : State) : Out := exVec c [] [] s (fun i s => i.softTrap s 13 n.toNat)
/-- R118: BRKPT. -/
def execBrk (c : Ctl) (s : State) : Out := exVec c [] [] s (fun i s => i.softTrap s 14 0)

/-- The handler is entered again at TVEC, with a held cause delivered when CAUSE is 0 (R119, R371). -/
def Thread.again (t : Thread) (obase : Dword) : Thread :=
  let u := match t.async with
    | c :: rest => if t.cause = 0 then { t.raised [c] with async := rest } else t
    | [] => t
  { u with pc := obase + t.tvec, rslot := 0, last := false }
/-- Whether `tret` leaves the handler: no cause is set and none is held. -/
def Thread.leaves (t : Thread) : Bool := t.cause == 0 && t.async.isEmpty
/-- ILLOP at a word (R366). -/
def illopAt (va : Dword) : Cause := { bit := 0, addr := va, info := 0 }
/-- The issue of a word with the threads in which its guard holds. -/
def Issue.guarded (i : Issue) (c : Ctl) : Issue :=
  { i with act := i.run.tids.filter (fun t => ((i.thr t).map (guardOf c)).getD false) }
/-- ILLOP in some lanes, each with its code. -/
def Issue.illop (i : Issue) (s : State) (rs : List (Nat × Nat)) : State :=
  i.raiseEach s (rs.map (fun r => (r.1, { illopAt i.word with info := d64 r.2 })))
/-- A word whose ILLOP depends on the state of its threads raises it before any other cause (R81), in the lanes that meet it, each
with its code. -/
def illFirst (c : Ctl) (ill : Issue → List (Nat × Nat)) (s : State) (rest : Out) : Out :=
  match s.issue? with
  | none => rest
  | some i =>
    let rs := ill (i.guarded c)
    if rs.isEmpty then rest
    else .next (endWord c i.bid i.slot noTarget (i.illop s rs))
/-- The lanes of a `tret` that are in no handler. -/
def Issue.noHandler (i : Issue) : List (Nat × Nat) :=
  (i.act.filter (fun t => ((i.thr t).map (fun x => !x.handler)).getD false)).map (fun t => (t, 0))
/-- R119: outside a handler it raises ILLOP. -/
def execTret (c : Ctl) (s : State) : Out :=
  illFirst c Issue.noHandler s <| exVec c [] [] s (fun i s =>
    let is (p : Thread → Bool) : List Nat := i.act.filter (fun t => ((i.thr t).map p).getD false)
    let out := is (fun t => t.handler && t.leaves)
    let back := is (fun t => t.handler && !t.leaves)
    match (is (fun t => t.handler && !t.leaves && t.tvec == 0)).head? with
    | some t =>
      let x := i.thr t
      killBlock s i.bid 1 (whereOf i.core i.slot) ((x.map (·.epc)).getD 0)
        ((x.map (fun t => (t.again i.blk.obase).cause)).getD 0)
    | none =>
      let s1 := s.updThreads i.bid out (fun _ t => t.leave)
      let s2 := s1.updThreads i.bid back (fun _ t => t.again i.blk.obase)
      let s3 := s2.updFrond i.bid i.slot (fun f => f.leaveRun (out ++ back))
      i.illop (s3.updBlock i.bid (fun b => b.dropSubs i.slot)) i.noHandler)

/-- The group of the clause in flight: a sub-frond that holds its threads, or the frond's own (R370). -/
def Frond.setGroup (f : Frond) (tids : List Nat) (g : Group → Group) : Frond :=
  if f.subs.any (fun x => tids.any x.tids.contains) then
    { f with subs := f.subs.map (fun x => if tids.any x.tids.contains then g x else x) }
  else { f with own := g f.own }
/-- R120: the next issue of the group passes over the threads that yield. -/
def execYield (c : Ctl) (s : State) : Out :=
  exVec c [] [] s (fun i s =>
    if i.act.isEmpty then s
    else s.updFrond i.bid i.slot (fun f => f.setGroup i.run.tids (fun g => { g with skip := i.act, rep := 0 })))

/-! ## Special registers (R122, R123) -/

/-- R122: the value is read as the word issues. -/
def execSrd (c : Ctl) (d : VReg) (wide : Bool) (num : BitVec 12) (s : State) : Out :=
  exVec c [] (vregs d.val (wN wide)) s (fun i s =>
    i.lanes s (fun tid t =>
      t.putVW d.val wide (specialReg s i.blk i.core i.slot i.fr tid t num.toNat) false))
/-- R123: a poisoned source kills the block (R387). -/
def execSwr (c : Ctl) (a : Opnd) (wide : Bool) (num : BitVec 12) (s : State) : Out :=
  exCtl c (opndRegs a wide) [] s (fun i s =>
    if i.act.isEmpty then plain (some s)
    else if i.badUse i.act (opndRegs a wide) then i.poisoned s i.word
    else
      let x (t : Nat) : Dword := i.opnd t a wide
      let s1 := i.lanes s (fun tid t => t.writeSpecial num.toNat (x tid))
      let s2 := s1.updFrond i.bid i.slot (fun f => f.writeSpecial num.toNat (x i.low))
      plain (some (s2.updBlock i.bid (fun b => b.writeSpecial num.toNat (x i.low)))))

end Sys2Proof.Machine
end

