-- ==== Sys2Proof/Machine/Memory.lean ====
section
/-! DEFINITION. The memory words (R129, R161 to R174): loads and stores of every space, atomics and reductions, fences and
the maintenance of the L1. -/

namespace Sys2Proof.Machine

/-- The registers of an address (R77). -/
def addrRegs : MAddr → List Reg
  | .off x _ => opndRegs x true
  | .idx b v => [.s b.val, .v v.val]
/-- A global address in a lane (R161). -/
def Issue.addr (i : Issue) (tid : Nat) : MAddr → Dword
  | .off x imm => i.opnd tid x true + imm.signExtend 64
  | .idx b v => i.s b.val + (i.v tid v.val).setWidth 64

/-! ## Global loads and stores -/

/-- A global load in each active lane (R156, R157, R161). -/
def ldBody (c : Ctl) (sz : Sz) (nc : Bool) (ord : Ord) (sc : Scope) (d : VReg) (m : MAddr) (i : Issue) (s : State) :
    Option (State × (Nat → Option Dword)) :=
  if i.badUse i.act (addrRegs m) then i.poisoned s (i.addr (i.badLane i.act (addrRegs m)) m)
  else if i.held s i.act .rlx .none then none
  else i.walked s i.act (fun t => i.addr t m) (szBytes sz) .load (fun s =>
    plain (i.accesses s i.act (fun t => globalFate s i (i.addr t m) (szBytes sz) (szBytes sz) .load)
      (fun t => i.addr t m) 0 (fun s t tgt pageNc =>
        loadAt s i c { tid := t, tids := [t] } (i.addr t m) tgt (nc || pageNc) sz (acqScope ord sc) (.v d.val))))
/-- R161. -/
def execLd (c : Ctl) (sz : Sz) (ord : Ord) (sc : Scope) (d : VReg) (m : MAddr) (s : State) : Out :=
  exWord c (addrRegs m) (szRegs d.val sz) false s (ldBody c sz false ord sc d m)
/-- R161: the L1 is neither read nor filled. -/
def execLdNc (c : Ctl) (sz : Sz) (sc : Scope) (d : VReg) (m : MAddr) (s : State) : Out :=
  exWord c (addrRegs m) (szRegs d.val sz) false s (ldBody c sz true .rlx sc d m)

/-- A release by a word in the lanes whose accesses are made publishes what happened before it (R274). -/
def Issue.publish (i : Issue) (s : State) (ord : Ord) (lanes : List Nat) : State :=
  if ordRel ord && !lanes.isEmpty then publishStas s i.bid lanes [atHome] else s
/-- The lanes whose accesses are made. -/
def goers (l : List Nat) (f : Nat → Fate) : List Nat := l.filter (fun t => match f t with | .go _ _ => true | _ => false)
/-- The first lane that would store poisoned data outside device memory (R387). -/
def badStore (s : State) (fs : List (Nat × Fate)) (bad : Nat → Bool) : Option Nat :=
  (fs.find? (fun e => match e.2 with
    | .go tgt _ => tgtOutside s tgt && bad e.1
    | _ => false)).map (·.1)
/-- R161. -/
def execSt (c : Ctl) (sz : Sz) (ord : Ord) (sc : Scope) (m : MAddr) (a : Opnd) (s : State) : Out :=
  exWord c (addrRegs m ++ dataRegs a sz) [] false s (fun i s =>
    if i.badUse i.act (addrRegs m) then i.poisoned s (i.addr (i.badLane i.act (addrRegs m)) m)
    else if i.held s i.act .rlx .none then none
    else i.walked s i.act (fun t => i.addr t m) (szBytes sz) .store (fun s =>
      let fate (t : Nat) : Fate := globalFate s i (i.addr t m) (szBytes sz) (szBytes sz) .store
      let bad (t : Nat) : Bool := i.bad t (dataRegs a sz)
      match badStore s (fatesOf i.act fate) bad with
      | some t => i.poisoned s (i.addr t m)
      | none =>
        plain (i.accesses (i.publish s ord (goers i.act fate)) i.act fate (fun t => i.addr t m) 1 (fun s t tgt _ =>
          some (storeAt s i c { tid := t, tids := [t] } (i.addr t m) tgt (relScope ord sc) (i.data t a sz) (bad t))))))

/-! ## The uniform memory words (R129) -/

/-- The parties of a uniform access: made once, an access of every thread of the issue set (R157). -/
def Issue.uParty (i : Issue) : Party := { tid := i.low, tids := i.run.tids }
/-- The address of a uniform word. -/
def Issue.uAddr (i : Issue) (a : SReg) (imm : BitVec 22) : Dword := i.s a.val + imm.signExtend 64
/-- R129. -/
def execSld (c : Ctl) (sz : Sz) (d a : SReg) (imm : BitVec 22) (s : State) : Out :=
  exWord c [.s a.val] [.s d.val] true s (fun i s =>
    let va := i.uAddr a imm
    if i.act.isEmpty then plain (some s)
    else if i.sBad [a.val] then i.poisoned s va
    else if i.held s i.run.tids .rlx .none then none
    else i.walked s [i.low] (fun _ => va) (szBytes sz) .load (fun s =>
      plain (i.accessOnce s (globalFate s i va (szBytes sz) (szBytes sz) .load) va 0 (fun s tgt nc =>
        loadAt s i c i.uParty va tgt nc sz .none (.s i.slot d.val)))))
/-- R129. -/
def execSst (c : Ctl) (sz : Sz) (a : SReg) (imm : BitVec 22) (b : SReg) (s : State) : Out :=
  exWord c [.s a.val, .s b.val] [] true s (fun i s =>
    let va := i.uAddr a imm
    if i.act.isEmpty then plain (some s)
    else if i.sBad [a.val] then i.poisoned s va
    else if i.held s i.run.tids .rlx .none then none
    else i.walked s [i.low] (fun _ => va) (szBytes sz) .store (fun s =>
      let fate := globalFate s i va (szBytes sz) (szBytes sz) .store
      if (badStore s [(0, fate)] (fun _ => i.sBad [b.val])).isSome then i.poisoned s va
      else
        plain (i.accessOnce s fate va 1 (fun s tgt _ =>
          some (storeAt s i c i.uParty va tgt .none (leBytes (szBytes sz) (i.s b.val).toNat) (i.sBad [b.val]))))))
/-- R129: a scratchpad load into an s-register. -/
def execSldl (c : Ctl) (sz : Sz) (d a : SReg) (imm : BitVec 22) (s : State) : Out :=
  exWord c [.s a.val] [.s d.val] true s (fun i s =>
    let o : Int := ((lo32 (i.s a.val)).toNat : Int) + imm.toInt
    if i.act.isEmpty then plain (some s)
    else if i.sBad [a.val] then i.poisoned s (BitVec.ofInt 64 o)
    else if i.held s i.run.tids .rlx .none then none
    else
      match scrFate s i false false o (szBytes sz) with
      | .go as => if i.run.tids.any (fun t => i.blk.behindRel t as) then none
          else plain (some (i.putS s d.val (d64 (leNat (as.map i.blk.scrByte))) (i.blk.scrIsBad as)))
      | .park line off => plain (some (i.parkLine s i.run.tids (fun _ => line) (fun _ => off)))
      | .trap k => plain (some (i.raiseEach s (i.run.tids.map (fun t => (t, k))))))

/-! ## Scratchpad (R162) -/

/-- Whether the accesses of a scratchpad word wait for releases of the same threads to overlapping bytes (R160). -/
def Issue.behindRels (i : Issue) (fate : Nat → ScrFate) : Bool :=
  i.act.any (fun t => match fate t with | .go as => i.blk.behindRel t as | _ => false)
/-- An acquire of a scratchpad word, in the lanes that perform: the releases at the words that it reads, and those of fences (R274). -/
def scrAcquire (i : Issue) (ord : Ord) (sc : Scope) (fate : Nat → ScrFate) (s0 : State) : State :=
  let goes : Bool := i.act.any (fun t => match fate t with | .go _ => true | _ => false)
  let s := if goes then acquireAt s0 i.core (acqScope ord sc) else s0
  if ordAcq ord then i.act.foldl (fun s t => match fate t with
    | .go as => learnAt s i.bid [t] (fun p => p == atFence || as.any (fun a => p == atScr (a / 4)))
    | _ => s) s
  else s
/-- A release of a scratchpad word: what happened before it is published at the words that it writes (R274). -/
def scrPublish (i : Issue) (ord : Ord) (fate : Nat → ScrFate) (s : State) : State :=
  if ordRel ord then i.act.foldl (fun s t => match fate t with
    | .go as => publishStas s i.bid [t] (as.map (fun a => atScr (a / 4)))
    | _ => s) s
  else s
/-- A release in the scratchpad takes its place behind what it orders (R157). -/
def pushRel (s : State) (bid : Nat) (r : LocalRel) : State :=
  { s.updBlock bid (fun b => { b with rels := b.rels ++ [r] }) with seq := s.seq + 1 }
/-- R162. -/
def execLdl (c : Ctl) (sz : Sz) (skew : Bool) (ord : Ord) (sc : Scope) (d : VReg) (x : Opnd) (imm : BitVec 18)
    (s : State) : Out :=
  exWord c (opndRegs x false) (szRegs d.val sz) false s (fun i s =>
    let fate (t : Nat) : ScrFate := scrFate s i skew false (i.offset t x imm) (szBytes sz)
    if i.badUse i.act (opndRegs x false) then i.poisoned s (BitVec.ofInt 64 (i.offset (i.badLane i.act (opndRegs x false)) x imm))
    else if i.held s i.act .rlx .none || i.behindRels fate then none
    else
      plain (some (scrAcquire i ord sc fate (i.scrAccesses s i.act fate
        (fun s t as => s.updThread i.bid t (fun u =>
          u.load d.val sz (as.map i.blk.scrByte) (i.blk.scrIsBad as)))))))
/-- Whether a write of some lanes into the running step's slot is held (R347). -/
def slotWait (s : State) (i : Issue) (fs : List ScrFate) : Bool :=
  slotHeld s i.blk && fs.any (fun f => match f with
    | .go as => as.any (fun a => inSlot i.blk a 1)
    | _ => false)
/-- A scratchpad write that would reach the running step's slot too early is held in its issue set: its frond is marked
until the step that releases it (R347). -/
def slotHold (c : Ctl) (rd wr : List Reg) (fate : State → Issue → Nat → ScrFate) (s : State) (go : Out) : Out :=
  match s.issue? with
  | none => .refused .noIssue
  | some i =>
    match startWord c rd wr false i s with
    | .go i1 _ =>
      if i1.fr.held then .next s
      else if slotWait s i1 (i1.act.map (fate s i1)) then
        .next (s.updFrond i1.bid i1.slot (fun f => { f with held := true }))
      else go
    | _ => go
/-- R162: the data is in the scratchpad as the word issues; that of a release when what it orders has performed (R157). -/
def execStl (c : Ctl) (sz : Sz) (skew : Bool) (ord : Ord) (sc : Scope) (x : Opnd) (imm : BitVec 18) (a : Opnd)
    (s : State) : Out :=
  let rd := opndRegs x false ++ dataRegs a sz
  let fate (s : State) (i : Issue) (t : Nat) : ScrFate := scrFate s i skew true (i.offset t x imm) (szBytes sz)
  slotHold c rd [] fate s <| exWord c rd [] false s (fun i s =>
    if i.badUse i.act (opndRegs x false) then i.poisoned s (BitVec.ofInt 64 (i.offset (i.badLane i.act (opndRegs x false)) x imm))
    else if i.held s i.act .rlx .none || i.behindRels (fate s i) then none
    else if i.held s i.act ord sc then
      plain (some (i.scrAccesses (scrPublish i ord (fate s i) s) i.act (fate s i) (fun s t as =>
        let r : LocalRel := { seq := s.seq, tid := t, tok := ctlToken c, acq := .none, rel := relScope ord sc, addrs := as,
                              bytes := i.data t a sz, bad := i.bad t (dataRegs a sz), rmw := none }
        countUp (pushRel s i.bid r) c i.bid [t])))
    else
      plain (some (i.scrAccesses (scrPublish i ord (fate s i) s) i.act (fate s i) (fun s t as =>
        scrStore s i.core i.bid t as (i.data t a sz) (i.bad t (dataRegs a sz))))))
/-- The operand registers of an atomic: the compare and new value of a `cas` (R77). -/
def atomRegs (k : AOp) (d : Nat) : List Reg := vregs d ((if aopWide k then 2 else 1) * (if aopCas k then 2 else 1))
/-- The operand and the new value of an atomic in a lane (R77). -/
def Issue.atomOps (i : Issue) (k : AOp) (tid d : Nat) : Dword × Dword :=
  let w := aopWide k
  (i.vw tid d w, if aopCas k then i.vw tid (d + (if w then 2 else 1)) w else 0)
/-- An atomic on a word of the scratchpad (R169): the state, the old value and its poison. -/
def scrAtomic (s : State) (core bid tid : Nat) (as : List Nat) (k : AOp) (a b : Dword) (bad : Bool) : State × Word × Bool :=
  match s.block bid with
  | none => (s, 0, bad)
  | some x =>
    let r := aopApply k (d64 (leNat (as.map x.scrByte))) a b
    let bad := x.scrIsBad as || bad
    (scrStore s core bid tid as (leBytes 4 r.1.toNat) bad, lo32 r.2, bad)
/-- R157: a release in the scratchpad performs, once what it orders has; its acquire and its token with it. -/
def localRelease (s : State) (bid seq : Nat) : State :=
  match s.block bid with
  | none => s
  | some b =>
    match b.rels.find? (fun r => r.seq == seq) with
    | none => s
    | some r =>
      let s0 := s.updBlock bid (fun b => { b with rels := b.rels.filter (fun r => r.seq != seq) })
      if b.core?.isNone || !releaseReady s b.core bid [r.tid] r.rel seq then s
      else match r.rmw with
        | none => countDown (scrStore s0 b.core bid r.tid r.addrs r.bytes r.bad) bid [r.tid] r.tok
        | some (k, x, y, d) =>
          let z := scrAtomic s0 b.core bid r.tid r.addrs k x y r.bad
          countDown (landLoad (acquireBy z.1 b.core bid [r.tid] r.acq) bid r.tid [r.tid] (.v d) .b32 (leBytes 4 z.2.1.toNat) z.2.2)
            bid [r.tid] r.tok
/-- R169: applied in the scratchpad, lane by lane. -/
def execAtoml (c : Ctl) (k : AOp) (ord : Ord) (sc : Scope) (d : VReg) (x : Opnd) (imm : BitVec 18) (s : State) : Out :=
  let rd := opndRegs x false ++ atomRegs k d.val
  let fate (s : State) (i : Issue) (t : Nat) : ScrFate := scrFate s i false true (i.offset t x imm) 4
  slotHold c rd [.v d.val] fate s <| exWord c rd [.v d.val] false s (fun i s =>
    if i.badUse i.act (opndRegs x false) then i.poisoned s (BitVec.ofInt 64 (i.offset (i.badLane i.act (opndRegs x false)) x imm))
    else if i.held s i.act .rlx .none || i.behindRels (fate s i) then none
    else if i.held s i.act ord sc then
      plain (some (i.scrAccesses (scrPublish i ord (fate s i) s) i.act (fate s i) (fun s t as =>
        let ab := i.atomOps k t d.val
        let r : LocalRel := { seq := s.seq, tid := t, tok := ctlToken c, acq := acqScope ord sc, rel := relScope ord sc, addrs := as,
                              bytes := [], bad := i.bad t (atomRegs k d.val), rmw := some (k, ab.1, ab.2, d.val) }
        awaitDst (countUp (pushRel s i.bid r) c i.bid [t]) i.bid t (.v d.val) .b32)))
    else
      plain (some (scrAcquire i ord sc (fate s i) (i.scrAccesses (scrPublish i ord (fate s i) s) i.act (fate s i) (fun s t as =>
        let ab := i.atomOps k t d.val
        let x := scrAtomic s i.core i.bid t as k ab.1 ab.2 (i.bad t (atomRegs k d.val))
        x.1.updThread i.bid t (fun u => u.putV d.val x.2.1 x.2.2))))))
/-- R170. -/
def execPtest (c : Ctl) (p : Pred) (x : Opnd) (imm : BitVec 18) (s : State) : Out :=
  exWord c (opndRegs x false) [.p p.val] false s (fun i s =>
    let o (t : Nat) : Int := i.offset t x imm
    let out (t : Nat) : Bool := o t < 0 || (i.blk.alloc : Int) < o t + 1
    if i.badUse i.act (opndRegs x false) then i.poisoned s (BitVec.ofInt 64 (o (i.badLane i.act (opndRegs x false))))
    else if i.held s i.act .rlx .none then none
    else
      let s1 := s.updThreads i.bid (i.act.filter (fun t => !out t)) (fun t u =>
        u.putP p.val (!i.blk.absent.contains ((o t).toNat / 64)) false)
      plain (some (i.raiseEach s1 ((i.act.filter out).map (fun t => (t, scrov (o t)))))))

/-! ## Private memory (R164) -/

/-- The checks of a private access in a lane: the offset's own, then those of its backing memory. -/
def privCheck (s : State) (i : Issue) (tid : Nat) (p : Int) (n : Nat) (write : Bool) :
    List (Nat × Bool × Nat) × Fate :=
  if p < 0 || (i.blk.hdr.priv : Int) < p + n then ([], .trap (privov p))
  else if p.toNat % n ≠ 0 then ([], .trap (misalAt p))
  else privFate s i tid p.toNat n write
/-- The private accesses of a word. -/
def privWord (x : Opnd) (imm : BitVec 18) (sz : Sz) (write : Bool)
    (perform : Issue → State → Nat → List (Nat × Bool × Nat) → State) (i : Issue) (s : State) :
    Option (State × (Nat → Option Dword)) :=
  let p (t : Nat) : Int := i.offset t x imm
  let vas (t : Nat) : List Dword := if p t < 0 || (i.blk.hdr.priv : Int) < p t + szBytes sz || (p t).toNat % szBytes sz ≠ 0 then []
    else (privPieces (p t).toNat (szBytes sz)).map (fun q => i.blk.privVa t q.1)
  if i.badUse i.act (opndRegs x false) then i.poisoned s (BitVec.ofInt 64 (p (i.badLane i.act (opndRegs x false))))
  else if i.held s i.act .rlx .none then none
  else (walkAll s i.core i.blk.ctx (i.act.flatMap vas) (if write then .write else .read)).bind (fun s =>
    let chk (t : Nat) : List (Nat × Bool × Nat) × Fate := privCheck s i t (p t) (szBytes sz) write
    if !i.act.all (fun t => privReady s i.core write (chk t).1) then none
    else
    let s1 := i.act.foldl (fun s t => match (chk t).2 with | .go _ _ => perform i s t (chk t).1 | _ => s) s
    let parks := i.act.filter (fun t => (chk t).2 == .park)
    let traps := i.act.filterMap (fun t => match (chk t).2 with | .trap c => some (t, c) | _ => none)
    let va (t : Nat) : Dword := privStop s i t (p t).toNat (szBytes sz) write
    plain (some (i.raiseEach (i.parkPage s1 parks va (if write then 1 else 0) false) traps)))
/-- R164. -/
def execLdp (c : Ctl) (sz : Sz) (d : VReg) (x : Opnd) (imm : BitVec 18) (s : State) : Out :=
  exWord c (opndRegs x false) (szRegs d.val sz) false s
    (privWord x imm sz false (fun i s t ps =>
      let r := privRead s i.core i.bid ps
      r.1.updThread i.bid t (fun u => u.load d.val sz r.2.1 r.2.2)))
/-- R164. -/
def execStp (c : Ctl) (sz : Sz) (x : Opnd) (imm : BitVec 18) (a : Opnd) (s : State) : Out :=
  exWord c (opndRegs x false ++ dataRegs a sz) [] false s
    (privWord x imm sz true (fun i s t ps =>
      privWrite s i.core i.bid ps (i.data t a sz) (i.bad t (dataRegs a sz))))

/-! ## Accumulator store (R165) -/

/-- The cause that the offset of `lda` or `sta` meets: one offset for the whole word. -/
def accCause (s : State) (i : Issue) (a0 : Int) : Option Cause :=
  if a0 % 128 ≠ 0 then some (misalAt a0)
  else if a0 < 0 || (256 * i.blk.hdr.accum : Int) < a0 + 128 then some { bit := 17, addr := BitVec.ofInt 64 a0, info := 0 }
  else if rowNamed (s.core i.core) i.bid (a0.toNat / 256) then some (engrc (BitVec.ofInt 64 a0) 64)
  else none
/-- R165. -/
def execLda (c : Ctl) (d : VReg) (x : Opnd) (imm : BitVec 18) (s : State) : Out :=
  exWord c (opndRegs x false) [.v d.val] false s (fun i s =>
    let a0 := i.offset i.low x imm
    if i.act.isEmpty then plain (some s)
    else if i.bad i.low (opndRegs x false) then i.poisoned s (BitVec.ofInt 64 a0)
    else if i.held s i.act .rlx .none then none
    else
      match accCause s i a0 with
      | some k => plain (some (i.raiseEach s (i.act.map (fun t => (t, k)))))
      | none =>
        let at_ (t : Nat) : Nat := a0.toNat / 4 + i.lane t
        plain (some (i.lanes s (fun t u =>
          u.putV d.val (i.blk.accAt (at_ t / 64) (at_ t % 64)) (i.blk.accIsBad (at_ t / 64) (at_ t % 64))))))
/-- R165. -/
def execSta (c : Ctl) (x : Opnd) (imm : BitVec 18) (a : Opnd) (s : State) : Out :=
  exWord c (opndRegs x false ++ opndRegs a false) [] false s (fun i s =>
    let a0 := i.offset i.low x imm
    if i.act.isEmpty then plain (some s)
    else if i.bad i.low (opndRegs x false) then i.poisoned s (BitVec.ofInt 64 a0)
    else if i.held s i.act .rlx .none then none
    else
      match accCause s i a0 with
      | some k => plain (some (i.raiseEach s (i.act.map (fun t => (t, k)))))
      | none =>
        let at_ (t : Nat) : Nat := a0.toNat / 4 + i.lane t
        plain (some (i.act.foldl (fun s t =>
          accStore s i.bid t (at_ t / 64) (at_ t % 64) (i.o32 t a) (i.bad t (opndRegs a false))) s)))

/-! ## Atomics and reductions (R166, R168) -/

/-- The check of an atomic: on host memory only the operations that the host accepts (R166). -/
def atomFate (s : State) (i : Issue) (k : AOp) (va : Dword) : Fate :=
  match globalFate s i va (aopBytes k) (aopBytes k) .atomic with
  | .go tgt nc => if tgtHost s tgt && !aopHost k then .trap (accv va 6) else .go tgt nc
  | f => f
/-- An atomic on a register of the control space reads it and changes nothing (R392). -/
def controlAtomic (s : State) (i : Issue) (tid tgt : Nat) (k : AOp) (d : Option Nat) : State :=
  match d with
  | some n => landLoad s i.bid tid [tid] (.v n) (aopSz k) (controlBytes s (tgt - Config.csBase) (aopBytes k)) false
  | none => s
/-- The requests of an atomic or reduction, one for each lane in ascending order (R160). -/
def atomBody (c : Ctl) (k : AOp) (ord : Ord) (sc : Scope) (m : MAddr) (regs : List Reg) (d : Option Nat)
    (ops : Issue → Nat → Dword × Dword) (i : Issue) (s : State) : Option (State × (Nat → Option Dword)) :=
  let bad (t : Nat) : Bool := i.bad t regs
  if i.badUse i.act (addrRegs m) then i.poisoned s (i.addr (i.badLane i.act (addrRegs m)) m)
  else if i.held s i.act .rlx .none then none
  else i.walked s i.act (fun t => i.addr t m) (aopBytes k) .atomic (fun s =>
    let fate (t : Nat) : Fate := atomFate s i k (i.addr t m)
    match badStore s (fatesOf i.act fate) bad with
    | some t => i.poisoned s (i.addr t m)
    | none =>
    plain (i.accesses (i.publish s ord (goers i.act fate)) i.act fate (fun t => i.addr t m) 1 (fun s t tgt _ =>
      if tgtControl s tgt then some (controlAtomic s i t tgt k d)
      else
        let ab := ops i t
        let s1 := atomicAt s i c { tid := t, tids := [t] } (i.addr t m) tgt (acqScope ord sc) (relScope ord sc)
          (.atomic (tgt % 64) k ab.1 ab.2 (bad t) d)
        some (match d with
          | some n => awaitDst s1 i.bid t (.v n) (aopSz k)
          | none => s1))))
/-- R166. -/
def execAtom (c : Ctl) (k : AOp) (ord : Ord) (sc : Scope) (d : VReg) (m : MAddr) (s : State) : Out :=
  exWord c (addrRegs m ++ atomRegs k d.val) (szRegs d.val (aopSz k)) false s
    (atomBody c k ord sc m (atomRegs k d.val) (some d.val) (fun i t => i.atomOps k t d.val))
/-- R168: never an acquire. -/
def execRed (c : Ctl) (k : AOp) (ord : Ord) (sc : Scope) (m : MAddr) (a : Opnd) (s : State) : Out :=
  exWord c (addrRegs m ++ opndRegs a (aopWide k)) [] false s
    (atomBody c k ord sc m (opndRegs a (aopWide k)) none (fun i t => (i.opnd t a (aopWide k), 0)))

/-! ## Fences and maintenance of the L1 (R171 to R174) -/

/-- R171: the fence issues when what it waits for has performed. -/
def execFence (c : Ctl) (ord : Ord) (sc : Scope) (s : State) : Out :=
  exWord c [] [] false s (fun i s =>
    if i.act.isEmpty then plain (some s)
    else if i.held s i.act ord sc || (ordAcq ord && loadOut s i.bid i.act s.seq) then none
    else
      let s1 := if ordRel ord then publishStas s i.bid i.act [atFence] else s
      let far (p : Nat) : Bool := widePlace p || decide (atScr 0 ≤ p)
      plain (some (if ordAcq ord then learnAt (acquireAt s1 i.core sc) i.bid i.act far else s1)))
/-- R172. -/
def execEfence (c : Ctl) (sc : Scope) (s : State) : Out :=
  exWord c [] [] false s (fun i s =>
    if i.act.isEmpty then plain (some s)
    else if i.held s i.act .rel sc then none
    else plain (some (acquireAt (fenceStas s i.bid i.slot i.act) i.core sc)))

/-- Whether a physical line backs a byte of a virtual range through a valid translation (R173). -/
def lineInRange (s : State) (ctx line va n : Nat) : Bool :=
  let first := va / 65536
  let pages := if n = 0 then 0 else (va + n - 1) / 65536 - first + 1
  (List.range pages).any (fun k =>
    match walk s (s.ctx ctx).ptroot.toNat ((first + k) * 65536 % 2 ^ 55) with
    | .leaf pa _ =>
      let lva := (first + k) * 65536 + line * 64 % 65536
      decide (first + k < 2 ^ 39) && pa / 65536 == line * 64 / 65536 && decide (va < lva + 64) && decide (lva < va + n)
    | _ => false)
/-- The clean global lines of a range leave the L1 (R173). -/
def cinvRange (s : State) (core ctx va n : Nat) : State :=
  if 262144 ≤ n then s.updCore core Core.invalGlobal
  else
    s.updCore core (fun k =>
      { k with l1 := k.l1.filter (fun e => !(e.2.priv.isNone && lineInRange s ctx e.1 va n)),
               fills := k.fills.map (fun f => if lineInRange s ctx f.line va n then { f with install := false } else f) })
/-- R173. -/
def execCinv (c : Ctl) (x : Opnd) (imm : BitVec 18) (b : Opnd) (s : State) : Out :=
  exWord c (opndRegs x true ++ opndRegs b false) [] false s (fun i s =>
    let va (t : Nat) : Dword := i.addr t (.off x imm)
    if i.badUse i.act (opndRegs x true ++ opndRegs b false) then i.poisoned s (va (i.badLane i.act (opndRegs x true ++ opndRegs b false)))
    else if i.held s i.act .rlx .none then none
    else
      let n (t : Nat) : Nat := if 262144 ≤ (i.o32 t b).toNat then 0 else (i.o32 t b).toNat
      if !i.act.all (fun t => pagesRoom s i.blk.ctx (va t) (n t)) then none
      else plain (some (i.act.foldl (fun s t =>
        cinvRange (touchPages s i.blk.ctx (va t) (n t)) i.core i.blk.ctx (va t).toNat (i.o32 t b).toNat) s)))

/-- The lines of the virtual address space that hold a thread's private bytes of a range. -/
def privLines (i : Issue) (tid p n : Nat) : List Nat :=
  let hi := Nat.min (p + n) i.blk.hdr.priv
  if hi ≤ p then [] else (List.range ((hi + 3) / 4 - p / 4)).map (fun k => (i.blk.privVa tid ((p / 4 + k) * 4)).toNat / 64)
/-- The private lines of a block that a core's L1 holds, among some lines of the virtual address space. -/
def Core.privOf (k : Core) (bid : Nat) (vlines : List Nat) : List Nat :=
  (k.l1.filter (fun e => e.2.priv == some bid && vlines.contains e.2.vline)).map (·.1)
/-- R174: the lines are written back and acknowledged as the word issues. -/
def execCwb (c : Ctl) (x : Opnd) (imm : BitVec 18) (b : Opnd) (s : State) : Out :=
  exWord c (opndRegs x false ++ opndRegs b false) [] false s (fun i s =>
    let p (t : Nat) : Int := i.offset t x imm
    if i.badUse i.act (opndRegs x false ++ opndRegs b false) then i.poisoned s (BitVec.ofInt 64 (p (i.badLane i.act (opndRegs x false ++ opndRegs b false))))
    else if i.held s i.act .rlx .none then none
    else
      let n (t : Nat) : Nat := (p t + (i.o32 t b).toNat).toNat - (p t).toNat
      let lines (s : State) (t : Nat) : List Nat := (s.core i.core).privOf i.bid (privLines i t (p t).toNat (n t))
      if !i.act.all (fun t => (lines s t).all (canWriteBack s i.core)) then none
      else plain (some (i.act.foldl (fun s t => (lines s t).foldl (fun s l => writeBack s i.core l) s) s)))

end Sys2Proof.Machine
end

