-- ==== Sys2Proof/Machine/Sync.lean ====
section
/-! DEFINITION. The synchronisation words (R175 to R196): watched words, monitors, tickets, named barriers, cohort
barriers, convoys, paced steps. -/

namespace Sys2Proof.Machine

/-! ## Monitors (R176, R246) -/

/-- The entries of a home slice's table of monitors: a monitor that stands at another device takes none here. -/
def monitorsAt (s : State) (slice : Nat) : Nat :=
  (s.mons.filter (fun m => m.armed && !tgtRemote (m.line * 64) && homeSlice s.part (m.line * 64) == slice)).length
    + (s.far.filter (fun m => homeSlice s.part (m.line * 64) == slice)).length
/-- Whether a monitor on a target can be armed: in device memory, with room at the slice (R246). -/
def canArm (s : State) (tgt : Nat) : Bool :=
  tgtDram s tgt && decide (monitorsAt s (homeSlice s.part tgt) < Config.monitorEntries)
/-- The place at which a monitor is armed (R246, R253): the target itself, or, through this device's own window, the address that
EXPCTL's context maps the offset to; none in another device's window. -/
def monPlace (s : State) (tgt : Nat) : Option Nat :=
  if !tgtRemote tgt then some tgt
  else if (tgt - Config.paEnd) / 2 ^ 45 ≠ s.sys.devid then none
  else
    match freshChk s (s.fab.expctl.extractLsb' 0 6).toNat (tgt % 2 ^ 45) .read with
    | .ok pa _ => if s.fab.expctl.getLsbD 63 then some pa else some tgt
    | _ => some tgt
/-- Frees a thread's monitor. -/
def disarm (s : State) (bid tid : Nat) : State := { s with mons := s.mons.filter (fun m => !(m.bid == bid && m.tid == tid)) }
/-- Arms a thread's monitor, in place of its previous one. Whether another device's home slice has room is a free value. -/
def armMon (s : State) (bid tid : Nat) (va : Dword) (tgt : Nat) : State :=
  let s1 := disarm s bid tid
  let m : Mon := { bid := bid, tid := tid, va := va, line := tgt / 64, seq := s1.seq, time := s.gtime, armed := false, hit := false,
                   due := 0 }
  match monPlace s1 tgt with
  | some pa => { s1 with mons := s1.mons ++ [{ m with line := pa / 64, armed := canArm s1 pa }], seq := s1.seq + 1 }
  | none => { s1 with mons := s1.mons ++ [{ m with armed := Config.freeBit (Config.freeAt s1.free tid 7) }], seq := s1.seq + 1,
                      free := s1.free + 1 }
/-- A thread's monitor. -/
def monOf (s : State) (bid tid : Nat) : Option Mon := s.mons.find? (fun m => m.bid == bid && m.tid == tid)
/-- The instant of the next re-evaluation of a wait whose monitor is not armed: 1 µs on; 0 for an armed one (R175). -/
def pollOf (s : State) (bid tid : Nat) : Nat := if ((monOf s bid tid).map (·.armed)).getD false then 0 else s.gtime + 1000
/-- Whether a core still has a request to a target's line on its way (R241, R275). -/
def lineOut (s : State) (core tgt : Nat) : Bool := (s.core core).reqs.any (fun r => r.line == tgt / 64)
/-- The condition of a watched word (R175). -/
def watchHolds (cc : Cc) (uns : Bool) (v : Nat) (cmp : Word) : Bool :=
  ccInt cc (intOf 32 (!uns) v) (if uns then (cmp.toNat : Int) else cmp.toInt)
/-- A deadline in GTIME: 0 for none (R175). -/
def deadlineOf (s : State) (ns : Nat) : Nat := if ns = 0 then 0 else s.gtime + ns

/-! ## Evaluations of a wait (R175, R232, R251) -/

/-- The wait of a thread that no release has reached yet. -/
def waitOf (s : State) (bid tid : Nat) : Option (Block × Thread × WaitRec) :=
  match s.block bid with
  | none => none
  | some b =>
    match b.thread tid with
    | none => none
    | some t =>
      match t.status with
      | .waiting w => if w.wave.isNone then some (b, t, w) else none
      | _ => none
/-- Some threads complete their wait: their monitors are freed, the acquire is applied (R157, R175); the wave of the write that
signalled the monitor says when they go on (R178). -/
def finishWait (s : State) (bid tid : Nat) (b : Block) (tids : List Nat) (sc : Scope) : State :=
  let due := ((monOf s bid tid).map (·.due)).getD 0
  let line := ((monOf s bid tid).map (·.line)).getD 0
  let by_ (t : Thread) : Thread := match t.status with
    | .waiting w => { t with status := .waiting { w with line := line } }
    | _ => t
  let s1 := { s.updThreads bid tids (fun _ t => by_ t) with mons := s.mons.filter (fun m => !(m.bid == bid && tids.contains m.tid)) }
  let s2 := match b.core? with
    | some k => acquireAt s1 k sc
    | none => s1
  releaseAs (if sc = .none then s2 else learnAt s2 bid tids widePlace) bid tids (fun _ => due)
/-- A waiter whose condition does not hold arms its monitor again, or waits for the next instant of re-evaluation. -/
def rearm (s : State) (bid tid : Nat) (va : Dword) (tgt : Nat) : State :=
  let s1 := armMon s bid tid va tgt
  s1.updThread bid tid (fun t => match t.status with
    | .waiting w => { t with status := .waiting { w with poll := pollOf s1 bid tid } }
    | _ => t)
/-- Threads of a frond that wait at one `lwait` (R232). -/
def lwaitSet (b : Block) (slot : Nat) (w : WaitRec) : List Nat :=
  (b.waitersFor (fun x => decide (x.kind = w.kind) && x.clause == w.clause && x.pos == w.pos)).filter (fun t =>
    ((b.thread t).map (·.slot)) == some slot)
/-- A watched word is evaluated with the value its home returned (R175, R232). While the monitor has been signalled since, a
further evaluation follows. A ticket in host memory that is served is remembered: its Swap comes next (R184). -/
def evalWatch (s : State) (bid tid v : Nat) : State :=
  let again (va : Dword) (pa : Nat) : State :=
    if ((monOf s bid tid).map (·.hit)).getD false then s else rearm s bid tid va pa
  match waitOf s bid tid with
  | some (b, t, w) =>
    match w.kind with
    | .watch va pa cc uns cmp _ =>
      if watchHolds cc uns v cmp then finishWait s bid tid b [tid] w.scope else again va pa
    | .lwait va pa =>
      if v = 0 then finishWait s bid tid b (lwaitSet b t.slot w) w.scope else again va pa
    | .ticket _ _ k _ =>
      if v = k.toNat then s.updThread bid tid (fun t => { t with status := .waiting { w with got := true } }) else s
    | _ => s
  | none => s
/-- The read of a thread's watched word. -/
def evalJoin (s : State) (bid tid : Nat) (va : Dword) (tgt : Nat) : Join :=
  { bid := bid, tid := tid, tids := [], va := va, dst := .eval, sz := .b32, off := tgt % 64, tok := 0, acq := .none, seq := s.seq }
/-- Whether an evaluation of a thread's watched word is on its way. -/
def evalOut (s : State) (core bid tid : Nat) : Bool :=
  let mine (j : Join) : Bool := j.bid == bid && j.tid == tid && decide (j.dst = .eval)
  (s.core core).fills.any (fun f => f.joins.any mine) || s.fab.remote.any (fun q => q.joins.any mine)
/-- Sends the read that evaluates a watched word: to its home slice, through the fill tracker (R251), or through the window; none
while the tracker is full. A register of the control space answers at once. -/
def sendEval (s : State) (core bid tid : Nat) (va : Dword) (tgt : Nat) : Option State :=
  let s1 := { s with seq := s.seq + 1 }
  if evalOut s core bid tid then some s
  else if tgtRemote tgt then
    let r : Req := { seq := s.seq, time := s.gtime, va := va, line := tgt / 64, bid := bid, tid := tid, tids := [], tok := none, acq := .none,
                     rel := .none, who := .eval, kind := .read }
    some (sendRemote s1 core tgt r [evalJoin s bid tid va tgt])
  else if tgtControl s tgt then some (evalWatch s bid tid (leNat (controlBytes s (tgt - Config.csBase) 4)))
  else sendRead s1 core (tgt / 64) true .eval [tid] (evalJoin s bid tid va tgt)
/-- The threads that one wait of a thread stands for (R129). -/
def waitSet (b : Block) (t : Thread) (tid : Nat) (w : WaitRec) : List Nat :=
  match w.kind with
  | .lwait _ _ => lwaitSet b t.slot w
  | _ => [tid]
/-- Frees the monitors of some threads of a block. -/
def disarmAll (s : State) (bid : Nat) (tids : List Nat) : State :=
  { s with mons := s.mons.filter (fun m => !(m.bid == bid && tids.contains m.tid)) }
/-- An access of a wait ends in ACCV at its word; a dormant block is revived with it (R50). -/
def failWait (s : State) (bid tid : Nat) (va : Dword) (code : Nat) : State :=
  match waitOf s bid tid with
  | none => s
  | some (b, t, w) =>
    let tids := waitSet b t tid w
    wakeBlock (takeTrap (disarmAll s bid tids) bid t.slot
      (tids.map (fun l => { tid := l, causes := [accv va code], epc := w.clause, eslot := w.pos }))) bid
/-- An access of a wait meets a page that is not present: its threads park on it at their word (R380, R384). -/
def parkWait (s : State) (bid tid : Nat) (va : Dword) (info : Nat) : State :=
  match waitOf s bid tid with
  | none => s
  | some (b, t, w) =>
    let tids := waitSet b t tid w
    let s1 := (disarmAll s bid tids).updThreads bid tids (fun _ x => x.park (.page (pageOf va) va false) w.clause w.pos)
    wakeBlock (pageAbsent s1 b.ctx va info 1 (whereOf b.home t.slot) b.obase (BitVec.ofNat 32 b.idx) (s.nodeOf b.launch)) bid
/-- A wait whose word now lies at another place. -/
def WaitKind.move (k : WaitKind) (old new : Nat) : WaitKind :=
  match k with
  | .watch va pa cc uns cmp o => .watch va (pa + new - old) cc uns cmp o
  | .ticket va pa n o => .ticket va (pa + new - old) n o
  | .lwait va pa => .lwait va (pa + new - old)
  | k => k
/-- A wait's word is found at another place than before: its monitor is armed there, and it is evaluated anew. -/
def moveWait (s : State) (bid tid : Nat) (va : Dword) (old new : Nat) : State :=
  let s1 := armMon s bid tid va new
  let s2 := { s1 with mons := s1.mons.map (fun (m : Mon) => if m.bid = bid ∧ m.tid = tid then { m with hit := true } else m) }
  s2.updThread bid tid (fun t => match t.status with
    | .waiting w => { t with status := .waiting { w with kind := w.kind.move old new, poll := pollOf s1 bid tid } }
    | _ => t)
/-- An access of a waiting thread is translated as it is made (R155, R379): its target, none when the wait has moved, parked or failed, or
when a home slice has no room for its walk. -/
def waitTgt (s : State) (bid tid : Nat) (b : Block) (va : Dword) (tgt align : Nat) (a : Acc) : State × Option Nat :=
  match (match auditOf s b with
    | some x => auditVa x va (a == Acc.write)
    | none => some va) with
  | none => (s, some tgt)
  | some x =>
    match walkAll s b.home b.ctx [x] a with
    | none => (s, none)
    | some s1 =>
      let at_ (pa : Nat) : State × Option Nat := if pa = tgt then (s1, some tgt) else (moveWait s1 bid tid va tgt pa, none)
      match accessChk s1 b.home b.ctx x align a with
      | .ok pa _ => at_ pa
      | .remote dev off => at_ (remoteTgt dev off)
      | .absent => (parkWait s1 bid tid va (b2n (a == Acc.write)), none)
      | .accv k => (failWait s1 bid tid va k, none)
      | .misal => (s1, some tgt)
/-- The monitor's signal is taken: a later write signals it anew. -/
def takeHit (s : State) (bid tid : Nat) : State :=
  { s with mons := s.mons.map (fun m => if m.bid = bid ∧ m.tid = tid then { m with hit := false } else m) }
/-- Re-evaluates a wait, unless an evaluation is on its way. -/
def reevaluate (s : State) (bid tid : Nat) (b : Block) (va : Dword) (tgt : Nat) : State :=
  if evalOut s b.home bid tid then s
  else
    match waitTgt s bid tid b va tgt 4 .read with
    | (s1, some pa) => (sendEval (takeHit s1 bid tid) b.home bid tid va pa).getD s1
    | (s1, none) => s1

/-- R175: each active lane waits from its first evaluation on; its monitor is armed before that. -/
def execWaitc (c : Ctl) (cc : Cc) (uns : Bool) (ord : Ord) (sc : Scope) (x cmp t : Opnd) (s : State) : Out :=
  let rd := opndRegs x true ++ opndRegs cmp false ++ opndRegs t false
  exWord c rd [] false s (fun i s =>
    let va (l : Nat) : Dword := i.opnd l x true
    if i.badUse i.act rd then i.poisoned s (va (i.badLane i.act rd))
    else if i.held s i.act .rlx .none then none
    else i.walked s i.act va 4 .load (fun s =>
      plain (i.accesses s i.act (fun l => globalFate s i (va l) 4 4 .load) va 0 (fun s l tgt _ =>
        let s1 := armMon s i.bid l (va l) tgt
        let w := i.waitRec (.watch (va l) tgt cc uns (i.o32 l cmp) ord) (deadlineOf s (i.o32 l t).toNat) (acqScope ord sc)
        sendEval (i.startWait s1 [l] (fun _ => { w with poll := pollOf s1 i.bid l })) i.core i.bid l (va l) tgt))))

/-- The check of `mon`: R155 alone, for one byte (R176). -/
def monFate (s : State) (i : Issue) (va : Dword) : Fate :=
  match accessChk s i.core i.blk.ctx va 1 .read with
  | .ok pa nc => .go pa nc
  | .remote dev off => .go (remoteTgt dev off) true
  | .misal => .trap (misal va)
  | .accv k => .trap (accv va k)
  | .absent => .park
/-- R176. -/
def execMon (c : Ctl) (x : Opnd) (imm : BitVec 18) (s : State) : Out :=
  exWord c (opndRegs x true) [] false s (fun i s =>
    let va (l : Nat) : Dword := i.addr l (.off x imm)
    if i.badUse i.act (opndRegs x true) then i.poisoned s (va (i.badLane i.act (opndRegs x true)))
    else if i.held s i.act .rlx .none then none
    else i.walked s i.act va 1 .load (fun s =>
      plain (i.accesses s i.act (fun l => monFate s i (va l)) va 0 (fun s l tgt _ =>
        some (armMon s i.bid l (va l) tgt)))))
/-- R177: a lane without a monitor, or whose monitor has been signalled, completes at once; with an order as `fence.acq` does,
after its earlier loads (R281). -/
def execMwait (c : Ctl) (ord : Ord) (sc : Scope) (t : Opnd) (s : State) : Out :=
  exWord c (opndRegs t false) [] false s (fun i s =>
    if i.badUse i.act (opndRegs t false) then i.poisoned s i.word
    else if i.held s i.act .rlx .none then none
    else
      let waits (l : Nat) : Bool := ((monOf s i.bid l).map (fun m => !m.hit)).getD false
      let go := i.act.filter (fun l => !waits l)
      if ordAcq ord && loadOut s i.bid go s.seq then none else
      let s1 := go.foldl (fun s l => disarm s i.bid l) s
      let s2 := if go.isEmpty then s1 else acquireBy s1 i.core i.bid go (acqScope ord sc)
      plain (some (i.startWait s2 (i.act.filter waits) (fun l =>
        { i.waitRec (.mwait ord) (deadlineOf s (i.o32 l t).toNat) (acqScope ord sc) with poll := pollOf s i.bid l }))))

/-! ## Tickets (R179 to R184) -/

/-- R180: NEXT is taken in ascending lane order. -/
def execTktake (c : Ctl) (d : VReg) (x : Opnd) (imm : BitVec 18) (s : State) : Out :=
  exWord c (opndRegs x true) [.v d.val] false s (fun i s =>
    let va (l : Nat) : Dword := i.addr l (.off x imm)
    if i.badUse i.act (opndRegs x true) then i.poisoned s (va (i.badLane i.act (opndRegs x true)))
    else if i.held s i.act .rlx .none then none
    else i.walked s i.act va 16 .atomic (fun s =>
      plain (i.accesses s i.act (fun l => globalFate s i (va l) 16 16 .atomic) va 1 (fun s l tgt _ =>
        if tgtControl s tgt then some (controlAtomic s i l tgt .addI32 (some d.val))
        else
          let s1 := atomicAt s i c { tid := l, tids := [l] } (va l) tgt .none .none (.take (tgt % 64) d.val)
          some (awaitDst s1 i.bid l (.v d.val) .b32)))))
/-- R181: each active lane waits for its ticket; the grant is the home slice's step. In host memory the first read of SERVE comes
at once (R184). -/
def execTkwait (c : Ctl) (ord : Ord) (sc : Scope) (x : Opnd) (imm : BitVec 18) (t : Opnd) (s : State) : Out :=
  let rd := opndRegs x true ++ opndRegs t false
  exWord c rd [] false s (fun i s =>
    let va (l : Nat) : Dword := i.addr l (.off x imm)
    if i.badUse i.act rd then i.poisoned s (va (i.badLane i.act rd))
    else if i.held s i.act .rlx .none then none
    else i.walked s i.act va 16 .atomic (fun s =>
      plain (i.accesses s i.act (fun l => globalFate s i (va l) 16 16 .atomic) va 1 (fun s l tgt _ =>
        let s1 := armMon (s.updCore i.core (fun k => k.invalLine (tgt / 64))) i.bid l (va l) tgt
        let w := i.waitRec (.ticket (va l) tgt (i.o32 l t) ord) 0 (acqScope ord sc)
        let poll := if tgtHost s tgt then Nat.max 1 s.gtime else pollOf s1 i.bid l
        some (i.startWait s1 [l] (fun _ => { w with poll := poll }))))))
/-- The boost on a ticket word ends at the block's `tkserve` on it (R183). -/
def endBoost (s : State) (bid word : Nat) : State :=
  s.updBlock bid (fun b =>
    { b with boosts := b.boosts.filter (fun e => !(e.1 == word)), tickets := b.tickets.filter (fun e => e.1 != word) })
/-- The number by which a ticket word is known: that of its place. -/
def ticketKey (s : State) (tgt : Nat) : Nat := (monPlace s tgt).getD tgt / 16
/-- R182. -/
def execTkserve (c : Ctl) (ord : Ord) (sc : Scope) (x : Opnd) (imm : BitVec 18) (s : State) : Out :=
  exWord c (opndRegs x true) [] false s (fun i s =>
    let va (l : Nat) : Dword := i.addr l (.off x imm)
    if i.badUse i.act (opndRegs x true) then i.poisoned s (va (i.badLane i.act (opndRegs x true)))
    else if i.held s i.act .rlx .none then none
    else i.walked s i.act va 16 .atomic (fun s =>
      let fate (l : Nat) : Fate := globalFate s i (va l) 16 16 .atomic
      plain (i.accesses (i.publish s ord (goers i.act fate)) i.act fate va 1 (fun s l tgt _ =>
        let s1 := endBoost s i.bid (ticketKey s tgt)
        if tgtControl s tgt then some s1
        else some (atomicAt s1 i c { tid := l, tids := [l] } (va l) tgt .none (relScope ord sc) (.serve (tgt % 64) false))))))

/-! ## Named barriers (R185 to R188) -/

/-- Whether a barrier has waiting threads or is named by an incomplete engine operation (R186). -/
def barBusy (s : State) (core bid n : Nat) : Bool :=
  ((s.block bid).map (fun b => !(b.waitersFor (fun w => match w.kind with
      | .barr j _ => j == n
      | .phase j _ => j == n
      | _ => false)).isEmpty)).getD false
    || (s.core core).queue.any (fun o => o.bid == bid && o.ctl.be && o.ctl.bar.toNat == n)
/-- R186: once, with the values of the lowest active lane. -/
def execBinit (c : Ctl) (n k : Opnd) (s : State) : Out :=
  exWord c (opndRegs n false ++ opndRegs k false) [] false s (fun i s =>
    if i.act.isEmpty then plain (some s)
    else if i.held s i.act .rlx .none then none
    else
      let b := (i.o32 i.low n).toNat % 16
      if barBusy s i.core i.bid b then plain (some (i.raiseEach s (i.act.map (fun t => (t, engrc 0 64)))))
      else plain (some (s.updBlock i.bid (fun x =>
        x.setBar b { c := (i.o32 i.low k).toNat % 4096, a := 0, p := 0, ops := [] }))))

/-- The operations of a block that have not completed. -/
def opsOf (s : State) (core bid : Nat) : List Nat :=
  ((s.core core).queue.filter (fun o => o.bid == bid)).map (·.id)
/-- One lane waits for the phase it arrives in, then arrives (R187). -/
def arriveLane (i : Issue) (sc : Scope) (n : Nat) (s : State) (t : Nat) : State :=
  match s.block i.bid with
  | none => s
  | some b =>
    barArrive (i.startWait s [t] (fun _ => i.waitRec (.barr n (b.bar n).p.toNat) 0 sc)) i.bid n
/-- `barr` and `bsync`: the barrier is that of the lowest active lane; each active lane arrives once (R187). -/
def arriveBody (ops : Bool) (sc : Scope) (n : Opnd) (i : Issue) (s : State) : Option (State × (Nat → Option Dword)) :=
  if i.act.isEmpty then plain (some s)
  else if i.held s i.act .acqrel sc then none
  else
    let b := (i.o32 i.low n).toNat % 16
    let s0 := publishStas s i.bid i.act [b]
    let s1 := if ops then s0.updBlock i.bid (fun x =>
        let y := x.bar b
        x.setBar b { y with ops := (opsOf s i.core i.bid).foldl addNat y.ops }) else s0
    plain (some (i.act.foldl (arriveLane i sc b) s1))
/-- R187. -/
def execBarr (c : Ctl) (sc : Scope) (n : Opnd) (s : State) : Out :=
  exWord c (opndRegs n false) [] false s (arriveBody false sc n)
/-- R187: its phase also waits for the engine operations accepted before. -/
def execBsync (c : Ctl) (sc : Scope) (n : Opnd) (s : State) : Out :=
  exWord c (opndRegs n false) [] false s (arriveBody true sc n)
/-- R188: it does not arrive; a poisoned phase number is a poisoned comparand (R387). -/
def execBwait (c : Ctl) (sc : Scope) (n k : Opnd) (s : State) : Out :=
  exWord c (opndRegs n false ++ opndRegs k false) [] false s (fun i s =>
    if i.act.isEmpty then plain (some s)
    else if i.bad i.low (opndRegs k false) then i.poisoned s i.word
    else if i.held s i.act .rlx .none then none
    else
      let b := (i.o32 i.low n).toNat % 16
      let ph : BitVec 16 := (i.o32 i.low k).setWidth 16
      if phaseDone (i.blk.bar b).p ph then plain (some (learnAt (acquireAt s i.core sc) i.bid i.act (· == atDone b)))
      else plain (some (i.startWait s i.act (fun _ => i.waitRec (.phase b ph) 0 sc))))

/-! ## Cohort barriers (R190) -/

/-- The lanes of a `cbar` whose slot names no cohort, which raise ILLOP. -/
def cbarIll (slot : BitVec 2) (i : Issue) : List (Nat × Nat) :=
  if (i.blk.coh[slot.toNat]?).isNone then i.act.map (fun t => (t, 0)) else []
/-- R190: a slot without a cohort raises ILLOP. -/
def execCbar (c : Ctl) (sc : Scope) (slot : BitVec 2) (s : State) : Out :=
  illFirst c (cbarIll slot) s <| exWord c [] [] false s (fun i s =>
    let wide : Scope := if sc == .none then .dev else sc
    if i.act.isEmpty then plain (some s)
    else if !(cbarIll slot i).isEmpty then plain (some (i.illop s (cbarIll slot i)))
    else if i.held s i.act .acqrel wide then none
    else plain (some (cbarArrive (i.startWait (publishStas s i.bid i.act [atHome]) i.act (fun _ => i.waitRec (.cbar slot.toNat) 0 wide)) i.bid)))

/-! ## Convoys (R191 to R194) -/

/-- The cohort that a slot names, when it has the convoy attribute. -/
def convoySlot (s : State) (b : Block) (slot : Nat) : Option Nat :=
  match b.coh[slot]?, s.launch b.launch with
  | some c, some x => if ((x.cohorts[c.id]?).map (·.convoy)).getD false then some c.id else none
  | _, _ => none
/-- The block joins a convoy at position 0 (R191). -/
def convoyJoin (s : State) (bid id : Nat) (base : Dword) (n : Nat) : State :=
  match s.block bid with
  | none => s
  | some b =>
    let s1 := if b.convoy = some id then s else convoyLeave s bid
    let m : Member := { base := base, count := n, pos := 0, active := true, detached := false, adv := s.gtime, parked := [] }
    let s2 := s1.updLaunch b.launch (fun x => match x.cohorts[id]? with
      | some c => { x with cohorts := x.cohorts.set id { c with conv := c.conv.put b.idx m } }
      | none => x)
    s2.updBlock bid (fun b => { b with convoy := some id })
/-- The lanes of a `cvjoin` whose slot names no convoy, which raise ILLOP with code 1. -/
def cvjoinIll (s : State) (slot : BitVec 2) (i : Issue) : List (Nat × Nat) :=
  if (convoySlot s i.blk slot.toNat).isNone then i.act.map (fun t => (t, 1)) else []
/-- R191: once, with the lowest active lane's values. A count above 2^31 is taken as it is (DESIGN CHOICE, log entry 59: R191 gives the
range and an outcome for 0 alone). -/
def execCvjoin (c : Ctl) (slot : BitVec 2) (x : Opnd) (imm : BitVec 18) (n : Opnd) (s : State) : Out :=
  illFirst c (cvjoinIll s slot) s <| exWord c (opndRegs x true ++ opndRegs n false) [] false s (fun i s =>
    let base := i.addr i.low (.off x imm)
    let k := (i.o32 i.low n).toNat
    if i.act.isEmpty then plain (some s)
    else if i.bad i.low (opndRegs x true ++ opndRegs n false) then i.poisoned s base
    else if i.held s i.act .rlx .none then none
    else
      match convoySlot s i.blk slot.toNat with
      | none => plain (some (i.illop s (cvjoinIll s slot i)))
      | some id =>
        if base.toNat % 64 ≠ 0 || k = 0 then plain (some (i.raiseEach s (i.act.map (fun t => (t, misal base)))))
        else plain (some (convoyJoin s i.bid id base k)))

/-- Lanes of a `cvld` that read for the first time; the others replay a line that faulted (R384). -/
def cvFresh (i : Issue) : List Nat := i.act.filter (fun t => ((i.thr t).bind (·.cvline)).isNone)
/-- Lines of a `cvld`. -/
def cvCount (two : Bool) : Nat := if two then 2 else 1
/-- Whether a `cvld` is held back now (R193). -/
def cvldHeld (i : Issue) (s : State) (two : Bool) : Bool :=
  !(cvFresh i).isEmpty && (match convoyOf s i.blk with
    | some (c, m) => convoyHeld c i.blk.idx m (cvCount two)
    | none => false)
/-- The issue set of a held `cvld` parks (R25, R193); since when, and for how many lines, is kept for CVREL. -/
def holdCvld (s : State) (i : Issue) (two : Bool) : State :=
  let s1 := s.updThreads i.bid i.run.tids (fun _ t => { t with status := .parked .issue })
  match i.blk.convoy with
  | none => s1
  | some id => updMember s1 i.blk.launch id i.blk.idx (fun m =>
      if m.parked.any (fun h => h.1 == i.slot) then m else { m with parked := m.parked ++ [(i.slot, s.gtime, cvCount two)] })
/-- The line that a lane's `cvld` reads: none for a lane that reads zero (R192). -/
def cvLine (i : Issue) (m : Member) (two : Bool) (t : Nat) : Option Dword :=
  match (i.thr t).bind (·.cvline) with
  | some va => some va
  | none =>
    let l := i.lane t
    let k := if two then l / 16 else 0
    if (two || l < 16) && m.pos + k < m.count then some (m.base + d64 (64 * (m.pos + k))) else none
/-- The lanes of a `cvld` of a block that has joined no convoy, which raise ILLOP with code 2. -/
def cvldIll (s : State) (i : Issue) : List (Nat × Nat) :=
  if (convoyOf s i.blk).isNone then i.act.map (fun t => (t, 2)) else []
/-- The effect of `cvld` when it is not held (R192). -/
def cvldBody (c : Ctl) (d : VReg) (two : Bool) (i : Issue) (s : State) : Option (State × (Nat → Option Dword)) :=
  if i.act.isEmpty then plain (some s)
  else if i.held s i.act .rlx .none then none
  else
    match convoyOf s i.blk, i.blk.convoy with
    | some (_, m), some id =>
      let line (t : Nat) : Option Dword := cvLine i m two t
      let va (t : Nat) : Dword := (line t).getD 0
      let reads := i.act.filter (fun t => (line t).isSome)
      i.walked s reads va 64 .load (fun s =>
      let fate (t : Nat) : Fate := globalFate s i (va t) 64 64 .load
      let parked := reads.filter (fun t => fate t == .park)
      let s1 := s.updThreads i.bid i.act (fun t x => { x with cvline := if parked.contains t then line t else none })
      let s2 := s1.updThreads i.bid (i.act.filter (fun t => (line t).isNone)) (fun _ x => x.putV d.val 0 false)
      plain ((i.accesses s2 reads fate va 0 (fun s t tgt _ =>
        let off := 4 * (i.lane t % 16)
        loadAt s i c { tid := t, tids := [t] } (va t) (tgt + off) true .b32 .none (.v d.val))).map (fun s3 =>
          if (cvFresh i).isEmpty then s3
          else updMember s3 i.blk.launch id i.blk.idx (fun m =>
            { m with pos := Nat.min (m.pos + cvCount two) m.count, adv := s.gtime,
                     parked := m.parked.filter (fun h => h.1 != i.slot) }))))
    | _, _ => plain (some (i.illop s (cvldIll s i)))
/-- R192, R193: a held `cvld` keeps its issue set where it is. One that is replayed after its page was serviced reads the line that it
kept (R384), but not once another frond has ended the stream: the block has then joined no convoy, and its lanes raise ILLOP with code 2
(DESIGN CHOICE, log entry 59: R384 and R192 meet there). -/
def execCvld (c : Ctl) (d : VReg) (two : Bool) (s : State) : Out :=
  illFirst c (cvldIll s) s <| match s.issue? with
  | none => .refused .noIssue
  | some i =>
    match startWord c [] [.v d.val] false i s with
    | .go i1 _ =>
      if cvldHeld i1 s two then .next (holdCvld s i1 two)
      else exWord c [] [.v d.val] false s (cvldBody c d two)
    | _ => exWord c [] [.v d.val] false s (cvldBody c d two)
/-- R194. -/
def execCvleave (c : Ctl) (s : State) : Out :=
  exVec c [] [] s (fun i s => if i.act.isEmpty then s else convoyLeave s i.bid)

/-! ## Paced steps (R195, R196, R344 to R349) -/

/-- The scope of a block's publication: the die, or the device when a neighbour lies on another die (R195). -/
def paceScope (s : State) (b : Block) : Scope :=
  let die (x : Nat) : Nat := Config.dieOf x
  let far (idx : Nat) : Bool := match s.blockOf b.launch idx with
    | some (_, d) => die d.core != die b.core
    | none => false
  if (upstream s b ++ downstream s b).any far then .dev else .die
/-- Whether the neighbours let a published step go on (R195, R346). -/
def paceMet (s : State) (b : Block) : Bool :=
  let t := b.step.toNat
  (upstream s b).all (fun u => match stepOf s b.launch u with | some n => decide (t ≤ n) | none => true)
    && (downstream s b).all (fun d => match stepOf s b.launch d with
      | some n => decide (t ≤ n + b.hdr.pskew)
      | none => true)
/-- Publishes the step when every live thread waits at `stepn` and their accesses have performed, then releases them
when the neighbours allow (R195), in the waves that one event gives the fronds of a core (DESIGN CHOICE, log entry 59: R400 does not name
`stepn`). -/
def stepnCheck (s : State) (bid : Nat) : State :=
  match s.block bid with
  | none => s
  | some b =>
    let all := !b.live.isEmpty && b.live.all (fun e => match e.2.status with
      | .waiting w => w.wave.isNone && decide (w.kind = .stepn)
      | _ => false)
    let ready := releaseReady s b.core bid b.threads.keys (paceScope s b) s.seq
    let s1 := if all && !b.published && ready then
        (publishStas s bid b.threads.keys [atHome]).updBlock bid (fun b => { b with published := true, step := b.step + 1 }) else s
    match s1.block bid with
    | none => s1
    | some b1 =>
      if b1.published && paceMet s1 b1 then
        releaseWhere (s1.updBlock bid (fun b => { b with published := false })) bid (fun w => decide (w.kind = .stepn))
      else s1
/-- The lanes of a `stepn` that raise ILLOP: with code 3 in a block that is not paced, with code 4 at the last step (R345). -/
def stepnIll (i : Issue) : List (Nat × Nat) :=
  if !i.blk.paced then i.act.map (fun t => (t, 3))
  else if i.blk.step = 0xFFFFFFFF#32 then i.act.map (fun t => (t, 4)) else []
/-- R195, R345. -/
def execStepn (c : Ctl) (s : State) : Out :=
  illFirst c stepnIll s <| exWord c [] [] false s (fun i s =>
    if i.act.isEmpty then plain (some s)
    else if !(stepnIll i).isEmpty then plain (some (i.illop s (stepnIll i)))
    else if i.held s i.act .acqrel (paceScope s i.blk) then none
    else plain (some (stepnCheck (i.startWait s i.act (fun _ => i.waitRec .stepn 0 (paceScope s i.blk))) i.bid)))

/-- What a lane of `ldnb` meets (R196). Whether the lines of the other block's scratchpad are present is not looked at (DESIGN CHOICE, log
entry 59: the table of R196 has no row for an absent line). -/
def ldnbEnd (s : State) (i : Issue) (u t o : Nat) : Cause ⊕ (Word × Bool) :=
  let b := i.blk
  if o % 4 ≠ 0 then .inl (misal (d64 o))
  else if b.hdr.pslot < o + 4 then .inl (scrov o)
  else
    match s.goneIn b.launch u, s.blockOf b.launch u with
    | false, some (_, x) =>
      let n := x.step.toNat
      if n < t + 1 || t + b.hdr.pskew + 1 < n then .inl { bit := 7, addr := 0, info := d64 n }
      else
        let at_ := t % (b.hdr.pskew + 1) * b.hdr.pslot + o
        .inr (BitVec.ofNat 32 (x.scrNum at_ 4), x.rangeBad at_ 4)
    | _, _ => .inl { bit := 7, addr := 0, info := 0xFFFFFFFF }
/-- The lanes of a `ldnb` that names no upstream block, or of a block that is not paced, which raise ILLOP with code 3. -/
def ldnbIll (s : State) (u : BitVec 8) (i : Issue) : List (Nat × Nat) :=
  let own := (i.blk.coh[0]?).map (·.idx)
  if !i.blk.paced || own == some u.toNat || ((coh0Members s i.blk)[u.toNat]?).isNone then i.act.map (fun t => (t, 3)) else []
/-- R196: the check and the read are one step, which acquires what the upstream block has published (R272). A poisoned step kills the
block as a poisoned offset does (DESIGN CHOICE, log entry 59: R387 does not name a step operand). -/
def execLdnb (c : Ctl) (d : VReg) (o t : Opnd) (u : BitVec 8) (s : State) : Out :=
  let rd := opndRegs o false ++ opndRegs t false
  illFirst c (ldnbIll s u) s <| exWord c rd [.v d.val] false s (fun i s =>
    if i.act.isEmpty then plain (some s)
    else if !(ldnbIll s u i).isEmpty then plain (some (i.illop s (ldnbIll s u i)))
    else if i.badUse i.act rd then i.poisoned s i.word
    else if i.held s i.act .rlx .none then none
    else
      let idx := (coh0Members s i.blk).getD u.toNat 0
      let r (l : Nat) : Cause ⊕ (Word × Bool) := ldnbEnd s i idx (i.o32 l t).toNat (i.o32 l o).toNat
      let s1 := acquireBy s i.core i.bid i.act (paceScope s i.blk)
      let s2 := i.lanes s1 (fun l x => match r l with
        | .inr (v, bad) => x.putV d.val v bad
        | .inl _ => x)
      plain (some (i.raiseEach s2 (i.act.filterMap (fun l => match r l with
        | .inl k => some (l, k)
        | .inr _ => none)))))

end Sys2Proof.Machine
end

