-- ==== Sys2Proof/Machine/Engine.lean ====
section
/-! DEFINITION. The engine words up to their acceptance (R40, R197 to R235): parameter blocks and their checks, range
locks, named rows, cleared presence bits, matrix-array ownership. What an accepted operation then does is an event. -/

namespace Sys2Proof.Machine

/-! ## Acceptance (R198, R199) -/

/-- ENGFLT with a code and the opcode (R199). -/
def engflt (parm : Dword) (opc code : Nat) : Cause := { bit := 19, addr := parm, info := d64 (256 * opc + code) }
/-- A plan that names and locks nothing. -/
def Plan.of (k : OpKind) (ws : List Word) : Plan :=
  { kind := k, words := ws, rows := (0, 0), ranges := [], lines := [], init := [], owned := false }
/-- The answer of the acceptance checks. -/
inductive Verdict where
  | fault (code : Nat) | go (p : Plan)
  deriving DecidableEq, Repr
/-- The verdict of checks taken in the order of their codes. -/
def judge (checks : List (Bool × Nat)) (p : Plan) : Verdict :=
  match checks.find? (·.1) with
  | some c => .fault c.2
  | none => .go p

/-- The entries of the engine queue: operations of blocks that have not begun (R40). -/
def Core.entries (k : Core) : Nat := (k.queue.filter (fun o => !o.begun && o.bid != 0)).length
/-- Whether the core can take an operation now: an entry, room in the range-lock table, ownership (R40, R207). -/
def Core.takesOp (k : Core) (bid : Nat) (p : Plan) : Bool :=
  decide (k.entries < Config.queueDepth) && decide (k.locks.length + p.ranges.length ≤ Config.lockEntries)
    && (!p.owned || k.owner == some bid)
/-- Whether a word's operation can be accepted now: the core can take it, and none of the status fields that it initialises lies in the
running step's slot while writes there are held (R347). -/
def Issue.takes (i : Issue) (s : State) (p : Plan) : Bool :=
  (s.core i.core).takesOp i.bid p && !(slotHeld s i.blk && p.init.any (fun w => inSlot i.blk w.1 w.2.length))
/-- The operations of the matrix stream (R200). -/
def OpKind.matrix : OpKind → Bool
  | .mxload _ | .mxevict _ | .mxres | .mma | .mmal | .mxgrad | .mxzero _ _ => true
  | _ => false
/-- The operation that an accepted word starts. -/
def Issue.opOf (i : Issue) (s : State) (c : Ctl) (e : ECtl) (opc : Nat) (parm : Dword) (p : Plan) : Op :=
  { id := s.seq, kind := p.kind, opc := opc, bid := i.bid, tid := i.low, tids := i.run.tids, slot := i.slot,
    tok := ctlToken c, ctl := e, parm := parm, words := p.words, seq := s.seq, rows := p.rows, lines := p.lines,
    next := 0, stage := 0, keep := 0, inbox := [], begun := false, done := false, cause := none, waits := none, denied := [],
    link := none, frozen := false,
    stale := i.blk.stas.filter (fun x => !x.before i.slot i.run.tids e.rel p.kind.matrix) }
/-- Step 5 and 6 of R198. -/
def Issue.accept (i : Issue) (s : State) (c : Ctl) (e : ECtl) (opc : Nat) (parm : Dword) (p : Plan) : State :=
  let o := i.opOf s c e opc parm p
  let locks := p.ranges.map (fun r => { op := o.id, ctx := i.blk.ctx, lo := r.1, hi := r.2.1, dest := r.2.2 })
  let s1 := { s with seq := s.seq + 1 }.updCore i.core (fun k => { k with queue := k.queue ++ [o], locks := k.locks ++ locks })
  let s2 := s1.updBlock i.bid (fun b =>
    let b1 := p.init.foldl (fun b w => b.scrWrite w.1 w.2 false) b
    { b1 with absent := p.lines.foldl addNat b1.absent,
              stas := if p.kind.matrix then b1.stas.map (fun x => { x with stream := x.before i.slot i.run.tids e.rel true }) else b1.stas })
  countUp s2 c i.bid i.run.tids
/-- BE = 1 names a barrier in all-thread mode (R199). -/
def barAll (i : Issue) (e : ECtl) : Bool := e.be && (i.blk.bar e.bar.toNat).c == 0
/-- The operations of the hub (R200). -/
def OpKind.hub : OpKind → Bool
  | .npost _ _ => true | .ltrig => true | .coll => true | .cstat _ => true
  | _ => false
/-- Whether an operation may reach the hub: those before it in the engine queue have reached it (R200). -/
def hubTurn (k : Core) (id : Nat) : Bool := (k.queue.takeWhile (fun o => o.id != id)).all (fun o => !o.kind.hub || o.begun)
/-- Whether a word of an audit copy is refused: task and collective words (R389). -/
def auditStops (s : State) (i : Issue) (opc : Nat) : Bool := decide (0x20 ≤ opc) && (auditOf s i.blk).isSome
/-- The elected thread raises a cause: it alone leaves the issue set (R40). -/
def Issue.elected (i : Issue) (s : State) (k : Cause) : State := i.raiseEach s [(i.low, k)]
/-- How the engine slice has taken an E word (R198): it ends at once in a state, it waits for its parameter block, or what it
would start, with the block's offset or address. -/
inductive Taken where
  | ends (s : State) | waits (s : State) | starts (s : State) (parm : Dword) (p : Plan)
  deriving DecidableEq, Repr
/-- Steps 2 and 3 of R198 end: a failed check raises ENGFLT in the elected thread. -/
def Issue.take (i : Issue) (s : State) (opc : Nat) (parm : Dword) : Verdict → Taken
  | .fault k => .ends (i.elected s (engflt parm opc k))
  | .go p => .starts s parm p
/-- Step 4 of R198: the issue set parks, with what the word has captured. -/
def Issue.hold (i : Issue) (s : State) (parm : Dword) (p : Plan) : State :=
  (s.updThreads i.bid i.run.tids (fun _ t => { t with status := .parked .issue })).updFrond i.bid i.slot
    (fun f => { f with ehold := some { parm := parm, plan := p } })
/-- An E word that starts an operation (R198): `take` makes steps 2 and 3, after the scratchpad writes of the issue set's threads, those
of releases that have still to perform among them; a word that was held goes on at step 4. -/
def eWord (c : Ctl) (e : ECtl) (opc : Nat) (rd : List Reg) (take : Issue → State → Taken) (s : State) : Out :=
  let go : Out := exWord c rd [] true s (fun i s =>
    if i.act.isEmpty then plain (some s)
    else if !(relsOf s i.bid i.run.tids).isEmpty then none
    else
      match take i s with
      | .ends s1 => plain (some s1)
      | .waits _ => none
      | .starts s1 parm p => plain (some (i.accept s1 c e opc parm p)))
  match s.issue? with
  | none => .refused .noIssue
  | some i =>
    match i.fr.ehold with
    | some h =>
      if i.takes s h.plan then
        .next (endWord c i.bid i.slot noTarget ({ i with act := i.run.tids.take 1 }.accept s c e opc h.parm h.plan))
      else .next s
    | none =>
      match startWord c rd [] true i s with
      | .go i1 s1 =>
        if i1.act.isEmpty || !(relsOf s i.bid i.run.tids).isEmpty then go
        else
          match take i1 s1 with
          | .ends _ => go
          | .waits s2 => .next s2
          | .starts s2 parm p => if i.takes s p then go else .next (i1.hold s2 parm p)
      | _ => go

/-- The 32-bit words of a scratchpad range. -/
def Block.scrWords (b : Block) (o n : Nat) : List Word := (List.range (n / 4)).map (fun k => BitVec.ofNat 32 (b.scrNum (o + 4 * k) 4))
/-- Whether a parameter field is poisoned: word `k` counts when `used` says so (R387). -/
def Block.parmBad (b : Block) (o n : Nat) (used : Nat → Bool) : Bool :=
  (List.range (n / 4)).any (fun k => used k && b.scrBad.contains ((o + 4 * k) / 4))
/-- The bytes from an offset are not aligned to 64, or not inside the allocation (code 1). -/
def Block.badArea (b : Block) (o n : Nat) : Bool := o % 64 != 0 || decide (b.alloc < o + n)

/-- An E word whose S register holds the offset of `n` scratchpad bytes, of which it reads `n` as parameters when
`reads` is set (R198). -/
def scrWord (c : Ctl) (e : ECtl) (opc : Nat) (r : SReg) (n : Nat) (reads : Bool) (used : List Word → Nat → Bool)
    (verdict : Issue → Nat → List Word → Verdict) (s : State) : Out :=
  eWord c e opc [.s r.val] (fun i s =>
    let off := (lo32 (i.s r.val)).toNat
    let parm := d64 off
    if i.sBad [r.val] then .ends (killPoison s i.bid i.slot parm)
    else if auditStops s i opc then .ends (i.elected s (accv parm 9))
    else if i.blk.badArea off n then .ends (i.elected s (engflt parm opc 1))
    else if !reads then i.take s opc parm (verdict i off [])
    else
      match i.blk.absentIn ((List.range n).map (· + off)) with
      | some line => .ends (i.parkLine s i.run.tids (fun _ => line) (fun _ => off))
      | none =>
        let ws := i.blk.scrWords off n
        if i.blk.parmBad off n (used ws) then .ends (killPoison s i.bid i.slot parm)
        else i.take s opc parm (verdict i off ws)) s
/-- An E word without a parameter block. -/
def bareWord (c : Ctl) (e : ECtl) (opc : Nat) (verdict : Issue → Verdict) (s : State) : Out :=
  eWord c e opc [] (fun i s =>
    if auditStops s i opc then .ends (i.elected s (accv 0 9)) else i.take s opc 0 (verdict i)) s
/-- Every word of a parameter block is read as a parameter. -/
def allUsed (_ : List Word) (_ : Nat) : Bool := true

/-- A field of a parameter block: `len` bits of word `k` from bit `b`. -/
def pf (ws : List Word) (k b len : Nat) : Nat := ((ws[k]?).getD 0).toNat / 2 ^ b % 2 ^ len
/-- A 64-bit field. -/
def pf64 (ws : List Word) (k : Nat) : Nat := pf ws k 0 32 + 2 ^ 32 * pf ws (k + 1) 0 32
/-- Whether any of some words is nonzero. -/
def anyWord (ws : List Word) (lo n : Nat) : Bool := (List.range n).any (fun k => pf ws (lo + k) 0 32 != 0)
/-- Rows of a block's accumulator allocation (R257). -/
def Block.accRows (b : Block) : Nat := b.hdr.accum

/-! ## Ownership of the matrix array (R207, R295, R296) -/

/-- A context of the queue entry that empties the banks; it is no operation of a block. -/
def emptyingOp (id : Nat) : Op :=
  { id := id, kind := .mxevict 8, opc := 0, bid := 0, tid := 0, tids := [], slot := 0, tok := none,
    ctl := { rel := false, rs := .none, be := false, bar := 0, cs := 0 }, parm := 0, words := [], seq := id,
    rows := (0, 0), lines := [], next := 0, stage := 0, keep := 0, inbox := [], begun := false, done := false, cause := none,
    waits := none, denied := [], link := none, frozen := false, stale := [] }
/-- A block becomes owner; a change of context appends the emptying of the banks (R296). -/
def grantArray (s : State) (core bid : Nat) : State :=
  match s.block bid with
  | none => s
  | some b =>
    let other := match (s.core core).prev with
      | some c => c != b.ctx
      | none => false
    let s1 := s.updCore core (fun k =>
      { k with owner := some bid, prev := some b.ctx, takes := k.takes.filter (fun t => t.1 != bid) })
    if other then { s1 with seq := s1.seq + 1 }.updCore core (fun k => { k with queue := k.queue ++ [emptyingOp s1.seq] })
    else s1
/-- Ownership becomes free; the grant to the oldest waiting take is a step of its own. -/
def freeArray (s : State) (core : Nat) : State := s.updCore core (fun k => { k with owner := none })

/-- R207: waiting takes are granted in the order they began to wait; the issue set parks meanwhile (R25). -/
def execMxownTake (c : Ctl) (s : State) : Out :=
  match s.issue? with
  | none => .refused .noIssue
  | some i =>
    match startWord c [] [] true i s with
    | .go i1 _ =>
      let k := s.core i1.core
      let wait := !i1.act.isEmpty && k.owner != some i1.bid && (k.owner.isSome || !k.takes.isEmpty)
      if wait then
        let s1 := s.updThreads i1.bid i1.run.tids (fun _ t => { t with status := .parked .issue })
        .next (if k.takes.any (fun t => t.1 == i1.bid && t.2 == i1.slot) then s1
          else s1.updCore i1.core (fun k => { k with takes := k.takes ++ [(i1.bid, i1.slot)] }))
      else
        exWord c [] [] true s (fun i s =>
          if i.act.isEmpty || (s.core i.core).owner == some i.bid then plain (some s)
          else plain (some (grantArray s i.core i.bid)))
    | _ => exWord c [] [] true s (fun _ s => plain (some s))
/-- R207: the target becomes owner when it is resident on this core. -/
def execMxownPass (c : Ctl) (r : SReg) (s : State) : Out :=
  exWord c [.s r.val] [] true s (fun i s =>
    let idx := (lo32 (i.s r.val)).toNat
    if i.act.isEmpty then plain (some s)
    else if i.sBad [r.val] then i.poisoned s (i.s r.val)
    else if (s.core i.core).owner != some i.bid then plain (some (i.elected s (engflt 0 0x00 7)))
    else
      match s.blockOf i.blk.launch idx with
      | some (bid, b) =>
        if b.core? = some i.core then plain (some (grantArray s i.core bid)) else plain (some (freeArray s i.core))
      | none => plain (some (freeArray s i.core)))
/-- R207. -/
def execMxownRelease (c : Ctl) (s : State) : Out :=
  exWord c [] [] true s (fun i s =>
    if i.act.isEmpty || (s.core i.core).owner != some i.bid then plain (some s)
    else plain (some (freeArray s i.core)))

/-! ## Bank commands and matrix words (R210 to R219) -/

/-- R210. -/
def execMxload (c : Ctl) (e : ECtl) (r : SReg) (bank : BitVec 3) (s : State) : Out :=
  scrWord c e 0x01 r 64 false allUsed (fun i _ _ =>
    judge [(barAll i e, 6)] { Plan.of (.mxload bank.toNat) [] with owned := true }) s
/-- R211. -/
def execMxevict (c : Ctl) (e : ECtl) (bank : BitVec 3) (s : State) : Out :=
  bareWord c e 0x02 (fun i => judge [(barAll i e, 6)] { Plan.of (.mxevict bank.toNat) [] with owned := true }) s
/-- R212. -/
def execMxres (c : Ctl) (e : ECtl) (r : SReg) (s : State) : Out :=
  scrWord c e 0x03 r 128 false allUsed (fun i _ _ => judge [(barAll i e, 6)] (Plan.of .mxres [])) s

/-- The parameter words of `mma`: not the status words, nor the tile ids beyond the window (R213). -/
def mmaUsed (ws : List Word) (k : Nat) : Bool :=
  k != 4 && k != 5 && !(decide (8 + 2 ^ pf ws 3 4 2 ≤ k) && decide (k < 16))
/-- The checks of R213, with those of `mmal` (R215). -/
def mmaVerdict (kind : OpKind) (lut : Bool) (e : ECtl) (i : Issue) (off : Nat) (ws : List Word) : Verdict :=
  let cat := pf ws 0 0 32
  let m := pf ws 1 0 11
  let start := pf ws 1 16 11
  let acc := pf ws 2 0 32
  judge
    [ (i.blk.badArea cat 64, 1),
      (pf ws 1 11 5 != 0 || pf ws 1 27 5 != 0 || pf ws 3 7 25 != 0 || anyWord ws 6 2 || anyWord ws 16 16, 2),
      (m == 0 || decide (1024 < m) || decide (m < start) || (lut && pf ws 3 0 1 == 1), 3),
      (decide (i.blk.accRows < acc + m), 4),
      (barAll i e, 6) ]
    { Plan.of kind ws with rows := (acc + start, m - start), init := [(off + 16, leBytes 8 0)], owned := true }
/-- R213, R214. -/
def execMma (c : Ctl) (e : ECtl) (r : SReg) (s : State) : Out :=
  scrWord c e 0x04 r 128 true mmaUsed (mmaVerdict .mma false e) s
/-- R213, R215. -/
def execMmal (c : Ctl) (e : ECtl) (r : SReg) (s : State) : Out :=
  scrWord c e 0x05 r 128 true mmaUsed (mmaVerdict .mmal true e) s

/-- The size of a canonical weight tile of a class (R300). -/
def cwtSize (cls : Nat) : Nat := if cls = 0 then 8256 else if cls = 1 then 16448 else 64 + 1024 * (cls - 1)
/-- The parameter words of `mxgrad`. -/
def gradUsed (_ : List Word) (k : Nat) : Bool := k != 4 && k != 5
/-- The checks of R217. -/
def gradVerdict (e : ECtl) (i : Issue) (off : Nat) (ws : List Word) : Verdict :=
  let cat := pf ws 0 0 32
  let m := pf ws 1 0 11
  let start := pf ws 1 16 11
  let acc := pf ws 2 0 32
  let n := 128 * 2 ^ pf ws 3 4 2
  let pitch := pf ws 17 0 32
  judge
    [ (i.blk.badArea cat 64, 1),
      (pf ws 1 11 5 != 0 || pf ws 1 27 5 != 0 || pf ws 3 7 25 != 0 || anyWord ws 6 10 || anyWord ws 18 14, 2),
      (m == 0 || decide (1024 < m) || decide (m < start) || start % 128 != 0 || pf ws 16 0 32 % 64 != 0
        || pitch % 64 != 0 || decide (pitch < cwtSize (pf ws 3 0 1)), 3),
      (decide (i.blk.accRows < acc + n), 4),
      (barAll i e, 6) ]
    { Plan.of .mxgrad ws with rows := (acc, n), init := [(off + 16, leBytes 8 0)], owned := true }
/-- R217. -/
def execMxgrad (c : Ctl) (e : ECtl) (r : SReg) (s : State) : Out :=
  scrWord c e 0x06 r 128 true gradUsed (gradVerdict e) s
/-- R219. -/
def execMxzero (c : Ctl) (e : ECtl) (first cnt : BitVec 12) (s : State) : Out :=
  bareWord c e 0x07 (fun i =>
    let n := cnt.toNat + 1
    judge [(decide (i.blk.accRows < first.toNat + n), 4), (barAll i e, 6)]
      { Plan.of (.mxzero first.toNat n) [] with rows := (first.toNat, n) }) s

/-! ## Copies (R220 to R226) -/

/-- Bytes of a source or destination format code: 0 raw, 1 FP32, 2 FP16, 3 BF16, 4 E4M3, 5 E5M2, 6 codes. -/
def fmtBytes (f : Nat) : Nat := if f = 1 then 4 else if f = 2 || f = 3 then 2 else 1
/-- The rows of slice `k` (R222). -/
def sliceRows (ws : List Word) (k : Nat) : Nat × Nat :=
  let rows := pf ws 4 0 16
  let n := pf ws 3 16 6 + 1
  (k * rows / n, (k + 1) * rows / n)
/-- The bytes that a destination of the copy covers. -/
def cpyExtent (ws : List Word) : Nat :=
  let rows := pf ws 4 0 16
  match pf ws 3 8 8 with
  | 0 => (rows - 1) * pf ws 6 0 32 + pf ws 4 16 16
  | 1 => 0x40 + rows * 128 + 5 * rows
  | 2 => 0x40 + rows * 256 + 5 * rows
  | 3 => 2 * 8256
  | 4 => 2 * 16448
  | _ => cwtSize (pf ws 8 4 4)
/-- The scratchpad ranges that a slice writes: (offset, bytes) (R222). -/
def sliceDest (ws : List Word) (k : Nat) : List (Nat × Nat) :=
  let rows := pf ws 4 0 16
  let doff := pf ws 5 0 32
  let (lo, hi) := sliceRows ws k
  let each := (List.range (hi - lo)).map (· + lo)
  let cat (pitch : Nat) : List (Nat × Nat) :=
    (if k = 0 then [(doff, 64)] else []) ++ (if lo = hi then [] else
      [(doff + 0x40 + lo * pitch, (hi - lo) * pitch), (doff + 0x40 + rows * pitch + 4 * lo, 4 * (hi - lo)),
       (doff + 0x40 + rows * pitch + 4 * rows + lo, hi - lo)])
  match pf ws 3 8 8 with
  | 0 => each.map (fun r => (doff + r * pf ws 6 0 32, pf ws 4 16 16))
  | 1 => cat 128
  | 2 => cat 256
  | _ => [(doff, cpyExtent ws)]
/-- The source bytes of rows lo .. hi − 1. -/
def rowSpan (base pitch len lo hi : Nat) : List (Nat × Nat × Bool) → List (Nat × Nat × Bool) :=
  fun l => if lo < hi then (base + lo * pitch, base + (hi - 1) * pitch + len, false) :: l else l
/-- The checks of R220 and R221. -/
def cpyVerdict (e : ECtl) (slice : BitVec 6) (i : Issue) (_ : Nat) (ws : List Word) : Verdict :=
  let k := slice.toNat
  let sfmt := pf ws 3 0 8
  let dk := pf ws 3 8 8
  let sn := pf ws 3 16 6
  let rows := pf ws 4 0 16
  let slen := pf ws 4 16 16
  let doff := pf ws 5 0 32
  let dpitch := pf ws 6 0 32
  let ccls := pf ws 8 4 4
  let cwt := decide (3 ≤ dk)
  let combo :=
    if dk = 0 then sfmt == 0 && decide (1 ≤ rows) && decide (1 ≤ slen) && decide (slen ≤ dpitch)
    else if dk ≤ 2 then
      decide (1 ≤ sfmt) && decide (sfmt ≤ 5) && decide (1 ≤ rows) && decide (rows ≤ 1024) && decide (1 ≤ slen)
        && decide (slen ≤ 128) && doff % 64 == 0
    else if dk ≤ 4 then
      decide (1 ≤ sfmt) && decide (sfmt ≤ 5) && decide (1 ≤ rows) && decide (rows ≤ 128) && decide (1 ≤ slen)
        && decide (slen ≤ 128) && sn == 0 && doff % 64 == 0
    else
      dk == 5 && sfmt == 6 && rows == 128 && decide (2 ≤ ccls) && decide (ccls ≤ 5) && slen == 8 * (ccls - 1)
        && sn == 0 && doff % 64 == 0
  let es := fmtBytes sfmt
  let span := sliceRows ws k
  judge
    [ (pf ws 3 22 10 != 0 || (dk != 0 && dpitch != 0) || (!cwt && pf ws 7 0 32 != 0)
        || (dk != 5 && (pf ws 8 0 8 != 0 || pf ws 9 0 32 != 0)) || pf ws 8 8 24 != 0 || anyWord ws 10 6
        || decide (sn < k), 2),
      (!combo || pf64 ws 0 % es != 0 || pf ws 2 0 32 % es != 0, 3),
      (decide (i.blk.alloc < doff + cpyExtent ws), 5),
      (barAll i e, 6) ]
    { Plan.of (.cpy k) ws with
      ranges := rowSpan (pf64 ws 0) (pf ws 2 0 32) (slen * es) span.1 span.2 [],
      lines := ((sliceDest ws k).map (fun d => linesOf d.1 d.2)).flatten }
/-- R220. -/
def execCpy (c : Ctl) (e : ECtl) (r : SReg) (slice : BitVec 6) (s : State) : Out :=
  scrWord c e 0x10 r 64 true allUsed (cpyVerdict e slice) s

/-- The checks of R225. Rows of no element write nothing, and lock nothing (R206). -/
def cpyoVerdict (e : ECtl) (i : Issue) (_ : Nat) (ws : List Word) : Verdict :=
  let sk := pf ws 3 0 8
  let df := pf ws 3 8 8
  let rows := pf ws 4 0 16
  let slen := pf ws 4 16 16
  let soff := pf ws 5 0 32
  let sp := pf ws 6 0 32
  let dpitch := pf ws 2 0 32
  let es := fmtBytes df
  let combo := (sk == 0 && df == 0) || ((sk == 1 || sk == 2) && decide (1 ≤ df) && decide (df ≤ 5))
  let srcEnd := soff + (rows - 1) * sp + (if sk = 1 then 4 * slen else slen)
  judge
    [ (pf ws 3 19 13 != 0 || (sk == 2 && sp != 0) || anyWord ws 7 9, 2),
      (!combo || rows == 0 || (sk == 2 && (slen == 0 || decide (64 < slen)))
        || (sk == 1 && (soff % 4 != 0 || sp % 4 != 0)) || pf64 ws 0 % es != 0 || dpitch % es != 0, 3),
      (sk == 2 && decide (i.blk.accRows < soff + rows), 4),
      (sk != 2 && decide (i.blk.alloc < srcEnd), 5),
      (barAll i e, 6) ]
    { Plan.of .cpyo ws with
      ranges := if slen = 0 then [] else [(pf64 ws 0, pf64 ws 0 + (rows - 1) * dpitch + slen * es, true)] }
/-- R225. -/
def execCpyo (c : Ctl) (e : ECtl) (r : SReg) (s : State) : Out :=
  scrWord c e 0x11 r 64 true allUsed (cpyoVerdict e) s

/-! ## Bins (R227) -/

/-- The parameter words of `binsc`: not its two counts. -/
def binUsed (_ : List Word) (k : Nat) : Bool := k != 20 && k != 21
/-- The checks of R227. -/
def binVerdict (e : ECtl) (i : Issue) (off : Nat) (ws : List Word) : Verdict :=
  let soff := pf ws 0 0 32
  let rb := pf ws 1 0 16
  let nt := pf ws 1 16 16
  let eoff := pf ws 2 0 32
  let ne := pf ws 3 0 16
  let bp := pf ws 10 0 32
  let elim := pf ws 12 0 32
  judge
    [ (pf ws 3 24 8 != 0 || pf ws 19 0 32 != 0 || anyWord ws 22 10, 2),
      (soff % 64 != 0 || rb % 64 != 0 || rb == 0 || decide (4096 < rb) || nt == 0 || decide (1024 < nt)
        || eoff % 2 != 0 || ne == 0 || pf64 ws 4 % 16 != 0 || pf64 ws 6 % 4 != 0 || pf64 ws 8 % 64 != 0
        || bp % 64 != 0 || decide (bp < elim * rb) || elim == 0xFFFFFFFF || pf64 ws 14 % 8 != 0
        || pf64 ws 16 % 4 != 0, 3),
      (decide (i.blk.alloc < soff + nt * rb) || decide (i.blk.alloc < eoff + 2 * nt), 5),
      (barAll i e, 6) ]
    { Plan.of .binsc ws with
      ranges := [(pf64 ws 8, pf64 ws 8 + ne * bp, true), (pf64 ws 14, pf64 ws 14 + 8 + 8 * pf ws 13 0 32, true)],
      init := [(off + 0x50, leBytes 8 0)] }
/-- R227. -/
def execBinsc (c : Ctl) (e : ECtl) (r : SReg) (s : State) : Out :=
  scrWord c e 0x12 r 128 true binUsed (binVerdict e) s

/-! ## Task words (R230 to R232) -/

/-- R230: the records are read when the hub writes them. -/
def execNpost (c : Ctl) (e : ECtl) (r : SReg) (node : BitVec 12) (n : BitVec 6) (s : State) : Out :=
  scrWord c e 0x20 r (64 * (n.toNat + 1)) false allUsed (fun i _ _ =>
    judge [(barAll i e, 6)] (Plan.of (.npost node.toNat (n.toNat + 1)) [])) s
/-- R231. -/
def execLtrig (c : Ctl) (e : ECtl) (s : State) : Out :=
  bareWord c e 0x21 (fun i => judge [(barAll i e, 6)] (Plan.of .ltrig [])) s
/-- R232: every thread of the issue set waits until the word at its home slice is 0. -/
def execLwait (c : Ctl) (r : SReg) (s : State) : Out :=
  exWord c [.s r.val] [] true s (fun i s =>
    let va := i.s r.val
    if i.act.isEmpty then plain (some s)
    else if i.sBad [r.val] then i.poisoned s va
    else if auditStops s i 0x22 then plain (some (i.elected s (accv va 9)))
    else if i.held s i.run.tids .rlx .none then none
    else i.walked s [i.low] (fun _ => va) 4 .load (fun s =>
      match globalFate s i va 4 4 .load with
      | .drop => plain (some s)
      | .park => plain (some (i.parkPage s i.run.tids (fun _ => va) 0 true))
      | .trap k => plain (some (i.elected s k))
      | .go tgt _ =>
        let s1 := armMon s i.bid i.low va tgt
        let w := i.waitRec (.lwait va tgt) 0 .dev
        plain (sendEval (i.startWait s1 i.run.tids (fun _ => { w with poll := pollOf s1 i.bid i.low })) i.core i.bid i.low va tgt)))

/-! ## Collective words (R233, R235) -/

/-- DSTATE of a domain as this device holds it (R235). -/
def domState (s : State) (dom : Nat) : Nat :=
  if s.fab.domctl.getLsbD 63 && (s.fab.domctl.extractLsb' 0 16).toNat == dom then s.fab.dstate else 0
/-- Bytes of an element of a collective. -/
def collBytes (ty : Nat) : Nat := if ty = 1 then 2 else 4
/-- The elements of SRC and DST (R233). -/
def collCounts (op count d : Nat) : Nat × Nat :=
  if op = 1 then (count * d, count) else if op = 2 then (count, count * d) else (count, count)
/-- The checks of R233, in the order it gives. -/
def collVerdict (s : State) (e : ECtl) (i : Issue) (ws : List Word) : Verdict :=
  let op := pf ws 0 0 4
  let ty := pf ws 0 4 4
  let red := pf ws 0 8 4
  let count := pf64 ws 2
  let src := pf64 ws 4
  let dst := pf64 ws 6
  let es := collBytes ty
  let chunk := pf ws 8 0 32
  let d := s.fab.devs.length
  let n := collCounts op count d
  let srcEnd := src + n.1 * es
  let dstEnd := dst + n.2 * es
  judge
    [ (pf ws 0 12 4 != 0 || pf ws 0 26 6 != 0 || pf ws 1 28 4 != 0 || pf ws 9 0 32 != 0 || anyWord ws 14 2
        || ((op == 2 || op == 3) && red != 0) || (op != 3 && pf ws 0 16 10 != 0), 2),
      (decide (3 < op) || decide (2 < ty) || decide (2 < red) || count == 0 || src % es != 0 || dst % es != 0
        || chunk % 64 != 0 || chunk == 0 || decide (16777216 < chunk) || pf64 ws 10 % 8 != 0 || pf64 ws 12 % 8 != 0, 3),
      (domState s (pf ws 1 0 16) == 0, 10),
      (decide (src < dstEnd) && decide (dst < srcEnd), 8),
      (barAll i e, 6) ]
    { Plan.of .coll ws with ranges := [(src, srcEnd, false), (dst, dstEnd, true)] }
/-- The 16 words of a parameter block's bytes. -/
def wordsOf (bytes : List Byte) : List Word :=
  (List.range 16).map (fun k => BitVec.ofNat 32 (leNat ((bytes.drop (4 * k)).take 4)))
/-- Asks for the parameter block of a `coll`: at the L1, or by a read of its line (R156, R198). None while the tracker is full. -/
def askBlock (s : State) (i : Issue) (va : Dword) (tgt : Nat) (nc : Bool) : Option State :=
  let j : Join := { bid := i.bid, tid := i.low, tids := [i.low], va := va, dst := .block i.slot, sz := .b32, off := 0, tok := 0,
                    acq := .none, seq := s.seq }
  let r : Req := { seq := s.seq, time := s.gtime, va := va, line := tgt / 64, bid := i.bid, tid := i.low, tids := [i.low], tok := none,
                   acq := .none, rel := .none, who := .thread, kind := .read }
  let s1 := { s with seq := s.seq + 1 }.updFrond i.bid i.slot (fun f => { f with eblk := some none })
  if tgtRemote tgt then some (sendRemote s1 i.core tgt r [j])
  else if tgtControl s tgt then some (j.land s1 (controlBytes s (tgt - Config.csBase) 64) false)
  else
    match l1Hit s i.core (tgt / 64) nc .none with
    | some x => some (j.land s1 x.data x.bad)
    | none => sendRead s1 i.core (tgt / 64) nc .thread [i.low] j
/-- Steps 2 and 3 of R198 for `coll`: the checks of its parameter block's load by the elected thread, the load, the checks of the
block. -/
def collTake (e : ECtl) (r : SReg) (i : Issue) (s : State) : Taken :=
  let va := i.s r.val
  match i.fr.eblk with
  | some none => .waits s
  | some (some g) =>
    if g.data.isEmpty then .ends (i.elected s (accv va g.va.toNat))
    else if g.bad then .ends (killPoison s i.bid i.slot va)
    else i.take s 0x30 va (collVerdict s e i (wordsOf g.data))
  | none =>
    if i.sBad [r.val] then .ends (killPoison s i.bid i.slot va)
    else if auditStops s i 0x30 then .ends (i.elected s (accv va 9))
    else if va.toNat % 64 ≠ 0 then .ends (i.elected s (engflt va 0x30 1))
    else if i.held s [i.low] .rlx .none then .waits s
    else
      match walkAll s i.core i.blk.ctx [va] .read with
      | none => .waits s
      | some s =>
      match globalFate s i va 64 64 .load with
      | .drop => .ends s
      | .park => .ends (i.parkPage s i.run.tids (fun _ => va) 0 true)
      | .trap k => .ends (i.elected s k)
      | .go tgt nc => if i.behind s tgt then .waits s else .waits ((askBlock (tlbFill s i.core i.blk.ctx va.toNat) i va tgt nc).getD s)
/-- R233: the parameter block is a relaxed 64-byte load by the elected thread (R198). -/
def execColl (c : Ctl) (e : ECtl) (r : SReg) (s : State) : Out := eWord c e 0x30 [.s r.val] (collTake e r) s
/-- R235. -/
def execCstat (c : Ctl) (e : ECtl) (r : SReg) (domain : BitVec 16) (s : State) : Out :=
  scrWord c e 0x31 r 64 false allUsed (fun i _ _ => judge [(barAll i e, 6)] (Plan.of (.cstat domain.toNat) [])) s

end Sys2Proof.Machine
end

