-- ==== Sys2Proof/Machine/Matrix.lean ====
section
/-! DEFINITION. The matrix stream (R200, R210 to R219, R293 to R311): canonical tiles, banks, exact group sums and their
promotion (R99 to R106), and the steps in which the stream executes its operations. -/

namespace Sys2Proof.Machine

/-! ## Operations of a core -/

/-- Changes an operation of a core. -/
def updOp (s : State) (core id : Nat) (f : Op → Op) : State :=
  s.updCore core (fun k => { k with queue := k.queue.map (fun o => if o.id = id then f o else o) })
/-- The stream, channel or hub has taken an operation: it gives its queue entry back (R40), though it may still wait for what it reads. -/
def startOp (s : State) (core id : Nat) : State := updOp s core id (fun o => { o with begun := true })
/-- The execution of an operation has ended, with the cause that follows its completion. -/
def endOp (s : State) (core id : Nat) (cause : Option Cause) : State :=
  updOp s core id (fun o => { o with begun := true, done := true, cause := cause })
/-- Whether the release of an operation's word has performed (R157, R201). -/
def relReady (s : State) (core : Nat) (o : Op) : Bool := !o.ctl.rel || releaseReady s core o.bid o.tids o.ctl.rs o.seq
/-- Accumulator rows of a block hold what an operation has written: no operation reads what they held before (R307). -/
def settle (s : State) (core bid first n : Nat) : State :=
  (s.updBlock bid (fun b => b.settleRows first n)).updCore core (fun k =>
    { k with queue := k.queue.map (fun p =>
      if p.bid = bid then { p with stale := p.stale.filter (fun e => !e.inRows first n) } else p) })

/-- Scratchpad ranges that an operation writes: (offset, bytes). -/
def opWrites (o : Op) : List (Nat × Nat) :=
  match o.kind with
  | .mxres => [(o.parm.toNat, 128)]
  | .mma => [(o.parm.toNat + 16, 8)]
  | .mmal => [(o.parm.toNat + 16, 8)]
  | .mxgrad => [(o.parm.toNat + 16, 8)]
  | .cpy k => sliceDest o.words k
  | .binsc => [(o.parm.toNat + 0x50, 8)]
  | .cstat _ => [(o.parm.toNat, 64)]
  | _ => []
/-- Whether an operation's write to the running step's slot is held (R347). -/
def opSlotHeld (s : State) (o : Op) : Bool :=
  match s.block o.bid with
  | some b => slotHeld s b && (opWrites o).any (fun w => inSlot b w.1 w.2)
  | none => false
/-- The operation that the matrix stream starts next: its oldest, when it has not executed and its release has
performed. -/
def matrixHead (s : State) (core : Nat) : Option Op :=
  match (s.core core).queue.find? (fun o => o.kind.matrix) with
  | some o => if o.done || !relReady s core o || opSlotHeld s o then none else some o
  | none => none

/-! ## Canonical tiles (R297 to R301) -/

/-- A valid activation tile's header. -/
structure Cat where
  off   : Nat
  cls   : Nat
  rows  : Nat
  pitch : Nat
  sc    : Nat
  tag   : Nat
  deriving DecidableEq, Repr
/-- Bytes of an element of a tile class. -/
def catBytes (cls : Nat) : Nat := if cls = 0 then 1 else 2
/-- Whether two ranges (start, length) overlap. -/
def overlaps (a b : Nat × Nat) : Bool := decide (a.1 < b.1 + b.2) && decide (b.1 < a.1 + a.2)
/-- Whether some bytes of a scratchpad are all 0. -/
def Block.zeros (b : Block) (o n : Nat) : Bool := (b.scrBytes o n).all (· == 0)
/-- The fields of an activation tile's header, from the number that its bytes hold (R297). -/
def catOf (off n : Nat) : Cat :=
  { off := off, cls := n % 256, rows := n / 2 ^ 16 % 2 ^ 16, pitch := n / 2 ^ 32 % 2 ^ 32, sc := n / 2 ^ 64 % 2 ^ 32,
    tag := n / 2 ^ 96 % 2 ^ 32 }
/-- The header of an activation tile, when it is valid (R298). -/
def Block.cat (b : Block) (off : Nat) : Option Cat :=
  let h := catOf off (b.scrNum off 64)
  let rs := [(0, 64), (0x40, h.rows * h.pitch), (h.sc, 4 * h.rows), (h.tag, h.rows)]
  let disjoint := !overlaps (rs.getD 0 (0, 0)) (rs.getD 2 (0, 0)) && !overlaps (rs.getD 0 (0, 0)) (rs.getD 3 (0, 0))
    && !overlaps (rs.getD 1 (0, 0)) (rs.getD 2 (0, 0)) && !overlaps (rs.getD 1 (0, 0)) (rs.getD 3 (0, 0))
    && !overlaps (rs.getD 2 (0, 0)) (rs.getD 3 (0, 0))
  if decide (h.cls ≤ 1) && b.zeros (off + 1) 1 && b.zeros (off + 16) 48 && decide (1 ≤ h.rows) && decide (h.rows ≤ 1024)
      && h.pitch % 64 == 0 && decide (128 * catBytes h.cls ≤ h.pitch) && h.sc % 4 == 0 && disjoint
      && rs.all (fun r => decide (off + r.1 + r.2 ≤ b.alloc)) then some h
  else none
/-- Where the parts of row m lie: elements, scale, tag. -/
def Cat.row (h : Cat) (m : Nat) : Nat := h.off + 0x40 + m * h.pitch
def Cat.scale (h : Cat) (m : Nat) : Nat := h.off + h.sc + 4 * m
def Cat.tagAt (h : Cat) (m : Nat) : Nat := h.off + h.tag + m
/-- The format of a tile class. -/
def clsFmt (cls : Nat) : Fmt := if cls = 1 then bf16 else fe4m3
/-- The 128 elements of row m, as values. -/
def Block.catRow (b : Block) (h : Cat) (m : Nat) : List Val :=
  (List.range 128).map (fun k => (clsFmt h.cls).decode (b.scrNum (h.row m + catBytes h.cls * k) (catBytes h.cls)))
/-- Whether the elements or the tag of row m are poisoned (R386). -/
def Block.catBad (b : Block) (h : Cat) (m : Nat) : Bool := b.rangeBad (h.row m) (128 * catBytes h.cls) || b.rangeBad (h.tagAt m) 1
/-- Whether the elements of row m lie in an absent line. -/
def Block.catAbsent (b : Block) (h : Cat) (m : Nat) : Bool := b.rangeAbsent (h.row m) (128 * catBytes h.cls)

/-- A valid weight tile's header. -/
structure Cwt where
  off   : Nat
  cls   : Nat
  zp    : Nat
  tile  : Nat
  scale : Nat
  deriving DecidableEq, Repr
/-- The fields of a weight tile's header, from the number that its bytes hold (R299). -/
def cwtOf (off n : Nat) : Cwt :=
  { off := off, cls := n % 256, zp := n / 256 % 256, tile := n / 2 ^ 32 % 2 ^ 32, scale := n / 2 ^ 64 % 2 ^ 32 }
/-- The header of a weight tile, when it is valid (R300). -/
def Block.cwt (b : Block) (off : Nat) : Option Cwt :=
  let h := cwtOf off (b.scrNum off 64)
  if decide (h.cls ≤ 5) && decide (h.zp < 16) && (decide (2 ≤ h.cls) || h.zp == 0) && b.zeros (off + 2) 2
      && b.zeros (off + 12) 52 && decide (off + cwtSize h.cls ≤ b.alloc) then some h
  else none
/-- Element 64k + n of a weight tile: a byte, a 16-bit pattern, or a code (R300). -/
def Block.cwtElem (b : Block) (h : Cwt) (e : Nat) : Nat :=
  if h.cls = 0 then b.scrNum (h.off + 0x40 + e) 1
  else if h.cls = 1 then b.scrNum (h.off + 0x40 + 2 * e) 2
  else
    let w := h.cls - 1
    let k := e / 64
    let n := e % 64
    b.scrNum (h.off + 0x40 + 8 * w * k) (8 * w) / 2 ^ (w * n) % 2 ^ w
/-- The 8,192 elements of a weight tile. -/
def Block.cwtElems (b : Block) (h : Cwt) : List Nat := (List.range 8192).map (b.cwtElem h)

/-! ## Banks (R209 to R212, R303, R304) -/

/-- The banks of a tile of a class that is loaded into bank `n` (R210). -/
def targetBanks (n cls : Nat) : List Nat := if cls = 1 then [n, n + 1] else [n]
/-- The bank of a BF16 pair that lies beside bank `n`. -/
def partnerBank (n : Nat) : Nat := n / 2 * 2 + 1 - n % 2
/-- An eviction of bank `n` begins, with its BF16 partner's (R211). -/
def beginEvict (banks : Map Bank) (n : Nat) : Map Bank :=
  let out (m : Map Bank) (k : Nat) : Map Bank := m.modify k (fun b => { b with st := 3 })
  match banks.get? n with
  | none => banks
  | some b => if b.cls = 1 then out (out banks n) (partnerBank n) else out banks n
/-- The evictions in progress end: their banks are empty (R303). -/
def endEvict (banks : Map Bank) : Map Bank := banks.filter (fun e => e.2.st != 3)
/-- The BF16 pairs that a tile's banks overlap are evicted first (R210). -/
def evictPairs (banks : Map Bank) (n cls : Nat) : Map Bank :=
  (targetBanks n cls).foldl (fun m k => if (m.get? k).any (fun b => b.cls == 1) then beginEvict m k else m) banks
/-- A tile's banks are filling: they have its header's fields (R210, R304). -/
def beginFill (banks : Map Bank) (n : Nat) (h : Cwt) (bad : Bool) : Map Bank :=
  let b : Bank := { st := 1, cls := h.cls, zp := h.zp, pair := false, tile := BitVec.ofNat 32 h.tile,
                    scale := BitVec.ofNat 32 h.scale, elems := [], bad := bad }
  (targetBanks n h.cls).foldl (fun m k => m.put k { b with pair := k != n }) banks
/-- A tile's elements are in its banks (R210). -/
def endFill (banks : Map Bank) (n cls : Nat) (elems : List Nat) (bad : Bool) : Map Bank :=
  (targetBanks n cls).foldl (fun m k => m.modify k (fun b =>
    { b with st := 2, elems := if k = n then elems else [], bad := b.bad || bad })) banks
/-- The scale of a bank, +0.0 when it is empty. -/
def bankScale (k : Core) (n : Nat) : Word :=
  match k.banks.get? n with
  | some b => b.scale
  | none => 0
/-- The bytes of the report of `mxres` (R212). -/
def mxresBytes (s : State) (core : Nat) : List Byte :=
  ((List.range 8).map (fun n => leBytes 8 (bankReg s core n).toNat
    ++ leBytes 4 (bankScale (s.core core) n).toNat ++ leBytes 4 0)).flatten

/-- The banks of a core changed. -/
def updBanks (s : State) (core : Nat) (f : Map Bank → Map Bank) : State := s.updCore core (fun k => { k with banks := f k.banks })
/-- An operation of the matrix stream goes on with its next stage. -/
def toStage (s : State) (core id n : Nat) : State := updOp s core id (fun o => { o with begun := true, stage := n })
/-- The stages of `mxload` (R210): its header is read, and checked; the pairs that its banks overlap have been evicted; the banks
fill. -/
def loadStep (s : State) (core : Nat) (o : Op) (n : Nat) (b : Block) : State :=
  let off := o.parm.toNat
  let v := b.scrAs o s.free
  let s1 := { s with free := s.free + 1 }
  let h := cwtOf off (o.keep / 2)
  let fill (s : State) (h : Cwt) (bad : Bool) : State := toStage (updBanks s core (fun m => beginFill (endEvict m) n h bad)) core o.id 2
  if o.stage = 0 then
    if b.rangeAbsent off 64 then startOp s core o.id
    else
      match v.cwt off with
      | none => endOp s1 core o.id (some (engflt o.parm o.opc 17))
      | some h =>
        if h.cls = 1 && n % 2 = 1 then endOp s1 core o.id (some (engflt o.parm o.opc 17))
        else
          let s2 := updOp s1 core o.id (fun o => { o with keep := 2 * v.scrNum off 64 + b2n (v.rangeBad off 64) })
          if (targetBanks n h.cls).any (fun k => ((s.core core).banks.get? k).any (fun b => b.cls == 1)) then
            toStage (updBanks s2 core (fun m => evictPairs m n h.cls)) core o.id 1
          else fill s2 h (v.rangeBad off 64)
  else if o.stage = 1 then fill s h (o.keep % 2 == 1)
  else if b.rangeAbsent off (cwtSize h.cls) then s
  else
    endOp (updBanks s1 core (fun m =>
      endFill m n h.cls (v.cwtElems h) (v.rangeBad (off + 64) (cwtSize h.cls - 64)))) core o.id none
/-- R210. -/
def execMxloadExec (core : Nat) (s : State) : Out :=
  match matrixHead s core with
  | some o =>
    match o.kind, s.block o.bid with
    | .mxload n, some b => .next (loadStep s core o n b)
    | _, _ => .next s
  | none => .next s
/-- R211: the bank and its BF16 partner pass through evicting to empty. -/
def execMxevictExec (core : Nat) (s : State) : Out :=
  match matrixHead s core with
  | some o =>
    match o.kind with
    | .mxevict n =>
      if 8 ≤ n then .next s
      else if o.stage = 0 && ((s.core core).banks.get? n).isSome then
        .next (toStage (updBanks s core (fun m => beginEvict m n)) core o.id 1)
      else .next (endOp (updBanks s core endEvict) core o.id none)
    | _ => .next s
  | none => .next s
/-- R296: every bank passes through evicting to empty. -/
def execBankEmptying (core : Nat) (s : State) : Out :=
  match matrixHead s core with
  | some o =>
    match o.kind with
    | .mxevict n =>
      if n < 8 then .next s
      else if o.stage = 0 && !(s.core core).banks.isEmpty then
        .next (toStage (updBanks s core (fun m => m.mapVal (fun _ b => { b with st := 3 }))) core o.id 1)
      else .next (s.updCore core (fun k => { k with banks := [], queue := k.queue.filter (fun p => p.id != o.id) }))
    | _ => .next s
  | none => .next s
/-- R212. -/
def execMxresExec (core : Nat) (s : State) : Out :=
  match matrixHead s core with
  | some o =>
    match o.kind with
    | .mxres =>
      .next (endOp (s.updBlock o.bid (fun b => b.scrWrite o.parm.toNat (mxresBytes s core) false)) core o.id none)
    | _ => .next s
  | none => .next s

/-! ## Exact sums and promotion (R101, R102) -/

/-- EXACT_SUM of products. -/
def exactSum (ps : List (Val × Val)) : Val := (sumVals .rne (ps.map (fun p => (mulVal p.1 p.2).1))).1
/-- The accumulator's new bits after one group (R102). -/
def promote (acc : Nat) (p : Val) (sa sw : Nat) : Nat := add32 acc (mul32 (rne32 p) (mul32 sa sw))
/-- A weight as a value: an element of class 0 or 1, or the integer code − ZP (R215). -/
def Bank.weight (b : Bank) (e : Nat) : Val :=
  let x := b.elems.getD e 0
  if b.cls ≤ 1 then (clsFmt b.cls).decode x
  else
    let d : Int := (x : Int) - b.zp
    .fin (decide (d < 0)) d.natAbs 0

/-- How a row or group of an operation ends: it waits for a line, it is left as it is, the accumulator rows (first, count) that it
has written, the row, code and status of a stop. -/
inductive RowEnd where
  | waits | skip | wrote (b : Block) (rows : List (Nat × Nat)) | stop (row code status : Nat)
  deriving DecidableEq, Repr
/-- One accumulator row receives a group for each output: `v` is the block as the operation reads it. -/
def promoteRow (v : Block) (row : Nat) (zero : Bool) (bad : Bool) (group : Nat → Val) (sa sw : Nat) (b : Block) : Block :=
  (List.range 64).foldl (fun b n =>
    let old := if zero then 0 else (v.accAt row n).toNat
    b.accPut row n (BitVec.ofNat 32 (promote old (group n) sa sw)) (bad || (!zero && v.accIsBad row n))) b

/-! ## mma and mmal (R214, R215) -/

/-- The bank that a row's tag selects, when it is a hit (R302). -/
def tagBank (banks : Map Bank) (lut : Bool) (cls : Nat) (ws : List Word) (tag : Nat) : Option Bank :=
  let i := tag % 8
  let n := (pf ws 3 1 3 + i) % 8
  if tag / 8 % 16 ≠ 0 || 2 ^ pf ws 3 4 2 ≤ i then none
  else
    match banks.get? n with
    | none => none
    | some b =>
      let class_ := if lut then decide (2 ≤ b.cls) else b.cls == cls
      if b.st == 2 && b.tile.toNat == pf ws (8 + i) 0 32 && class_ && !(cls == 1 && n % 2 == 1) && !b.pair then some b
      else none
/-- Row m of `mma` or `mmal` (R302, R305): `v` is the block as the operation reads it, `bad` the header's poison. -/
def mmaRow (banks : Map Bank) (lut : Bool) (h : Cat) (ws : List Word) (bad : Bool) (v b : Block) (m : Nat) : RowEnd :=
  let tag := v.scrNum (h.tagAt m) 1
  if b.rangeAbsent (h.tagAt m) 1 then .waits
  else if 128 ≤ tag then .skip
  else
    match tagBank banks lut h.cls ws tag with
    | none => .stop m 0 2
    | some k =>
      if b.catAbsent h m || b.rangeAbsent (h.scale m) 4 then .waits
      else
        let a := v.catRow h m
        let group (n : Nat) : Val := exactSum (a.zip ((List.range 128).map (fun j => k.weight (64 * j + n))))
        .wrote (promoteRow v (pf ws 2 0 32 + m) (pf ws 3 6 1 == 1) (bad || v.catBad h m || v.rangeBad (h.scale m) 4 || k.bad) group
          (v.scrNum (h.scale m) 4) k.scale.toNat b) [(pf ws 2 0 32 + m, 1)]
/-- STATUS, FROW and FCODE as the engine leaves them (R213). -/
def statusBytes (st row code : Nat) : List Byte := leBytes 4 st ++ leBytes 2 row ++ leBytes 1 code ++ leBytes 1 0
/-- A matrix word ends with STATUS, FROW and FCODE, and with a cause. -/
def endStatus (s : State) (core : Nat) (o : Op) (st row code : Nat) (cause : Option Cause) : State :=
  endOp (s.updBlock o.bid (fun b => b.scrWrite (o.parm.toNat + 16) (statusBytes st row code) false)) core o.id cause
/-- A matrix word stops: a tag miss or a fault (R199, R214). -/
def stopRows (s : State) (core : Nat) (o : Op) (row code st : Nat) : State :=
  endStatus s core o st row code (some (if st = 2 then { bit := 6, addr := o.parm, info := d64 row } else engflt o.parm o.opc code))
/-- A row or group of a matrix word has ended; after the last of `n` the word ends (R214, R218). -/
def rowStep (s : State) (core : Nat) (o : Op) (n : Nat) : RowEnd → State
  | .waits => s
  | .stop row code st => stopRows s core o row code st
  | .skip => if n ≤ o.next + 1 then endStatus s core o 1 0 0 none else updOp s core o.id (fun o => { o with next := o.next + 1 })
  | .wrote b rows =>
    let s1 := rows.foldl (fun s r => settle s core o.bid r.1 r.2) (s.updBlock o.bid (fun _ => b))
    if n ≤ o.next + 1 then endStatus s1 core o 1 0 0 none else updOp s1 core o.id (fun o => { o with next := o.next + 1 })
/-- A matrix word reads the header of its activation tile, once (R214, R218): `n` is the number of its rows or groups. `first` is
what follows a valid header. -/
def headerStep (s : State) (core : Nat) (o : Op) (cls n : Nat) (b v : Block) (first : State → State) : State :=
  let ws := o.words
  let cat := pf ws 0 0 32
  if b.rangeAbsent cat 64 then startOp s core o.id
  else
    match v.cat cat with
    | none => stopRows s core o (pf ws 1 16 11) 16 3
    | some h =>
      if h.cls ≠ cls || h.rows < pf ws 1 0 11 then stopRows s core o (pf ws 1 16 11) 16 3
      else
        let s1 := first (updOp s core o.id (fun o =>
          { o with begun := true, stage := 1, keep := 2 * v.scrNum cat 64 + b2n (v.rangeBad cat 64) }))
        if n = 0 then endStatus s1 core o 1 0 0 none else s1
/-- The tile header that an operation has read, and whether it was poisoned. -/
def Op.header (o : Op) : Cat × Bool := (catOf (pf o.words 0 0 32) (o.keep / 2), o.keep % 2 == 1)
/-- The block as an operation reads it in one step: words that no edge orders before it hold free picks (R306, R307). -/
def viewOf (s : State) (o : Op) (b : Block) : Block := (b.scrAs o s.free).accAs o s.free
/-- One step of `mma` or `mmal`: its header, or one row. -/
def mmaStep (s : State) (core : Nat) (lut : Bool) (o : Op) (b : Block) : State :=
  let ws := o.words
  let v := viewOf s o b
  let s1 := { s with free := s.free + 1 }
  let n := pf ws 1 0 11 - pf ws 1 16 11
  if o.stage = 0 then headerStep s1 core o (if lut then 0 else pf ws 3 0 1) n b v id
  else rowStep s1 core o n (mmaRow (s.core core).banks lut o.header.1 ws o.header.2 v b (pf ws 1 16 11 + o.next))
/-- R214. -/
def execMmaExec (core : Nat) (s : State) : Out :=
  match matrixHead s core with
  | some o =>
    match o.kind, s.block o.bid with
    | .mma, some b => .next (mmaStep s core false o b)
    | _, _ => .next s
  | none => .next s
/-- R215. -/
def execMmalExec (core : Nat) (s : State) : Out :=
  match matrixHead s core with
  | some o =>
    match o.kind, s.block o.bid with
    | .mmal, some b => .next (mmaStep s core true o b)
    | _, _ => .next s
  | none => .next s

/-! ## mxgrad (R218) -/

/-- The rows of a group that select window index `i`. -/
def gradSel (b : Block) (h : Cat) (rows : List Nat) (i : Nat) : List Nat :=
  rows.filter (fun m => let t := b.scrNum (h.tagAt m) 1; decide (t < 128) && t % 8 == i)
/-- Region `i` of a group: `v` is the block as the operation reads it. The scale of the group's first row alone is read (R104). A
poisoned element of an activation row poisons the one row of the region that reads it (R386). -/
def gradRegion (v : Block) (h : Cat) (t : Cwt) (ws : List Word) (hbad : Bool) (rows : List Nat) (b : Block) (i : Nat) : Block :=
  let sel := gradSel v h rows i
  let first := (rows.head?).getD 0
  let bad := hbad || v.rangeBad t.off (cwtSize t.cls) || v.rangeBad (h.scale first) 4 || sel.any (fun m => v.rangeBad (h.tagAt m) 1)
  let elemBad (k : Nat) : Bool := sel.any (fun m => v.rangeBad (h.row m + catBytes h.cls * k) (catBytes h.cls))
  let as := sel.map (fun m => (m, v.catRow h m))
  if sel.isEmpty then b
  else
    (List.range 128).foldl (fun b k =>
      promoteRow v (pf ws 2 0 32 + 128 * i + k) false (bad || elemBad k)
        (fun n => exactSum (as.map (fun e =>
          (e.2.getD k .nan, (clsFmt t.cls).decode (v.cwtElem t (64 * (e.1 - first) + n))))))
        (v.scrNum (h.scale first) 4) t.scale b) b
/-- Group `g` of `mxgrad` (R104, R218). -/
def gradGroup (h : Cat) (ws : List Word) (bad : Bool) (v b : Block) (g : Nat) : RowEnd :=
  let w := 2 ^ pf ws 3 4 2
  let rows := (List.range (Nat.min 128 (pf ws 1 0 11 - 128 * g))).map (· + 128 * g)
  let tile := pf ws 16 0 32 + g * pf ws 17 0 32
  let tag (m : Nat) : Nat := v.scrNum (h.tagAt m) 1
  if b.rangeAbsent tile 64 then .waits
  else
    match v.cwt tile with
    | none => .stop (128 * g) 17 3
    | some t =>
      if t.cls ≠ h.cls then .stop (128 * g) 17 3
      else if rows.any (fun m => b.rangeAbsent (h.tagAt m) 1) then .waits
      else
        match rows.find? (fun m => decide (tag m < 128) && (tag m / 8 % 16 != 0 || decide (w ≤ tag m % 8))) with
        | some x => .stop x 0 2
        | none =>
          let used := rows.filter (fun m => decide (tag m < 128))
          if !used.isEmpty && (used.any (b.catAbsent h) || b.rangeAbsent (h.scale (128 * g)) 4 || b.rangeAbsent tile (cwtSize t.cls)) then
            .waits
          else
            .wrote ((List.range w).foldl (gradRegion v h t ws bad rows) b)
              (((List.range w).filter (fun i => !(gradSel v h rows i).isEmpty)).map (fun i => (pf ws 2 0 32 + 128 * i, 128)))
/-- Every accumulator of some rows becomes +0.0. -/
def zeroRows (b : Block) (first n : Nat) : Block :=
  (List.range n).foldl (fun b r => (List.range 64).foldl (fun b c => b.accPut (first + r) c 0 false) b) b
/-- An operation makes some rows of its block +0.0. -/
def zeroStep (s : State) (core bid first n : Nat) : State :=
  settle (s.updBlock bid (fun b => zeroRows b first n)) core bid first n
/-- One step of `mxgrad`: its header, after which its regions become +0.0 where it asks for that, or one group. -/
def gradStep (s : State) (core : Nat) (o : Op) (b : Block) : State :=
  let ws := o.words
  let v := viewOf s o b
  let s1 := { s with free := s.free + 1 }
  let start := pf ws 1 16 11
  let n := (pf ws 1 0 11 + 127) / 128 - start / 128
  if o.stage = 0 then
    headerStep s1 core o (pf ws 3 0 1) n b v (fun s =>
      if pf ws 3 6 1 = 1 && start = 0 then zeroStep s core o.bid o.rows.1 o.rows.2 else s)
  else rowStep s1 core o n (gradGroup o.header.1 ws o.header.2 v b (start / 128 + o.next))
/-- R218. -/
def execMxgradExec (core : Nat) (s : State) : Out :=
  match matrixHead s core with
  | some o =>
    match o.kind, s.block o.bid with
    | .mxgrad, some b => .next (gradStep s core o b)
    | _, _ => .next s
  | none => .next s
/-- R219. -/
def execMxzeroExec (core : Nat) (s : State) : Out :=
  match matrixHead s core with
  | some o =>
    match o.kind with
    | .mxzero first n => .next (endOp (zeroStep s core o.bid first n) core o.id none)
    | _ => .next s
  | none => .next s
/-- R207: the oldest waiting take becomes owner. -/
def execMxownGrant (core : Nat) (s : State) : Out :=
  let k := s.core core
  match k.owner, k.takes with
  | none, (bid, _) :: _ => .next (grantArray s core bid)
  | _, _ => .next s

end Sys2Proof.Machine
end

