-- ==== Sys2Proof/Machine/Copy.lean ====
section
/-! DEFINITION. The copy channels (R200, R220 to R229): the accesses of an engine, which its core sends as it sends its
threads' (R241, R251, R253), or which the hub makes at a home slice; what stops them (R204, R389, R390); the slices of
`cpy` with their conversions (R100, R223), `cpyo`, `binsc`; the completion of operations (R202, R205) and the delivery
of asynchronous causes (R203). -/

namespace Sys2Proof.Machine

/-! ## Accesses of an engine (R204) -/

/-- What an engine's access to one line meets. -/
inductive EngAcc where
  | go (tgt : Nat) | drop | absent (va : Dword) | illegal (va : Dword) | wait (va : Dword) | audit (va : Dword) | poison (va : Dword)
  | busy
  deriving DecidableEq, Repr
/-- Whether an access can be performed now. -/
def EngAcc.free : EngAcc → Bool
  | .go _ => true | .drop => true
  | _ => false
/-- The check of an engine's access, under its block's context (R204, R389). -/
def engAcc (s : State) (core : Nat) (b : Block) (o : Op) (va : Dword) (a : Acc) : EngAcc :=
  let audit := auditOf s b
  match (match audit with | some x => auditVa x va (a == .write) | none => some va) with
  | none => .drop
  | some x =>
    match accessChk s core b.ctx x 1 a with
    | .ok pa _ =>
      if tgtHost s pa then (if audit.isSome then .audit va else if s.sys.hostL0 then .go pa else .wait va) else .go pa
    | .remote dev off => if audit.isSome then .audit va else .go (remoteTgt dev off)
    | .accv _ => if audit.isSome && va.getLsbD 55 && s.part.full then .audit va else .illegal va
    | .absent => if o.denied.contains (va.toNat % 2 ^ 55 / 65536) then .illegal va else .absent va
    | _ => .illegal va
/-- The walks of an engine's accesses have read their lines (R262); none while a home slice has no room for them (R245). -/
def engWalk (s : State) (core : Nat) (b : Block) (vas : List Dword) (a : Acc) : Option State :=
  walkAll s core b.ctx (vas.filterMap (fun va => match auditOf s b with
    | some x => auditVa x va (a == .write)
    | none => some va)) a
/-- The check of an engine's access to `n` bytes within a line: a write that reaches a protected register is illegal (R392); one of the
hub's waits behind the atomics of a held line (R244). -/
def engPiece (s : State) (core : Nat) (b : Block) (o : Op) (p : Dword × Nat) (a : Acc) : EngAcc :=
  match engAcc s core b o p.1 a with
  | .go tgt =>
    if a = .write && controlHit s tgt p.2 then .illegal p.1
    else if a = .write && o.kind.hub && heldLine s (tgt / 64) then .busy
    else .go tgt
  | e => e
/-- The parts of a byte range that lie in one line each. -/
def pieces (va n : Nat) : List (Dword × Nat) :=
  (linesOf va n).map (fun l => (d64 (Nat.max (l * 64) va), Nat.min (l * 64 + 64) (va + n) - Nat.max (l * 64) va))
/-- The first access of a range that cannot be performed now. -/
def engStopIn (s : State) (core : Nat) (b : Block) (o : Op) (va n : Nat) (a : Acc) : Option EngAcc :=
  ((pieces va n).map (fun p => engPiece s core b o p a)).find? (fun e => !e.free)
/-- The request of an operation for a line. -/
def Op.request (o : Op) (s : State) (va : Dword) (tgt : Nat) (k : ReqKind) : Req :=
  { seq := s.seq, time := s.gtime, va := va, line := tgt / 64, bid := o.bid, tid := o.tid, tids := [], tok := none, acq := .none,
    rel := .none, who := .engine o.id, kind := k }
/-- Whether the hub can read a line of memory at its home slice now (R244, R245, R252). -/
def hubRoom (s : State) (line : Nat) : Bool :=
  if tgtHost s (line * 64) then s.sys.hostL0 else !heldLine s line && readRoom s line
/-- Asks for `n` bytes within a line: the core's engines through its fill tracker, the hub at the home slice, both through the
remote window for a target beyond it. None while there is no room. -/
def engAsk (s : State) (core : Nat) (o : Op) (va : Dword) (tgt n : Nat) : Option State :=
  let j : Join := { bid := o.bid, tid := o.tid, tids := [], va := va, dst := .op o.id n, sz := .b32, off := tgt % 64, tok := 0, acq := .none,
                    seq := s.seq }
  let s1 := { s with seq := s.seq + 1 }
  if tgtRemote tgt then some (sendRemote s1 core tgt (o.request s va tgt .read) [j])
  else if tgtControl s tgt then some (j.land s1 (controlBytes s (tgt - Config.csBase) n) false)
  else if o.kind.hub then
    if hubRoom s (tgt / 64) then
      let s2 := seeLine s1 (tgt / 64)
      some (j.land s2 (nowBytes s2 tgt n) (lineNow s2 (tgt / 64)).bad)
    else none
  else sendRead s1 core (tgt / 64) true (.engine o.id) [] j
/-- Performs one write within a line, or sends it; the issuing core's copy of the line goes (R202). -/
def engStore (s : State) (core : Nat) (o : Op) (va : Dword) (tgt : Nat) (bytes : List Byte) (bad : Bool) : State :=
  let r := o.request s va tgt (.write (tgt % 64) bytes bad)
  let s1 := { s with seq := s.seq + 1 }
  let inval (s : State) : State := s.updCore core (fun k => k.invalLine (tgt / 64))
  if tgtRemote tgt then sendRemote s1 core tgt r []
  else if tgtControl s tgt then s
  else if o.kind.hub then inval (homeWrite s tgt bytes bad)
  else sendReq (inval s1) core r
/-- Writes bytes piece by piece until an access stops. -/
def engWriteAll (core : Nat) (b : Block) (o : Op) : State → List (Dword × Nat) → List (Byte × Bool) →
    State × Option EngAcc
  | s, [], _ => (s, none)
  | s, p :: t, bs =>
    let mine := bs.take p.2
    match engPiece s core b o p .write with
    | .go tgt =>
      if tgtOutside s tgt && mine.any (·.2) then (s, some (.poison p.1))
      else engWriteAll core b o (engStore s core o p.1 tgt (mine.map (·.1)) (mine.any (·.2))) t (bs.drop p.2)
    | .drop => engWriteAll core b o s t (bs.drop p.2)
    | e => (s, some e)
/-- Writes a range of bytes. -/
def engWrite (s : State) (core : Nat) (b : Block) (o : Op) (va : Nat) (bs : List (Byte × Bool)) : State × Option EngAcc :=
  engWriteAll core b o s (pieces va bs.length) bs

/-- An illegal access freezes its channel and kills the block (R204, R390). -/
def freezeOp (s : State) (core : Nat) (o : Op) (va : Dword) : State :=
  let s1 := devError (updOp s core o.id (fun o => { o with begun := true, frozen := true })) 3 (some core) none
  killBlock s1 o.bid 4 noWhere va 0
/-- An access of an engine has stopped: it waits for the page or the host link, or its channel is frozen (R204, R380). -/
def engStop (s : State) (core : Nat) (b : Block) (o : Op) (write : Bool) : EngAcc → State
  | .absent va =>
    let s1 := updOp s core o.id (fun o => { o with begun := true, waits := some (va.toNat % 2 ^ 55 / 65536) })
    pageAbsent s1 b.ctx va (4 + b2n write) 1 noWhere b.obase (BitVec.ofNat 32 b.idx) (s.nodeOf b.launch)
  | .illegal va => freezeOp s core o va
  | .audit va => endAudit s b.launch va
  | .poison va => killBlock s o.bid 3 noWhere va 0
  | .wait va => updOp s core o.id (fun o =>
      { o with begun := true, link := some (o.link.getD (s.gtime, va)) })
  | _ => updOp s core o.id (fun o => { o with begun := true })

/-- Writes a range when nothing keeps any part of it waiting; false when it is stopped. A write that meets an illegal access is made up
to it. -/
def engTry (s : State) (core : Nat) (b : Block) (o : Op) (va : Nat) (bs : List (Byte × Bool)) : State × Bool :=
  match engWalk s core b ((pieces va bs.length).map (·.1)) .write with
  | none => (s, false)
  | some s =>
    match engStopIn s core b o va bs.length .write with
    | some (.illegal x) => (engStop (engWrite s core b o va bs).1 core b o true (.illegal x), false)
    | some e => (engStop s core b o true e, false)
    | none =>
      match engWrite s core b o va bs with
      | (s1, some e) => (engStop s1 core b o true e, false)
      | (s1, none) => (s1, true)
/-- Writes a range, and goes on. -/
def engPut (s : State) (core : Nat) (b : Block) (o : Op) (va : Nat) (bs : List (Byte × Bool)) (go : State → State) : State :=
  match engTry s core b o va bs with
  | (s1, true) => go s1
  | (s1, false) => s1
/-- Asks for the next of the lines that an operation reads, `stage` counting them; goes on when all have been brought (R204). -/
def engGet (s : State) (core : Nat) (b : Block) (o : Op) (lines : List Nat) (go : State → State) : State :=
  match lines[o.stage]? with
  | some l =>
    match engWalk s core b [d64 (l * 64)] .read with
    | none => s
    | some s =>
      match engAcc s core b o (d64 (l * 64)) .read with
      | .go tgt =>
        match engAsk s core o (d64 (l * 64)) tgt 64 with
        | some s1 => updOp s1 core o.id (fun o => { o with begun := true, stage := o.stage + 1 })
        | none => s
      | e => engStop s core b o false e
  | none => if o.inbox.length < lines.length then s else go s
/-- Bytes of the lines that an operation has read, with their lines' poison. -/
def Op.got (o : Op) (va n : Nat) : List (Byte × Bool) :=
  (List.range n).map (fun k =>
    match o.inbox.find? (fun g => g.va.toNat == (va + k) / 64 * 64) with
    | some g => (g.data.getD ((va + k) % 64) 0, g.bad)
    | none => (0, false))
/-- Whether a write of an operation has not been accepted, or at system scope not been acknowledged through the remote window
(R202). -/
def opOut (s : State) (core : Nat) (o : Op) : Bool :=
  (s.core core).reqs.any (fun r => decide (r.who = .engine o.id) && r.kind.writes)
    || s.fab.remote.any (fun q => q.core == core && decide (q.req.who = .engine o.id) && q.req.kind.writes
        && (!q.accepted || o.ctl.cs.toNat == 5))
/-- Whether an operation is one of the copy channels' (R200). -/
def OpKind.copy : OpKind → Bool
  | .cpy _ => true | .cpyo => true | .binsc => true
  | _ => false
/-- A copy operation that can go on now: it has a channel or can take one, and waits for nothing. -/
def copyOp (s : State) (core id : Nat) : Option Op :=
  let k := s.core core
  match k.queue.find? (fun o => o.id == id && o.kind.copy) with
  | none => none
  | some o =>
    let busy := (k.queue.filter (fun p => p.kind.copy && p.begun && p.id != id)).length
    if o.done || o.frozen || o.waits.isSome || Config.copyChannels ≤ busy || !relReady s core o || opSlotHeld s o then none
    else some o

/-! ## Conversions of a copy (R100, R223) -/

/-- The format of a copy's format code. -/
def fmtOf (f : Nat) : Fmt := if f = 2 then fp16 else if f = 3 then bf16 else if f = 4 then fe4m3 else if f = 5 then fe5m2 else fp32
/-- The exponent that one finite nonzero element needs: the least k with its magnitude at most 448 · 2^k. -/
def unitExp : Val → Option Int
  | .fin _ m e =>
    if m = 0 then none
    else
      let l := bitLen m
      some (if 8 * m ≤ 7 * 2 ^ l then e + l - 9 else e + l - 8)
  | _ => none
/-- k of a unit (R100). -/
def unitScale (vs : List Val) : Int :=
  match vs.foldl (fun (k : Option Int) v => match k, unitExp v with
      | some a, some b => some (max a b)
      | none, b => b
      | a, none => a) none with
  | some k => max (-149) (min 127 k)
  | none => 0
/-- An element of a unit in E4M3 (R100). -/
def unitElem (k : Int) : Val → Nat
  | .nan => 0x7F
  | .inf n => if n then 0xFE else 0x7E
  | .fin n m e => (deliver fe4m3 .rne true (.fin n m (e - k)) 0).bits
/-- The bits of 2^k in FP32. -/
def scaleBits (k : Int) : Nat := rne32 (.fin false 1 k)
/-- Writes bytes, each with its own poison: a word is poisoned when any byte of it is, a clean byte beside a poisoned one leaves it so. -/
def Block.scrPutEach (b : Block) (o : Nat) (bs : List (Byte × Bool)) : Block :=
  let b1 := b.scrWrite o (bs.map (·.1)) false
  { b1 with scrBad := (List.range bs.length).foldl (fun l k =>
      if ((bs[k]?).map (·.2)).getD false then addNat l ((o + k) / 4) else l) b1.scrBad }
/-- The elements of a source row: bits and poison. -/
def rowElems (es : Nat) (row : List (Byte × Bool)) : List (Nat × Bool) :=
  (List.range (row.length / es)).map (fun k =>
    let bs := (row.drop (es * k)).take es
    (leNat (bs.map (·.1)), bs.any (·.2)))
/-- 128 elements of a source row, +0 beyond its end. -/
def row128 (f : Fmt) (row : List (Nat × Bool)) : List (Nat × Bool) := (row ++ List.replicate (128 - row.length) (f.zero false, false)).take 128
/-- A list of numbers as little-endian bytes with poison. -/
def bytesOf (n : Nat) (l : List (Nat × Bool)) : List (Byte × Bool) :=
  (l.map (fun e => (leBytes n e.1).map (fun x => (x, e.2)))).flatten

/-- Rows of the slice into an activation tile: rows as (row, source bytes) (R223). -/
def copyCat (b : Block) (ws : List Word) (bf : Bool) (rows : List (Nat × List (Byte × Bool))) : Block :=
  let f := fmtOf (pf ws 3 0 8)
  let es := fmtBytes (pf ws 3 0 8)
  let n := pf ws 4 0 16
  let doff := pf ws 5 0 32
  let pitch := if bf then 256 else 128
  let sc := doff + 0x40 + n * pitch
  rows.foldl (fun b r =>
    let xs := row128 f (rowElems es r.2)
    let bad := xs.any (·.2)
    let k := unitScale (xs.map (fun x => f.decode x.1))
    let el : List (Nat × Bool) :=
      if bf then xs.map (fun x => ((cvtFF f bf16 .rne false x.1).bits, x.2))
      else xs.map (fun x => (unitElem k (f.decode x.1), bad))
    let b1 := b.scrPutEach (doff + 0x40 + r.1 * pitch) (bytesOf (if bf then 2 else 1) el)
    let b2 := b1.scrWrite (sc + 4 * r.1) (leBytes 4 (if bf then 0x3F800000 else scaleBits k)) (!bf && bad)
    b2.scrWrite (sc + 4 * n + r.1) [0] false) b
/-- The header of an activation tile written by a copy (R298). -/
def catHeader (b : Block) (ws : List Word) (bf : Bool) : Block :=
  let n := pf ws 4 0 16
  let pitch := if bf then 256 else 128
  let sc := 0x40 + n * pitch
  b.scrWrite (pf ws 5 0 32)
    (leBytes 1 (b2n bf) ++ leBytes 1 0 ++ leBytes 2 n ++ leBytes 4 pitch ++ leBytes 4 sc ++ leBytes 4 (sc + 4 * n)
      ++ List.replicate 48 0) false
/-- The header of a weight tile (R299). -/
def cwtHeader (cls zp tile scale : Nat) : List Byte :=
  leBytes 1 cls ++ leBytes 1 zp ++ leBytes 2 0 ++ leBytes 4 tile ++ leBytes 4 scale ++ List.replicate 52 0
/-- The two weight tiles of a 128 × 128 tile (R223). -/
def copyCwt (b : Block) (ws : List Word) (bf : Bool) (rows : List (Nat × List (Byte × Bool))) : Block :=
  let f := fmtOf (pf ws 3 0 8)
  let es := fmtBytes (pf ws 3 0 8)
  let doff := pf ws 5 0 32
  let tile := pf ws 7 0 32
  let zero : List (Nat × Bool) := List.replicate 128 (f.zero false, false)
  let all := (List.range 128).map (fun k => match rows.find? (fun r => r.1 == k) with
    | some r => row128 f (rowElems es r.2)
    | none => zero)
  let bad := all.any (fun r => r.any (·.2))
  let k := unitScale ((all.map (fun r => r.map (fun x => f.decode x.1))).flatten)
  let el (x : Nat × Bool) : Nat × Bool :=
    if bf then ((cvtFF f bf16 .rne false x.1).bits, x.2) else (unitElem k (f.decode x.1), bad)
  let half (lo : Nat) : List (Byte × Bool) :=
    (all.map (fun r => bytesOf (if bf then 2 else 1) (((r.drop lo).take 64).map el))).flatten
  let head := (cwtHeader (b2n bf) 0 tile (if bf then 0x3F800000 else scaleBits k)).map (fun x => (x, false))
  let put (b : Block) (o lo : Nat) : Block :=
    let b1 := b.scrPutEach o (head ++ half lo)
    if !bf && bad then b1.scrWrite (o + 8) (leBytes 4 (scaleBits k)) true else b1
  put (put b doff 0) (doff + cwtSize (b2n bf)) 64
/-- The weight tile of codes (R223). -/
def copyCodes (b : Block) (ws : List Word) (rows : List (Nat × List (Byte × Bool))) : Block :=
  let head := cwtHeader (pf ws 8 4 4) (pf ws 8 0 4) (pf ws 7 0 32) (pf ws 9 0 32)
  b.scrPutEach (pf ws 5 0 32) (head.map (fun x => (x, false)) ++ (rows.map (·.2)).flatten)
/-- The destination of a slice is written (R222, R223). -/
def copySlice (b : Block) (ws : List Word) (k : Nat) (rows : List (Nat × List (Byte × Bool))) : Block :=
  let head (bf : Bool) (b : Block) : Block := if k = 0 then catHeader b ws bf else b
  match pf ws 3 8 8 with
  | 0 => rows.foldl (fun b r => b.scrPutEach (pf ws 5 0 32 + r.1 * pf ws 6 0 32) r.2) b
  | 1 => head false (copyCat b ws false rows)
  | 2 => head true (copyCat b ws true rows)
  | 3 => copyCwt b ws false rows
  | 4 => copyCwt b ws true rows
  | _ => copyCodes b ws rows

/-- The lines of a copy's source rows, each once (R222). -/
def sourceLines (base pitch len : Nat) (rows : List Nat) : List Nat := ((rows.map (fun r => linesOf (base + r * pitch) len)).flatten).eraseDups
/-- The lines that a finished slice sets present: those that no other incomplete slice still writes (R222). -/
def linesDone (k : Core) (o : Op) : List Nat :=
  o.lines.filter (fun l => !k.queue.any (fun p => p.bid == o.bid && p.id != o.id && !p.done && p.lines.contains l
    && (match p.kind with | .cpy _ => true | _ => false)))
/-- R222 to R224. -/
def execCpyExec (core op : Nat) (s : State) : Out :=
  match copyOp s core op with
  | some o =>
    match o.kind, s.block o.bid with
    | .cpy k, some b =>
      let ws := o.words
      let span := sliceRows ws k
      let rows := (List.range (span.2 - span.1)).map (· + span.1)
      let base := pf64 ws 0
      let pitch := pf ws 2 0 32
      let len := pf ws 4 16 16 * fmtBytes (pf ws 3 0 8)
      .next (engGet (startOp s core o.id) core b o (sourceLines base pitch len rows) (fun s =>
        let s1 := s.updBlock o.bid (fun b => copySlice b ws k (rows.map (fun r => (r, o.got (base + r * pitch) len))))
        endOp (setPresent s1 o.bid (linesDone (s1.core core) o)) core o.id none))
    | _, _ => .next s
  | none => .next s

/-! ## Copies out (R226) -/

/-- The rounding of a 2-bit code (R64). -/
def rndOf (n : Nat) : Rnd := Rnd.ofCode (BitVec.ofNat 2 n)
/-- The bytes that row r of a `cpyo` writes. -/
def cpyoRow (b : Block) (ws : List Word) (r : Nat) : List (Byte × Bool) :=
  let sk := pf ws 3 0 8
  let f := pf ws 3 8 8
  let slen := pf ws 4 16 16
  let soff := pf ws 5 0 32
  let at_ := soff + r * pf ws 6 0 32
  if sk = 0 then (List.range slen).map (fun k => (b.scrByte (at_ + k), b.scrIsBad [at_ + k]))
  else
    let cv (x : Nat) : Nat := (cvtFF fp32 (fmtOf f) (rndOf (pf ws 3 17 2)) (pf ws 3 16 1 == 1) x).bits
    bytesOf (fmtBytes f) ((List.range slen).map (fun k =>
      if sk = 1 then (cv (b.scrNum (at_ + 4 * k) 4), b.scrIsBad [at_ + 4 * k])
      else (cv (b.accAt (soff + r) k).toNat, b.accIsBad (soff + r) k)))
/-- One row of a `cpyo` (R226); its accumulator values are as the operation reads them (R307). -/
def cpyoStep (s : State) (core : Nat) (b : Block) (o : Op) : State :=
  let ws := o.words
  let r := o.next
  let sk := pf ws 3 0 8
  let n := pf ws 4 16 16 * (if sk = 1 then 4 else 1)
  if sk ≠ 2 && b.rangeAbsent (pf ws 5 0 32 + r * pf ws 6 0 32) n then s
  else
    engPut { s with free := s.free + 1 } core b o (pf64 ws 0 + r * pf ws 2 0 32) (cpyoRow (b.accAs o s.free) ws r) (fun s =>
      if pf ws 4 0 16 ≤ r + 1 then endOp s core o.id none
      else updOp s core o.id (fun o => { o with begun := true, next := r + 1 }))
/-- Whether an earlier operation of the matrix stream names a source row of a `cpyo` (R226). -/
def rowsBusy (k : Core) (o : Op) : Bool :=
  pf o.words 3 0 8 == 2 && k.queue.any (fun p => p.kind.matrix && p.bid == o.bid && decide (p.seq < o.seq)
    && overlaps p.rows (pf o.words 5 0 32, pf o.words 4 0 16))
/-- R226. -/
def execCpyoExec (core op : Nat) (s : State) : Out :=
  match copyOp s core op with
  | some o =>
    match o.kind, s.block o.bid with
    | .cpyo, some b =>
      if rowsBusy (s.core core) o then .next (startOp s core o.id) else .next (cpyoStep (startOp s core o.id) core b o)
    | _, _ => .next s
  | none => .next s

/-! ## Bins (R228, R229) -/

/-- An atomic at its home: the state after it, the value returned, the poison of both (R167, R386). -/
def atomicHere (s : State) (pa : Nat) (k : AOp) (a b : Dword) (bad : Bool) : State × Dword × Bool :=
  let s1 := touchLine s (pa / 64)
  let worse := bad || lineBad s1 (pa / 64)
  let r := aopApply k (d64 (s1.num pa (aopBytes k))) a b
  (homeWrite s1 pa (leBytes (aopBytes k) r.1.toNat) worse, r.2, worse)
/-- An atomic of an operation on a 32-bit word is sent, or performed for the hub: its result lands in the operation. What stops
it otherwise. -/
def engAtomic (s : State) (core : Nat) (b : Block) (o : Op) (va : Nat) (k : AOp) (a : Dword) : EngAcc ⊕ State :=
  match engAcc s core b o (d64 va) .write with
  | .go tgt =>
    let r := o.request s (d64 va) tgt (.atomic (tgt % 64) k a 0 false none)
    let s1 := { s with seq := s.seq + 1 }
    let inval (s : State) : State := s.updCore core (fun k => k.invalLine (tgt / 64))
    let land (s : State) (v : Nat) (bad : Bool) : State := landGot s o.id { va := d64 va, data := leBytes 4 v, bad := bad }
    if tgtRemote tgt then .inr (sendRemote s1 core tgt r [])
    else if tgtHost s tgt && !aopHost k then .inl (.illegal (d64 va))
    else if tgtControl s tgt then .inr (land s (leNat (controlBytes s (tgt - Config.csBase) 4)) false)
    else if o.kind.hub then
      if atomFree s (tgt / 64) then let x := atomicHere s tgt k a 0 false; .inr (land (inval x.1) x.2.1.toNat x.2.2)
      else .inl .busy
    else .inr (sendReq (inval s1) core r)
  | .drop => .inl (.audit (d64 va))
  | e => .inl e
/-- A count of the parameter block goes up by one (R227). -/
def bumpStatus (s : State) (o : Op) (off : Nat) : State :=
  s.updBlock o.bid (fun b => b.scrWrite (o.parm.toNat + off) (leBytes 4 (b.scrNum (o.parm.toNat + off) 4 + 1)) false)
/-- The stages of a row of `binsc`, in the order of R228: its expert is read; the die counter's, the expert counter's, the undo's
and the overflow count's atomic has been sent; the row's bytes, then its index, are to be written. -/
def binOver : Nat := 4
def binRowAt : Nat := 5
def binIdx : Nat := 6
/-- A `binsc` goes on with a stage of its row, keeping the row's expert and a number. -/
def binStage (s : State) (core : Nat) (o : Op) (stage e x : Nat) : State :=
  updOp s core o.id (fun o => { o with begun := true, stage := stage, keep := e + 65536 * x, inbox := [] })
/-- A `binsc` has ended a row. -/
def binNext (s : State) (core : Nat) (o : Op) : State :=
  if pf o.words 1 16 16 ≤ o.next + 1 then endOp s core o.id none
  else updOp s core o.id (fun o => { o with begun := true, next := o.next + 1, stage := 0, keep := 0, inbox := [] })
/-- A row of `binsc` sends an atomic and goes on with a stage. -/
def binSend (s : State) (core : Nat) (b : Block) (o : Op) (va : Nat) (k : AOp) (a : Dword) (stage e x : Nat) : State :=
  match engWalk s core b [d64 va] .write with
  | none => s
  | some s =>
    match engAtomic (binStage s core o stage e x) core b o va k a with
    | .inl why => engStop s core b o true why
    | .inr s1 => s1
/-- A row goes to the overflow list, for a reason (R228). -/
def binOverflow (s : State) (core : Nat) (b : Block) (o : Op) (e why : Nat) : State :=
  binSend s core b o (pf64 o.words 14) .addI32 1 binOver e why
/-- The first stage of a row: its expert is read, and its die counter goes up (R228). -/
def binFirst (s : State) (core : Nat) (b : Block) (o : Op) : State :=
  let ws := o.words
  let at_ := pf ws 2 0 32 + 2 * o.next
  let e := b.scrNum at_ 2
  let die := e / 2 ^ pf ws 3 16 8
  if b.rangeAbsent at_ 2 then s
  else if b.rangeBad at_ 2 then engStop s core b o true (.poison (d64 at_))
  else if e = 0xFFFF then binNext s core o
  else if pf ws 3 0 16 ≤ e || 3 < die then binOverflow s core b o e 3
  else binSend s core b o (pf64 ws 4 + 4 * die) .bumpN32 (d64 (pf ws 11 0 32)) 1 e 0
/-- A stage of a row that an atomic's value ends (R228). -/
def binValue (s : State) (core : Nat) (b : Block) (o : Op) (v : Nat) : State :=
  let ws := o.words
  let e := o.keep % 65536
  let elim := pf ws 12 0 32
  let fail := 2 ^ 32 - 1
  if o.stage = 1 then
    if v = fail then binOverflow s core b o e 1 else binSend s core b o (pf64 ws 6 + 4 * e) .bumpN32 (d64 elim) 2 e 0
  else if o.stage = 2 then
    if v = fail then binSend s core b o (pf64 ws 4 + 4 * (e / 2 ^ pf ws 3 16 8)) .addI32 (d64 fail) 3 e 0
    else binStage s core o binRowAt e v
  else if o.stage = 3 then binOverflow s core b o e 2
  else
    let entry := leBytes 4 (pf ws 18 0 32 + o.next) ++ leBytes 2 e ++ leBytes 1 (o.keep / 65536) ++ leBytes 1 0
    let count (s : State) : State := binNext (bumpStatus s o 0x54) core o
    if v < pf ws 13 0 32 then engPut s core b o (pf64 ws 14 + 8 + 8 * v) (entry.map (fun x => (x, false))) count else count s
/-- One stage of a row of `binsc` (R228, R229). -/
def binStep (s : State) (core : Nat) (b : Block) (o : Op) : State :=
  let ws := o.words
  let rb := pf ws 1 0 16
  let e := o.keep % 65536
  let slot := o.keep / 65536
  let src := pf ws 0 0 32 + o.next * rb
  let idx := pf64 ws 16
  let taken (s : State) : State := binNext (bumpStatus s o 0x50) core o
  if o.stage = 0 then binFirst s core b o
  else if o.stage = binRowAt then
    if b.rangeAbsent src rb then s
    else
      engPut s core b o (pf64 ws 8 + e * pf ws 10 0 32 + slot * rb)
        ((List.range rb).map (fun k => (b.scrByte (src + k), b.scrIsBad [src + k]))) (fun s => binStage s core o binIdx e slot)
  else if o.stage = binIdx then
    if idx = 0 then taken s
    else if opOut s core o then s
    else
      engPut s core b o (idx + 4 * (e * pf ws 12 0 32 + slot)) ((leBytes 4 (pf ws 18 0 32 + o.next)).map (fun x => (x, false))) taken
  else
    match o.inbox with
    | g :: _ => if g.bad then engStop s core b o true (.poison g.va) else binValue s core b o (leNat (g.data.take 4))
    | [] => s
/-- R228; an audit copy may perform no atomic (R389). -/
def execBinscExec (core op : Nat) (s : State) : Out :=
  match copyOp s core op with
  | some o =>
    match o.kind, s.block o.bid with
    | .binsc, some b =>
      if (auditOf s b).isSome then .next (endAudit s b.launch (d64 (pf64 o.words 4)))
      else .next (binStep (startOp s core o.id) core b o)
    | _, _ => .next s
  | none => .next s

/-! ## Completion and asynchronous causes (R202, R203) -/

/-- Whether an accumulator write happened before an operation (R273). -/
def Op.after (o : Op) (e : Late) : Bool := decide (e.seq < o.seq) && !o.stale.any (fun x => x.word == e.word && x.seq == e.seq)
/-- What the completion of an operation tells of the accumulator writes before it: the threads that wait on its token, the phase at which
it arrives, an acquire that reads its final status (R273, R274; log entry 57). -/
def Op.tell (o : Op) (e : Late) : Late :=
  let status := match o.kind with | .mma | .mmal | .mxgrad => true | _ => false
  let e1 := if o.tok.isSome then { e with known := o.tids.foldl addNat e.known } else e
  let e2 := if o.ctl.be then { e1 with pubAt := addNat e1.pubAt o.ctl.bar.toNat } else e1
  if status then { e2 with pubAt := addNat e2.pubAt (atScr ((o.parm.toNat + 16) / 4)) } else e2
/-- R202: range locks leave, rows stop being named, the token decrements, the barrier arrival counts; then the cause of
the operation reaches its thread (R203), and a `bsync` phase waits for it no longer (R187). -/
def completeOp (s : State) (core : Nat) (o : Op) : State :=
  let s1 := s.updCore core (fun k =>
    { k with queue := k.queue.filter (fun p => p.id != o.id), locks := k.locks.filter (fun x => x.op != o.id) })
  let s2 := (countDown s1 o.bid o.tids o.tok).updBlock o.bid (fun b =>
    { b with late := if readsTiles (s1.core core) o.bid then b.late else [],
             stas := b.stas.map (fun e => if o.after e then o.tell e else e) })
  let s3 := if o.ctl.be then barArrive s2 o.bid o.ctl.bar.toNat else s2
  let s4 := s3.updBlock o.bid (fun b => { b with bars := b.bars.mapVal (fun _ x => { x with ops := delNat x.ops o.id }) })
  let s5 := barsRecheck s4 o.bid
  let left := match s5.block o.bid with
    | some b => o.lines.filter (fun l => b.absent.contains l && !cpyWrites (s5.core core) o.bid l)
    | none => []
  let s6 := left.foldl (fun s l => raiseAbsent s o.bid l) s5
  match o.cause with
  | some c => sendCause s6 o.bid o.tid c
  | none => s6
/-- R202: the operation has executed, and its writes have been accepted. -/
def execOperationComplete (core op : Nat) (s : State) : Out :=
  match (s.core core).queue.find? (fun o => o.id == op) with
  | some o => if !o.done || o.frozen || opOut s core o then .next s else .next (completeOp s core o)
  | none => .next s

/-- Whether a held cause can reach a thread now: it is eligible, outside its handler and outside the clause in flight. -/
def deliverable (b : Block) (tid : Nat) : Bool :=
  match b.thread tid with
  | some t =>
    t.eligible && !t.handler && !t.async.isEmpty
      && !(((b.fronds.get? t.slot).bind (·.run)).map (fun u => u.tids.contains tid)).getD false
  | none => false
/-- The held causes of a frond slot that can be delivered now (R203). -/
def deliverables (b : Block) (slot : Nat) : List (Nat × Thread) := (b.members slot).filter (fun e => deliverable b e.1)
/-- The threads of one frond that split at this instant form one sub-frond, each with its oldest cause (R203). -/
def deliverCauses (s : State) (bid slot : Nat) (b : Block) : State :=
  let who := deliverables b slot
  let rs := who.filterMap (fun e => (e.2.async.head?).map (fun c =>
    ({ tid := e.1, causes := [c], epc := e.2.pc, eslot := e.2.position } : Raise)))
  takeTrap (s.updThreads bid (who.map (·.1)) (fun _ x => { x with async := x.async.drop 1 })) bid slot rs
/-- R203, R371. -/
def execAsyncCauseDelivery (bid tid : Nat) (s : State) : Out :=
  match s.block bid with
  | some b =>
    match b.thread tid with
    | some t => if deliverable b tid && b.core?.isSome then .next (deliverCauses s bid t.slot b) else .next s
    | none => .next s
  | none => .next s

end Sys2Proof.Machine
end

