-- ==== Sys2Proof/Machine/Waits.lean ====
section
/-! DEFINITION. The steps that end a wait or move threads between fronds: reform bins (R42 to R44), sleeps, monitors and
their fallback (R175, R177, R246), timeouts, tickets and boosts (R181 to R184, R337), release waves (R400), paced steps
(R195, R347), convoy laggards (R193), frond timers (R374). -/

namespace Sys2Proof.Machine

/-! ## Reform bins (R42 to R44) -/

/-- Whether a bin is due: full, or its first thread was filed REFAGE core cycles ago. -/
def binDue (s : State) (core : Nat) (b : Bin) : Bool :=
  b.full || decide (b.filedAt + Nat.max 1 ((s.core core).refage.toNat % 4096) ≤ coreCycles s core)
/-- Whether a frond slot is empty for a bin (R43). -/
def emptyFor (b : Block) (bin : List Nat) (slot : Nat) : Bool := (b.liveMembers slot).all (fun e => bin.contains e.1)
/-- A pending result counted from the new frond's cycle 0. -/
def rebasePend (cyc : Nat) (l : List Pend) : List Pend :=
  l.filterMap (fun p => match p.due with
    | .cyc d => if cyc < d then some { p with due := .cyc (d - cyc) } else none
    | .land _ _ => none
    | .reply => some p)
/-- A frond formed from a bin (R43, R44). -/
def binFrond (x : Bin) : Frond := Frond.fresh x.s x.sbad
/-- The threads of a bin become the frond of a slot, in filing order at lanes 0 upwards. -/
def formFrond (b : Block) (x : Bin) (slot : Nat) : Block :=
  let cyc (t : Thread) : Nat := ((b.fronds.get? t.slot).map (·.cyc)).getD 0
  let move (tid : Nat) (t : Thread) : Thread :=
    { t with status := .eligible, slot := slot, lane := indexIn x.tids tid, pend := rebasePend (cyc t) t.pend }
  { b.updThreads x.tids move with fronds := b.fronds.put slot (binFrond x) }
/-- R42 to R44: the bin's threads wait for their tokens, then form a frond or return to their own. -/
def execReformBinDue (core bin : Nat) (s : State) : Out :=
  match (s.core core).bins.get? bin with
  | none => .next s
  | some x =>
    match (s.updThreads x.bid x.tids (fun _ t => t.land s.gtime)).block x.bid with
    | none => .next s
    | some b =>
      if !binDue s core x || x.tids.any (fun t => ((b.thread t).map (fun u => !u.tok.isEmpty)).getD false) then .next s
      else
        let s1 := s.updCore core (fun k => { k with bins := k.bins.del bin })
        match b.fronds.keys.find? (emptyFor b x.tids) with
        | some slot =>
          let s2 := { dropUniform s1 x.bid slot with blocks := s1.blocks.put x.bid (formFrond b x slot) }
          .next (b.fronds.keys.foldl (fun s f => bjoinCheck s x.bid f) s2)
        | none => .next (s1.updThreads x.bid x.tids (fun _ t => t.wake))

/-! ## Waits on time and on memory (R121, R175, R177, R246) -/

/-- R121. -/
def execSleepWake (bid tid : Nat) (s : State) : Out :=
  match waitOf s bid tid with
  | some (_, _, w) =>
    match w.kind with
    | .sleep due => if due ≤ s.gtime then .next (s.updThread bid tid Thread.wake) else .next s
    | _ => .next s
  | none => .next s

/-- `mwait` completes: with an order, after the thread's earlier loads (R177, R281). -/
def finishMwait (s : State) (bid tid : Nat) (b : Block) (w : WaitRec) (ord : Ord) : State :=
  if ordAcq ord && loadOut s bid [tid] s.seq then s else finishWait s bid tid b [tid] w.scope
/-- R175, R177: the monitor of the waiter has been signalled. -/
def execMonitorWake (bid tid : Nat) (s : State) : Out :=
  match waitOf s bid tid with
  | some (b, _, w) =>
    if !((monOf s bid tid).map (·.hit)).getD false then .next s
    else
      match w.kind with
      | .watch va pa _ _ _ _ => .next (reevaluate s bid tid b va pa)
      | .lwait va pa => .next (reevaluate s bid tid b va pa)
      | .mwait o => .next (finishMwait s bid tid b w o)
      | _ => .next s
  | none => .next s
/-- R175, R177: an instant of re-evaluation of a waiter whose monitor is not armed; of a ticket in host memory, the next read of
SERVE (R184). -/
def execMonitorFallback (bid tid : Nat) (s : State) : Out :=
  match waitOf s bid tid with
  | some (b, _, w) =>
    if w.poll = 0 || s.gtime < w.poll then .next s
    else
      let s1 := s.updThread bid tid (fun t => { t with status := .waiting { w with poll := s.gtime + 1000 } })
      match w.kind with
      | .watch va pa _ _ _ _ => .next (reevaluate s1 bid tid b va pa)
      | .lwait va pa => .next (reevaluate s1 bid tid b va pa)
      | .mwait o => .next (finishMwait s1 bid tid b w o)
      | .ticket va pa _ _ => .next (if tgtHost s pa && !w.got then reevaluate s1 bid tid b (va + 4) (pa + 4) else s1)
      | _ => .next s1
  | none => .next s
/-- The watched address of a wait that can time out. -/
def watchedVa (s : State) (bid tid : Nat) (w : WaitRec) : Option Dword :=
  match w.kind with
  | .watch va _ _ _ _ _ => some va
  | .mwait _ => some (((monOf s bid tid).map (·.va)).getD 0)
  | _ => none
/-- R175, R177: MONTO, with EPC at the clause and ESLOT at the word. It revives a dormant block (R50). -/
def execWaitTimeout (bid tid : Nat) (s : State) : Out :=
  match waitOf s bid tid with
  | some (_, t, w) =>
    match watchedVa s bid tid w with
    | some va =>
      if w.deadline = 0 || s.gtime < w.deadline then .next s
      else
        .next (wakeBlock (takeTrap (disarm s bid tid) bid t.slot
          [{ tid := tid, causes := [{ bit := 8, addr := va, info := 0 }], epc := w.clause, eslot := w.pos }]) bid)
    | none => .next s
  | none => .next s

/-! ## Tickets and boosts (R181 to R184, R337) -/

/-- HOLDER of a thread (R179). -/
def holderOf (s : State) (b : Block) (slot : Nat) : Nat := 2 ^ 31 + s.sys.devid % 1024 * 2 ^ 14 + slot * 256 + b.home
/-- A block becomes the holder of a ticket word, and no other is. -/
def setHolder (s : State) (bid key holder : Nat) : State :=
  { s with blocks := s.blocks.mapVal (fun k b =>
      let rest := b.tickets.filter (fun e => e.1 != key)
      { b with tickets := if k = bid then (key, holder) :: rest else rest }) }
/-- A waiter is granted its ticket: HOLDER is written, and the core's copy of the line goes (R275). -/
def grantTicket (s : State) (bid tid : Nat) (b : Block) (t : Thread) (w : WaitRec) (pa : Nat) : State :=
  let h := holderOf s b t.slot
  let s1 := (homeWrite s (pa + 8) (leBytes 4 h) false).updCore b.home (fun k => k.invalLine (pa / 64))
  finishWait (setHolder s1 bid (pa / 16) h) bid tid b [tid] w.scope
/-- R181: SERVE equals the ticket and HOLDER is written in one step at the home slice, which the core's fill tracker and the slice must
have room for (R244, R245, R251); on host memory the Swap that follows the read which found SERVE equal (R184). A wait through the
remote window asks the word's home again. -/
def execTkwaitGrant (bid tid : Nat) (s : State) : Out :=
  match waitOf s bid tid with
  | some (b, t, w) =>
    match w.kind with
    | .ticket va pa ticket _ =>
      match waitTgt s bid tid b va pa 16 .write with
      | (s, none) => .next s
      | (s, some pa) =>
      if tgtRemote pa then .next ((sendEval s b.home bid tid va pa).getD s)
      else if tgtControl s pa || lineOut s b.home pa then .next s
      else if tgtHost s pa then .next (if w.got && s.sys.hostL0 then grantTicket s bid tid b t w pa else s)
      else if !atomFree s (pa / 64) || !coreRoom s (pa / 64) || Config.fillEntries ≤ (s.core b.home).fills.length then .next s
      else
        let s1 := seeLine s (pa / 64)
        let x := seenWord s1 (lineNow s1 (pa / 64)).bad (leNat (nowBytes s1 (pa + 4) 4))
        .next (if x.2 = ticket.toNat then grantTicket x.1 bid tid b t w pa else x.1)
    | _ => .next s
  | none => .next s

/-- The priorities of the waiters on a ticket word, by its key: threads of this device by their blocks', and other devices'. -/
def ticketPrios (s : State) (key : Nat) : List Nat :=
  (s.blocks.filter (fun e => !(e.2.waitersFor (fun w => match w.kind with
      | .ticket _ p _ _ => ticketKey s p == key
      | _ => false)).isEmpty)).map (fun e => e.2.prio)
    ++ s.far.filterMap (fun m => match m.ticket with
      | some (k, p) => if k = key then some p else none
      | none => none)
/-- A boost of a word reaches a block: it lasts 2 µs, and a higher one that is in force stays (R337). -/
def Block.boost (b : Block) (key prio until_ : Nat) : Block :=
  { b with boosts := (key, prio, until_) :: b.boosts.filter (fun e => !(e.1 == key && decide (e.2.1 ≤ prio))) }
/-- The blocks that hold tickets with a HOLDER, of a word where one is named, are boosted: wherever they stand now (R183). -/
def boostHolders (s : State) (key : Option Nat) (holder prio : Nat) : State :=
  { s with blocks := s.blocks.mapVal (fun _ b =>
      (b.tickets.filter (fun e => e.2 == holder && (key.map (· == e.1)).getD true)).foldl (fun b e => b.boost e.1 prio (s.gtime + 2000)) b) }
/-- A boost for a HOLDER: to a block of this device, or over the fabric to a device that can be reached (R183). -/
def sendBoost (s : State) (key holder prio : Nat) : State :=
  let dev := holder / 2 ^ 14 % 1024
  if holder < 2 ^ 31 then s
  else if dev = s.sys.devid then boostHolders s (some key) holder prio
  else if (pathOf s dev).isSome then
    { s with boosts := { holder := BitVec.ofNat 32 holder, prio := prio, time := s.gtime }
                        :: s.boosts.filter (fun b => b.holder.toNat != holder) }
  else s
/-- The home slice of a ticket word sends the highest PRIO among its waiters to the holder's block (R183). -/
def boostWord (s : State) (pa : Nat) : State :=
  let s1 := seeLine s (pa / 64)
  let x := seenWord s1 (lineNow s1 (pa / 64)).bad (leNat (nowBytes s1 (pa / 16 * 16 + 8) 4))
  sendBoost x.1 (pa / 16) x.2 ((ticketPrios s (pa / 16)).foldl Nat.max 0)
/-- The ticket word here on which another device's lane waits, by the device and the HOLDER that the lane would write. -/
def farTicket (s : State) (src holder : Nat) : Option Nat :=
  (s.far.find? (fun m => m.src == src && m.tag == holder)).bind (fun m => m.ticket.map (fun t => t.1 * 16))
/-- The boost of a word on which another device's lane waits. -/
def boostFar (s : State) (src holder : Nat) : State :=
  match farTicket s src holder with
  | some pa => boostWord s pa
  | none => s
/-- R183: the waiter is a thread of this device, by its block and tid, or another device's lane, by its device and its HOLDER, which has
bit 31 set as no tid has. For a word in host memory each waiter's own PRIO is sent, at its re-evaluations; for a word of another device
that device sends the boost. -/
def execTicketBoost (bid tid : Nat) (s : State) : Out :=
  match waitOf s bid tid with
  | some (b, _, w) =>
    match w.kind with
    | .ticket _ tgt _ _ =>
      match monPlace s tgt with
      | some pa =>
        if tgtRemote pa || tgtControl s pa then .next s
        else if tgtHost s pa then .next (if s.sys.hostL0 then sendBoost s (pa / 16) (s.num (pa + 8) 4) b.prio else s)
        else .next (boostWord s pa)
      | none => .next s
    | _ => .next s
  | none => .next (boostFar s bid tid)
/-- R337: a boost lapses 2 µs after its last repeat. -/
def execBoostExpire (bid word : Nat) (s : State) : Out :=
  .next (s.updBlock bid (fun b =>
    { b with boosts := b.boosts.filter (fun e => !(e.1 == word && decide (e.2.2 ≤ s.gtime))) }))
/-- The throttle class of a block (R336). -/
def throttleClass (b : Block) : Nat := b.boosts.foldl (fun n e => Nat.max n e.2.1) b.prio

/-! ## Releases (R195, R347, R400) -/

/-- R400: fronds of a core whose wave has come. -/
def execReleaseWave (core : Nat) (s : State) : Out :=
  let go (t : Thread) : Thread := match t.status with
    | .waiting w => if (w.wave.map (fun d => decide (d ≤ s.gtime))).getD false then t.wake else t
    | _ => t
  .next { s with blocks := s.blocks.mapVal (fun _ b =>
    if b.core? = some core then { b with threads := b.threads.mapVal (fun _ t => go t) } else b) }
/-- What has released a waiting thread: a barrier of its block, a cohort, a write of a line (R400). -/
def eventOf (bid : Nat) (b : Block) (w : WaitRec) : Nat × Nat × Nat :=
  match w.kind with
  | .barr i _ => (0, bid, i)
  | .phase i _ => (0, bid, i)
  | .cbar k => (1, b.launch, ((b.coh[k]?).map (·.id)).getD 0)
  | .watch _ _ _ _ _ _ => (2, w.line, 0)
  | .ticket _ _ _ _ => (2, w.line, 0)
  | .lwait _ _ => (2, w.line, 0)
  | .mwait _ => (2, w.line, 0)
  | .stepn => (4, bid, 0)
  | .bjoin => (5, bid, 0)
  | .sleep _ => (6, bid, 0)
/-- The waves of a core that are still to come: each frond slot with what releases it and its instant. -/
def pendingWaves (s : State) (core : Nat) : List ((Nat × Nat × Nat) × Nat × Nat) :=
  let waits := (s.blocks.map (fun e => if e.2.core? ≠ some core then [] else e.2.threads.filterMap (fun t => match t.2.status with
    | .waiting w => w.wave.bind (fun d => if s.gtime < d then some (eventOf e.1 e.2 w, d, t.2.slot) else none)
    | _ => none))).flatten
  let mons := s.mons.filterMap (fun m => match waiterPlace s m with
    | some (k, slot) => if k = core && m.hit && decide (s.gtime < m.due) then some ((2, m.line, 0), m.due, slot) else none
    | none => none)
  waits ++ mons
/-- The new instant of a frond slot's wave: the next wave of its event keeps its own, and from it on WAVE and GAP are the new ones. -/
def retimed (s : State) (core : Nat) (ev : Nat × Nat × Nat) (slot old : Nat) : Nat :=
  let l := sortBy id ((pendingWaves s core).filterMap (fun e => if e.1 = ev then some (e.2.1 * Config.slots + e.2.2) else none))
  match l.head? with
  | some first => first / Config.slots + indexIn ((l.map (· % Config.slots)).eraseDups) slot / waveSize s * waveGap s
  | none => old
/-- R400: a write of DIDT applies from the next wave of each core. -/
def retime (s : State) : State :=
  let wait (core bid : Nat) (b : Block) (t : Thread) : Thread := match t.status with
    | .waiting w => match w.wave with
      | some d => if s.gtime < d then t.waveTo (retimed s core (eventOf bid b w) t.slot d) else t
      | none => t
    | _ => t
  let mon (m : Mon) : Mon := match waiterPlace s m with
    | some (core, slot) => if m.hit && decide (s.gtime < m.due) then { m with due := retimed s core (2, m.line, 0) slot m.due } else m
    | none => m
  { s with mons := s.mons.map mon, blocks := s.blocks.mapVal (fun bid b => match b.core? with
    | some core => { b with threads := b.threads.mapVal (fun _ t => wait core bid b t) }
    | none => b) }
/-- R195. -/
def execStepnRelease (bid : Nat) (s : State) : Out := .next (stepnCheck s bid)
/-- R347: the held writes of a block proceed. -/
def execSlotWriteRelease (bid : Nat) (s : State) : Out :=
  match s.block bid with
  | some b =>
    if slotHeld s b then .next s
    else .next (s.updBlock bid (fun b => { b with fronds := b.fronds.mapVal (fun _ f => { f with held := false }) }))
  | none => .next s

/-! ## Convoys and timers (R193, R374) -/

/-- R193, R261: every laggard that CVREL has run out for is detached, while a member is held behind it; once the instant of expiry is
over, since an advance in it comes first. -/
def execConvoyDetach (l cohort : Nat) (s : State) : Out :=
  match (s.launch l).bind (fun x => x.cohorts[cohort]?) with
  | none => .next s
  | some c =>
    match c.heldAt, lowestActive c with
    | some h, some low =>
      let late (m : Member) : Bool :=
        m.active && m.pos == low && decide (m.pos < m.count) && decide (Nat.max m.adv h + c.rel < s.gtime)
      if c.conv.any (fun e => late e.2) then
        let conv := c.conv.mapVal (fun _ m => if late m then { m with active := false, detached := true } else m)
        .next (s.updLaunch l (fun x => { x with cohorts := x.cohorts.set cohort { c with conv := conv } }))
      else .next s
    | _, _ => .next s
/-- The deadline of a frond fires (R374). -/
def fireTimer (s : State) (bid slot : Nat) (b : Block) (f : Frond) : State :=
  let cause : Cause := { bit := 9, addr := 0, info := f.ftimer }
  let s1 := s.updFrond bid slot (fun f => { f with ftimer := 0 })
  s1.updThreads bid ((b.liveMembers slot).map (·.1)) (fun _ t => t.queueCause cause)
/-- The deadline of a frond is due. -/
def timerDue (s : State) (f : Frond) : Bool := f.ftimer != 0 && decide (f.ftimer.toNat ≤ s.gtime)
/-- R374: FTIMER is cleared and FTIME reaches every member of the frond. -/
def execFtimerFire (bid slot : Nat) (s : State) : Out :=
  match s.block bid with
  | none => .next s
  | some b =>
    match b.fronds.get? slot with
    | none => .next s
    | some f =>
      if timerDue s f && b.core?.isSome then .next (fireTimer s bid slot b f) else .next s

end Sys2Proof.Machine
end

