-- ==== Sys2Proof/Machine/Sequencer.lean ====
section
/-! DEFINITION. The launch sequencer's accesses (R331, R333, R341), task records and code-object headers (R54, R318),
nodes and their head/tail lines (R320 to R325), publication (R321), join cells and completion actions (R331 to R335). -/

namespace Sys2Proof.Machine

/-! ## Accesses of the sequencer -/

/-- The answer to an access: it can be made, it waits (for a page, for the host link), it fails after service. -/
inductive SeqAns where
  | ok | wait | fail
  deriving DecidableEq, Repr
/-- What a read of the sequencer brings. -/
inductive SeqRead where
  | data (bytes : List Byte) (bad : Bool) | wait | fail
  deriving DecidableEq, Repr

/-- An agent that accesses memory through the sequencer, the hub or the remote window: the node that a page-fault record names, and a
number by which its waits are known. -/
structure Agent where
  node : Nat
  who  : Nat
  deriving DecidableEq, Repr
def Agent.ofNode (node : Nat) : Agent := { node := node, who := 8 * node }
def Agent.ofLaunch (node l : Nat) : Agent := { node := node, who := 8 * l + 1 }
def Agent.ofPost (node cell owner : Nat) : Agent := { node := node, who := 8 * (cell + 2 ^ 64 * owner) + 2 }
def Agent.ofOp (node id : Nat) : Agent := { node := node, who := 8 * id + 3 }
def Agent.ofBlock (node bid : Nat) : Agent := { node := node, who := 8 * bid + 4 }
def Agent.ofAudit (node l : Nat) : Agent := { node := node, who := 8 * l + 5 }
def Agent.ofFar (src tag : Nat) : Agent := { node := 0, who := 8 * (tag + 2 ^ 64 * src) + 6 }
/-- An access of an agent meets a page that is not present: it joins the fault outstanding there, or opens one (R380). -/
def agentWaits (s : State) (c : Nat) (ag : Agent) (va : Dword) (info : Nat) : State :=
  pageAbsent (s.updCtx c (fun x => { x with waits := x.waits ++ [(pageOf va, ag.who)] })) c va info 1 noWhere 0 0 ag.node
/-- An agent's access to a page has been refused: it ends, and takes its refusal with it. -/
def agentDenied (s : State) (c : Nat) (ag : Agent) (page : Nat) : State :=
  s.updCtx c (fun x => { x with denied := x.denied.filter (fun w => w != (page, ag.who)) })
/-- One page's check; a page that is not present is reported once for each agent and waited for, unless the agent has been refused it
(R380). -/
def seqPage (s : State) (c : Nat) (ag : Agent) (va : Dword) (a : Acc) : State × SeqAns :=
  match seqChk s c va a with
  | .ok pa _ => (s, if tgtHost s pa && !s.sys.hostL0 then .wait else .ok)
  | .absent =>
    if (s.ctx c).denied.contains (pageOf va, ag.who) then (agentDenied s c ag (pageOf va), .fail)
    else (agentWaits s c ag va (4 + b2n (a == .write)), .wait)
  | _ => (s, .fail)
/-- The first address in each page of a range. -/
def pageStarts (va n : Nat) : List Dword :=
  if n = 0 then []
  else (List.range ((va + n - 1) / 65536 - va / 65536 + 1)).map (fun i =>
    d64 (if i = 0 then va else (va / 65536 + i) * 65536))
/-- What a write of a range meets beyond its pages: a register of the control space that it may not reach (R392), or the atomics queued on
a line (R244). -/
def seqStore (s : State) (c : Nat) (va : Dword) (n : Nat) : SeqAns :=
  let at_ (p : Dword × Nat) (f : Nat → Bool) : Bool := match seqChk s c p.1 .write with
    | .ok pa _ => f pa
    | _ => false
  if (pieces va.toNat n).any (fun p => at_ p (fun pa => controlHit s pa p.2)) then .fail
  else if (pieces va.toNat n).any (fun p => at_ p (fun pa => heldLine s (pa / 64))) then .wait
  else .ok
/-- The check of a range: its pages in order up to the first that stops it. An agent that waits for one of them makes no walk; the lines
of the walks are read (R262), for which the home slices must have room (R245). -/
def seqRange (s : State) (c : Nat) (ag : Agent) (va : Dword) (n : Nat) (a : Acc) : State × SeqAns :=
  if (pageStarts va.toNat n).any (fun v => (s.ctx c).waits.contains (pageOf v, ag.who)) || !pagesRoom s c va n then (s, .wait)
  else
    match (pageStarts va.toNat n).foldl (fun acc v => match acc.2 with
      | .ok => seqPage acc.1 c ag v a
      | _ => acc) (touchPages s c va n, SeqAns.ok) with
    | (s1, .ok) => (s1, if a = .write then seqStore s1 c va n else .ok)
    | r => r
/-- The bytes of the pieces of a readable range, with poison (R262). -/
def seqPieces (c : Nat) : State → List (Dword × Nat) → State × List Byte × Bool
  | s, [] => (s, [], false)
  | s, p :: t =>
    let r : State × List Byte × Bool := match seqChk s c p.1 .read with
      | .ok pa _ =>
        if tgtControl s pa then (s, controlBytes s (pa - Config.csBase) p.2, false)
        else let s1 := seeLine s (pa / 64); (s1, nowBytes s1 pa p.2, (lineNow s1 (pa / 64)).bad)
      | _ => (s, List.replicate p.2 0, false)
    let q := seqPieces c r.1 t
    (q.1, r.2.1 ++ q.2.1, r.2.2 || q.2.2)
/-- Whether the home slices of a range's lines can accept a read of the sequencer now (R244, R245). -/
def seqRoom (s : State) (c : Nat) (va : Dword) (n : Nat) : Bool :=
  (pieces va.toNat n).all (fun p => match seqChk s c p.1 .read with
    | .ok pa _ => tgtControl s pa || hubRoom s (pa / 64)
    | _ => true)
/-- Whether an atomic of the sequencer or the hub at an address can be made now (R244). -/
def seqFree (s : State) (c : Nat) (va : Dword) : Bool :=
  match seqChk s c va .write with
  | .ok pa _ => atomFree s (pa / 64)
  | _ => true
/-- What such an atomic finds within its line, and whether the line is poisoned (R262, R386). -/
def seqOld (s : State) (c : Nat) (va : Dword) (n : Nat) : State × List Byte × Bool :=
  match seqChk s c va .write with
  | .ok pa _ =>
    if tgtControl s pa then (s, controlBytes s (pa - Config.csBase) n, false)
    else let s1 := touchLine s (pa / 64); (s1, Memory.read s1.mem pa n, lineBad s1 (pa / 64))
  | _ => (s, List.replicate n 0, false)
/-- Reads a range; it waits for a page, for the host link, for room at a home slice. -/
def seqRead (s : State) (c : Nat) (ag : Agent) (va : Dword) (n : Nat) : State × SeqRead :=
  match seqRange s c ag va n .read with
  | (s1, .ok) =>
    if seqRoom s1 c va n then let r := seqPieces c s1 (pieces va.toNat n); (r.1, .data r.2.1 r.2.2) else (s1, .wait)
  | (s1, .wait) => (s1, .wait)
  | (s1, .fail) => (s1, .fail)
/-- Writes a range. -/
def seqWrite (s : State) (c : Nat) (ag : Agent) (va : Dword) (bytes : List Byte) (bad : Bool) : State × SeqAns :=
  match seqRange s c ag va bytes.length .write with
  | (s1, .ok) => (vwriteLines (bytes.length / 64 + 2) s1 c va bytes bad, .ok)
  | r => r
/-- The first address of a range's pages at which an access fails. -/
def failAt (s : State) (c : Nat) (va : Dword) (n : Nat) (a : Acc) : Dword :=
  ((pageStarts va.toNat n).find? (fun v => match seqChk s c v a with | .ok _ _ => false | _ => true)).getD va
/-- A field of some bytes. -/
def fld (bs : List Byte) (o n : Nat) : Nat := leNat ((bs.drop o).take n)
/-- Whether some bytes are all 0. -/
def zeroAt (bs : List Byte) (o n : Nat) : Bool := ((bs.drop o).take n).all (· == 0)
/-- A record of the context fault log whose source is no thread (R382). -/
def seqEvent (s : State) (c kind node : Nat) (addr obj : Dword) (info1 info2 : Nat) : State :=
  logEvent s c (mkRecord kind noWhere s.gtime addr obj 0 node (d64 info1) (d64 info2))

/-! ## Records and headers (R54, R318) -/

/-- A task record (R318). -/
def recOf (bs : List Byte) : TaskRec :=
  { code := d64 (fld bs 0 8), arg := d64 (fld bs 8 8),
    tile := (BitVec.ofNat 32 (fld bs 16 4), BitVec.ofNat 32 (fld bs 20 4), BitVec.ofNat 32 (fld bs 24 4)),
    count := fld bs 28 4, succ := d64 (fld bs 32 8), siga := d64 (fld bs 40 8), sigv := d64 (fld bs 48 8),
    flags := BitVec.ofNat 32 (fld bs 56 4), cohoff := fld bs 60 4 }
def TaskRec.prio (r : TaskRec) : Nat := r.flags.toNat % 8
def TaskRec.auditable (r : TaskRec) : Bool := r.flags.getLsbD 3
def TaskRec.early (r : TaskRec) : Bool := r.flags.getLsbD 4
def TaskRec.paced (r : TaskRec) : Bool := r.flags.getLsbD 5
def TaskRec.notify (r : TaskRec) : Bool := r.flags.getLsbD 6
/-- The fields of a header that a block keeps (R54). -/
def hdrOf (bs : List Byte) : CodeHdr :=
  { features := fld bs 0x08 16, entry := fld bs 0x18 4, trap := fld bs 0x1C 4, regs := fld bs 0x20 2,
    scratch := fld bs 0x24 4, priv := fld bs 0x28 4, accum := fld bs 0x2C 4, bx := fld bs 0x30 2, byy := fld bs 0x32 2,
    bz := fld bs 0x34 2, pslot := fld bs 0x38 4, pskew := fld bs 0x3C 1, cohn := fld bs 0x40 4, codesz := fld bs 0x44 4,
    datasz := fld bs 0x48 4, ctoff := fld bs 0x4C 4, ctn := fld bs 0x50 4 }
/-- Threads and fronds of a block (R29). -/
def CodeHdr.threads (h : CodeHdr) : Nat := h.bx * h.byy * h.bz
def CodeHdr.fronds (h : CodeHdr) : Nat := (h.threads + 31) / 32
/-- Whether a clause offset lies in the code section (R53, R55). -/
def CodeHdr.clauseAt (h : CodeHdr) (o : Nat) : Bool := o % 8 == 0 && decide (0x100 ≤ o) && decide (o + 8 ≤ 0x100 + h.codesz)
/-- The first check of R55 that a header fails, by its number in R319: identity, reserved, features, limits, offsets. -/
def hdrReason (p : Config.Part) (bs : List Byte) : Option Nat :=
  let h := hdrOf bs
  let codeEnd := 0x100 + h.codesz
  let dataEnd := codeEnd + h.datasz
  let reserved := zeroAt bs 0x06 2 && zeroAt bs 0x22 2 && zeroAt bs 0x36 2 && zeroAt bs 0x3D 3 && zeroAt bs 0x54 172
  let limits := h.regs % 16 == 0 && decide (16 ≤ h.regs) && decide (h.regs ≤ 640) && decide (h.scratch ≤ 786432)
    && h.priv % 4 == 0 && decide (h.priv ≤ 65536) && h.accum % 64 == 0 && decide (h.accum ≤ 4096) && decide (1 ≤ h.bx)
    && decide (1 ≤ h.byy) && decide (1 ≤ h.bz) && decide (h.threads ≤ 1024) && decide (h.pskew ≤ 7)
    && decide (h.cohn ≤ 256) && h.codesz % 8 == 0 && decide (16 ≤ h.codesz)
  let table := if h.ctoff = 0 then h.ctn == 0
    else h.ctoff % 8 == 0 && decide (codeEnd ≤ h.ctoff) && decide (h.ctoff < dataEnd) && decide (h.ctoff + 8 * h.ctn ≤ dataEnd)
  let checks := [ (fld bs 0 4 == 0x4F584D45 && fld bs 5 1 == 1, 2), (reserved, 3),
    ((h.features &&& p.caps0.toNat) == h.features, 4), (limits, 5),
    (h.clauseAt h.entry && (h.trap == 0 || h.clauseAt h.trap) && table, 6) ]
  (checks.find? (fun c => !c.1)).map (·.2)

/-! ## Nodes (R320 to R324) -/

/-- The node of a context. -/
def nodeAt (s : State) (c n : Nat) : Option Node := (s.ctx c).nodes.get? n
/-- Changes a node. -/
def updNode (s : State) (c n : Nat) (f : Node → Node) : State := s.updCtx c (fun x => { x with nodes := x.nodes.modify n f })
/-- A word of a node's head/tail line is written by the sequencer, when the line can be written. -/
def writeHtl (s : State) (c n off v : Nat) : State :=
  match nodeAt s c n with
  | some x => (vwrite s c (x.htl + d64 off) (leBytes 4 v)).getD s
  | none => s
/-- A node enters a state, and PSTATE is written (R323). -/
def setNode (s : State) (c n st : Nat) : State := writeHtl (updNode s c n (fun x => { x with st := st })) c n 0x10 st
/-- HEAD advances (R321). -/
def advanceHead (s : State) (c n k : Nat) : State :=
  match nodeAt s c n with
  | some x =>
    let h := x.head + BitVec.ofNat 32 k
    writeHtl (updNode s c n (fun x => { x with head := h })) c n 0 h.toNat
  | none => s
/-- A node entry: undefined when a field breaks its limits (R320). -/
def entryOf (bs : List Byte) : Node :=
  let q := fld bs 0x18 1
  let g := fld bs 0x1A 1
  let ok := fld bs 0 8 % 4096 == 0 && fld bs 8 8 % 64 == 0 && fld bs 0x10 8 % 4 == 0 && decide (6 ≤ q) && decide (q ≤ 20)
    && decide (fld bs 0x19 1 < 8) && decide (1 ≤ g) && decide (g ≤ 64) && fld bs 0x1B 1 == 1 && zeroAt bs 0x20 32
  { ok := ok, qbase := d64 (fld bs 0 8), htl := d64 (fld bs 8 8), pred := d64 (fld bs 0x10 8), size := 2 ^ (q % 32),
    prio := fld bs 0x19 1 % 8, gang := g, flush := fld bs 0x1C 4, st := 0, head := 0, tail := 0, gate := 0, seen := [],
    wait := false }
/-- The head/tail line as read: HEAD, TAIL, RESV, GATE, PSTATE. -/
def readHtl (s : State) (c n : Nat) (x : Node) : State × SeqRead := seqRead s c (.ofNode n) x.htl 64
/-- Records published and not consumed (R321). -/
def ahead (tail head : Word) : Nat := (tail - head).toNat
/-- Whether a TAIL covers the record at HEAD of a ring. -/
def covers (size : Nat) (tail : Nat) (head : Word) : Bool :=
  let d := ahead (BitVec.ofNat 32 tail) head
  decide (0 < d) && decide (d ≤ size)
/-- The TAILs that cover the record at HEAD, with the instants at which they were first read (R326, R327). -/
def seenNow (seen : List (Nat × Nat)) (size : Nat) (head tail : Word) (now : Nat) : List (Nat × Nat) :=
  let kept := seen.filter (fun e => covers size e.1 head)
  if kept.any (fun e => e.1 == tail.toNat) || !covers size tail.toNat head then kept else kept ++ [(tail.toNat, now)]
/-- A node whose entry or line awaits a page: it is read again later. -/
def awaitNode (s : State) (c n : Nat) : State :=
  let x := (nodeAt s c n).getD { entryOf [] with ok := false }
  s.updCtx c (fun y => { y with nodes := y.nodes.put n { x with wait := true } })
/-- Whether a head/tail line lies elsewhere than in device memory (R320). -/
def htlOutside (s : State) (c : Nat) (x : Node) : Bool :=
  match seqChk s c x.htl .read with
  | .ok pa _ => !tgtDram s pa
  | _ => false
/-- The record of a node whose actions a skip has begun (R323) is forgotten when HEAD has moved past it: it is passed over (R324). -/
def dropSkip (s : State) (c n : Nat) (head : Word) : State :=
  if (nodeAt s c n).all (fun x => x.head == head) then s
  else { s with launches := s.launches.filter (fun e => !(e.2.ctx == c && e.2.node == n && e.2.count == 0)) }
/-- The sequencer reads a node's entry and its line, and the node enters the closed state, or stays frozen (R320, R324). The instant
at which the head record was first seen stays that of the earlier read (R326). A node whose entry cannot be read after service, or is
read poisoned, is taken as one not defined (DESIGN CHOICE, log entry 60: R320 names no outcome). -/
def defineNode (s : State) (c n : Nat) : State :=
  let seen := ((nodeAt s c n).map (·.seen)).getD []
  let put (s : State) (x : Node) : State := s.updCtx c (fun y => { y with nodes := y.nodes.put n x })
  match seqRead s c (.ofNode n) ((s.ctx c).nodesAt + d64 (64 * n)) 64 with
  | (s1, .wait) => awaitNode s1 c n
  | (s1, .fail) => put s1 { entryOf [] with ok := false }
  | (s1, .data bs bad) =>
    let x := entryOf bs
    if bad || !x.ok || htlOutside s1 c x then put s1 { x with ok := false }
    else
      match readHtl s1 c n x with
      | (s2, .wait) => awaitNode s2 c n
      | (s2, .data l false) =>
        let h : Word := BitVec.ofNat 32 (fld l 0 4)
        let t : Word := BitVec.ofNat 32 (fld l 4 4)
        let y := { x with head := h, tail := t, gate := BitVec.ofNat 32 (fld l 12 4), seen := seenNow seen x.size h t s2.gtime }
        setNode (put (dropSkip s2 c n h) y) c n (if x.size < ahead t h then 3 else 0)
      | (s2, _) => put s2 { x with st := 3 }

/-! ## Publication (R230, R321) -/

/-- How a reservation, or a publication, ends: it waits; the line cannot be written; slots are reserved from a number on; published,
with the slots that could not be written. -/
inductive PubAns where
  | wait | line (va : Dword) | first (n : Nat) | done (bad : List Dword)
  deriving DecidableEq, Repr
/-- Step 1 of R321: `k` slots are reserved by an add to RESV, an atomic at the line's home slice (R244). A poisoned line counts as one
that cannot be written (DESIGN CHOICE, log entry 60: R230 and R333 do not name it). -/
def reserveSlots (s : State) (c n who k : Nat) : State × PubAns :=
  match nodeAt s c n with
  | none => (s, .wait)
  | some x =>
    match seqRange s c { node := n, who := who } x.htl 64 .write with
    | (s1, .wait) => (s1, .wait)
    | (s1, .fail) => (s1, .line x.htl)
    | (s1, .ok) =>
      if !seqFree s1 c x.htl then (s1, .wait)
      else
        let l := seqOld s1 c x.htl 64
        let resv := fld l.2.1 8 4
        if l.2.2 then (l.1, .line x.htl) else (writeHtl l.1 c n 8 ((resv + k) % 2 ^ 32), .first resv)
/-- The records written into their slots: the addresses of those that cannot be written. None while a page is awaited. -/
def writeSlots (c n who : Nat) (x : Node) : State → Nat → List (List Byte × Bool) → State × Option (List Dword)
  | s, _, [] => (s, some [])
  | s, i, r :: t =>
    let va := x.qbase + d64 (64 * (i % x.size))
    match seqWrite s c { node := n, who := who } va r.1 r.2 with
    | (s1, .wait) => (s1, none)
    | (s1, a) =>
      match writeSlots c n who x s1 (i + 1) t with
      | (s2, some l) => (s2, some (if a = .fail then va :: l else l))
      | r => r
/-- Steps 2 to 4 of R321, for slots reserved from `first` on: once the ring has room and every earlier reservation has been
published, the records are written and TAIL advances; a slot that cannot be written freezes the node (R230, R333). -/
def publish (s : State) (c n who first : Nat) (recs : List (List Byte × Bool)) : State × PubAns :=
  match nodeAt s c n with
  | none => (s, .wait)
  | some x =>
    match seqRange s c { node := n, who := who } x.htl 64 .write with
    | (s1, .wait) => (s1, .wait)
    | (s1, .fail) => (s1, .line x.htl)
    | (s1, .ok) =>
      if !seqRoom s1 c x.htl 64 then (s1, .wait)
      else
        let l := seqPieces c s1 (pieces x.htl.toNat 64)
        let next : Word := BitVec.ofNat 32 (first + recs.length)
        if l.2.2 then (l.1, .line x.htl)
        else if fld l.2.1 4 4 ≠ first || x.size < ahead next (BitVec.ofNat 32 (fld l.2.1 0 4)) then (l.1, .wait)
        else
          match writeSlots c n who x l.1 first recs with
          | (s2, none) => (s2, .wait)
          | (s2, some bad) =>
            let s3 := writeHtl s2 c n 4 next.toNat
            (if bad.isEmpty then s3 else setNode s3 c n 3, .done bad)

/-- The hub's writes of a range for an operation of a core remove that core's copies of its lines (R202, R249). -/
def hubInval (s : State) (core c : Nat) (va : Dword) (n : Nat) : State :=
  (pieces va.toNat n).foldl (fun s p => match seqChk s c p.1 .write with
    | .ok pa _ => s.updCore core (fun k => k.invalLine (pa / 64))
    | _ => s) s
/-- The copies that a core has of a node's line and slots go. -/
def invalNode (s : State) (core c n first k : Nat) : State :=
  match nodeAt s c n with
  | some x => (List.range k).foldl (fun s i => hubInval s core c (x.qbase + d64 (64 * ((first + i) % x.size))) 64) (hubInval s core c x.htl 64)
  | none => s
/-- An operation that has reached the hub and can go on: those before it in the engine queue have reached it, and its release has
performed (R200, R201). -/
def hubOp (s : State) (core op : Nat) : Option (Op × Block) :=
  match (s.core core).queue.find? (fun o => o.id == op) with
  | some o =>
    if o.done || o.frozen || o.waits.isSome || !hubTurn (s.core core) op || !relReady s core o then none
    else (s.block o.bid).map (fun b => (o, b))
  | none => none
/-- The hub takes `npost` (R230): it reserves slots, then publishes the records, which are read from the scratchpad as they are
written. -/
def npostStep (s : State) (core : Nat) (o : Op) (b : Block) (node n : Nat) : State :=
  let fault (s : State) (code : Nat) : State := endOp s core o.id (some (engflt o.parm o.opc code))
  let begun (s : State) : State := updOp s core o.id (fun o => { o with begun := true })
  let x := nodeAt s b.ctx node
  if o.stage = 0 then
    if (x.map (·.wait)).getD false then begun s
    else if !(x.map (·.ok)).getD false then fault s 9
    else
      match reserveSlots s b.ctx node (Agent.ofOp node o.id).who n with
      | (s1, .first k) => updOp (invalNode s1 core b.ctx node 0 0) core o.id (fun o => { o with begun := true, stage := 1, keep := k })
      | (s1, .line _) => fault s1 11
      | (s1, _) => begun s1
  else if b.rangeAbsent o.parm.toNat (64 * n) then s
  else
    let recs := (List.range n).map (fun i => (b.scrBytes (o.parm.toNat + 64 * i) 64, b.rangeBad (o.parm.toNat + 64 * i) 64))
    match publish s b.ctx node (Agent.ofOp node o.id).who o.keep recs with
    | (s1, .line _) => fault s1 11
    | (s1, .done bad) =>
      let s2 := invalNode s1 core b.ctx node o.keep n
      if bad.isEmpty then endOp s2 core o.id none else fault s2 11
    | (s1, _) => s1
/-- R230. -/
def execNpostExec (core op : Nat) (s : State) : Out :=
  match hubOp s core op with
  | some (o, b) =>
    match o.kind with
    | .npost node n => .next (npostStep s core o b node n)
    | _ => .next s
  | none => .next s

/-! ## Join cells (R332 to R334) -/

/-- A cell's target (R333): it is a bad cell; its node's entry or line awaits a page; its node, KIND, and the address of the prepared
record. -/
inductive CellAns where
  | bad | wait | goes (node kind : Nat) (rec_ : Dword)
  deriving DecidableEq, Repr
/-- What a cell's bytes name. -/
def cellOf (s : State) (c : Nat) (bs : List Byte) : CellAns :=
  let node := fld bs 8 2
  let kind := fld bs 10 2
  if 4 ≤ kind || !zeroAt bs 12 4 || !zeroAt bs 0x18 40 then .bad
  else
    match nodeAt s c node with
    | some x => if x.wait then .wait else if x.ok then .goes node kind (d64 (fld bs 0x10 8)) else .bad
    | none => .bad
/-- A cell that is bad: a record of kind 6 (R333). -/
def badCell (s : State) (c node : Nat) (cell : Dword) : State := seqEvent s c 6 node cell 0 0 0
/-- A firing's publication that failed: a record of kind 9 (R333). -/
def badPost (s : State) (c node : Nat) (va : Dword) : State := seqEvent s c 9 node va 0 2 0
/-- The GATE of a node goes down by one unless it is 0 (R333), an atomic at its home slice; that of a poisoned line is free (R386). False
while it waits. -/
def openGate (s : State) (c node who : Nat) : State × Bool :=
  match nodeAt s c node with
  | none => (s, true)
  | some x =>
    match seqRange s c { node := node, who := who } (x.htl + 12) 4 .write with
    | (s1, .wait) => (s1, false)
    | (s1, .fail) => (badPost s1 c node x.htl, true)
    | (s1, .ok) =>
      if !seqFree s1 c x.htl then (s1, false)
      else
        let r := seqOld s1 c (x.htl + 12) 4
        let g := seenWord r.1 r.2.2 (leNat r.2.1)
        (if g.2 = 0 then g.1 else writeHtl g.1 c node 12 (g.2 - 1), true)
/-- What a cell has begun is kept, in place of what was kept of it. -/
def keepPost (s : State) (c : Nat) (p : Post) : State :=
  s.updCtx c (fun x => { x with posts := x.posts.filter (fun q => !(q.cell == p.cell && q.owner == p.owner)) ++ [p] })
/-- A cell has nothing left to do. -/
def dropPost (s : State) (c : Nat) (p : Post) : State :=
  s.updCtx c (fun x => { x with posts := x.posts.filter (fun q => !(q.cell == p.cell && q.owner == p.owner)) })
/-- A cell's publication goes on: slots are reserved, then the record is published (R321, R333). -/
def stepPost (s : State) (c : Nat) (p : Post) : State × Post :=
  let ended (s : State) (bad : List Dword) : State × Post := (bad.foldl (fun s va => badPost s c p.node va) s, { p with raw := [] })
  let put (s : State) (k : Nat) : State × Post :=
    match publish s c p.node (Agent.ofPost p.node p.cell.toNat p.owner).who k [(p.raw, false)] with
    | (s1, .line va) => ended s1 [va]
    | (s1, .done bad) => ended s1 bad
    | (s1, _) => (s1, { p with first := some k })
  if p.raw.isEmpty then (s, p)
  else
    match p.first with
    | some k => put s k
    | none =>
      match reserveSlots s c p.node (Agent.ofPost p.node p.cell.toNat p.owner).who 1 with
      | (s1, .first k) => put s1 k
      | (s1, .line va) => ended s1 [va]
      | (s1, _) => (s1, p)
/-- What a cell has begun goes on: its publication, then GATE; false while it waits (R333). -/
def goPost (s : State) (c : Nat) (p : Post) : State × Bool :=
  match stepPost s c p with
  | (s1, q) =>
    if !q.raw.isEmpty then (keepPost s1 c q, false)
    else if q.gate then
      match openGate s1 c q.node (Agent.ofPost q.node q.cell.toNat q.owner).who with
      | (s2, true) => (dropPost s2 c q, true)
      | (s2, false) => (keepPost s2 c q, false)
    else (dropPost s1 c q, true)
/-- The prepared record of a cell with POST, none for one without. -/
def preparedOf (s : State) (c : Nat) (ag : Agent) (kind : Nat) (rec_ : Dword) : State × SeqRead :=
  if kind % 2 = 1 && rec_ != 0 then seqRead s c ag rec_ 64 else (s, .data [] false)
/-- The decrement that fires a cell, for a launch: what the cell posts, unless the record was posted early, then GATE (R333, R334).
A prepared record that cannot be read is a bad cell. -/
def fireCell (s : State) (l c src : Nat) (cell : Dword) (bs : List Byte) : State × Bool :=
  let dec (s : State) : State := vwriteLines 2 s c cell (leBytes 4 0) false
  match cellOf s c bs with
  | .bad => (badCell (dec s) c src cell, true)
  | .wait => (s, false)
  | .goes node kind rec_ =>
    match preparedOf s c (.ofLaunch node l) kind rec_ with
    | (s1, .wait) => (s1, false)
    | (s1, .data raw false) =>
      let s2 := (dec s1).updCtx c (fun x => { x with early := delNat x.early cell.toNat })
      goPost s2 c { cell := cell, owner := l, node := node, raw := if (recOf raw).early then [] else raw, first := none, gate := decide (2 ≤ kind) }
    | (s1, _) => (badCell s1 c src cell, true)
/-- The decrement of a join cell's COUNT for one record of a launch, with the firing that it brings (R331, R333); false while it,
or what the cell has begun, waits. -/
def joinCell (s : State) (l c node : Nat) (cell : Dword) : State × Bool :=
  match (s.ctx c).posts.find? (fun p => p.cell == cell && p.owner == l) with
  | some p => goPost s c p
  | none =>
    match seqRange s c (.ofLaunch node l) cell 64 .write with
    | (s1, .wait) => (s1, false)
    | (s1, .fail) => (badCell s1 c node cell, true)
    | (s1, .ok) =>
      if !seqFree s1 c cell then (s1, false) else
      let r := seqOld s1 c cell 64
      let n := fld r.2.1 0 4
      if r.2.2 then (badCell r.1 c node cell, true)
      else if n = 0 then (seqEvent r.1 c 5 node cell 0 0 0, true)
      else if n = 1 then fireCell r.1 l c node cell r.2.1
      else (vwriteLines 2 r.1 c cell (leBytes 4 (n - 1)) false, true)
/-- A cell's early-start record is posted (R334); while a page is awaited the cell stays asked. -/
def earlyPost (s : State) (c : Nat) (cell : Dword) : State :=
  let ask (s : State) : State := s.updCtx c (fun x => { x with asked := addNat x.asked cell.toNat })
  let drop (s : State) : State := s.updCtx c (fun x => { x with asked := delNat x.asked cell.toNat })
  if (s.ctx c).early.contains cell.toNat then drop s
  else
    match seqRead s c (.ofPost 0 cell.toNat 0) cell 64 with
    | (s1, .wait) => ask s1
    | (s1, .data bs false) =>
      match cellOf s1 c bs with
      | .wait => ask s1
      | .goes node kind rec_ =>
        match preparedOf s1 c (.ofPost node cell.toNat 0) kind rec_ with
        | (s2, .wait) => ask s2
        | (s2, .data raw false) =>
          if !(recOf raw).early then drop s2
          else
            (goPost ((drop s2).updCtx c (fun x => { x with early := addNat x.early cell.toNat })) c
              { cell := cell, owner := 0, node := node, raw := raw, first := none, gate := false }).1
        | (s2, _) => drop s2
      | .bad => drop s1
    | (s1, _) => drop s1
/-- The early posts that wait are tried again. -/
def earlyAgain (s : State) (c : Nat) : State :=
  let s1 := (s.ctx c).asked.foldl (fun s cell => earlyPost s c (d64 cell)) s
  ((s1.ctx c).posts.filter (fun p => p.owner == 0)).foldl (fun s p => (goPost s c p).1) s1

/-! ## Completion actions (R231, R323, R331) -/

/-- One completion action. -/
inductive Action where
  | trig (cell : Dword) (n : Nat) | join (cell : Dword) | signal (va v : Dword) | notify
  deriving DecidableEq, Repr
/-- The completion actions of one record, in order (R331). -/
def recActions (r : TaskRec) : List Action :=
  (if r.succ = 0 then [] else [.join r.succ]) ++ (if r.siga = 0 then [] else [.signal r.siga r.sigv])
    ++ (if r.notify then [.notify] else [])
/-- The completion actions of a launch; a skipped record first decrements TRIG once for each block it names (R323). -/
def Launch.actions (x : Launch) : List Action :=
  (x.recs.map (fun r => (if x.count = 0 && r.succ != 0 then [.trig r.succ r.count] else []) ++ recActions r)).flatten
/-- Up to `n` decrements of a trigger count. -/
def trigWord (s : State) (c : Nat) (ag : Agent) (cell : Dword) (n : Nat) : State × Bool :=
  let va := cell + 4
  match seqRange s c ag va 4 .write with
  | (s1, .wait) => (s1, false)
  | (s1, .fail) => (s1, true)
  | (s1, .ok) =>
    if !seqFree s1 c va then (s1, false) else
    let r := seqOld s1 c va 4
    let old := leNat r.2.1
    (if old = 0 || n = 0 then r.1 else vwriteLines 2 r.1 c va (leBytes 4 (old - n)) r.2.2, true)
/-- Whether a signal store through the remote window is on its way. -/
def signalOut (s : State) (l : Nat) : Bool := s.fab.remote.any (fun r => decide (r.req.who = .launch l))
/-- Whether an address lies in host memory while the host link is out of L0. -/
def linkDown (s : State) (c : Nat) (va : Dword) : Bool :=
  match seqChk s c va .write with
  | .ok pa _ => tgtHost s pa && !s.sys.hostL0
  | _ => false
/-- The signal store (R331); while the host link is out of L0 it waits (R403). Through the remote window it is sent once; its
acknowledgement, or its failure, ends the action. -/
def signalStore (s : State) (l c node : Nat) (va v : Dword) : State × Bool :=
  let since (s : State) (f : Option Nat → Option Nat) : State := s.updLaunch l (fun x => { x with linkSince := f x.linkSince })
  if va.toNat / 2 ^ 55 = 1 && s.part.full then
    if signalOut s l then (s, false)
    else
      match windowChk s va.toNat with
      | .remote dev off =>
        let tgt := remoteTgt dev off
        let r : Req := { seq := s.seq, time := s.gtime, va := va, line := tgt / 64, bid := 0, tid := l, tids := [], tok := none, acq := .none,
                         rel := .none, who := .launch l, kind := .write (tgt % 64) (leBytes 8 v.toNat) false }
        (sendRemote { s with seq := s.seq + 1 } 0 tgt r [], false)
      | _ => (seqEvent s c 9 node va 0 1 0, true)
  else
    match seqWrite s c (.ofLaunch node l) va (leBytes 8 v.toNat) false with
    | (s1, .ok) => (since s1 (fun _ => none), true)
    | (s1, .wait) => (since s1 (fun t => if linkDown s1 c va then some (t.getD s1.gtime) else none), false)
    | (s1, .fail) => (since (seqEvent s1 c 9 node va 0 1 0) (fun _ => none), true)
/-- Performs one action; false while it waits. -/
def perform (s : State) (l c node : Nat) : Action → State × Bool
  | .trig cell n => trigWord s c (.ofLaunch node l) cell n
  | .join cell => joinCell s l c node cell
  | .signal va v => signalStore s l c node va v
  | .notify => (msix s (s.ctx c).msix, true)
/-- The completion actions of a launch from its next one on; true when all are performed. -/
def performAll (l c node : Nat) : State → Nat → List Action → State × Bool
  | s, _, [] => (s, true)
  | s, k, a :: t =>
    match perform s l c node a with
    | (s1, true) => performAll l c node (s1.updLaunch l (fun x => { x with acts := some (k + 1) })) (k + 1) t
    | (s1, false) => (s1, false)
/-- Goes on with a launch's completion actions. -/
def finishLaunch (s : State) (l : Nat) : State × Bool :=
  match s.launch l with
  | none => (s, true)
  | some x =>
    let k := x.acts.getD 0
    performAll l x.ctx x.node s k (x.actions.drop k)
/-- A launch leaves the device. -/
def dropLaunch (s : State) (l : Nat) : State := { s with launches := s.launches.del l }

/-- The join cells that a block's records name, once each (R231). -/
def blockCells (s : State) (b : Block) : List Dword :=
  ((s.launch b.launch).map (fun x => (x.recs.filterMap (fun r => if r.succ = 0 then none else some r.succ)).eraseDups)).getD []
/-- The hub takes `ltrig` (R231): the first of its block decrements each cell's trigger count once, `next` counting the cells; a later
one has no effect. -/
def ltrigStep (s : State) (core : Nat) (o : Op) (b : Block) : State :=
  let cells := blockCells s b
  let begun (s : State) (n : Nat) : State := updOp s core o.id (fun o => { o with begun := true, stage := 1, next := n })
  if b.trigged && o.stage = 0 then endOp s core o.id none
  else if o.stage = 0 && !releaseReady s core o.bid o.tids .dev o.seq then startOp s core o.id
  else
    let s1 := s.updBlock o.bid (fun b => { b with trigged := true })
    match cells[o.next]? with
    | none => endOp s1 core o.id none
    | some cell =>
      match trigWord s1 b.ctx (.ofOp (s.nodeOf b.launch) o.id) cell 1 with
      | (s2, false) => begun s2 o.next
      | (s2, true) =>
        let s3 := hubInval s2 core b.ctx (cell + 4) 4
        if cells.length ≤ o.next + 1 then endOp s3 core o.id none else begun s3 (o.next + 1)
/-- R231: after the issue set's earlier accesses have performed at device scope. -/
def execLtrigExec (core op : Nat) (s : State) : Out :=
  match hubOp s core op with
  | some (o, b) => .next (if o.kind = .ltrig then ltrigStep s core o b else s)
  | none => .next s

end Sys2Proof.Machine
end

