-- ==== Sys2Proof/Machine/Launching.lean ====
section
/-! DEFINITION. The sequencer's nodes at work: the launch checks (R7, R46, R47, R55, R319), gangs (R326), acceptance, the
states of a node (R322 to R325), and the repair of a frozen node (R324). -/

namespace Sys2Proof.Machine

/-! ## The launch checks (R319) -/

/-- One entry of a cohort image: none when it breaks R47 for a launch of `count` blocks. -/
def cohortOf (bs : List Byte) (count : Nat) : Option Cohort :=
  let n := fld bs 0 1
  let attr := fld bs 1 1
  let ms := (List.range n).map (fun i => fld bs (16 + 4 * i) 4)
  let slip := fld bs 4 4
  if 2 ≤ attr || !zeroAt bs 2 2 || !zeroAt bs 12 4 || 64 < n || (attr == 1 && decide (32 < n))
      || ms.any (fun m => decide (count ≤ m)) || ms.eraseDups.length != n then none
  else some { members := ms, convoy := attr == 1, slip := Nat.max 2 slip, rel := Nat.max 1000 (fld bs 8 4), arrived := [],
              conv := [] }
/-- The cohorts of an image of `n` entries; none when a check of R47 fails. -/
def cohortsOf (bs : List Byte) (n count : Nat) : Option (List Cohort) :=
  let cs := (List.range n).map (fun i => cohortOf ((bs.drop (272 * i)).take 272) count)
  if cs.all Option.isSome then
    let cs := cs.filterMap id
    let all := (cs.map (·.members)).flatten
    if all.any (fun m => decide (4 < all.count m)) then none else some cs
  else none

/-- What the checks of a record answer. -/
inductive Check where
  | wait | refuse (reason : Nat) | ok (hdr : CodeHdr) (cohorts : List Cohort)
  deriving DecidableEq, Repr
/-- Whether one block fits on an empty core, and a gang's records in its scratchpad (R319 reason 8). -/
def fitReason (h : CodeHdr) (gang : Nat) : Bool :=
  decide (16384 < h.regs * h.fronds) || (decide (1 < gang) && decide (h.scratch < 64 * gang))
/-- Whether a paced record breaks R55 (reason 7). -/
def pacedReason (p : Config.Part) (r : TaskRec) (h : CodeHdr) : Bool :=
  r.paced && (!h.features.testBit 5 || h.pslot == 0 || decide (h.scratch < h.pslot * (h.pskew + 1)) || decide (p.cores < r.count))
/-- The check of a record's cohort image (R47, R319 reason 9). -/
def checkImage (s : State) (c node : Nat) (r : TaskRec) (h : CodeHdr) : State × Check :=
  if h.cohn = 0 then (s, .ok h [])
  else if r.cohoff = 0 then (s, .refuse 9)
  else
    match seqRead s c (.ofNode node) (r.arg + d64 r.cohoff) (272 * h.cohn) with
    | (s1, .wait) => (s1, .wait)
    | (s1, .data im false) =>
      match cohortsOf im h.cohn r.count with
      | some cs => (s1, .ok h cs)
      | none => (s1, .refuse 9)
    | (s1, _) => (s1, .refuse 9)
/-- The checks of a record, in the order of R319; `bad` says that the record was read poisoned. -/
def launchCheck (s : State) (c node : Nat) (r : TaskRec) (bad : Bool) (gang : Nat) : State × Check :=
  if bad then (s, .refuse 11)
  else if r.count = 0 || 128 ≤ r.flags.toNat || r.siga.toNat % 8 ≠ 0 then (s, .refuse 10)
  else if r.code.toNat % 256 ≠ 0 then (s, .refuse 1)
  else
    match seqRead s c (.ofNode node) r.code 256 with
    | (s1, .wait) => (s1, .wait)
    | (s1, .data bs false) =>
      let h := hdrOf bs
      match hdrReason s1.part bs with
      | some k => (s1, .refuse k)
      | none =>
        if pacedReason s1.part r h then (s1, .refuse 7)
        else if fitReason h gang then (s1, .refuse 8)
        else checkImage s1 c node r h
    | (s1, _) => (s1, .refuse 1)

/-! ## Acceptance (R319, R326) -/

/-- The address of a record's slot. -/
def slotVa (x : Node) (i : Nat) : Dword := x.qbase + d64 (64 * (i % x.size))
/-- The instant at which a TAIL that covers the head record was first read (R326, R327). -/
def headSeen (s : State) (x : Node) : Nat :=
  match x.seen.find? (fun e => covers x.size e.1 x.head) with
  | some e => e.2
  | none => s.gtime
/-- A gang as formed: its records' bytes after the first, and whether a published record ended it. -/
structure Gang where
  raws  : List (List Byte)
  ended : Bool
  deriving DecidableEq, Repr
/-- The records that follow the head one with COUNT = 1 and the same CODE and FLAGS, up to `left` (R326). A record that cannot be
read, or that a check of its own would refuse, ends the gang, and is left for its own turn; one whose page is awaited does not end it
yet. -/
def gangFrom (c node : Nat) (x : Node) (r : TaskRec) : Nat → Nat → State → State × Gang
  | 0, _, s => (s, { raws := [], ended := false })
  | left + 1, i, s =>
    if x.head + BitVec.ofNat 32 i = x.tail then (s, { raws := [], ended := false })
    else
      match seqRead s c (.ofNode node) (slotVa x (x.head.toNat + i)) 64 with
      | (s1, .data bs false) =>
        let q := recOf bs
        if q.count ≠ 1 || q.code ≠ r.code || q.flags ≠ r.flags || q.siga.toNat % 8 ≠ 0 then (s1, { raws := [], ended := true })
        else
          let t := gangFrom c node x r left (i + 1) s1
          (t.1, { t.2 with raws := bs :: t.2.raws })
      | (s1, .wait) => (s1, { raws := [], ended := false })
      | (s1, _) => (s1, { raws := [], ended := true })
/-- The records of a gang up to the first whose cohort image a check would refuse (R47, R319); none while one is awaited. -/
def gangChecked (c node : Nat) (h : CodeHdr) : State → List (List Byte) → State × Option (List (List Byte))
  | s, [] => (s, some [])
  | s, bs :: t =>
    match checkImage s c node (recOf bs) h with
    | (s1, .wait) => (s1, none)
    | (s1, .refuse _) => (s1, some [])
    | (s1, .ok _ _) =>
      match gangChecked c node h s1 t with
      | (s2, some l) => (s2, some (bs :: l))
      | r => r
/-- A refused record: HEAD stays on it, the node freezes, a record of kind 2 is written (R319). -/
def refuseRecord (s : State) (c node : Nat) (x : Node) (r : TaskRec) (reason : Nat) : State :=
  seqEvent (setNode s c node 3) c 2 node (slotVa x x.head.toNat) r.code reason (x.head.toNat % x.size)
/-- The launch of accepted records. -/
def newLaunch (s : State) (c node : Nat) (x : Node) (raws : List (List Byte)) (h : CodeHdr) (cs : List Cohort) (count : Nat) :
    State :=
  let l : Launch :=
    { ctx := c, node := node, recAddr := slotVa x x.head.toNat, recs := raws.map recOf, rawRecs := raws, hdr := h,
      count := count, next := 0, retired := [], killed := [], counted := 0, cohorts := cs, seen := headSeen s x,
      ready := s.gtime, hold := false, acts := none, copyOf := none, copyBad := false, places := [], linkSince := none }
  { s with seq := s.seq + 1, launches := s.launches.put s.seq l }
/-- Whether the previous launch of a node has had all its blocks placed (R326). -/
def prevPlaced (s : State) (c node : Nat) : Bool :=
  s.launches.all (fun e => !(e.2.ctx == c && e.2.node == node && e.2.copyOf.isNone && decide (e.2.next < e.2.count)))
/-- The head record comes up for launch (R319, R326): `flushed` says that FLUSH has passed. A record that launches alone waits until
the node's previous launch has had all its blocks placed. -/
def acceptHead (s : State) (c node : Nat) (x : Node) (flushed : Bool) : State :=
  if x.head = x.tail then s
  else
    match seqRead s c (.ofNode node) (slotVa x x.head.toNat) 64 with
    | (s1, .wait) => s1
    | (s1, .fail) => setNode s1 c node 3
    | (s1, .data bs bad) =>
      let r := recOf bs
      let gang := decide (1 < x.gang) && r.count == 1 && !bad
      let g := if gang then gangFrom c node x r (x.gang - 1) 1 s1 else (s1, { raws := [], ended := true })
      let n := g.2.raws.length + 1
      if (!gang && !prevPlaced s1 c node) || (gang && n < x.gang && !g.2.ended && !flushed) then g.1
      else
        match launchCheck g.1 c node r bad x.gang with
        | (s2, .wait) => s2
        | (s2, .refuse k) => refuseRecord s2 c node x r k
        | (s2, .ok h cs) =>
          match gangChecked c node h s2 g.2.raws with
          | (s3, none) => s3
          | (s3, some more) => newLaunch (advanceHead s3 c node (more.length + 1)) c node x (bs :: more) h cs r.count
/-- The record that a node in skip state consumes, as a launch of no block. -/
def skipLaunch (s : State) (c node : Nat) : Option Nat :=
  (s.launches.find? (fun e => e.2.ctx == c && e.2.node == node && e.2.count == 0)).map (·.1)
/-- The actions of a record that a skip node consumes are performed as if it had run; with the last one HEAD advances (R323). -/
def skipOn (s : State) (c node l : Nat) : State :=
  match finishLaunch s l with
  | (s1, true) => advanceHead (dropLaunch s1 l) c node 1
  | (s1, false) => s1
/-- A skip node begins to consume its head record (R323). A record that is read poisoned counts as one that cannot be read (DESIGN
CHOICE, log entry 60: R323 does not name it), as a poisoned head/tail line or predicate word does where they are read. -/
def skipHead (s : State) (c node : Nat) (x : Node) : State :=
  if x.head = x.tail then s
  else
    match seqRead s c (.ofNode node) (slotVa x x.head.toNat) 64 with
    | (s1, .wait) => s1
    | (s1, .data bs false) => skipOn (newLaunch s1 c node x [bs] (hdrOf []) [] 0) c node s1.seq
    | (s1, _) => setNode s1 c node 3

/-! ## The states of a node (R322, R323) -/

/-- What software may not change is written again (R323, R324). -/
def restoreHtl (s : State) (c node : Nat) (x : Node) (l : List Byte) : State :=
  let s1 := if fld l 0x10 4 = x.st then s else writeHtl s c node 0x10 x.st
  if fld l 0 4 = x.head.toNat then s1 else writeHtl s1 c node 0 x.head.toNat
/-- A closed node whose GATE is 0 reads the predicate word once (R325); a poisoned one freezes it, as one that cannot be read does
(DESIGN CHOICE, log entry 60). -/
def openNode (s : State) (c node : Nat) (x : Node) : State :=
  if x.pred = 0 then setNode s c node 1
  else
    match seqRead s c (.ofNode node) x.pred 4 with
    | (s1, .wait) => s1
    | (s1, .data bs false) => setNode s1 c node (if leNat bs = 0 then 2 else 1)
    | (s1, _) => setNode s1 c node 3
/-- A node goes on: from closed to run or skip, a record launched or consumed. -/
def moveNode (s : State) (c node : Nat) (flushed : Bool) : State :=
  match nodeAt s c node with
  | none => s
  | some x =>
    let s1 :=
      if x.gate ≠ 0 then (if x.st = 1 || x.st = 2 then setNode s c node 0 else s)
      else if x.st = 0 then openNode s c node x else s
    match nodeAt s1 c node with
    | none => s1
    | some y =>
      if (s1.ctx c).st ≠ 1 then s1
      else if y.st = 1 then acceptHead s1 c node y (flushed || y.flush == 0)
      else if y.st = 2 then skipHead s1 c node y
      else s1
/-- A node goes on. A record that it has begun to consume in skip state is consumed first (DESIGN CHOICE, log entry 60: R323 does not say
what a GATE that closes the node meanwhile does to it). -/
def runNode (s : State) (c node : Nat) (flushed : Bool) : State :=
  match skipLaunch s c node with
  | some l => if (s.ctx c).st = 1 then skipOn s c node l else s
  | none => moveNode s c node flushed
/-- The sequencer reads a node's head/tail line (R322). -/
def readNode (s : State) (c node : Nat) (flushed : Bool) : State :=
  match nodeAt s c node with
  | none => if node < (s.ctx c).nnode then defineNode s c node else s
  | some x =>
    if x.wait then defineNode s c node
    else if !x.ok then s
    else
      match readHtl s c node x with
      | (s1, .wait) => s1
      | (s1, .data l false) =>
        if x.st = 3 then (if fld l 0x10 4 = 0 then s1 else restoreHtl s1 c node { x with head := BitVec.ofNat 32 (fld l 0 4) } l)
        else
          let t : Word := BitVec.ofNat 32 (fld l 4 4)
          if x.size < ahead t x.head then setNode s1 c node 3
          else
            let seen := seenNow x.seen x.size x.head t s1.gtime
            let s2 := updNode s1 c node (fun x => { x with tail := t, gate := BitVec.ofNat 32 (fld l 12 4), seen := seen })
            runNode (restoreHtl s2 c node x l) c node flushed
      | (s1, _) => setNode s1 c node 3
/-- Whether the sequencer watches the nodes of a context. -/
def watching (s : State) (c : Nat) : Bool := let st := (s.ctx c).st; st == 1 || st == 2 || st == 3
/-- R322, R323: the sequencer wakes and reads the node's line; a record may be accepted or refused (R319). -/
def execNodeWake (ctx node : Nat) (s : State) : Out :=
  if watching s ctx then .next (readNode (earlyAgain s ctx) ctx node false) else .next s
/-- R326: FLUSH has passed since the head record was first seen. -/
def execGangFlush (ctx node : Nat) (s : State) : Out :=
  match nodeAt s ctx node with
  | some x =>
    if watching s ctx && x.ok && !x.wait && x.st == 1 && x.head != x.tail && decide (headSeen s x + x.flush ≤ s.gtime)
        && seqRoom s ctx x.htl 64 then
      .next (runNode s ctx node true)
    else .next s
  | none => .next s
/-- R323, R324: software wrote 0 to PSTATE of a frozen node; its entry and line are read again. -/
def execNodeUnfreeze (ctx node : Nat) (s : State) : Out :=
  match nodeAt s ctx node with
  | some x =>
    if watching s ctx && x.ok && x.st == 3 then
      match readHtl s ctx node x with
      | (s1, .data l false) => .next (if fld l 0x10 4 = 0 then defineNode s1 ctx node else s1)
      | (s1, _) => .next s1
    else .next s
  | none => .next s

end Sys2Proof.Machine
end

