-- ==== Sys2Proof/Machine/Placement.lean ====
section
/-! DEFINITION. Placement of blocks on cores (R29 to R31, R33, R327 to R330, R334), dormancy and revival (R49, R50, R341,
R385), drains, resumption and reset of contexts (R316, R317, R338 to R340). -/

namespace Sys2Proof.Machine

/-! ## Room on a core (R31) -/

/-- Blocks resident on a core. -/
def residents (s : State) (core : Nat) : List Block := (s.blocks.filter (fun e => e.2.core? == some core)).map (·.2)
/-- A total over some blocks. -/
def total (bs : List Block) (f : Block → Nat) : Nat := bs.foldl (fun n b => n + f b) 0
/-- The lowest free slots for fronds 0 .. n − 1, each in its vector slice (R30); none when a slice is full. -/
def takeSlots (used : List Nat) : Nat → Nat → Option (List Nat)
  | 0, _ => some []
  | n + 1, f =>
    match (List.range Config.slots).find? (fun k => k % 4 == f % 4 && !used.contains k) with
    | none => none
    | some k => (takeSlots (k :: used) n (f + 1)).map (k :: ·)
/-- The slots a block of a code object would take on a core, when the core has room for it (R31). -/
def roomOn (s : State) (core : Nat) (h : CodeHdr) : Option (List Nat) :=
  let bs := residents s core
  let alloc (h : CodeHdr) : Nat := (h.scratch + 4095) / 4096 * 4096
  if 2048 < total bs (fun b => b.hdr.threads) + h.threads
      || 16384 < total bs (fun b => b.hdr.regs * b.hdr.fronds) + h.regs * h.fronds
      || 786432 < total bs (fun b => alloc b.hdr) + alloc h || 4096 < total bs (fun b => b.hdr.accum) + h.accum then none
  else takeSlots ((bs.map (fun b => b.fronds.keys)).flatten) h.fronds 0
/-- Resident threads of a core. -/
def threadsOn (s : State) (core : Nat) : Nat := total (residents s core) (fun b => b.hdr.threads)
/-- Of the cores that a test admits and that have room, the one with the fewest resident threads, ties to the lowest id
(R328). -/
def bestCore (s : State) (h : CodeHdr) (ok : Nat → Bool) : Option (Nat × List Nat) :=
  (List.range s.part.cores).foldl (fun (best : Option (Nat × List Nat)) k =>
    if !ok k then best
    else
      match roomOn s k h, best with
      | none, _ => best
      | some l, none => some (k, l)
      | some l, some (j, m) => if threadsOn s k < threadsOn s j then some (k, l) else some (j, m)) none
/-- Private bytes of a block, rounded up (R329). -/
def privSize (h : CodeHdr) : Nat := (h.priv * h.threads + 4095) / 4096 * 4096
/-- The lowest free region of a size in a context's private pool, as an offset (R329). -/
def freeRegion (s : State) (c size : Nat) : Option Nat :=
  let x := s.ctx c
  let used := x.regions.map (·.2)
  (sortBy id (0 :: used.map (fun r => r.1 + r.2))).find? (fun o =>
    decide (o + size ≤ x.privsz.toNat) && !used.any (fun r => overlaps (o, size) r))

/-! ## A block's start (R33, R330) -/

/-- A thread as its block starts. -/
def Thread.start (h : CodeHdr) (obase : Dword) (slot lane : Nat) : Thread :=
  { pc := obase + d64 h.entry, rslot := 0, last := false, status := .eligible, slot := slot, lane := lane, v := [],
    vbad := [], p := 0, pbad := 0, tok := [], depth := 0, fctl := 0, fpflags := 0, cause := 0, epc := 0, eslot := 0,
    tvec := d64 h.trap, eaddr := 0, einfo := 0, handler := false, async := [], pend := [], dues := [], cvline := none }
/-- The cohort slots of a block: the entries that name it, in ascending number (R47). -/
def cohSlots (x : Launch) (idx : Nat) : List CohSlot :=
  ((List.range x.cohorts.length).filterMap (fun i => match x.cohorts[i]? with
    | some c => if c.members.contains idx then some { id := i, idx := indexIn c.members idx } else none
    | none => none)).take 4
/-- The record a launch takes its block state from. -/
def Launch.first (x : Launch) : TaskRec := (x.recs.head?).getD (recOf [])
/-- The gang's records in the scratchpad (R330). -/
def gangScratch (x : Launch) (gang : Nat) : Map Byte :=
  if gang ≤ 1 || x.first.count ≠ 1 then []
  else
    let bs := x.rawRecs.flatten
    (List.range bs.length).foldl (fun (m : Map Byte) k => Map.set m (0 : Byte) k (bs.getD k 0)) ([] : Map Byte)
/-- Block `idx` of a launch as it starts on a core (R33, R330). That of a record with COUNT other than 1 starts by R33 alone, in a node with
G > 1 too: it carries no records (DESIGN CHOICE, log entry 60: R330 speaks of every block of such a node). -/
def startBlock (s : State) (l : Nat) (x : Launch) (idx core : Nat) (slots : List Nat) (pbase : Dword) : Block :=
  let r := x.first
  let h := x.hdr
  let gang : Nat := ((nodeAt s x.ctx x.node).map (fun n : Node => n.gang)).getD 1
  let carries := decide (1 < gang) && r.count == 1
  let regs0 : Map Dword := Map.set (α := Dword) [] (0 : Dword) 0 r.arg
  let regs : Map Dword := if carries then Map.set (α := Dword) regs0 (0 : Dword) 1 (d64 x.recs.length) else regs0
  { ctx := x.ctx, launch := l, idx := idx, place := .resident core, obase := r.code, hdr := h, arg := r.arg,
    tile := r.tile, nblk := BitVec.ofNat 32 x.count, prio := r.prio, gang := gang, pbase := pbase,
    threads := (List.range h.threads).map (fun t => (t, Thread.start h r.code (slots.getD (t / 32) 0) (t % 32))),
    fronds := slots.foldl (fun m k => m.put k (Frond.fresh regs [])) [],
    scr := gangScratch x gang, scrBad := [], absent := [], acc := [], accBad := [], bars := [], skwbase := 0, skwrows := 0,
    paced := r.paced, step := 0, published := false, coh := cohSlots x idx, convoy := none, trigged := false, boosts := [],
    tickets := [], home := core, lastWait := s.gtime, saveFailed := false, saveTried := false, fin := 0, stas := [], late := [],
    rels := [] }
/-- A block of a launch is placed: its region is taken, the core's clean global lines go (R272). -/
def placeBlock (s : State) (l : Nat) (x : Launch) (idx core : Nat) (slots : List Nat) (region : Nat) : State :=
  let bid := s.seq
  let pb := (s.ctx x.ctx).privb + d64 region
  let s1 := { s with seq := s.seq + 1, blocks := s.blocks.put bid (startBlock s l x idx core slots pb) }
  let s2 := s1.updCtx x.ctx (fun c =>
    { c with regions := if privSize x.hdr = 0 then c.regions else c.regions.put bid (region, privSize x.hdr) })
  (s2.updCore core Core.invalGlobal).updLaunch l (fun x =>
    { x with next := x.next + 1, ready := s.gtime, hold := false, places := x.places.put idx core })

/-! ## Which block is placed (R327, R328) -/

/-- The node priority of a launch. -/
def launchPrio (s : State) (x : Launch) : Nat := ((nodeAt s x.ctx x.node).map (·.prio)).getD 0
/-- Whether a launch waits for room: it has blocks to place and its context runs. -/
def waitsRoom (s : State) (x : Launch) : Bool := decide (x.next < x.count) && (s.ctx x.ctx).st == 1
/-- The cores on which a block of a launch may stand: a copy's block never on its original's die (R389). -/
def coreOk (s : State) (x : Launch) (idx core : Nat) : Bool :=
  match x.copyOf with
  | some o => match ((s.launch o).bind (fun y => y.places.get? idx)) with
    | some k => Config.dieOf k != Config.dieOf core
    | none => true
  | none => true
/-- The cores that a block of a paced launch may take: without another paced block, with room. -/
def pacedFree (s : State) (x : Launch) : List (Nat × List Nat) :=
  (List.range s.part.cores).filterMap (fun k => if (residents s k).any (·.paced) then none else (roomOn s k x.hdr).map (fun l => (k, l)))
/-- Cores for the blocks of a paced audit copy, in ascending index: for each the free one off its original's die that has the fewest
threads, ties to the lowest id (R389). -/
def copyCores (s : State) (x : Launch) : List (Nat × List Nat) → Nat → Nat → Option (List (Nat × List Nat))
  | _, _, 0 => some []
  | cand, idx, n + 1 =>
    match (sortBy (fun k => threadsOn s k * 1024 + k) ((cand.map (·.1)).filter (coreOk s x idx))).head? with
    | none => none
    | some k => (copyCores s x (cand.filter (fun e => e.1 != k)) (idx + 1) n).map (fun l => (cand.filter (fun e => e.1 == k)) ++ l)
/-- The cores of a paced launch: distinct ones, of fewest threads, in ascending id. -/
def pacedCores (s : State) (x : Launch) : Option (List (Nat × List Nat)) :=
  let cand := pacedFree s x
  if cand.length < x.count then none
  else if x.copyOf.isSome then copyCores s x cand 0 x.count
  else
    let order := (sortBy (fun k => threadsOn s k * 1024 + k) (cand.map (·.1))).take x.count
    some (cand.filter (fun e => order.contains e.1))
/-- Places every block of a paced launch at one instant; none when a private region is missing. -/
def placeAll (l : Nat) (x : Launch) : State → Nat → List (Nat × List Nat) → Option State
  | s, _, [] => some s
  | s, idx, (k, slots) :: t =>
    match freeRegion s x.ctx (privSize x.hdr) with
    | some r => placeAll l x (placeBlock s l x idx k slots r) (idx + 1) t
    | none => none
/-- The state after a launch's next block is placed, a paced launch as a whole; none without room. -/
def tryPlace (s : State) (l : Nat) (x : Launch) : Option State :=
  if x.first.paced then (pacedCores s x).bind (fun cs => placeAll l x s 0 cs)
  else
    match bestCore s x.hdr (coreOk s x x.next), freeRegion s x.ctx (privSize x.hdr) with
    | some (k, slots), some r => some (placeBlock s l x x.next k slots r)
    | _, _ => none
/-- The order of R327 among launches. -/
def launchBefore (s : State) (a b : Launch) (la lb : Nat) : Bool :=
  let pa := launchPrio s a
  let pb := launchPrio s b
  decide (pb < pa) || (pa == pb && (decide (a.seen < b.seen) || (a.seen == b.seen && (decide (a.ctx < b.ctx)
    || (a.ctx == b.ctx && (decide (a.node < b.node) || (a.node == b.node && decide (la < lb))))))))
/-- Whether a revived block may stand on a core: that of an audit copy not on its original's die (R389). -/
def reviveOk (s : State) (b : Block) (core : Nat) : Bool := ((s.launch b.launch).map (fun x => coreOk s x b.idx core)).getD true
/-- Whether a dormant block can be revived now: its event has come, its context runs, a core has room. -/
def revivable (s : State) (b : Block) : Bool :=
  match b.place with
  | .dormant _ _ _ true => (s.ctx b.ctx).st == 1 && (bestCore s b.hdr (reviveOk s b)).isSome
  | _ => false
/-- Whether a launch has waited 100 µs for room that it still lacks (R327, R338). -/
def starved (s : State) (l : Nat) (x : Launch) : Bool :=
  waitsRoom s x && decide (x.ready + 100000 ≤ s.gtime) && (tryPlace s l x).isNone
/-- Whether R327 lets a launch's next block be placed now: no revived block and no earlier launch can be, and no launch of higher
node priority that has waited 100 µs for room bars it. -/
def mayPlace (s : State) (l : Nat) (x : Launch) : Bool :=
  !s.blocks.any (fun e => revivable s e.2)
    && !s.launches.any (fun e => e.1 != l && waitsRoom s e.2 && launchBefore s e.2 x e.1 l && (tryPlace s e.1 e.2).isSome)
    && !s.launches.any (fun e => decide (launchPrio s x < launchPrio s e.2) && ((e.2.hold && waitsRoom s e.2) || starved s e.1 e.2))
/-- R327 to R330; the first block of a launch posts the early-start records of its join cells (R334). -/
def execBlockPlace (l : Nat) (s : State) : Out :=
  match s.launch l with
  | none => .next s
  | some x =>
    if !waitsRoom s x || !mayPlace s l x then .next s
    else
      match tryPlace s l x with
      | none => .next s
      | some s1 =>
        if x.next = 0 && x.copyOf.isNone then
          .next (((x.recs.filterMap (fun r => if r.succ = 0 then none else some r.succ)).eraseDups).foldl
            (fun s cell => earlyPost s x.ctx cell) s1)
        else .next s1
/-- R327: a launch that has waited 100 µs for room, which bars lower launches until its next block is placed. -/
def execLaunchHold (l : Nat) (s : State) : Out :=
  match s.launch l with
  | some x =>
    if starved s l x then .next (s.updLaunch l (fun x => { x with hold := true })) else .next s
  | none => .next s

/-! ## Dormancy (R49, R341, R385) -/

/-- Whether a wait is one that dormancy admits (R49). -/
def sleepable (t : Thread) : Bool :=
  t.exited || (match t.status with
    | .waiting w => (match w.kind with
        | .bjoin => false | .sleep _ => false | .stepn => false
        | _ => true)
    | _ => false)
/-- Whether some block waits for room that a core cannot give as it stands (R49). -/
def roomWanted (s : State) (core : Nat) : Bool :=
  s.launches.any (fun e => waitsRoom s e.2 && (roomOn s core e.2.hdr).isNone)
    || s.blocks.any (fun e => (match e.2.place with | .dormant _ _ _ w => w | _ => false)
        && (s.ctx e.2.ctx).st == 1 && (roomOn s core e.2.hdr).isNone)
/-- Whether a block meets R49 on its core. -/
def mayDorm (s : State) (bid : Nat) (b : Block) (core : Nat) : Bool :=
  let k := s.core core
  let draining := (s.ctx b.ctx).st == 2
  !b.paced && b.threads.all (fun e => sleepable e.2) && !b.live.isEmpty && !k.queue.any (fun o => o.bid == bid)
    && k.owner != some bid
    && (draining || (decide (b.lastWait + Nat.max 1000 (s.sys.dormt.toNat % 2 ^ 32) ≤ s.gtime) && roomWanted s core))
/-- The bytes of a block's save (R385). -/
def saveSize (b : Block) : Nat :=
  let a := b.alloc
  (4096 + b.hdr.fronds * (128 * b.hdr.regs + 2048) + a + a / 512 + 256 * b.hdr.accum + 65535) / 65536 * 65536
/-- The saves of a context: (offset in the dormancy area, bytes). -/
def saves (s : State) (c : Nat) : List (Nat × Nat) :=
  s.blocks.filterMap (fun e => if e.2.ctx = c then (match e.2.place with | .dormant o n _ _ => some (o, n) | _ => none) else none)
/-- The lowest free 64 KiB-aligned range of a size in the dormancy area. -/
def freeSave (s : State) (c size : Nat) : Option Nat :=
  let used := saves s c
  (sortBy id (0 :: used.map (fun r => r.1 + r.2))).find? (fun o =>
    decide (o + size ≤ (s.ctx c).dormsz.toNat) && !used.any (fun r => overlaps (o, size) r))
/-- The physical 64 KiB pages behind a range. -/
def backing (s : State) (c : Nat) (va : Dword) (n : Nat) : List Nat :=
  (pageStarts va.toNat n).filterMap (fun v => match seqChk s c v .write with | .ok pa _ => some (pa / 65536) | _ => none)
/-- The write-back of a block's dirty private lines, under its context's translation (R250, R341): the lines written back are clean;
the answer of the line that stops it, and its address. -/
def saveLines (core c : Nat) (ag : Agent) : State → List (Nat × L1Line) → State × SeqAns × Dword
  | s, [] => (s, .ok, 0)
  | s, e :: t =>
    match seqWrite s c ag (d64 (64 * e.2.vline)) e.2.data e.2.bad with
    | (s1, .ok) =>
      saveLines core c ag (s1.updCore core (fun k => { k with l1 := k.l1.modify e.1 (fun x => { x with dirty := false }) })) t
    | (s1, a) => (s1, a, d64 (64 * e.2.vline))
/-- The save of a block into `n` bytes of the dormancy area, after its private lines (R341). The layout is not architectural (R385):
the bytes are free. -/
def saveBlock (s : State) (core bid : Nat) (b : Block) (va : Dword) (n : Nat) : State × SeqAns × Dword :=
  let ag := Agent.ofBlock (s.nodeOf b.launch) bid
  match saveLines core b.ctx ag s ((s.core core).l1.filter (fun e => e.2.priv == some bid && e.2.dirty)) with
  | (s1, .ok, _) =>
    let bytes := (List.range n).map (fun i => (Config.freeDword (Config.freeAt s1.free 0 (8 + i))).setWidth 8)
    let w := seqWrite { s1 with free := s1.free + 1 } b.ctx ag va bytes false
    (w.1, w.2, failAt w.1 b.ctx va n .write)
  | r => r
/-- A block leaves its core for its save: SCYC is kept, its lines and bins go (R50). An event that has ended a wait already, but
whose release wave has not come, revives it. -/
def layDown (s : State) (bid : Nat) (b : Block) (core off size : Nat) (pages : List Nat) : State :=
  let s1 := s.updCore core (fun k => k.dropBlock bid)
  let fronds := b.fronds.mapVal (fun slot f => { f with scyc := d64 (sliceCycles s core (slot % 4)) + f.scyc })
  let woken := b.threads.any (fun e => match e.2.status with | .waiting w => w.wave.isSome | _ => false)
  { s1 with blocks := s1.blocks.put bid { b with fronds := fronds, place := .dormant off size pages woken } }
/-- Whether a block can be saved: the save is a release at device scope, so that all that its threads have issued has performed (R272),
and no save of it has failed since R49 last began to hold (R341). -/
def saveReady (s : State) (core bid : Nat) (b : Block) : Bool :=
  !b.saveTried && b.rels.isEmpty && releaseReady s core bid b.threads.keys .dev s.seq
/-- The blocks for which R49 holds no longer: when it holds afresh, a save that has failed is tried again (R341). -/
def freshSaves (s : State) : State :=
  { s with blocks := s.blocks.mapVal (fun bid b =>
      if b.saveTried && !(b.core?.map (mayDorm s bid b)).getD false then { b with saveTried := false } else b) }
/-- R49, R341: the block is saved when its save fits and can be written. -/
def execBlockDormant (bid : Nat) (s : State) : Out :=
  match s.block bid with
  | none => .next s
  | some b =>
    match b.core? with
    | none => .next s
    | some core =>
      if !mayDorm s bid b core || !saveReady s core bid b then .next s
      else
        match freeSave s b.ctx (saveSize b) with
        | none => .next s
        | some off =>
          let va := (s.ctx b.ctx).dorm + d64 off
          match saveBlock s core bid b va (saveSize b) with
          | (s1, .wait, _) => .next s1
          | (s1, .fail, at_) =>
            let s2 := if b.saveFailed then s1 else seqEvent s1 b.ctx 9 (s.nodeOf b.launch) at_ b.obase 3 0
            .next (s2.updBlock bid (fun b => { b with saveFailed := true, saveTried := true }))
          | (s1, .ok, _) =>
            .next (drainCheck (layDown s1 bid b core off (saveSize b) (backing s1 b.ctx va (saveSize b))) b.ctx)

/-- The new slot of each old one: within a vector slice, in ascending order (R30, R50). -/
def slotMap (old new : List Nat) : List (Nat × Nat) :=
  ((List.range 4).map (fun k => (old.filter (fun x => x % 4 == k)).zip (sortBy id (new.filter (fun x => x % 4 == k))))).flatten
/-- The new slot of a frond of a block. -/
def newSlot (b : Block) (slots : List Nat) (k : Nat) : Nat :=
  (((slotMap b.fronds.keys slots).find? (fun e => e.1 == k)).map (·.2)).getD k
/-- A block revived on a core (R50). -/
def standUp (s : State) (b : Block) (core : Nat) (slots : List Nat) : Block :=
  let dst := newSlot b slots
  { b with
    place := .resident core, home := core,
    threads := b.threads.mapVal (fun _ t => { t with slot := dst t.slot }),
    fronds := b.fronds.foldl (fun acc e => acc.put (dst e.1)
      { e.2 with scyc := e.2.scyc - d64 (sliceCycles s core (dst e.1 % 4)), issued := [], since := [] }) [] }
/-- The reads of a block that are on their way follow its fronds to their new slots. -/
def moveJoin (bid : Nat) (dst : Nat → Nat) (j : Join) : Join :=
  if j.bid ≠ bid then j
  else
    match j.dst with
    | .s k n => { j with dst := .s (dst k) n }
    | .block k => { j with dst := .block (dst k) }
    | _ => j
/-- Deadlines that fell while the block was dormant fire (R375). -/
def fireOverdue (s : State) (bid : Nat) : State :=
  match s.block bid with
  | none => s
  | some b => b.fronds.foldl (fun s e => if timerDue s e.2 then fireTimer s bid e.1 b e.2 else s) s
/-- R50, R327: on the core with room that has the fewest resident threads, with the acquire of R272. -/
def execBlockRevive (bid : Nat) (s : State) : Out :=
  match s.block bid with
  | none => .next s
  | some b =>
    match b.place with
    | .dormant _ _ _ true =>
      if (s.ctx b.ctx).st ≠ 1 then .next s
      else
        match bestCore s b.hdr (reviveOk s b) with
        | some (core, slots) =>
          let s1 := { s.mapJoins (moveJoin bid (newSlot b slots)) with blocks := s.blocks.put bid (standUp s b core slots) }
          .next (fireOverdue (s1.updCore core Core.invalGlobal) bid)
        | none => .next s
    | _ => .next s

/-! ## Drains and resets (R316, R317, R338 to R340) -/

/-- DRAINT as it acts (R314). -/
def drainTime (s : State) : Nat := Nat.max 100000 (s.sys.draint.toNat % 2 ^ 32)
/-- A drain starts. -/
def startDrain (s : State) (c : Nat) (disabling : Bool) : State :=
  drainCheck (s.updCtx c (fun x =>
    { x with st := 2, disabling := disabling, deadline := some (s.gtime + drainTime s) })) c
/-- The highest node priority among a context's launches with unretired blocks (R338). -/
def runningPrio (s : State) (c : Nat) : Option Nat :=
  ((s.launches.filter (fun e => e.2.ctx == c && decide (e.2.retired.length + e.2.killed.length < e.2.count))).map (fun e =>
    launchPrio s e.2)).foldl (fun (o : Option Nat) p => match o with
      | some n => some (Nat.max n p)
      | none => some p) none
/-- The context that a starved launch drains: running, of lower running priority, the lowest, ties to the highest number. -/
def drainVictim (s : State) (a p : Nat) : Option Nat :=
  (s.ctxs.keys.foldl (fun (o : Option (Nat × Nat)) c =>
    if c = a || (s.ctx c).st ≠ 1 then o
    else
      match runningPrio s c, o with
      | none, _ => o
      | some q, none => if q < p then some (c, q) else none
      | some q, some (d, r) => if q < p && q ≤ r then some (c, q) else some (d, r)) none).map (·.1)
/-- R338: a launch that has waited 100 µs for room drains another context; one drain at a time. -/
def execDrainStart (l : Nat) (s : State) : Out :=
  match s.launch l with
  | none => .next s
  | some x =>
    if !starved s l x || s.ctxs.any (fun e => e.2.st == 2) then .next s
    else
      match drainVictim s x.ctx (launchPrio s x) with
      | some c => .next (startDrain s c false)
      | none => .next s
/-- The resumption priority of a drained context (R339). -/
def resumePrio (s : State) (c : Nat) : Nat :=
  (s.launches.map (fun e =>
    if e.2.ctx == c && (decide (e.2.next < e.2.count) || s.blocks.any (fun b => b.2.launch == e.1 && b.2.dormant))
    then launchPrio s e.2 else 0)).foldl Nat.max 0
/-- The launches of a context that runs again begin to wait for room (R327). -/
def waitAfresh (s : State) (c : Nat) : State :=
  { s with launches := s.launches.mapVal (fun _ (x : Launch) => if x.ctx = c then { x with ready := s.gtime, hold := false } else x) }
/-- R339. -/
def execContextResume (ctx : Nat) (s : State) : Out :=
  if (s.ctx ctx).st = 3
      && !s.launches.any (fun e => e.2.ctx != ctx && waitsRoom s e.2 && decide (resumePrio s ctx < launchPrio s e.2)) then
    .next (waitAfresh (s.updCtx ctx (fun x => { x with st := 1 })) ctx)
  else .next s

/-- Removes every block of a context that a test admits, without a record: how many there were. -/
def killAll (s : State) (c : Nat) (p : Block → Bool) : State × Nat :=
  let bids := (s.blocks.filter (fun e => e.2.ctx == c && p e.2)).map (·.1)
  (bids.foldl killQuiet s, bids.length)
/-- R340: resident blocks are killed and dormant ones discarded, nodes freeze, one record of kind 4 is written; what is left of
retired blocks goes uncounted. -/
def forceReset (s : State) (c reason : Nat) : State :=
  let r0 := killAll s c (fun b => !b.dormant && b.core?.isNone)
  let r1 := killAll r0.1 c (fun b => !b.dormant)
  let r2 := killAll r1.1 c (fun b => b.dormant)
  let s3 := (s.ctx c).nodes.keys.foldl (fun s n => if ((nodeAt s c n).map (·.ok)).getD false then setNode s c n 3 else s) r2.1
  let s4 := { s3 with launches := s3.launches.filter (fun e => e.2.ctx != c),
                      sys := { s3.sys with audits := s3.sys.audits.filter (fun a => ((s3.launch a.orig).map (fun x : Launch => x.ctx)) != some c) } }
  let s5 := s4.updCtx c (fun x => { x with st := 4, disabling := false, deadline := none, early := [], asked := [], posts := [] })
  seqEvent s5 c 4 0 0 0 reason (r1.2 + 2 ^ 32 * r2.2)
/-- R340. -/
def execDrainDeadline (ctx : Nat) (s : State) : Out :=
  match (s.ctx ctx).deadline with
  | some d => if (s.ctx ctx).st = 2 && d ≤ s.gtime then .next (forceReset s ctx 1) else .next s
  | none => .next s

/-- The fields of a descriptor that R317 compares, and what enables a context. -/
def ctxOf (x : Ctx) (bs : List Byte) : Ctx :=
  { x with ptroot := d64 (fld bs 0 8), nodesAt := d64 (fld bs 8 8), nnode := fld bs 0x10 2, msix := fld bs 0x12 2 % 2048,
           dorm := d64 (fld bs 0x18 8), dormsz := d64 (fld bs 0x20 8), privb := d64 (fld bs 0x28 8),
           privsz := d64 (fld bs 0x30 8), flog := d64 (fld bs 0x38 8) }
/-- Whether a descriptor's fields are in order (R315, R317). -/
def descOk (bs : List Byte) : Bool :=
  fld bs 0x12 2 / 2048 == 0 && zeroAt bs 0x14 4 && decide (fld bs 0x10 2 ≤ 4096) && fld bs 0 8 % 65536 == 0
    && fld bs 8 8 % 64 == 0 && fld bs 0x18 8 % 65536 == 0 && fld bs 0x28 8 % 65536 == 0
/-- Whether two contexts agree in the five fields that saved blocks depend on (R317). -/
def sameSaves (x y : Ctx) : Bool :=
  x.ptroot == y.ptroot && x.dorm == y.dorm && x.dormsz == y.dormsz && x.privb == y.privb && x.privsz == y.privsz
/-- A refused enable (R317). -/
def refuseEnable (s : State) (c desc : Nat) : State :=
  devError (s.updCtx c (fun x => { x with en := false, desc := desc })) 8 none (some c)
/-- Saved blocks that the new descriptor does not fit are discarded with a record of kind 4 (R317). -/
def discardSaves (s : State) (old : Ctx) (c : Nat) : State :=
  if sameSaves old (s.ctx c) || !s.blocks.any (fun e => e.2.ctx == c && e.2.dormant) then s
  else let r := killAll s c (fun b => b.dormant); seqEvent r.1 c 4 0 0 0 4 (2 ^ 32 * r.2)
/-- EN written 1 in state 0 (R315, R317): the descriptor and the fault log's header are read, then every node. Launches accepted before, with
their blocks not yet placed, and what join cells had begun go on (DESIGN CHOICE, log entry 60: R316 speaks of saved blocks alone). -/
def enableCtx (s : State) (c desc : Nat) : State :=
  let pa := 64 * desc
  if s.part.dram < pa + 64 then refuseEnable s c desc
  else
    let s1 := seeLine s (pa / 64)
    let bs := nowBytes s1 pa 64
    let old := s1.ctx c
    if (lineNow s1 (pa / 64)).bad || !descOk bs then refuseEnable s1 c desc
    else
      let new := { ctxOf old bs with en := true, desc := desc, st := 1, disabling := false, nodes := [], waits := [],
                                     denied := [] }
      let s2 := vtouch (s1.updCtx c (fun _ => new)) c new.flog 64
      match vread s2 c new.flog 64, vbad s2 c new.flog 64 with
      | some log, false =>
        let n := fld log 8 4
        if n < 4 || 16 < n then refuseEnable (s2.updCtx c (fun _ => old)) c desc
        else
          let s3 := discardSaves (s2.updCtx c (fun x => { x with log2n := n })) old c
          (List.range new.nnode).foldl (fun s i => defineNode s c i) (waitAfresh s3 c)
      | _, _ => refuseEnable (s2.updCtx c (fun _ => old)) c desc
/-- DESC of a CTXD value (R314). -/
def ctxdDesc (v : Dword) : Nat := (v.extractLsb' 6 46).toNat
/-- R317, column EN written 1; before boot stage 4 the EN written is ignored (R394). -/
def execCtxdEnable (ctx : Nat) (v : Dword) (s : State) : Out :=
  let x := s.ctx ctx
  if !v.getLsbD 0 || v.getLsbD 1 || 64 ≤ ctx || s.sys.halted then .next s
  else if s.sys.stage < 4 then .next (s.updCtx ctx (fun x => { x with desc := ctxdDesc v }))
  else if x.st = 0 then .next (enableCtx s ctx (ctxdDesc v))
  else
    .next (s.updCtx ctx (fun x =>
      if x.st = 2 && x.disabling then { x with en := true, desc := ctxdDesc v, disabling := false }
      else { x with desc := ctxdDesc v }))
/-- R317, column EN written 0. -/
def execCtxdDisable (ctx : Nat) (v : Dword) (s : State) : Out :=
  let x := s.ctx ctx
  if v.getLsbD 0 || v.getLsbD 1 || 64 ≤ ctx || s.sys.halted then .next s
  else
    let s1 := s.updCtx ctx (fun x => { x with en := false, desc := ctxdDesc v })
    if x.st = 1 then .next (startDrain s1 ctx true)
    else if x.st = 2 then .next (s1.updCtx ctx (fun x => { x with disabling := true }))
    else if x.st = 3 || x.st = 4 then .next (s1.updCtx ctx (fun x => { x with st := 0 }))
    else .next s1
/-- R317, column RST written 1; the EN bit written is ignored. -/
def execCtxdRst (ctx : Nat) (s : State) : Out :=
  let st := (s.ctx ctx).st
  if st = 1 || st = 2 || st = 3 then .next (forceReset s ctx 2) else .next s

end Sys2Proof.Machine
end

