-- ==== Sys2Proof/Machine/Completion.lean ====
section
/-! DEFINITION. The ends of things: a block retires (R34, R331), a launch completes with its actions, the audit of a launch
(R389), the host's answer to a page fault (R380). -/

namespace Sys2Proof.Machine

/-! ## A block retires (R34) -/

/-- What a block held on its core is freed: slots, queue, private lines, ownership, monitors, its region, its convoy. -/
def freeBlock (s : State) (bid : Nat) (b : Block) (core : Nat) : State :=
  let own (k : Core) : Core := if k.owner = some bid then { k with prev := some b.ctx } else k
  let s1 := (convoyLeave s bid).updCore core (fun k => (own k).dropBlock bid)
  let s2 := s1.updCtx b.ctx (fun c => { c with regions := c.regions.del bid })
  { s2 with mons := s2.mons.filter (fun m => !(m.bid == bid)),
            focus := if s2.focus.map (fun f : Nat × Nat => f.1) = some bid then none else s2.focus }
/-- R34: every thread has exited and every operation of the block has completed. -/
def execBlockRetire (bid : Nat) (s : State) : Out :=
  match s.block bid with
  | none => .next s
  | some b =>
    match b.core? with
    | none => .next s
    | some core =>
      if !b.live.isEmpty || (s.core core).queue.any (fun o => o.bid == bid) then .next s
      else
        let s1 := (freeBlock s bid b core).updBlock bid (fun b => { b with place := .retired core false })
        .next (cbarRecheck (s1.updLaunch b.launch (fun x => { x with retired := addNat x.retired b.idx })) b.launch)

/-! ## The audit unit (R389) -/

/-- One bit of CRC-64: the register and the next bit of the message, highest first. -/
def crcStep (c : Dword) (bit : Bool) : Dword :=
  let d := c <<< 1
  if c.getLsbD 63 != bit then d ^^^ 0x42F0E1EBA9EA3693#64 else d
/-- One byte of CRC-64. -/
def crcByte (c : Dword) (b : Byte) : Dword := (List.range 8).foldl (fun c i => crcStep c (b.getLsbD (7 - i))) c
/-- CRC-64 of some bytes: polynomial 0x42F0E1EBA9EA3693, initial value 0, unreflected, no final XOR. -/
def crc64 (bs : List Byte) : Dword := bs.foldl crcByte 0
/-- The OUT ranges of an audit descriptor, and its SHADOW; none when its last field is not 0. -/
def auditDesc (bs : List Byte) : Option (List (Dword × Dword) × Dword) :=
  if fld bs 0x38 8 ≠ 0 then none
  else some ((List.range 3).map (fun i => (d64 (fld bs (16 * i) 8), d64 (fld bs (16 * i + 8) 8))), d64 (fld bs 0x30 8))
/-- The bytes of some ranges end to end, read by the audit unit under a context's translation. -/
def readRanges (c : Nat) (ag : Agent) : State → List (Dword × Dword) → State × SeqRead
  | s, [] => (s, .data [] false)
  | s, r :: t =>
    match seqRead s c ag r.1 r.2.toNat with
    | (s1, .data bs bad) =>
      match readRanges c ag s1 t with
      | (s2, .data more worse) => (s2, .data (bs ++ more) (bad || worse))
      | q => q
    | q => q
/-- A copy of a launch for its audit. -/
def copyLaunch (s : State) (l : Nat) (x : Launch) : Launch :=
  { x with next := 0, retired := [], killed := [], counted := 0, seen := s.gtime, ready := s.gtime, hold := false,
           acts := none, copyOf := some l, copyBad := false, places := [], linkSince := none,
           cohorts := x.cohorts.map (fun c => { c with arrived := [], conv := [] }) }
/-- Whether the audit unit samples the launch with a number. -/
def sampled (s : State) (n : Nat) : Bool :=
  s.sys.audctl.getLsbD 63 && n % 2 ^ Nat.min 20 (s.sys.audctl.toNat % 32) == 0
/-- How an audit begins: it waits for a page, it cannot be made, or its copy is launched. -/
inductive AuditStart where
  | wait | skip | begun
  deriving DecidableEq, Repr
/-- Steps 1 to 3 of R389 for a sampled launch. -/
def startAudit (s : State) (l : Nat) (x : Launch) : State × AuditStart :=
  match seqRead s x.ctx (.ofAudit x.node l) (x.first.arg - 64) 64 with
  | (s1, .wait) => (s1, .wait)
  | (s1, .data bs false) =>
    match auditDesc bs with
    | none => (s1, .skip)
    | some (outs, shadow) =>
      match readRanges x.ctx (.ofAudit x.node l) s1 outs with
      | (s2, .wait) => (s2, .wait)
      | (s2, .data out false) =>
        let a : Audit := { orig := l, copy := s2.seq, crc := crc64 out, outs := outs, shadow := shadow }
        ({ s2 with seq := s2.seq + 1, launches := s2.launches.put s2.seq (copyLaunch s2 l x),
                   sys := { s2.sys with audits := s2.sys.audits ++ [a], audited := s2.sys.audited + 1 } }, .begun)
      | (s2, _) => (s2, .skip)
  | (s1, _) => (s1, .skip)

/-! ## A launch completes (R331) -/

/-- Whether a write of a block is still on its way to its home, or waits for its acknowledgement. The block may have stood on other
cores before. -/
def flushing (s : State) (bid : Nat) : Bool :=
  s.cores.any (fun e => e.2.reqs.any (fun r => r.bid == bid && r.kind.writes))
    || s.fab.remote.any (fun r => r.req.bid == bid && r.req.kind.writes)
/-- The trigger decrements of a block that executed no `ltrig` (R231), from its next cell on. -/
def trigCells (s : State) (bid : Nat) (b : Block) : State × Bool :=
  if b.trigged || s.isCopy b.launch then (s, true)
  else
    ((blockCells s b).drop b.fin).foldl (fun (acc : State × Bool) cell =>
      if acc.2 then
        match trigWord acc.1 b.ctx (.ofBlock (s.nodeOf b.launch) bid) cell 1 with
        | (s1, true) => (s1.updBlock bid (fun b => { b with fin := b.fin + 1 }), true)
        | (s1, false) => (s1, false)
      else acc) (s, true)
/-- The launch's actions are performed, then it and the block that stands for it leave. -/
def closeLaunch (s : State) (bid l : Nat) : State :=
  match finishLaunch s l with
  | (s1, true) => { dropLaunch s1 l with blocks := s1.blocks.del bid }
  | (s1, false) => s1
/-- The last block of a launch has been counted: an audit begins, or the launch's actions (R331, R389). -/
def lastBlock (s : State) (bid l : Nat) (x : Launch) : State :=
  let go (s : State) : State := closeLaunch (s.updLaunch l (fun x => { x with acts := some 0 })) bid l
  let number (s : State) : State := { s with sys := { s.sys with audited := s.sys.audited + 1 } }
  let drop (s : State) : State := { s with blocks := s.blocks.del bid }
  if x.copyOf.isSome then drop s
  else if x.acts.isSome then closeLaunch s bid l
  else if !s.part.full || !x.first.auditable then go s
  else if !sampled s s.sys.audited then go (number s)
  else
    match startAudit s l x with
    | (s1, .wait) => s1
    | (s1, .skip) => go (number s1)
    | (s1, .begun) => drop s1
/-- After a block has been counted: the launch completes with its last block, unless one was killed (R335). -/
def afterCount (s : State) (bid l : Nat) : State :=
  match s.launch l with
  | none => { s with blocks := s.blocks.del bid }
  | some x => if x.counted = x.count then lastBlock s bid l x else { s with blocks := s.blocks.del bid }
/-- R331, R335, R231: the flush is over, the trigger counts go down, the block is counted. -/
def execLaunchCompletion (bid : Nat) (s : State) : Out :=
  match s.block bid with
  | none => .next s
  | some b =>
    match b.place with
    | .retired core false =>
      if flushing s bid then .next s
      else
        match trigCells s bid b with
        | (s1, false) => .next s1
        | (s1, true) =>
          let s2 := s1.updBlock bid (fun b => { b with place := .retired core true })
          let s3 := s2.updLaunch b.launch (fun x => { x with counted := x.counted + 1 })
          .next (drainCheck (afterCount s3 bid b.launch) b.ctx)
    | .retired _ true => .next (afterCount s bid b.launch)
    | _ => .next s

/-- An audit is over: the deferred completion goes on. -/
def closeAudit (s : State) (a : Audit) : State :=
  let s1 := dropLaunch { s with sys := { s.sys with audits := s.sys.audits.filter (fun y => !(y.copy == a.copy)) } } a.copy
  s1.updLaunch a.orig (fun x => { x with acts := some 0 })
/-- Step 5 of R389: none while the shadow waits for a page. A shadow that cannot be read, or is poisoned, matches nothing. -/
def compareShadow (s : State) (x : Launch) (a : Audit) : State × Bool :=
  let n := a.outs.foldl (fun n r => n + r.2.toNat) 0
  let miss (s : State) (crc : Dword) : State :=
    devError (seqEvent s x.ctx 7 x.node x.recAddr x.first.code a.crc.toNat crc.toNat) 4 none none
  match seqRead s x.ctx (.ofAudit x.node a.copy) a.shadow n with
  | (s1, .wait) => (s1, false)
  | (s1, .data bs false) => (if crc64 bs = a.crc then s1 else miss s1 (crc64 bs), true)
  | (s1, _) => (miss s1 0, true)
/-- The deferred actions of an original whose audit is over go on. -/
def finishOrig (s : State) (l : Nat) : State :=
  match finishLaunch s l with
  | (s1, true) => dropLaunch s1 l
  | (s1, false) => s1
/-- R389, steps 5 and 6. `l` is the copy, or the original while its actions wait. A copy whose audit has ended, or of which a
block was killed, is not compared. The context runs: a drained one defers the completion (R391). -/
def execAuditCopyComplete (l : Nat) (s : State) : Out :=
  match s.sys.audits.find? (fun a => a.copy == l), s.launch l with
  | some a, some x =>
    if (s.ctx x.ctx).st = 2 || (s.ctx x.ctx).st = 3 then .next s
    else if x.copyBad || !x.killed.isEmpty then .next (finishOrig (closeAudit s a) a.orig)
    else if x.counted ≠ x.count then .next s
    else
      match compareShadow s x a with
      | (s1, false) => .next s1
      | (s1, true) => .next (finishOrig (closeAudit s1 a) a.orig)
  | none, some x =>
    if x.acts.isSome && decide (0 < x.count) && x.counted == x.count
        && !s.blocks.any (fun e => e.2.launch == l) then .next (finishOrig s l)
    else .next s
  | _, _ => .next s

/-! ## Page faults (R380) -/

/-- The outstanding fault that a record describes. -/
def faultOf (s : State) (c n : Nat) : Option PageFault := (s.ctx c).faults.find? (fun f => f.recNo == some n)
/-- A fault is outstanding no longer. -/
def dropFault (s : State) (c page : Nat) : State :=
  s.updCtx c (fun x => { x with faults := x.faults.filter (fun f => !(f.page == page)) })
/-- The faults whose records await room are tried again; those whose record is lost fail. -/
def logRoom (s : State) (c : Nat) : State :=
  let r := flushFaults (flushLogs s c) c
  r.2.foldl (fun s p => failPage s c p) r.1
/-- R380: the host writes RESP of a record: 1 lets the waiting accesses walk again, 2 ends them with code 3. -/
def execPageFaultResponse (ctx n : Nat) (resp : BitVec 16) (s : State) : Out :=
  match faultOf s ctx n with
  | none => .next (logRoom s ctx)
  | some f =>
    let x := s.ctx ctx
    let at_ := x.flog + 64 + d64 (64 * (n % 2 ^ x.log2n)) + 2
    let s1 := (vwrite s ctx at_ (leBytes 2 resp.toNat)).getD s
    if resp = 1 then .next (logRoom (retryPage (dropFault s1 ctx f.page) ctx f.page) ctx)
    else if resp = 2 then .next (logRoom (failPage (dropFault s1 ctx f.page) ctx f.page) ctx)
    else .next s1

end Sys2Proof.Machine
end

