-- ==== Sys2Proof/Machine/Home.lean ====
section
/-! DEFINITION. Steps of the home slices, of the cores' L1 and of the memory dies: acceptance of reads, writes and atomics
(R241 to R246), merged replies (R242), fills (R247 to R251), lines that age out (R249), the background scrub (R264). -/

namespace Sys2Proof.Machine

/-! ## Acceptance (R241) -/

/-- The oldest request of a core to a line: the next that its home can accept. -/
def headReq (s : State) (core line : Nat) : Option Req := (s.core core).reqs.find? (fun r => r.line == line)
/-- Whether a line's home can accept anything now: the host while its link is in L0 (R252, R393). -/
def homeOpen (s : State) (line : Nat) : Bool := !tgtHost s (line * 64) || s.sys.hostL0
/-- A request leaves its core: it has been accepted. -/
def dropReq (s : State) (core seq : Nat) : State :=
  s.updCore core (fun k => { k with reqs := k.reqs.filter (fun r => r.seq != seq) })
/-- The reply of a fill reaches its core's port. -/
def answerFill (s : State) (core seq : Nat) (rep : LineRep) : State :=
  s.updCore core (fun k => { k with fills := k.fills.map (fun f => if f.seq = seq then { f with reply := some rep } else f) })
/-- The reads that wait at a home slice for an entry, oldest first (R245). -/
def waitingAt (s : State) (slice : Nat) : List (Nat × Nat) := (s.queued.filter (fun e => e.1 == slice)).map (·.2)
/-- A read waits at its home slice, behind those that wait there. -/
def waitRead (s : State) (slice : Nat) (me : Nat × Nat) : State :=
  if (waitingAt s slice).contains me then s else { s with queued := s.queued ++ [(slice, me)] }
/-- A read at the home slice of a line of device memory: it joins the open entry, or opens one, in arrival order among those that
wait for an entry (R241, R242, R245); none while it waits. -/
def acceptRead (s : State) (line : Nat) (me : Nat × Nat) (room : Merge → Bool) (join : Merge → Merge) : Option State :=
  let slice := homeSlice s.part (line * 64)
  let wait := waitingAt s slice
  let turn := (wait.head?).getD me == me
  let s1 := { s with queued := s.queued.filter (fun e => !(e.1 == slice && e.2 == me)) }
  if heldLine s line then none
  else
    match openMerge s line with
    | some m =>
      if room m && (turn || !wait.contains me) then
        some { s1 with merges := s1.merges.map (fun m => if m.line = line && m.opened then join m else m) }
      else none
    | none =>
      if turn && decide (entriesAt s line < Config.mergeEntries) then
        let s2 := touchLine s1 line
        some { s2 with merges := s2.merges ++ [join { line := line, rep := lineRep s2 line, joins := [], others := [], opened := true }] }
      else none
/-- A read that is not accepted waits for an entry, unless its line is held (R244, R245). -/
def refuseRead (s : State) (line : Nat) (me : Nat × Nat) : State :=
  if heldLine s line then s else waitRead s (homeSlice s.part (line * 64)) me
/-- R241, R242, R245: a read opens a merge entry or joins the open one; host memory answers without an entry (R252). -/
def execHomeRead (core line : Nat) (s : State) : Out :=
  match headReq s core line with
  | none => .next s
  | some r =>
    if r.kind ≠ .read || !homeOpen s line then .next s
    else if tgtHost s (line * 64) then .next (answerFill (dropReq s core r.seq) core r.seq { lineRep s line with bad := false })
    else
      match acceptRead s line (core, r.seq) (fun _ => true) (fun m => { m with joins := m.joins ++ [(core, r.seq)] }) with
      | some s1 => .next (dropReq s1 core r.seq)
      | none => .next (refuseRead s line (core, r.seq))
/-- R241, R243, R246, R263: a write is accepted; its acknowledgement decrements its token (R158). A release is then in its core's L1
also. -/
def execHomeWrite (core line : Nat) (s : State) : Out :=
  match headReq s core line with
  | none => .next s
  | some r =>
    match r.kind with
    | .write off bytes bad =>
      if !homeOpen s line || heldLine s line || !r.ready s core then .next s
      else
        let s1 := dropReq s core r.seq
        let s2 := if r.rel = .none then s1 else s1.updCore core (fun k => k.storeOver line off bytes bad r.seq)
        .next (countDown (homeWrite s2 (line * 64 + off) bytes bad) r.bid r.tids r.tok)
    | _ => .next s

/-! ## Atomics (R166 to R168, R180, R182, R184, R244) -/

/-- `tkserve` at its home: SERVE + 1 and HOLDER := 0 in one step (R182). -/
def serveHere (s : State) (pa : Nat) : State :=
  let r := atomicHere s (pa + 4) .addI32 1 0 false
  homeWrite r.1 (pa + 8) (leBytes 4 0) false
/-- `tkwait` at its home: SERVE, and HOLDER written when SERVE equals the ticket (R181). -/
def grantHere (s : State) (pa : Nat) (ticket holder : Nat) : State × Nat :=
  let s1 := seeLine s (pa / 64)
  let x := seenWord s1 (lineNow s1 (pa / 64)).bad (leNat (nowBytes s1 (pa + 4) 4))
  (if x.2 = ticket then homeWrite x.1 (pa + 8) (leBytes 4 holder) false else x.1, x.2)
/-- Whether a request is performed by an atomic unit. -/
def ReqKind.rmw : ReqKind → Bool
  | .atomic _ _ _ _ _ _ => true
  | .take _ _ => true
  | .serve _ _ => true
  | _ => false
/-- The destination of a request that returns a value to a v-register. -/
def ReqKind.dst : ReqKind → Option (Nat × Sz)
  | .atomic _ k _ _ _ (some d) => some (d, aopSz k)
  | .take _ d => some (d, .b32)
  | _ => none
/-- A request's read and write in one step: the value read and its poison. -/
def rmwHere (s : State) (line : Nat) : ReqKind → State × Dword × Bool
  | .atomic off k a b bad _ => atomicHere s (line * 64 + off) k a b bad
  | .take off _ => atomicHere s (line * 64 + off) .addI32 1 0 false
  | .serve off _ => (serveHere s (line * 64 + off), 0, false)
  | _ => (s, 0, false)
/-- The core on which a block's access takes effect now: its own, where it stands on one. -/
def coreOf (s : State) (bid core : Nat) : Nat := ((s.block bid).bind Block.core?).getD core
/-- The value of an atomic returns to its thread, with its acquire (R157, R158). -/
def landAtomic (s : State) (core : Nat) (r : Req) (d : Nat) (sz : Sz) (v : Dword) (bad : Bool) : State :=
  landLoad (acquireBy s (coreOf s r.bid core) r.bid r.tids r.acq) r.bid r.tid r.tids (.v d) sz (leBytes (szBytes sz) v.toNat) bad
/-- The value of an atomic reaches the operation or the thread that asked; the token goes down with it (R158). -/
def landOut (s : State) (x : AtomOut) : State :=
  match x.req.who, x.req.kind.dst with
  | .engine id, _ => landGot s id { va := x.req.va, data := leBytes 8 x.val.toNat, bad := x.bad }
  | _, some (d, sz) => countDown (landAtomic s x.core x.req d sz x.val x.bad) x.req.bid x.req.tids x.req.tok
  | _, none => s
/-- A request that returns nothing to a thread is acknowledged as it is accepted. -/
def ackReq (s : State) (r : Req) : State := if r.kind.dst.isSome then s else countDown s r.bid r.tids r.tok
/-- The atomic unit holds a line, with one more atomic in it (R244). -/
def holdLine (s : State) (line : Nat) (x : AtomOut) : State :=
  if heldLine s line then
    { s with atoms := s.atoms.map (fun a => if a.line = line then { a with queue := a.queue ++ [x] } else a) }
  else { s with atoms := s.atoms ++ [{ line := line, queue := [x] }] }
/-- The oldest result that an atomic unit holds of a line is sent; the line is held while others remain (R244). -/
def sendAtom (s : State) (line : Nat) : State :=
  match s.atoms.find? (fun a => a.line == line) with
  | none => s
  | some a =>
    let rest := (s.atoms.map (fun x => if x.line = line then { x with queue := x.queue.drop 1 } else x)).filter (fun x => !x.queue.isEmpty)
    match a.queue with
    | [] => { s with atoms := rest }
    | x :: _ => landOut { s with atoms := rest } x
/-- An atomic on host memory: the host performs it; of `tkserve` first the Swap that clears HOLDER, then the add to SERVE (R184). -/
def hostAtomic (s : State) (core line : Nat) (r : Req) : State :=
  match r.kind with
  | .serve off false =>
    (homeWrite s (line * 64 + off + 8) (leBytes 4 0) false).updCore core (fun k =>
      { k with reqs := k.reqs.map (fun q => if q.seq = r.seq then { q with kind := .serve off true } else q) })
  | .serve off true => ackReq (atomicHere (dropReq s core r.seq) (line * 64 + off + 4) .addI32 1 0 false).1 r
  | k =>
    let x := rmwHere (dropReq s core r.seq) line k
    landOut (ackReq x.1 r) { core := core, req := r, val := x.2.1, bad := x.2.2 }
/-- R244: the oldest request of a core to the line, when it is an atomic, a reduction or a ticket word, is accepted into the atomic
unit of its home slice and performed. Where the core has none, the unit sends the oldest result that it holds of the line. -/
def execHomeAtomic (core line : Nat) (s : State) : Out :=
  match (headReq s core line).filter (fun r => r.kind.rmw) with
  | none => .next (sendAtom s line)
  | some r =>
    if !homeOpen s line || !r.ready s core then .next s
    else if tgtHost s (line * 64) then .next (hostAtomic s core line r)
    else if !atomRoom s line then .next s
    else
      let x := rmwHere (dropReq s core r.seq) line r.kind
      .next (holdLine (ackReq x.1 r) line { core := core, req := r, val := x.2.1, bad := x.2.2 })

/-! ## Replies (R242, R248, R251) -/

/-- A request is answered, and its tag and reply are kept (R351). -/
def keepTag (s : State) (src tag : Nat) (rep : RemoteRep) : State :=
  { s with fab := { s.fab with kept := s.fab.kept ++ [{ src := src, tag := tag, rep := rep, time := s.gtime }],
                               arrived := s.fab.arrived.filter (fun a => !(a.1 == src && a.2.1 == tag)) } }
/-- R242: the reply is sent once to each joining core and once to each other joining requester, and the entry closes. -/
def execMergeReply (line : Nat) (s : State) : Out :=
  match s.merges.find? (fun m => m.line == line) with
  | none => .next s
  | some m =>
    let s1 := { s with merges := s.merges.eraseP (fun m => m.line == line) }
    let s2 := m.joins.foldl (fun s j => answerFill s j.1 j.2 m.rep) s1
    .next (m.others.foldl (fun s j => keepTag s j.src j.tag (.data ((m.rep.data.drop j.off).take j.n) m.rep.bad)) s2)

/-- A line's bytes with the stores of its core laid over them that were issued before a place in the order. -/
def laidOver (f : Fill) (data : List Byte) (before : Nat) : List Byte :=
  (f.laid.filter (fun o => decide (o.seq < before))).foldl (fun d o => overlay d o.off o.bytes) data
/-- Whether a store laid over a reply before a place is poisoned. -/
def overBad (f : Fill) (before : Nat) : Bool := f.laid.any (fun o => o.bad && decide (o.seq < before))
/-- A read receives its bytes, with its acquire; a watched word is evaluated (R157, R158, R175). -/
def receive (s : State) (core : Nat) (j : Join) (bytes : List Byte) (bad : Bool) : State :=
  if j.dst = .eval then let x := seenWord s bad (leNat (bytes.take 4)); evalWatch x.1 j.bid j.tid x.2
  else j.land (acquireBy s (coreOf s j.bid core) j.bid j.tids j.acq) bytes bad
/-- One read of a fill receives its value (R158, R248). -/
def landJoin (core : Nat) (f : Fill) (rep : LineRep) (s : State) (j : Join) : State :=
  receive s core j (((laidOver f rep.data j.seq).drop j.off).take j.len) (rep.bad || overBad f j.seq)
/-- A reply is installed in the L1, as old as its place in the line's order (R247, R249, R251, R280). -/
def installFill (s : State) (core : Nat) (f : Fill) (rep : LineRep) : State :=
  let priv := ((s.core core).l1.get? f.line).any (fun x => x.priv.isSome)
  if !f.install || f.nc || priv || !(tgtDram s (f.line * 64) || tgtHost s (f.line * 64)) then s
  else
    let x : L1Line := { data := laidOver f rep.data s.seq, bad := rep.bad || overBad f s.seq, time := rep.time, priv := none, vline := 0,
                        dirty := false }
    (l1Room s core f.line).updCore core (fun k => { k with l1 := k.l1.put f.line x })
/-- R248, R251: the entry is freed, every read that joined it receives its bytes, the line enters the L1. -/
def execFillReply (core line : Nat) (s : State) : Out :=
  match (s.core core).fills.find? (fun f => f.line == line && f.reply.isSome) with
  | none => .next s
  | some f =>
    match f.reply with
    | none => .next s
    | some rep =>
      let s1 := s.updCore core (fun k => { k with fills := k.fills.filter (fun g => g.seq != f.seq) })
      .next (installFill (f.joins.foldl (landJoin core f rep) s1) core f rep)

/-- R249: 100 µs after its fill a clean global line leaves the L1. -/
def execL1LineAgeOut (core line : Nat) (s : State) : Out :=
  match (s.core core).l1.get? line with
  | some x =>
    if x.priv.isNone && decide (x.time + 100000 ≤ s.gtime) then
      .next (s.updCore core (fun k => { k with l1 := k.l1.del line }))
    else .next s
  | none => .next s
/-- R264: a background read corrects, counts or poisons a line of device memory (R262). -/
def execDramScrub (line : Nat) (s : State) : Out :=
  if tgtDram s (line * 64) then .next (touchLine s line) else .next s

/-! ## Invalidation of translations (R379) -/

/-- Whether a cached translation is one that XINV names. -/
def xinvNames (v : Dword) (t : Tlb) : Bool :=
  let c := (v.extractLsb' 56 6).toNat
  let p := (v.extractLsb' 16 39).toNat
  t.ctx == c && (v.getLsbD 62 || (decide (p ≤ t.page % 2 ^ 39) && decide (t.page % 2 ^ 39 ≤ p + v.toNat % 65536)))
/-- Whether an address of a context is one that XINV names. -/
def xinvVa (v : Dword) (ctx : Nat) (va : Dword) : Bool :=
  xinvNames v { ctx := ctx, page := va.toNat / 65536, pa := 0, pte := 0 }
/-- The monitors of the waits on words whose translation XINV names are signalled. -/
def hitWaits (s : State) (v : Dword) : State :=
  let watches (m : Mon) : Bool := match s.block m.bid, waitOf s m.bid m.tid with
    | some b, some (_, _, w) => (match w.kind with
      | .watch _ _ _ _ _ _ => xinvVa v b.ctx m.va
      | .lwait _ _ => xinvVa v b.ctx m.va
      | _ => false)
    | _, _ => false
  { s with mons := s.mons.map (fun m => if watches m then { m with hit := true } else m) }
/-- Whether an access of a context is still to perform; one of a block that is no longer there counts as one of every context. -/
def ctxBusy (s : State) (c : Nat) : Bool :=
  let mine (bid : Nat) : Bool := ((s.block bid).map (fun b => b.ctx == c)).getD true
  s.cores.any (fun k => k.2.reqs.any (fun r => mine r.bid) || k.2.fills.any (fun f => f.joins.any (fun j => mine j.bid)))
/-- R379: BUSY clears once the translations are dropped and the accesses of the context have performed; until then a further
step of the invalidation tests again. A write with BUSY = 0 leaves the fields it writes. The accesses that a wait still makes are
translated as they are made (`waitTgt`); its monitor, where it stands at a place of the old translation, is signalled for one. -/
def execXinv (v : Dword) (s : State) : Out :=
  let busy := s.sys.xinv.getLsbD 63
  if s.sys.halted then .next s
  else if !busy && !v.getLsbD 63 then .next { s with sys := { s.sys with xinv := v &&& ~~~(1#64 <<< 55) } }
  else
    let w := if busy then s.sys.xinv else v &&& ~~~(1#64 <<< 55)
    let s1 := { s with cores := s.cores.mapVal (fun _ (k : Core) => { k with tlb := k.tlb.filter (fun t => !xinvNames w t) }) }
    let done := !ctxBusy s (w.extractLsb' 56 6).toNat
    .next (hitWaits { s1 with sys := { s1.sys with xinv := if done then w &&& ~~~(1#64 <<< 63) else w } } w)

end Sys2Proof.Machine
end

