-- ==== Sys2Proof/Machine/Remote.lean ====
section
/-! DEFINITION. The remote window: requests of other devices served by this one (R350, R351), replies to this device's own
requests and their failures (R352), kept tags (R351). -/

namespace Sys2Proof.Machine

/-! ## Serving a request (R350 to R352) -/

/-- The offset, the bytes and the use of a request. -/
def spanOf : RemoteAcc → Nat × Nat × Bool
  | .read off n => (off.toNat, n, false)
  | .write off bytes => (off.toNat, bytes.length, true)
  | .atomic off k _ _ => (off.toNat, aopBytes k, true)
  | .serve off => (off.toNat, 16, true)
  | .grant off _ _ _ => (off.toNat, 16, true)
  | .mon off => (off.toNat, 1, false)
/-- What the target's checks answer: performed at an address, refused with a code, pending, without room for its walk. -/
inductive Served where
  | at_ (pa : Nat) | refuse (code : Nat) | pending | busy
  deriving DecidableEq, Repr
/-- Whether host memory accepts an access that has reached it (R166). -/
def hostTakes : RemoteAcc → Bool
  | .atomic _ k _ _ => aopHost k
  | _ => true
/-- The context under whose tables EXPCTL translates the window. -/
def expCtx (ctl : Dword) : Nat := (ctl.extractLsb' 0 6).toNat
/-- The checks of an access that arrived under a value of EXPCTL, in the order of the codes of R352; a page that is not present is
serviced under EXPCTL's context and reported with INFO1[3]. The lines of the walk are read (R262). -/
def serveChk (s0 : State) (ag : Agent) (ctl : Dword) (acc : RemoteAcc) : State × Served :=
  let x := spanOf acc
  let c := expCtx ctl
  let page := x.1 / 65536
  if !ctl.getLsbD 63 then (s0, .refuse 0x21)
  else if (s0.ctx c).waits.contains (page, ag.who) then (s0, .pending)
  else if !walkRoom s0 c x.1 then (s0, .busy)
  else
    let s := touchVa s0 c x.1
    match freshChk s c x.1 (if x.2.2 then .write else .read) with
    | .ok pa _ =>
      if x.2.2 && controlHit s pa x.2.1 then (s, .refuse 0x22)
      else if x.2.2 && !ctl.getLsbD 62 then (s, .refuse 0x23)
      else if tgtHost s pa && !hostTakes acc then (s, .refuse 0x22)
      else if tgtHost s pa && !s.sys.hostL0 then (s, .pending)
      else (s, .at_ pa)
    | .absent =>
      if (s.ctx c).denied.contains (page, ag.who) then (agentDenied s c ag page, .refuse 0x22)
      else (agentWaits s c ag (d64 x.1) (8 + b2n x.2.2), .pending)
    | .accv 4 => (s, .refuse 0x23)
    | _ => (s, .refuse 0x22)
/-- The monitors that another device has here under a tag are freed. -/
def dropFar (s : State) (src tag : Nat) : State := { s with far := s.far.filter (fun m => !(m.src == src && m.tag == tag)) }
/-- A monitor is armed for another device's waiter, where the slice's table has room (R246, R253): the reply says whether. -/
def farMon (s : State) (pa src tag : Nat) : State × List Byte × Bool :=
  if canArm s pa then
    ({ s with far := s.far ++ [{ src := src, tag := tag, line := pa / 64, time := s.gtime, hit := false, ticket := none }] }, [1], false)
  else (s, [0], false)
/-- Another device's `tkwait` asks for its grant (R181): while its ticket is not served it waits on the word, known by the HOLDER
that it would write, and the holder is boosted (R183). -/
def farGrant (s : State) (pa src : Nat) (ticket holder : Word) (prio : Nat) : State × List Byte × Bool :=
  let r := grantHere s pa ticket.toNat holder.toNat
  let s1 := dropFar r.1 src holder.toNat
  let s2 := if r.2 = ticket.toNat then s1
    else boostWord { s1 with far := s1.far ++ [{ src := src, tag := holder.toNat, line := pa / 64, time := s1.gtime, hit := false,
                                                 ticket := some (pa / 16, prio) }] } pa
  (s2, leBytes 4 r.2, false)
/-- Performs a request at its home slice: the state after it, the bytes of its reply and their poison (R263). -/
def serveAt (s : State) (pa src tag : Nat) : RemoteAcc → State × List Byte × Bool
  | .read _ n =>
    if tgtControl s pa then (s, controlBytes s (pa - Config.csBase) n, false)
    else let s1 := seeLine s (pa / 64); (s1, nowBytes s1 pa n, (lineNow s1 (pa / 64)).bad)
  | .write _ bytes => (if tgtControl s pa then s else homeWrite s pa bytes false, [], false)
  | .atomic _ k a b =>
    if tgtControl s pa then (s, controlBytes s (pa - Config.csBase) (aopBytes k), false)
    else let r := atomicHere s pa k a b false; (r.1, leBytes (aopBytes k) r.2.1.toNat, r.2.2)
  | .serve _ => (if tgtControl s pa then s else serveHere s pa, [], false)
  | .grant _ t h p =>
    if tgtControl s pa then (s, controlBytes s (pa + 4 - Config.csBase) 4, false)
    else if src = s.sys.devid then let r := grantHere s pa t.toNat h.toNat; (r.1, leBytes 4 r.2, false)
    else farGrant s pa src t h p.val
  | .mon _ => farMon s pa src tag
/-- Whether a request needs the atomic unit. -/
def needsUnit : RemoteAcc → Bool
  | .atomic _ _ _ _ => true
  | .serve _ => true
  | .grant _ _ _ _ => true
  | _ => false
/-- Whether the home slice can accept a request now, beside a read's need of an entry (R244). -/
def sliceTakes (s : State) (pa : Nat) (acc : RemoteAcc) : Bool :=
  !tgtDram s pa || (if needsUnit acc then atomFree s (pa / 64) else !heldLine s (pa / 64))
/-- The kept reply of a tag. -/
def keptOf (s : State) (src tag : Nat) : Option KeptTag := s.fab.kept.find? (fun k => k.src == src && k.tag == tag)
/-- The offset and the length of what the reads of a request ask for. -/
def readSpan (q : RemoteReq) : Nat × Nat :=
  let lo := q.joins.foldl (fun n j => Nat.min n j.off) 64
  let hi := q.joins.foldl (fun n j => Nat.max n (j.off + j.len)) 0
  (q.off / 64 * 64 + lo, hi - lo)
/-- A request of this device as its target sees it. A `tkwait` asks with its ticket, the HOLDER it would write and its PRIO. -/
def accOf (s : State) (q : RemoteReq) : RemoteAcc :=
  let off : BitVec 45 := BitVec.ofNat 45 q.off
  match q.req.kind with
  | .read =>
    let read := RemoteAcc.read (BitVec.ofNat 45 (readSpan q).1) (readSpan q).2
    if q.req.who ≠ .eval then read
    else
      match waitOf s q.req.bid q.req.tid with
      | some (b, t, w) =>
        (match w.kind with
         | .ticket _ _ ticket _ => .grant off ticket (BitVec.ofNat 32 (holderOf s b t.slot)) (Fin.ofNat 16 b.prio)
         | _ => read)
      | none => read
  | .write _ bytes _ => .write off bytes
  | .atomic _ k a b _ _ => .atomic off k a b
  | .take _ _ => .atomic off .addI32 1 0
  | .serve _ _ => .serve off
/-- A request of this device has been accepted at its target (R202, R241). -/
def markAccepted (s : State) (src tag : Nat) : State :=
  if src ≠ s.sys.devid then s
  else { s with fab := { s.fab with remote := s.fab.remote.map (fun q => if q.tag = tag then { q with accepted := true } else q) } }
/-- A request reaches this device's window: EXPCTL as it is then is the one that it meets (R350). -/
def arrive (s : State) (src tag : Nat) : State :=
  if s.fab.arrived.any (fun a => a.1 == src && a.2.1 == tag) then s
  else { s with fab := { s.fab with arrived := s.fab.arrived ++ [(src, tag, s.fab.expctl)] } }
/-- EXPCTL as it was when a request arrived. -/
def arrivedUnder (s : State) (src tag : Nat) : Dword :=
  ((s.fab.arrived.find? (fun a => a.1 == src && a.2.1 == tag)).map (·.2.2)).getD s.fab.expctl
/-- Serves a request whose tag is new: a read within a line of device memory joins a merge entry, and is answered with it (R253);
anything else is performed and answered at once, when the slice can accept it. -/
def serve (s0 : State) (src tag : Nat) (acc : RemoteAcc) : State :=
  let s := arrive s0 src tag
  match serveChk s (.ofFar src tag) (arrivedUnder s src tag) acc with
  | (s1, .pending) => s1
  | (s1, .busy) => s1
  | (s1, .refuse k) => keepTag s1 src tag (.refused (BitVec.ofNat 8 k))
  | (s1, .at_ pa) =>
    let now (s : State) : State := let r := serveAt s pa src tag acc; markAccepted (keepTag r.1 src tag (.data r.2.1 r.2.2)) src tag
    match acc with
    | .read _ n =>
      if tgtDram s1 pa then
        let j : OtherJoin := { src := src, tag := tag, off := pa % 64, n := n }
        match acceptRead s1 (pa / 64) (1024 + src, tag) (fun m => decide (m.others.length < Config.otherSlots))
            (fun m => { m with others := m.others ++ [j] }) with
        | some s2 => markAccepted s2 src tag
        | none => refuseRead s1 (pa / 64) (1024 + src, tag)
      else if sliceTakes s1 pa acc then now s1 else s1
    | _ => if sliceTakes s1 pa acc then now s1 else s1
/-- Whether a request of this device stands behind an earlier one, of its core or its block, to the same line, which has not been
accepted (R160, R241, R290). -/
def behindRemote (s : State) (q : RemoteReq) : Bool :=
  s.fab.remote.any (fun p => decide (p.tag < q.tag) && !p.accepted && p.dev == q.dev && p.off / 64 == q.off / 64
    && (p.core == q.core || p.req.bid == q.req.bid))
/-- Whether a tag has been performed, or has joined a merge entry here. -/
def tagKnown (s : State) (src tag : Nat) : Bool :=
  (keptOf s src tag).isSome || s.merges.any (fun m => m.others.any (fun j => j.src == src && j.tag == tag))
/-- Whether a port discards a packet by its send time (R364). -/
def tooOld (s : State) (sent : Nat) : Bool := decide (sent + 100000 < s.gtime)
/-- R350, R351: performed once for each tag, at the home slice. A request of this device to its own window is the one that it
has outstanding; one that comes over a link is discarded when it was sent too long ago (R364). -/
def execRemoteRequest (src tag : Nat) (acc : Sent RemoteAcc) (s : State) : Out :=
  if !s.part.full || tagKnown s src tag || (src != s.sys.devid && tooOld s acc.time) then .next s
  else if src = s.sys.devid then
    match s.fab.remote.find? (fun q => q.tag == tag && q.dev == src) with
    | some q =>
      if q.accepted || behindRemote s q || !q.req.ready s q.core then .next s else .next (serve s src tag (accOf s q))
    | none => .next s
  else .next (serve s src tag acc.body)
/-- R351: a kept tag is dropped after 200 µs. -/
def execRemoteTagExpire (src tag : Nat) (s : State) : Out :=
  .next { s with fab := { s.fab with kept := s.fab.kept.filter (fun k =>
    !(k.src == src && k.tag == tag && decide (k.time + 200000 ≤ s.gtime))) } }

/-! ## Replies (R351, R352) -/

/-- A request of this device is outstanding no longer. -/
def dropRemote (s : State) (tag : Nat) : State :=
  { s with fab := { s.fab with remote := s.fab.remote.filter (fun q => q.tag != tag),
                               arrived := s.fab.arrived.filter (fun a => !(a.1 == s.sys.devid && a.2.1 == tag)) } }
/-- The live threads for which a request counts receive a cause (R352, R393). -/
def causeAll (s : State) (bid : Nat) (tids : List Nat) (c : Cause) : State :=
  s.updThreads bid tids (fun _ t => if t.exited then t else t.queueCause c)
/-- A read ends without a value: ACCV in the lanes it was made for; a `coll` word that asked for its parameter block keeps the
code. -/
def failJoin (code : Nat) (s : State) (j : Join) : State :=
  match j.dst with
  | .eval => failWait s j.bid j.tid j.va code
  | .block slot => s.updFrond j.bid slot (fun f =>
      if f.eblk = some none then { f with eblk := some (some { va := d64 code, data := [], bad := false }) } else f)
  | _ => causeAll (countDown (dropLoad s j.bid j.tid j.dst j.sz) j.bid j.tids (some j.tok)) j.bid j.tids (accv j.va code)
/-- A thread's write or atomic ends unperformed. -/
def failReq (s : State) (r : Req) (code : Nat) : State :=
  let s1 := match r.kind.dst with
    | some (d, sz) => dropLoad s r.bid r.tid (.v d) sz
    | none => s
  causeAll (countDown s1 r.bid r.tids r.tok) r.bid r.tids (accv r.va code)
/-- A launch's signal store is over: its next action follows (R331). -/
def nextAction (s : State) (l : Nat) : State := s.updLaunch l (fun x => { x with acts := x.acts.map (· + 1) })
/-- A remote access ends unperformed with a code (R352, R331, R204). -/
def failRemote (s : State) (q : RemoteReq) (code : Nat) : State :=
  let r := q.req
  let s1 := dropRemote s q.tag
  match r.who with
  | .launch l =>
    match s1.launch l with
    | some x => nextAction (seqEvent s1 x.ctx 9 x.node r.va 0 1 0) l
    | none => s1
  | .engine id =>
    match (s1.core q.core).queue.find? (fun o => o.id == id) with
    | some o => freezeOp s1 q.core o r.va
    | none => s1
  | _ => if q.joins.isEmpty then failReq s1 r code else q.joins.foldl (failJoin code) s1
/-- A watched word's home has answered: a ticket is granted when SERVE equals it (R181), another wait is evaluated. -/
def answerWait (s : State) (bid tid v : Nat) : State :=
  match waitOf s bid tid with
  | some (b, t, w) =>
    match w.kind with
    | .ticket _ pa ticket _ =>
      if v = ticket.toNat then finishWait (setHolder s bid (ticketKey s pa) (holderOf s b t.slot)) bid tid b [tid] w.scope else s
    | _ => evalWatch s bid tid v
  | none => s
/-- A read through the window receives its bytes. -/
def receiveFar (q : RemoteReq) (bytes : List Byte) (bad : Bool) (s : State) (j : Join) : State :=
  let mine := (bytes.drop (q.off / 64 * 64 + j.off - (readSpan q).1)).take j.len
  if j.dst = .eval then let x := seenWord s bad (leNat mine); answerWait x.1 j.bid j.tid x.2
  else receive s q.core j mine bad
/-- The requests that stand before an answered one to its line have been accepted (R241). -/
def acceptBefore (s : State) (q : RemoteReq) : State :=
  { s with fab := { s.fab with remote := s.fab.remote.map (fun p =>
    if p.core = q.core && p.dev = q.dev && p.off / 64 = q.off / 64 && p.tag < q.tag then { p with accepted := true } else p) } }
/-- A remote access has been performed: its value lands with its poison, its token goes down (R158, R351, R386). -/
def landRemote (s : State) (q : RemoteReq) (bytes : List Byte) (bad : Bool) : State :=
  let r := q.req
  let s1 := dropRemote (acceptBefore s q) q.tag
  match r.who with
  | .launch l => nextAction s1 l
  | .engine id => if r.kind.rmw then landGot s1 id { va := r.va, data := bytes, bad := bad } else q.joins.foldl (receiveFar q bytes bad) s1
  | _ =>
    match r.kind.dst with
    | some (d, sz) => countDown (landAtomic s1 q.core r d sz (d64 (leNat (bytes.take (szBytes sz)))) bad) r.bid r.tids r.tok
    | none => if r.kind.writes then countDown s1 r.bid r.tids r.tok else q.joins.foldl (receiveFar q bytes bad) s1
/-- Whether a request of this device waits at its own window for the service of a page. -/
def servicing (s : State) (q : RemoteReq) : Bool :=
  (s.ctx (expCtx (arrivedUnder s q.dev q.tag))).waits.contains (q.off / 65536, (Agent.ofFar q.dev q.tag).who)
/-- The reply to a request of this device: for its own window the one it has kept, or a pending one while a page is serviced. -/
def replyFor (s : State) (q : RemoteReq) (rep : RemoteRep) : Option RemoteRep :=
  if q.dev ≠ s.sys.devid then some rep
  else
    match keptOf s q.dev q.tag with
    | some k => some k.rep
    | none => if servicing s q then some .pending else none
/-- Whether a request has left this device: over a link, or to its own window. -/
def RemoteReq.gone (q : RemoteReq) (s : State) : Bool := q.dev == s.sys.devid || (q.path.isSome && q.sends != 0)
/-- R351, R352: a reply, or a pending reply, which restarts the lifetime clock. One that comes over a link is discarded when it was sent
too long ago (R364). -/
def execRemoteReply (tag : Nat) (rep : Sent RemoteRep) (s : State) : Out :=
  match s.fab.remote.find? (fun q => q.tag == tag) with
  | none => .next s
  | some q =>
    if !q.gone s || (q.dev != s.sys.devid && tooOld s rep.time) then .next s
    else
      match replyFor s q rep.body with
      | none => .next s
      | some .pending =>
        .next { s with fab := { s.fab with remote := s.fab.remote.map (fun p =>
          if p.tag = tag then { p with sent := s.gtime } else p) } }
      | some (.refused code) => .next (failRemote s q code.toNat)
      | some (.data bytes bad) => .next (landRemote s q bytes bad)
/-- R352: no reply for 100 µs after the last send. A release that has still to be sent has no such clock. -/
def execRemoteTimeout (tag : Nat) (s : State) : Out :=
  match s.fab.remote.find? (fun q => q.tag == tag) with
  | some q => if q.sent + 100000 ≤ s.gtime && q.req.ready s q.core && q.sends != 0 then .next (failRemote s q 0x20) else .next s
  | none => .next s

/-! ## What other devices send (R183, R202, R246, R351) -/

/-- A request is sent over a path as it is now (R351); nothing is sent while no path leads to its target. -/
def RemoteReq.send (q : RemoteReq) (s : State) : RemoteReq :=
  let p := pathOf s q.dev
  if p.isSome || q.dev == s.sys.devid then { q with sent := s.gtime, path := p, sends := q.sends + 1 } else { q with path := p }
/-- A request is sent, or sent again (R351); a release once it may perform (R157). -/
def resend (s : State) (tag : Nat) : State :=
  { s with fab := { s.fab with remote := s.fab.remote.map (fun q => if q.tag = tag && q.req.ready s q.core then q.send s else q) } }
/-- A request to another device has been accepted there. -/
def farAccepted (s : State) (tag : Nat) : State :=
  match s.fab.remote.find? (fun q => q.tag == tag) with
  | some q =>
    if q.dev = s.sys.devid || behindRemote s q || !q.gone s then s
    else { s with fab := { s.fab with remote := s.fab.remote.map (fun p => if p.tag = tag then { p with accepted := true } else p) } }
  | none => s
/-- A monitor that a thread armed at another device's home slice is signalled (R246); the write that signals it releases its frond in the
wave that it has among the fronds with a monitor there (R178, R400). -/
def farSignal (s : State) (bid tid : Nat) : State :=
  { s with mons := s.mons.map (fun m =>
    if m.bid = bid ∧ m.tid = tid ∧ m.armed = true ∧ m.hit = false ∧ tgtRemote (m.line * 64) = true then
      { m with hit := true, due := m.dueIn s (fun x => x.line == m.line && x.armed) }
    else m) }
/-- A boost from another device for the thread that HOLDER names here (R183). -/
def farBoost (s : State) (slot core prio : Nat) : State :=
  if s.part.full then boostHolders s none (2 ^ 31 + s.sys.devid % 1024 * 2 ^ 14 + slot % 64 * 256 + core % 256) prio else s

end Sys2Proof.Machine
end

