-- ==== Sys2Proof/Machine/Fabric.lean ====
section
/-! DEFINITION. Fabric ports (R353, R354, R397), the domain map and its formation (R355, R356), the tree set (R357). -/

namespace Sys2Proof.Machine

/-! ## The map (R355, R356) -/

/-- A port. -/
def State.port (s : State) (j : Nat) : Port := s.fab.ports.getD j Port.init
/-- Changes a port. -/
def setPort (s : State) (j : Nat) (p : Port) : State := { s with fab := { s.fab with ports := s.fab.ports.put j p } }
/-- This device's live links, each from its own end (R356). -/
def ownLinks (s : State) : List Link :=
  (List.range 16).filterMap (fun j =>
    if (s.port j).st = 2 then some { a := s.sys.devid, p := j, b := (s.port j).ndev, q := (s.port j).nport } else none)
/-- Links that both of their ends list. -/
def mutual_ (ls : List Link) : List Link :=
  ls.filter (fun l => l.a != l.b && ls.contains { a := l.b, p := l.q, b := l.a, q := l.p })
/-- The devices reached from some devices, `fuel` hops at most. -/
def reach (ls : List Link) : Nat → List Nat → List Nat
  | 0, seen => seen
  | n + 1, seen => reach ls n (ls.foldl (fun (l : List Nat) (k : Link) => if seen.contains k.a then addNat l k.b else l) seen)
/-- The map as the tables held now give it: the devices in ascending id, the links from both ends. -/
def candidate (s : State) : List Nat × List Link :=
  let all := mutual_ (ownLinks s ++ (s.fab.tables.map (fun t => t.2.2)).flatten)
  let devs := sortBy id (reach all (s.fab.tables.length + 1) [s.sys.devid])
  (devs, all.filter (fun l => devs.contains l.a))
/-- Whether the device belongs to a domain. -/
def domOn (s : State) : Bool := s.part.full && s.fab.domctl.getLsbD 63
/-- The live ports. -/
def livePorts (s : State) : List Nat := (List.range 16).filter (fun j => (s.port j).st == 2)
/-- A link table is sent over every live link, in place of the table of the same device sent there before (R356). -/
def flood (s : State) (dev version : Nat) (links : List Link) : State :=
  let ports := livePorts s
  { s with fab := { s.fab with
      floods := s.fab.floods.filter (fun x => x.dev != dev)
        ++ ports.map (fun j => ({ port := j, dev := dev, version := version, time := s.gtime, links := links } : Flood)) } }
/-- This device floods its live link table, with a version of its own (R356). One that leaves by no port cannot come back. -/
def floodOwn (s : State) : State :=
  let v := s.fab.version + 1
  let mine := if (livePorts s).isEmpty then s.fab.mine else s.fab.mine ++ [(v, ownLinks s)]
  flood { s with fab := { s.fab with version := v, mine := mine } } s.sys.devid v (ownLinks s)
/-- Requests without a reply take the route that the map gives now, and are sent again when any of it has changed (R351, R365). -/
def reroute (s : State) : State :=
  { s with fab := { s.fab with remote := s.fab.remote.map (fun q =>
      if pathOf s q.dev = q.path || q.sends = 0 then { q with path := pathOf s q.dev } else q.send s) } }
/-- Formation begins, or begins again (R356). -/
def reform (f : Fabric) (now : Nat) : Fabric :=
  { f with forming := true, changed := now, dstate := if f.dstate = 0 then 0 else 2 }
/-- A failure pauses the running operations (R361): what they have sent and received is discarded, and packets of the paused map's epoch
count no more. A run that had resumed while others of its
recomputation had not gives back what that added to RECOMP: one recomputation adds one. An operation that waits to start is compared
under the new map (R365). -/
def pauseRuns (f : Fabric) : Fabric :=
  let again := f.runs.any (·.paused)
  { f with runs := f.runs.map (fun r =>
      let r := { r with sentUp := [], got := [], along := [], since := f.epoch + 1 }
      if r.started then { r with paused := true, final := none, recomp := if again && !r.paused then r.recomp - 1 else r.recomp }
      else { r with equal := false }) }
/-- A port or a table has changed: `s` before, `t0` after. This device's table is flooded when it or the map has changed (R356). A lost
link or device is a failure (R361); a new link between devices of the map is used at once; any other change forms the map anew. -/
def mapChange (s t0 : State) : State :=
  if !domOn t0 then t0
  else
    let old := candidate s
    let new := candidate t0
    let t := if old = new ∧ ownLinks s = ownLinks t0 then t0 else floodOwn t0
    if old = new then t
    else
      let lost := (old.2.filter (fun l => !new.2.contains l)).length / 2
      let gone := old.1.any (fun d => !new.1.contains d)
      let f := { t.fab with fails := t.fab.fails + lost }
      if 0 < lost || gone then reroute { t with fab := reform (pauseRuns f) t.gtime }
      else if !f.forming && f.dstate != 0 && old.1 == new.1 then reroute { t with fab := { f with links := new.2 } }
      else { t with fab := reform f t.gtime }
/-- Two devices present one id, or the domain is too large: no map, and a device error event (R356, R388). -/
def noMap (s : State) : State :=
  devError { s with fab := { s.fab with devs := [], links := [], trees := [], dstate := 0, forming := false } } 5 none none

/-! ## Ports (R353, R354, R397, R403) -/

/-- R353, R354: a live link fails, or a port fails in training; STATE 3 and FAILS + 1. -/
def execLinkFail (port : Fin 16) (s : State) : Out :=
  let p := s.port port.val
  if !s.part.full || !(p.st == 1 || p.st == 2) then .next s
  else .next (mapChange s (setPort s port.val { p with st := 3, fails := Nat.min 255 (p.fails + 1), time := s.gtime }))
/-- R397: 100 µs after its failure the port trains again. -/
def execPortRetrain (port : Fin 16) (s : State) : Out :=
  let p := s.port port.val
  if p.st = 3 && p.time + 100000 ≤ s.gtime then .next (setPort s port.val { p with st := 1 }) else .next s
/-- R354, R397: training ends. -/
def execLinkTrained (port : Fin 16) (ndev : BitVec 10) (nport : BitVec 4) (width : BitVec 2) (s : State) : Out :=
  let p := s.port port.val
  if p.st = 1 && width.toNat < 3 then
    .next (mapChange s (setPort s port.val { p with st := 2, ndev := ndev.toNat, nport := nport.toNat, width := width.toNat }))
  else .next s
/-- R353: a live link goes on at a narrower width. -/
def execLinkWidthRetrain (port : Fin 16) (width : BitVec 2) (s : State) : Out :=
  let p := s.port port.val
  if p.st = 2 && p.width < width.toNat && width.toNat < 3 then .next (setPort s port.val { p with width := width.toNat })
  else .next s

/-! ## Formation (R355, R356) -/

/-- R355: DOMAIN is ignored while EN is 1. -/
def execDomctlWrite (v : Dword) (s : State) : Out :=
  if !s.part.full || s.sys.halted then .next s
  else
    let on := s.fab.domctl.getLsbD 63
    let dom := if on then s.fab.domctl.extractLsb' 0 16 else v.extractLsb' 0 16
    let w : Dword := (BitVec.ofBool (v.getLsbD 63) ++ (0 : BitVec 47)) ++ dom
    let f := { s.fab with domctl := w }
    if on && !v.getLsbD 63 then
      .next { s with fab := pauseRuns { f with tables := [], devs := [], links := [], trees := [], dstate := 0, forming := false } }
    else if !on && v.getLsbD 63 then .next (floodOwn { s with fab := reform { f with tables := [] } s.gtime })
    else .next { s with fab := f }
/-- R356: a table is accepted, and forwarded, only when it is newer than the one held. A table under this device's id that it has not
flooded itself, or one that differs from the held table of the same version, shows a duplicate id. A packet sent too long ago is
discarded (R364). -/
def execLinkTableFlood (dev version : Nat) (links : Sent (List Link)) (s : State) : Out :=
  if !domOn s || tooOld s links.time then .next s
  else if dev = s.sys.devid then
    .next (if s.fab.mine.contains (version, links.body.filter (fun l => l.a == dev)) then s else noMap s)
  else
    let mine := links.body.filter (fun l => l.a == dev)
    let accept : State :=
      mapChange s (flood { s with fab := { s.fab with tables := s.fab.tables.put dev (version, mine) } } dev version mine)
    match s.fab.tables.get? dev with
    | some (v, l) =>
      if v = version && l ≠ mine then .next (noMap s)
      else if version ≤ v then .next s
      else .next accept
    | none => .next accept

/-! ## Trees (R357) -/

/-- One undirected link's two ends in one order. -/
def Link.flip (l : Link) : Link := { a := l.b, p := l.q, b := l.a, q := l.p }
/-- The link a search takes from a device: to the lowest-id unvisited neighbour, by the lowest port. -/
def nextLink (ls used : List Link) (seen : List Nat) (x : Nat) : Option Link :=
  ls.foldl (fun (best : Option Link) l =>
    if l.a != x || seen.contains l.b || used.contains l || used.contains (Link.flip l) then best
    else
      match best with
      | none => some l
      | some m => if l.b < m.b || (l.b == m.b && decide (l.p < m.p)) then some l else some m) none
/-- The depth-first search: devices visited, each with its parent, and the links gone over. -/
def search (ls used : List Link) : Nat → List Nat → List Nat → List (Nat × Nat) → List Link →
    List (Nat × Nat) × List Link
  | 0, _, _, par, laid => (par, laid)
  | _ + 1, [], _, par, laid => (par, laid)
  | n + 1, x :: up, seen, par, laid =>
    match nextLink ls used seen x with
    | some l => search ls used n (l.b :: x :: up) (l.b :: seen) (par ++ [(l.b, x)]) (l :: laid)
    | none => search ls used n up seen par laid
/-- The trees from index `i` on, `left` of them at most. -/
def treesFrom (devs : List Nat) (ls : List Link) : Nat → Nat → List Link → List Tree
  | 0, _, _ => []
  | left + 1, i, used =>
    let root := devs.getD (i % devs.length) 0
    let r := search ls used (2 * devs.length + 1) [root] [root] [] []
    if r.1.length + 1 < devs.length then []
    else { root := root, par := r.1 } :: treesFrom devs ls left (i + 1) (r.2 ++ used)
/-- The tree set of a map. -/
def treeSet (devs : List Nat) (ls : List Link) : List Tree :=
  if devs.isEmpty then [] else treesFrom devs ls (if devs.length = 1 then 1 else 8) 0 []

/-- R356, R361: no map has changed for 20 µs: the new map has a new epoch. The counts run from the first formation (R235). The end
of a run as partitioned shows until the device set has changed. -/
def execDomainFormed (s : State) : Out :=
  let f := s.fab
  if !domOn s || !f.forming || s.gtime < f.changed + 20000 then .next s
  else
    let m := candidate s
    if 1024 < m.1.length then .next (noMap s)
    else
      let g := Fabric.settled { f with devs := m.1, links := m.2, trees := treeSet m.1 m.2, forming := false, epoch := f.epoch + 1,
                                       parted := f.parted && f.devs == m.1 }
      .next (reroute { s with fab := if f.devs.isEmpty then { g with recomps := 0, fails := 0, gen := 0 } else g })

end Sys2Proof.Machine
end

