-- ==== Sys2Proof/Machine/Collective.lean ====
section
/-! DEFINITION. The collective engine (R233 to R235, R358 to R365): the start and its comparison, chunks and their sums,
marks, recomputation, the status word, the report of `cstat`. -/

namespace Sys2Proof.Machine

/-! ## Parameters (R233, R358) -/

/-- Devices of an operation's map. -/
def CollRun.size (r : CollRun) : Nat := r.devs.length
/-- Bytes of the DST array of the all-reduce form. -/
def collSpan (o : Op) (d : Nat) : Nat :=
  let op := pf o.words 0 0 4
  pf64 o.words 2 * collBytes (pf o.words 0 4 4) * (if op = 1 || op = 2 then d else 1)
/-- NC of an operation. -/
def chunkCount (o : Op) (d : Nat) : Nat := let k := pf o.words 8 0 32; (collSpan o d + k - 1) / k
/-- The elements of a chunk: first and one past the last. -/
def chunkElems (o : Op) (d c : Nat) : Nat × Nat :=
  let es := collBytes (pf o.words 0 4 4)
  let k := pf o.words 8 0 32
  (c * k / es, Nat.min (collSpan o d) ((c + 1) * k) / es)
/-- Changes a run. -/
def updRun (s : State) (core op : Nat) (f : CollRun → CollRun) : State :=
  { s with fab := { s.fab with runs := s.fab.runs.map (fun r => if r.core = core && r.op = op then f r else r) } }
/-- The run of an operation. -/
def runOf (s : State) (core op : Nat) : Option CollRun := s.fab.runs.find? (fun r => r.core == core && r.op == op)
/-- A collective operation that has reached the hub, or may reach it now, and that its engine can advance. -/
def collOp (s : State) (core op : Nat) : Option (Op × Block) := (hubOp s core op).filter (fun x => decide (x.1.kind = .coll))
/-- Runs whose operation is gone, or frozen, run no longer; their generations are retired (R205, R364). -/
def pruneRuns (s : State) : State :=
  let dead (r : CollRun) : Bool := !(s.core r.core).queue.any (fun o => o.id == r.op && !o.frozen)
  if s.fab.runs.any dead then { s with fab := s.fab.without dead s.gtime } else s
/-- The end of the hold on a generation: 200 µs after its last retirement (R364). -/
def genHold (s : State) (gen : Nat) : Nat :=
  s.fab.retired.foldl (fun n e => if e.1 = gen then Nat.max n (e.2 + 200000) else n) 0

/-! ## Status and end (R202, R234) -/

/-- An engine write; false when it is stopped, and the operation waits or its channel is frozen. -/
def collWrite (s : State) (core : Nat) (b : Block) (o : Op) (va : Nat) (bs : List (Byte × Bool)) : State × Bool :=
  engTry s core b o va bs
/-- The status word: STATE, RECOMP, TREES. -/
def statusWord (st recomp trees : Nat) : Nat := st + recomp * 16 + trees % 16 * 4096
/-- Writes the status word. -/
def collStatus (s : State) (core : Nat) (b : Block) (o : Op) (v : Nat) : State × Bool :=
  collWrite s core b o (pf64 o.words 12) ((leBytes 4 v).map (fun x => (x, false)))
/-- Whether a write of an operation through the remote window has not been acknowledged: its final status, a release at system
scope, waits for it (R234, R273). -/
def collOut (s : State) (o : Op) : Bool := s.fab.remote.any (fun q => decide (q.req.who = .engine o.id) && q.req.kind.writes)
/-- The final status write, and the end of the operation: its generation is retired. -/
def collEnd (s : State) (core : Nat) (b : Block) (o : Op) (v : Nat) : State :=
  if collOut s o then updRun s core o.id (fun r => { r with final := some v })
  else
    match collStatus s core b o v with
    | (s1, false) => updRun s1 core o.id (fun r => { r with final := some v })
    | (s1, true) =>
      endOp { s1 with fab := s1.fab.without (fun r => r.core == core && r.op == o.id) s1.gtime } core o.id none
/-- A run whose final status is known, or that has no chunk left, ends. -/
def collFinish (s : State) (core : Nat) (b : Block) (o : Op) : State :=
  match runOf s core o.id with
  | some r =>
    if r.paused || !r.started then s
    else
      match r.final with
      | some v => collEnd s core b o v
      | none => if r.todo.isEmpty then collEnd s core b o (statusWord 1 r.recomp s.fab.trees.length) else s
  | none => s

/-! ## The start (R234, R363, R364) -/

/-- Whether another device's fields equal this one's. -/
def peerEqual (o : Op) (p : Peer) : Bool :=
  p.op.toNat == pf o.words 0 0 4 && p.ty.toNat == pf o.words 0 4 4 && p.red.toNat == pf o.words 0 8 4
    && p.root.toNat == pf o.words 0 16 10 && p.count.toNat == pf64 o.words 2 && p.chunk.toNat == pf o.words 8 0 32
/-- An operation's lines are read anew, for a purpose by its number: 1 its marks, c + 2 its chunk c. -/
def collRead (s : State) (core : Nat) (o : Op) (why : Nat) : State × Op :=
  let again (o : Op) : Op := if o.keep = why then o else { o with keep := why, stage := 0, inbox := [] }
  (updOp s core o.id again, again o)
/-- What an operation has read is used no more. -/
def collClear (s : State) (core : Nat) (o : Op) : State :=
  updOp s core o.id (fun o => { o with keep := 0, stage := 0, inbox := [], next := 0 })
/-- The chunks of `n` that are marked in some bytes; the marks of a poisoned line are free (DESIGN CHOICE, log entry 52). -/
def markedIn (s : State) (marks : List (Byte × Bool)) (n : Nat) : List Nat :=
  (List.range n).filter (fun c => match marks[c / 8]? with
    | some (x, bad) => if bad then Config.freeBit (Config.freeAt s.free c 12) else x.getLsbD (c % 8)
    | none => false)
/-- The operation starts: the marks are read and the status is written 0. A chunk that every device has marked is not run
(R234, R361, R362). -/
def collBegin (s : State) (core : Nat) (b : Block) (o : Op) : State :=
  let n := chunkCount o s.fab.devs.length
  let va := pf64 o.words 10
  let x := collRead s core o 1
  engGet x.1 core b x.2 (linesOf va ((n + 7) / 8)) (fun s =>
    match collStatus s core b o 0 with
    | (s1, false) => s1
    | (s1, true) =>
      let own := markedIn s1 (x.2.got va ((n + 7) / 8)) n
      let s2 := updRun (collClear { s1 with free := s1.free + 1 } core o) core o.id (fun r =>
        { r with started := true, devs := s1.fab.devs, own := own,
                 todo := (List.range n).filter (fun c => !(own.contains c && r.marked.contains c)) })
      collFinish { s2 with fab := { s2.fab with gen := pf o.words 1 16 12 } } core b o)
/-- A run that may start starts: its fields are equal, the hold on its GEN has passed, no map is being formed (R364, R365). -/
def collStartNow (s : State) (core : Nat) (b : Block) (o : Op) (r : CollRun) : State :=
  if r.equal && !r.started && r.final.isNone && !s.fab.forming && !s.fab.devs.isEmpty && decide (r.holdTo ≤ s.gtime) then collBegin s core b o
  else s
/-- What `keep` holds of an operation that has been refused and whose status is still to be written. -/
def collRefused : Nat := 2 ^ 64
/-- The operation is refused (R363). -/
def collRefuse (s : State) (core : Nat) (b : Block) (o : Op) : State :=
  collEnd (updOp s core o.id (fun o => { o with keep := collRefused })) core b o (statusWord 3 0 0)
/-- The hub receives the operation: a generation that runs is refused, a ninth operation waits (R363). -/
def collEnter (s : State) (core : Nat) (b : Block) (o : Op) : State :=
  let gen := pf o.words 1 16 12
  let dom := pf o.words 1 0 16
  let s1 := updOp s core o.id (fun o => { o with begun := true })
  let runs := s1.fab.runs.filter (fun r => r.dom == dom)
  if o.keep = collRefused || runs.any (fun r => r.gen == gen) then collRefuse s1 core b o
  else if 8 ≤ runs.length then s1
  else
    let r : CollRun := { core := core, op := o.id, dom := dom, gen := gen, devs := [], equal := false, started := false,
                         holdTo := genHold s gen, recomp := 0, todo := [], marked := [], own := [], sentUp := [], paused := false,
                         final := none, since := s1.fab.epoch, got := [], along := [] }
    { s1 with fab := { s1.fab with runs := s1.fab.runs ++ [r] } }
/-- The comparison, once every device of the map has issued the operation of this DOMAIN and GEN. -/
def collCompare (s : State) (core : Nat) (b : Block) (o : Op) (r : CollRun) (peers : List Peer) : State :=
  let others := s.fab.devs.filter (fun d => d != s.sys.devid)
  let met := others.map (fun d => peers.find? (fun p => p.dev == d && p.dom.toNat == r.dom && p.gen.toNat == r.gen))
  let ps := met.filterMap id
  if r.started || r.equal || r.final.isSome || s.fab.forming || domState s r.dom = 0 || !met.all Option.isSome then s
  else if ps.all (peerEqual o) && (pf o.words 0 0 4 != 3 || s.fab.devs.contains (pf o.words 0 16 10)) then
    let n := chunkCount o s.fab.devs.length
    let x := { r with equal := true, marked := (List.range n).filter (fun c => ps.all (fun p => p.marks.contains c)) }
    collStartNow (updRun s core o.id (fun _ => x)) core b o x
  else collEnd s core b o (statusWord 3 0 0)
/-- R234, R363: the operation reaches the engine, and is compared when every device has issued its own. -/
def execCollStart (core op : Nat) (peers : List Peer) (s : State) : Out :=
  let s0 := pruneRuns s
  match collOp s0 core op with
  | none => .next s0
  | some (o, b) =>
    let s1 := if (runOf s0 core op).isSome then s0 else collEnter s0 core b o
    match runOf s1 core op with
    | some r =>
      .next (match r.final with
        | some v => if r.started then s1 else collEnd s1 core b o v
        | none => if r.equal then collStartNow s1 core b o r else collCompare s1 core b o r peers)
    | none => .next s1
/-- R234, R364: the hold on a retired GEN has passed; the status is written 0 and the operation starts. -/
def execGenHoldExpiry (core op : Nat) (s : State) : Out :=
  match collOp s core op, runOf s core op with
  | some (o, b), some r => .next (collStartNow s core b o r)
  | _, _ => .next s

/-! ## Chunks (R358 to R360) -/

/-- One addition, minimum or maximum of two elements (R359). -/
def collAdd (ty red x y : Nat) : Nat :=
  let f : Fmt := if ty = 1 then bf16 else fp32
  if ty = 2 then
    let sg (v : Nat) : Int := intOf 32 true v
    if red = 0 then (x + y) % 2 ^ 32
    else if red = 1 then (if sg x ≤ sg y then x else y)
    else (if sg x ≤ sg y then y else x)
  else if red = 0 then (faddOp f .rne false x y).bits
  else fminOp f (red == 2) x y
/-- The elements that bytes hold. -/
def elemsOf (es : Nat) (bs : List Byte) : List Nat :=
  (List.range (bs.length / es)).map (fun k => leNat ((bs.drop (es * k)).take es))
/-- The bytes of elements. -/
def bytesOfElems (es : Nat) (xs : List Nat) : List Byte := (xs.map (leBytes es)).flatten
/-- The partial of a device: its children's in ascending id, then its own elements. -/
def partial_ (ty red : Nat) (below : List (List Nat)) (own : List Nat) : List Nat :=
  match below with
  | [] => own
  | x :: t => List.zipWith (collAdd ty red) (t.foldl (List.zipWith (collAdd ty red)) x) own
/-- A device's children in a tree, ascending. -/
def kids (t : Tree) (d : Nat) : List Nat := sortBy id ((t.par.filter (fun e => e.2 == d)).map (·.1))
/-- A device's parent in a tree. -/
def parentOf (t : Tree) (d : Nat) : Option Nat := (t.par.find? (fun e => e.1 == d)).map (·.2)
/-- A device and those below it in a tree; a tree lists each device after its parent. -/
def subtree (t : Tree) (d : Nat) : List Nat := t.par.foldl (fun l e => if l.contains e.2 then addNat l e.1 else l) [d]
/-- A chunk as it goes over its tree on this device: the operation, its run, the tree, the chunk, its elements `lo` .. `hi` − 1. -/
structure Pass where
  op   : Op
  run  : CollRun
  tree : Tree
  me   : Nat
  c    : Nat
  lo   : Nat
  hi   : Nat
/-- OP, TYPE, RED, COUNT and the bytes of an element. -/
def Pass.kind (p : Pass) : Nat := pf p.op.words 0 0 4
def Pass.ty (p : Pass) : Nat := pf p.op.words 0 4 4
def Pass.red (p : Pass) : Nat := pf p.op.words 0 8 4
def Pass.count (p : Pass) : Nat := pf64 p.op.words 2
def Pass.size (p : Pass) : Nat := collBytes p.ty
/-- The part of the chunk that a rank's share of `count` elements covers: first, one past the last. -/
def Pass.share (p : Pass) (d : Nat) : Nat × Nat :=
  let i := indexIn p.run.devs d
  (Nat.max p.lo (i * p.count), Nat.min p.hi ((i + 1) * p.count))
/-- Whether a device gives elements of its own to the chunk: all-gather's owners, broadcast's ROOT, every device of a reduction. -/
def Pass.owns (p : Pass) (d e : Nat) : Bool :=
  if p.kind = 3 then d == pf p.op.words 0 16 10 else if p.kind = 2 then e / p.count == indexIn p.run.devs d else true
/-- The elements of the chunk that come from some devices, ascending. -/
def Pass.from_ (p : Pass) (ds : List Nat) : List Nat := (List.range (p.hi - p.lo)).filterMap (fun k =>
  if ds.any (fun d => p.owns d (p.lo + k)) then some (p.lo + k) else none)
/-- The part of SRC that the chunk takes from this device: first element, how many (R358, R359). -/
def Pass.source (p : Pass) : Nat × Nat :=
  if p.kind = 2 then ((p.share p.me).1 - indexIn p.run.devs p.me * p.count, (p.share p.me).2 - (p.share p.me).1)
  else if p.kind = 3 && pf p.op.words 0 16 10 != p.me then (0, 0)
  else (p.lo, p.hi - p.lo)
/-- Whether a device's DST holds part of the chunk. -/
def Pass.holds (p : Pass) (d : Nat) : Bool := p.kind != 1 || decide ((p.share d).1 < (p.share d).2)
/-- Whether the result goes down to a device: its DST, or that of a device below it, holds part of the chunk (R359). -/
def Pass.goesTo (p : Pass) (d : Nat) : Bool := (subtree p.tree d).any p.holds
/-- Whether a device sends something up for the chunk (R359). -/
def Pass.sends (p : Pass) (d : Nat) : Bool := p.kind < 2 || !(p.from_ (subtree p.tree d)).isEmpty
/-- The elements of a packet of this operation's generation that a device has sent, under the map of the run or a later one (R361,
R364). -/
def Pass.packet (p : Pass) (l : List Packet) (d n : Nat) : Option (List Nat) :=
  match l.find? (fun k => k.dev == d && k.gen == p.run.gen && decide (p.run.since ≤ k.epoch)) with
  | some k => if k.bytes.length = n * p.size then some (elemsOf p.size k.bytes) else none
  | none => none
/-- What this device has of the chunk once its children's packets are there: its partial, or the elements of its part of the tree
(R359); none while one is missing. -/
def Pass.up (p : Pass) (below : List Packet) (own : List Nat) : Option (List Nat) :=
  let ks := (kids p.tree p.me).filter p.sends
  let idx (d : Nat) : List Nat := if p.kind < 2 then List.range (p.hi - p.lo) else p.from_ (subtree p.tree d)
  let parts := ks.map (fun d => (p.packet below d (idx d).length).map (fun xs => (d, xs)))
  if !parts.all Option.isSome then none
  else
    let got := parts.filterMap id
    if p.kind < 2 then some (partial_ p.ty p.red (got.map (·.2)) own)
    else
      let mine := p.from_ [p.me]
      some ((idx p.me).map (fun e =>
        if mine.contains e then own.getD (indexIn mine e) 0
        else match got.find? (fun x => (idx x.1).contains e) with
          | some x => x.2.getD (indexIn (idx x.1) e) 0
          | none => 0))
/-- A packet is sent (R359, R364); those that no port would take any more are forgotten. -/
def Pass.send (p : Pass) (s : State) (dst : Nat) (up : Bool) (xs : List Nat) : State :=
  let k : SentPkt := { dst := dst, dom := p.run.dom, gen := p.run.gen, epoch := s.fab.epoch, time := s.gtime, chunk := p.c, up := up,
                       bytes := bytesOfElems p.size xs }
  { s with fab := { s.fab with sent := s.fab.sent.filter (fun x => decide (s.gtime ≤ x.time + 100000)) ++ [k] } }
/-- Where a chunk's final elements go on this device: the address and the elements (R233, R359). -/
def Pass.dest (p : Pass) (xs : List Nat) : Nat × List Nat :=
  let dst := pf64 p.op.words 6
  if p.kind = 1 then
    let a := p.share p.me
    (dst + (a.1 - indexIn p.run.devs p.me * p.count) * p.size, if a.1 < a.2 then (xs.drop (a.1 - p.lo)).take (a.2 - a.1) else [])
  else (dst + p.lo * p.size, xs)
/-- The mark of a chunk has been set: this device is through with it (R360). -/
def markDone (s : State) (core : Nat) (b : Block) (o : Op) (c : Nat) : State :=
  let landed := ((s.core core).queue.find? (fun p => p.id == o.id)).any (fun p => !p.inbox.isEmpty)
  if !landed then s
  else collFinish (updRun (collClear s core o) core o.id (fun r =>
    { r with todo := delNat r.todo c, own := addNat r.own c, sentUp := delNat r.sentUp c, got := r.got.filter (fun g => g.chunk != c),
             along := r.along.filter (fun e => e.1 != c) })) core b o
/-- The mark of a chunk whose final bytes are written: once they are accepted, an `or` at the home word of its byte, then its answer
(R360). `next` is 2c + 2 before the `or` is sent, 2c + 3 after. -/
def markStep (s : State) (core : Nat) (b : Block) (o : Op) : State :=
  let c := o.next / 2 - 1
  let va := pf64 o.words 10 + c / 8
  if o.next % 2 = 1 then markDone s core b o c
  else if opOut s core o then s
  else
    match engWalk s core b [d64 (va / 4 * 4)] .write with
    | none => s
    | some s =>
      match engAtomic (updOp s core o.id (fun o => { o with next := o.next + 1, inbox := [] })) core b o (va / 4 * 4) .orB32
          (d64 (2 ^ (8 * (va % 4) + c % 8))) with
      | .inl e => engStop s core b o true e
      | .inr s1 => markDone s1 core b o c
/-- The downward pass: the final elements are written to DST and sent to the children that they concern; then the mark follows
(R359, R360). A device that none of it concerns has finished its part. -/
def collDown (s : State) (core : Nat) (b : Block) (p : Pass) (xs : Option (List Nat)) : State :=
  let o := p.op
  let ended (s : State) : State :=
    markStep (updOp (collClear s core o) core o.id (fun o => { o with next := 2 * p.c + 2 })) core b { o with next := 2 * p.c + 2 }
  if !p.goesTo p.me then ended s
  else
    match xs with
    | none => s
    | some xs =>
      match collWrite s core b o (p.dest xs).1 ((bytesOfElems p.size (p.dest xs).2).map (fun x => (x, false))) with
      | (s1, false) => s1
      | (s1, true) => ended (((kids p.tree p.me).filter p.goesTo).foldl (fun s d => p.send s d false xs) s1)
/-- What comes down to this device from its parent. -/
def Pass.down (p : Pass) (result : List Packet) : Option (List Nat) :=
  (parentOf p.tree p.me).bind (fun d => p.packet result d (p.hi - p.lo))
/-- The upward pass, with this device's elements: its partial goes to its parent, the root's is the result (R359). -/
def collUp (s : State) (core : Nat) (b : Block) (p : Pass) (own : List Nat) (below result : List Packet) : State :=
  match p.up below own with
  | none => s
  | some xs =>
    match parentOf p.tree p.me with
    | none => collDown s core b p (some xs)
    | some d =>
      let s1 := if p.sends p.me then p.send s d true xs else s
      collDown (updRun s1 core p.op.id (fun r => { r with sentUp := addNat r.sentUp p.c })) core b p (p.down result)
/-- A chunk goes on: its SRC elements are read, then it goes up and down its tree. -/
def runChunk (s : State) (core : Nat) (b : Block) (p : Pass) (below result : List Packet) : State :=
  let o := p.op
  if o.next ≠ 0 then markStep s core b o
  else if p.run.sentUp.contains p.c then collDown s core b p (p.down result)
  else if o.keep ≠ p.c + 2 && o.inbox.length < o.stage then s
  else
    let x := collRead s core o (p.c + 2)
    let va := pf64 o.words 4 + p.source.1 * p.size
    let n := p.source.2 * p.size
    engGet x.1 core b x.2 (linesOf va n) (fun s =>
      let bs := x.2.got va n
      if bs.any (·.2) then killBlock s o.bid 3 noWhere (d64 (va + (bs.takeWhile (fun x => !x.2)).length)) 0
      else collUp s core b { p with op := x.2 } (elemsOf p.size (bs.map (·.1))) below result)
/-- A packet for a chunk of a run is let in (R364), and kept in place of an earlier one of its sender's: not one sent too long ago, of
another generation, or of a paused map's epoch (R361). -/
def CollRun.take (r : CollRun) (s : State) (chunk : Nat) (up : Bool) (k : Packet) : CollRun :=
  if tooOld s k.time || k.gen ≠ r.gen || k.epoch < r.since then r
  else { r with got := r.got.filter (fun g => !(g.chunk == chunk && g.up == up && g.pkt.dev == k.dev)) ++ [{ chunk := chunk, up := up, pkt := k }] }
/-- Packets for a chunk of a run have come. -/
def takePackets (s : State) (core op chunk : Nat) (below : List Packet) (result : Option Packet) : State :=
  updRun s core op (fun r => result.toList.foldl (fun r k => r.take s chunk false k) (below.foldl (fun r k => r.take s chunk true k) r))
/-- The packets that a run has of a chunk. -/
def CollRun.packets (r : CollRun) (chunk : Nat) (up : Bool) : List Packet :=
  (r.got.filter (fun g => g.chunk == chunk && g.up == up)).map (·.pkt)
/-- The tree of a chunk: that of its start (R358). -/
def CollRun.treeOf (r : CollRun) (s : State) (chunk : Nat) : Option Tree :=
  match r.along.find? (fun e => e.1 == chunk) with
  | some e => some e.2
  | none => s.fab.trees[chunk % Nat.max 1 s.fab.trees.length]?
/-- A chunk is started over a tree. -/
def startChunk (s : State) (core op chunk : Nat) (t : Tree) : State :=
  updRun s core op (fun r => if r.along.any (fun e => e.1 == chunk) then r else { r with along := r.along ++ [(chunk, t)] })
/-- R358 to R360: chunk `c` over tree c mod T of the set in force at its start; with no chunk left the final status is written. -/
def execCollChunk (core op chunk : Nat) (below : List Packet) (result : Option Packet) (s0 : State) : Out :=
  let s := takePackets s0 core op chunk below result
  match collOp s core op, runOf s core op with
  | some (o, b), some r =>
    if !r.started || r.paused then .next s
    else if r.todo.isEmpty || r.final.isSome then .next (collFinish s core b o)
    else if !r.todo.contains chunk then .next s
    else
      match r.treeOf s chunk with
      | some t =>
        let e := chunkElems o r.size chunk
        .next (runChunk (startChunk s core op chunk t) core b { op := o, run := r, tree := t, me := s.sys.devid, c := chunk, lo := e.1, hi := e.2 }
          (r.packets chunk true) (r.packets chunk false))
      | none => .next s
  | _, _ => .next s

/-! ## Recomputation (R361, R362) -/

/-- A run of a recomputation has resumed or ended: with the last one the recomputation ends, and RECOMPS counts it (R361). -/
def endRecomp (s : State) : State :=
  if s.fab.runs.any (·.paused) then s else { s with fab := Fabric.settled { s.fab with recomps := s.fab.recomps + 1 } }
/-- A mark whose answer has come is taken note of. -/
def takeMark (s : State) (core op : Nat) : State :=
  match collOp s core op with
  | some (o, b) => if o.next % 2 = 1 then markDone s core b o (o.next / 2 - 1) else s
  | none => s
/-- A run goes on under the new map: it ends partitioned when that lacks a device of its start, or goes on with the chunks that some
device has not marked (R361, R362). -/
def resumeRun (s : State) (core : Nat) (b : Block) (o : Op) (r : CollRun) (marked : List Nat) : State :=
  let again := Nat.min 255 (r.recomp + 1)
  let todo := (List.range (chunkCount o r.size)).filter (fun c => !(r.own.contains c && marked.contains c))
  let s1 := collClear s core o
  if r.devs.any (fun d => !s.fab.devs.contains d) then
    let s2 := updRun { s1 with fab := { s1.fab with parted := true } } core o.id (fun r => { r with paused := false, recomp := again })
    endRecomp (collEnd s2 core b o (statusWord 2 again s.fab.trees.length))
  else
    collFinish (endRecomp (updRun s1 core o.id (fun r =>
      { r with paused := false, recomp := again, todo := todo, marked := marked }))) core b o
/-- R361, R362: `marked` are the chunks that every other device has marked. A mark or a read that is on its way is awaited first. -/
def execCollRecompute (core op : Nat) (marked : List Nat) (s : State) : Out :=
  let s0 := takeMark s core op
  match collOp s0 core op, runOf s0 core op with
  | some (o, b), some r =>
    if !r.paused || s.fab.forming || s.fab.devs.isEmpty || o.next % 2 == 1 || decide (o.inbox.length < o.stage) then .next s0
    else .next (resumeRun s0 core b o r marked)
  | _, _ => .next s0

/-! ## The report (R235) -/

/-- The 64 bytes of `cstat` for a domain. -/
def cstatReport (s : State) (dom : Nat) : List Byte :=
  let st := domState s dom
  if st = 0 then leBytes 4 dom ++ List.replicate 60 0
  else
    let live := (List.range 16).foldl (fun n j => if (s.port j).st = 2 then n + 2 ^ j else n) 0
    leBytes 4 (dom + st * 65536) ++ leBytes 4 s.fab.devs.length ++ leBytes 4 (s.fab.trees.length % 16) ++ leBytes 4 s.fab.recomps
      ++ leBytes 4 s.fab.fails ++ leBytes 4 live ++ leBytes 4 s.fab.gen ++ List.replicate 36 0
/-- R235: the report is written to the scratchpad, and the operation completes. -/
def execCstatExec (core op : Nat) (s : State) : Out :=
  match hubOp s core op with
  | some (o, _) =>
    match o.kind with
    | .cstat dom =>
      if opSlotHeld s o then .next s
      else .next (endOp (s.updBlock o.bid (fun b => b.scrWrite o.parm.toNat (cstatReport s dom) false)) core op none)
    | _ => .next s
  | none => .next s

end Sys2Proof.Machine
end

