-- ==== Sys2Proof/Machine/Keccak.lean ====
section
/-! DEFINITION. SHAKE256 (FIPS 202), which boot measures its images with (R394, R395): the permutation Keccak-f[1600] on 25
lanes, and the sponge of rate 136 bytes. -/

namespace Sys2Proof.Machine

/-- The 25 lanes, lane x + 5y. -/
abbrev Lanes := List Dword
/-- A lane. -/
def lane (a : Lanes) (x y : Nat) : Dword := a.getD (x % 5 + 5 * (y % 5)) 0
/-- A state from its lanes. -/
def lanesOf (f : Nat → Nat → Dword) : Lanes := (List.range 25).map (fun i => f (i % 5) (i / 5))
/-- Left rotation. -/
def rotl (d : Dword) (n : Nat) : Dword := if n % 64 = 0 then d else (d <<< (n % 64)) ||| (d >>> (64 - n % 64))
/-- The rotation offsets of lanes x + 5y. -/
def rhoOffsets : List Nat := [0, 1, 62, 28, 27, 36, 44, 6, 55, 20, 3, 10, 43, 25, 39, 41, 45, 15, 21, 8, 18, 2, 61, 56, 14]
/-- The round constants. -/
def roundConsts : List Dword :=
  [0x1, 0x8082, 0x800000000000808A, 0x8000000080008000, 0x808B, 0x80000001, 0x8000000080008081, 0x8000000000008009, 0x8A,
   0x88, 0x80008009, 0x8000000A, 0x8000808B, 0x800000000000008B, 0x8000000000008089, 0x8000000000008003, 0x8000000000008002,
   0x8000000000000080, 0x800A, 0x800000008000000A, 0x8000000080008081, 0x8000000000008080, 0x80000001, 0x8000000080008008]
/-- One round: theta, rho and pi, chi, iota. -/
def keccakRound (a : Lanes) (rc : Dword) : Lanes :=
  let c := (List.range 5).map (fun x => lane a x 0 ^^^ lane a x 1 ^^^ lane a x 2 ^^^ lane a x 3 ^^^ lane a x 4)
  let d := (List.range 5).map (fun x => c.getD ((x + 4) % 5) 0 ^^^ rotl (c.getD ((x + 1) % 5) 0) 1)
  let t := lanesOf (fun x y => lane a x y ^^^ d.getD x 0)
  let b := lanesOf (fun x y => let sx := (x + 3 * y) % 5; rotl (lane t sx x) (rhoOffsets.getD (sx + 5 * x) 0))
  let e := lanesOf (fun x y => lane b x y ^^^ (~~~(lane b (x + 1) y) &&& lane b (x + 2) y))
  (lane e 0 0 ^^^ rc) :: e.drop 1
/-- Keccak-f[1600]. -/
def keccakF (a : Lanes) : Lanes := roundConsts.foldl keccakRound a
/-- One block of 136 bytes is absorbed. -/
def absorb (a : Lanes) (block : List Byte) : Lanes :=
  keccakF ((List.range 25).map (fun i => if i < 17 then a.getD i 0 ^^^ dwordAt block i else a.getD i 0))
/-- All blocks, `n` of them at most. -/
def absorbAll : Nat → Lanes → List Byte → Lanes
  | 0, a, _ => a
  | n + 1, a, m => if m.isEmpty then a else absorbAll n (absorb a (m.take 136)) (m.drop 136)
/-- The message padded for SHAKE. -/
def shakePad (m : List Byte) : List Byte :=
  let n := 136 - m.length % 136
  if n = 1 then m ++ [0x9F] else m ++ [0x1F] ++ List.replicate (n - 2) 0 ++ [0x80]
/-- SHAKE256 with an output of 64 bytes. -/
def shake256 (m : List Byte) : List Byte :=
  let p := shakePad m
  ((absorbAll (p.length / 136) (List.replicate 25 0) p).take 8).flatMap (fun d => leBytes 8 d.toNat)

end Sys2Proof.Machine
end

