-- ==== Sys2Proof/Machine/System.lean ====
section
/-! DEFINITION. The host's accesses and link (R393, R396, R403), the control-space registers (R392 to R402), clocks (R399),
snapshots (R401), boot and attestation (R394, R395), loss of an edge (R397), global time (R398). -/

namespace Sys2Proof.Machine

/-! ## Host accesses (R390, R393, R396) -/

/-- Whether a record of a context waits, for room or for the host link. -/
def logsWait (s : State) (c : Nat) : Bool := !(s.ctx c).logs.isEmpty || (s.ctx c).faults.any (fun f => f.recNo.isNone)
/-- The records of every context that wait are tried again: the host may have consumed records, or its link may be back. -/
def allRoom (s : State) : State := s.ctxs.keys.foldl (fun s c => if logsWait s c then logRoom s c else s) s
/-- Writes a physical range, one acceptance for each line. -/
def physWrite (s : State) (pa : Nat) (bytes : List Byte) : State :=
  (linesOf pa bytes.length).foldl (fun s l =>
    let a := Nat.max (l * 64) pa
    homeWrite s a ((bytes.drop (a - pa)).take (l * 64 + 64 - a)) false) s
/-- Whether a range of physical addresses reaches beyond the DRAM fitted, or a save in use (R390, R396). -/
def dmaIllegal (s : State) (pa n : Nat) : Bool :=
  decide (s.part.dram < pa + n) || (linesOf pa n).any (fun l => (savedPages s).contains (l / 1024))
/-- R393, R396: an access through BAR2. An illegal one ends with a completer abort: the host's channel is frozen before it
performs, and a device error event is recorded (R390); a frozen one that meets an illegal access while its snapshot is being written
stays frozen (R403). A read waits while a home slice has no room for it (R245), a write while atomics are queued on a line of it, an
atomic as a read and a write do (R244). -/
def execHostDmaAccess (off : Nat) (acc : DmaAcc) (s : State) : Out :=
  let pa := s.sys.hwbase * 2 ^ 36 + off
  if !s.sys.hostL0 || 2 ^ 36 ≤ off then .next s
  else
    let n := match acc with
      | .read n => n
      | .write bytes => bytes.length
      | .atomic k _ _ => aopBytes k
    if dmaIllegal s pa n then
      .next (devError { s with sys := { s.sys with frozenDma := true, snap := s.sys.snap.map (fun x =>
        { x with frozen := x.frozen.filter (fun k => k != 0) }) } } 3 none none)
    else if s.sys.frozenDma then .next s
    else
      match acc with
      | .read n => if (linesOf pa n).all (hubRoom s) then .next (seeRange s pa n) else .next s
      | .write bytes => if (linesOf pa bytes.length).any (heldLine s) then .next s else .next (allRoom (physWrite s pa bytes))
      | .atomic k a b =>
        if !atomFree s (pa / 64) then .next s
        else
          let s1 := touchLine s (pa / 64)
          .next (allRoom (homeWrite s1 pa (leBytes n (aopApply k (d64 (s1.num pa n)) a b).1.toNat) (lineBad s1 (pa / 64))))

/-- Whether 10 ms have passed for an access that began to wait at an instant, with the link out of L0 (R393). -/
def linkLate (s : State) (since : Nat) : Bool := !s.sys.hostL0 && decide (Nat.max since s.sys.hostAt + 10000000 ≤ s.gtime)
/-- A request of a thread that waits for the host link. -/
def hostReq (s : State) (bid tid : Nat) : Option (Nat × Req) :=
  s.cores.findSome? (fun k =>
    (k.2.reqs.find? (fun r => r.bid == bid && r.tid == tid && (r.who == .thread || r.who == .eval) && tgtHost s (r.line * 64)
      && linkLate s r.time)).map (fun r => (k.1, r)))
/-- Whether a read is an engine operation's. -/
def Join.forOp (j : Join) : Bool := match j.dst with | .op _ _ => true | _ => false
/-- The request ends with code 0x0A; a read ends so for every lane that joined it, and stays for the operations that have. -/
def failHost (s : State) (core : Nat) (r : Req) : State :=
  if r.kind.writes then failReq (dropReq s core r.seq) r 0x0A
  else
    let fs := (s.core core).fills.filter (fun f => f.seq == r.seq)
    let joins := fs.flatMap (·.joins)
    let left := joins.filter Join.forOp
    let fill (f : Fill) : Fill := if f.seq = r.seq then { f with joins := left } else f
    let s1 := if left.isEmpty then
        (dropReq s core r.seq).updCore core (fun k => { k with fills := k.fills.filter (fun f => f.seq != r.seq) })
      else s.updCore core (fun k => { k with fills := k.fills.map fill,
                                             reqs := k.reqs.map (fun q => if q.seq = r.seq then { q with who := .engine 0 } else q) })
    (joins.filter (fun j => !j.forOp)).foldl (failJoin 0x0A) s1
/-- The request of an engine operation that has waited 10 ms for the host link: the address. -/
def hostOp (s : State) (core id : Nat) : Option Dword :=
  let k := s.core core
  let late (r : Req) : Bool := tgtHost s (r.line * 64) && linkLate s r.time
  let mine (r : Req) : Bool := decide (r.who = .engine id)
    || k.fills.any (fun f => f.seq == r.seq && f.joins.any (fun j => match j.dst with | .op n _ => n == id | _ => false))
  (k.reqs.find? (fun r => late r && mine r)).map (·.va)
/-- The address in host memory that a waiting thread watches. -/
def hostWatch (s : State) (bid tid : Nat) : Option (Dword × Nat) :=
  match waitOf s bid tid with
  | some (_, _, w) =>
    let since := ((monOf s bid tid).map (fun m : Mon => m.time)).getD 0
    let at_ (va : Dword) (pa : Nat) : Option (Dword × Nat) := if tgtHost s pa then some (va, since) else none
    match w.kind with
    | .watch va pa _ _ _ _ => at_ va pa
    | .ticket va pa _ _ => at_ va pa
    | .lwait va pa => at_ va pa
    | _ => none
  | none => none
/-- The fetch that a thread's frond makes next: of the next word of the clause in flight, for its issue set, or of the
thread's own clause, for the threads at its key. -/
def nextFetch (b : Block) (tid : Nat) (t : Thread) : Dword × Dword × List Nat :=
  match (b.fronds.get? t.slot).bind (fun f : Frond => f.run) with
  | some u => if u.tids.contains tid then (u.clause + d64 (8 * u.pos), u.clause, u.tids) else (0, 0, [])
  | none =>
    (t.pc, t.pc, if t.eligible then ((b.members t.slot).filter (fun e => e.2.eligible && e.2.pc == t.pc
        && e.2.rslot == t.rslot && e.2.last == t.last && e.2.handler == t.handler)).map (·.1) else [])
/-- A clause fetch from host memory that has waited 10 ms raises ACCV in the issue set. -/
def failFetch (s : State) (bid tid : Nat) : State :=
  match s.block bid with
  | none => s
  | some b =>
    match b.thread tid with
    | none => s
    | some t =>
      let since := (b.fronds.get? t.slot).bind (fun f : Frond => f.fetch)
      let n := nextFetch b tid t
      let host := match coreChk s b.core b.ctx n.1.toNat .fetch with
        | .ok pa _ => tgtHost s pa
        | _ => false
      if b.core?.isNone || !(since.map (linkLate s)).getD false || !host then s
      else
        takeTrap s bid t.slot (n.2.2.map (fun k => { tid := k, causes := [accv n.1 0x0A], epc := n.2.1, eslot := 0 }))
/-- R393, R403: an access that has waited 10 ms: ACCV in a thread, a frozen channel, or a forced reset for a signal store. -/
def execHostLinkTimeout (w : LinkWaiter) (s : State) : Out :=
  match w with
  | .thread bid tid =>
    match hostReq s bid tid, hostWatch s bid tid with
    | some (core, r), _ => .next (failHost s core r)
    | none, some (va, since) => if linkLate s since then .next (failWait s bid tid va 0x0A) else .next s
    | none, none => .next (failFetch s bid tid)
  | .op core id =>
    match (s.core core).queue.find? (fun o => o.id == id) with
    | some o =>
      let late := (o.link.bind (fun l => if linkLate s l.1 then some l.2 else none)).orElse (fun _ => hostOp s core id)
      match late with
      | some va => if o.frozen then .next s else .next (freezeOp s core o va)
      | none => .next s
    | none => .next s
  | .signal l =>
    match s.launch l with
    | some x =>
      match x.linkSince with
      | some since => if linkLate s since && !signalOut s l then .next (forceReset s x.ctx 3) else .next s
      | none => .next s
    | none => .next s
/-- R393: the link leaves L0; accesses to host memory wait. -/
def execHostLinkLeavesL0 (s : State) : Out :=
  if s.sys.hostL0 then .next { s with sys := { s.sys with hostL0 := false, hostAt := s.gtime } } else .next s
/-- The host link is in L0: the engine operations that waited for it go on. -/
def linkBack (s : State) : State :=
  let free (o : Op) : Op := { o with link := none }
  { s with sys := { s.sys with hostL0 := true }, cores := s.cores.mapVal (fun _ k => { k with queue := k.queue.map free }) }
/-- R393: the link is in L0 again; the accesses that waited proceed, records of fault logs in host memory among them (R381). -/
def execHostLinkReturnsL0 (s : State) : Out :=
  if s.sys.stage < 2 || s.sys.hostL0 then .next s else .next (allRoom (linkBack s))

/-! ## Registers (R392) -/

/-- 32 bytes with 8 of them replaced. -/
def putDword (l : List Byte) (i : Nat) (v : Dword) : List Byte := overlay l (8 * i) (leBytes 8 v.toNat)
/-- R392: a write stores the writable fields of a register without behaviour of its own; any other is ignored, and every one after a
halt of the boot, when only the management port answers (R394). -/
def execRegisterWrite (off : Nat) (v : Dword) (s : State) : Out :=
  let y := s.sys
  let full := s.part.full
  let core (base : Nat) : Option Nat :=
    if base ≤ off && off < base + 8 * s.part.cores && off % 8 == 0 then some ((off - base) / 8) else none
  if s.sys.halted then .next s
  else if off = 0x8 then
    if s.fab.domctl.getLsbD 63 then .next s else .next { s with sys := { y with devid := v.toNat % 1024 } }
  else if off = 0x10 then .next { s with sys := { y with hwbase := (v.extractLsb' 36 16).toNat } }
  else if 0x40 ≤ off && off < 0x60 && off % 8 = 0 then
    .next { s with sys := { y with nonce := putDword y.nonce ((off - 0x40) / 8) v } }
  else if off = 0x10400 then .next { s with sys := { y with tcap := v &&& 0xFFFFFFFF#64 } }
  else if off = 0x10408 then .next { s with sys := { y with draint := v &&& 0xFFFFFFFF#64 } }
  else if off = 0x20088 then
    if full then .next { s with fab := { s.fab with expctl := v &&& 0xC00000000000003F#64 } } else .next s
  else if off = 0x30000 then
    if full then .next { s with sys := { y with audctl := v &&& 0x800000000000001F#64 } } else .next s
  else if off = 0x50000 then .next (retime { s with sys := { y with didt := v &&& 0xF7F#64 } })
  else if off = 0x50008 then .next { s with sys := { y with dormt := v &&& 0xFFFFFFFF#64 } }
  else if off = 0x50010 then .next { s with sys := { y with pwrlim := v } }
  else if off = 0x60000 && !v.getLsbD 63 then .next { s with sys := { y with snapctl := v &&& 0xF#64 } }
  else if off = 0x60008 then .next { s with sys := { y with snaptime := v } }
  else if off = 0x60010 then .next { s with sys := { y with snapbuf := v &&& 0xFFFFFFFFF0000#64 } }
  else if off = 0x70000 then .next { s with sys := { y with ehead := lo32 v } }
  else if off = 0x70008 then .next { s with sys := { y with errbase := v &&& 0xFFFFFFFFF0000#64 } }
  else
    match core 0x50800 with
    | some k => .next (s.updCore k (fun c => { c with refage := v &&& 0xFFF#64 }))
    | none => .next s
/-- R399, R403: new slice ratios: those in force stay so until a slice's next clause issue. -/
def execSratioWrite (core : Nat) (v : Dword) (s : State) : Out :=
  if s.sys.halted || s.part.cores ≤ core then .next s
  else
    let kept : Map Nat := (List.range 6).map (fun i => (i, sliceRatio s core i))
    .next ((settleClock s core).updCore core (fun k => { k with sratio := v &&& 0xFFFFFF#64, ratios := kept, ratioAt := s.gtime }))
/-- R399: a die's core clock goes down by 25 MHz. -/
def execPowerThrottle (die : Fin 4) (s : State) : Out :=
  let m := s.sys.mhz.getD die.val 4000
  if s.sys.halted || s.part.dies ≤ die.val || m ≤ 25 then .next s
  else
    let s1 := (List.range 48).foldl (fun s k => settleClock s (48 * die.val + k)) s
    .next { s1 with sys := { s1.sys with mhz := s1.sys.mhz.put die.val (m - 25) } }

/-! ## Snapshots (R401, R403) -/

/-- R401: SNAPCTL is written with GO set. -/
def execSnapshotGo (v : Dword) (s : State) : Out :=
  if v.getLsbD 63 then .next (snapFire { s with sys := { s.sys with snapctl := v &&& 0xF#64 } }) else .next s
/-- R401: ENTIME = 1 and GTIME ≥ SNAPTIME ≠ 0. A match without ARM is missed once, at its instant. -/
def execSnapshotTimer (s : State) : Out :=
  let y := s.sys
  if !y.snapctl.getLsbD 2 || y.snaptime = 0 || s.gtime < y.snaptime.toNat then .next s
  else if y.snapctl.getLsbD 0 || s.gtime == y.snaptime.toNat then .next (snapFire s)
  else .next s
/-- R401: a rising edge on SNAPIN with ENPIN = 1. -/
def execSnapinEdge (s : State) : Out := if s.sys.snapctl.getLsbD 3 then .next (snapFire s) else .next s
/-- The management cores that write snapshots, in the order in which they take one; core 1 writes the device error log. -/
def snapWriters : List Nat := [0, 2, 3]
/-- The snapshot that is written next, by its place, and the core that writes it: a core that an illegal access halted keeps its own
(R390). -/
def snapNext (s : State) : Option (Nat × Nat × Snap) :=
  let n := (snapWriters.filter s.sys.haltedMgmt.contains).length
  match snapWriters.find? (fun k => !s.sys.haltedMgmt.contains k), s.sys.snap[n]? with
  | some k, some x => some (n, k, x)
  | _, _ => none
/-- The frozen masters that a snapshot has captured return to service (R390, R401). -/
def backInService (s : State) (x : Snap) : State :=
  let live (k : Core) : Core := { k with queue := k.queue.filter (fun o => !(o.frozen && x.frozen.contains o.id)) }
  let s1 := { s with cores := s.cores.mapVal (fun _ k => live k),
                     sys := { s.sys with frozenDma := s.sys.frozenDma && !x.frozen.contains 0,
                                         haltedMgmt := s.sys.haltedMgmt.filter (fun k => k == 1 || !x.mgmt.contains k) } }
  if x.mgmt.contains 1 then flushErrs s1 else s1
/-- R401, R390: the records of a snapshot are written to SNAPBUF, BUSY clears after the last, SEQ goes up, and the captured frozen
masters return to service. A management core that meets an illegal address halts, and its snapshot stays unwritten until it is back. -/
def execSnapshotWritten (s : State) : Out :=
  match snapNext s with
  | none => .next s
  | some (n, k, x) =>
    let pa := s.sys.snapbuf.toNat
    let host := tgtHost s pa && tgtHost s (pa + x.bytes.length - 1)
    if (host && !s.sys.hostL0) || (linesOf pa x.bytes.length).any (heldLine s) then .next s
    else if !host && dmaIllegal s pa x.bytes.length then
      .next (devError { s with sys := { s.sys with haltedMgmt := addNat s.sys.haltedMgmt k } } 3 none none)
    else
      let s1 := physWrite s pa x.bytes
      .next (backInService { s1 with sys := { s1.sys with snap := s1.sys.snap.eraseIdx n,
                                                          snapseq := (s1.sys.snapseq + 1) % 2 ^ 32 } } x)

/-! ## Boot (R394 to R397) -/

/-- R394, R390: the device right after reset. Device memory and the host's stay as they are; what arrives and the free
values go on. -/
def execDeviceReset (s : State) : Out :=
  .next { State.resetOn s.part with mem := s.mem, memBad := s.memBad, memErr := s.memErr, agenda := s.agenda, free := s.free,
                                    seq := s.seq }
/-- A boot stage fails, and halts when the table says so. -/
def bootFail (s : State) (err : Nat) (halt : Bool) : State := { s with sys := { s.sys with err := err, halted := halt } }
/-- A stage image is measured (R395). -/
def measure (prev image : List Byte) : List Byte := shake256 (prev ++ shake256 image)
/-- R394, R395: stage 0 ends; `valid` says that the signature over the digest of the image holds. -/
def execBootStage0 (valid : Bool) (image : List Byte) (s : State) : Out :=
  if s.sys.stage ≠ 0 || s.sys.halted then .next s
  else if !valid then .next (bootFail s 0x0001 true)
  else .next { s with sys := { s.sys with stage := 1, m0 := measure (List.replicate 64 0) image } }
/-- R394, R397: stage 1 ends; the host link is in L0 and the fabric ports train. -/
def execBootStage1 (dies dram : Bool) (s : State) : Out :=
  if s.sys.stage ≠ 1 || s.sys.halted then .next s
  else if !dies then .next (bootFail s 0x0010 true)
  else if !dram then .next (bootFail s 0x0020 true)
  else
    let ports : Map Port := if s.part.full then (List.range 16).map (fun j => (j, { Port.init with st := 1 })) else []
    .next { s with sys := { s.sys with stage := 2, hostL0 := true, hostAt := s.gtime }, fab := { s.fab with ports := ports } }
/-- R394, R395: stage 2 ends, or is tried again 10 s later. -/
def execBootStage2 (valid : Bool) (image : List Byte) (s : State) : Out :=
  if s.sys.stage ≠ 2 || s.sys.halted || s.gtime < s.sys.retryAt then .next s
  else if !valid then
    let s1 := bootFail s 0x0002 false
    .next { s1 with sys := { s1.sys with retryAt := s.gtime + 10000000000 } }
  else .next { s with sys := { s.sys with stage := 3, m2 := measure s.sys.m0 image } }
/-- Bytes of the ML-DSA-65 signature of a report: free, for the spec gives no key. -/
def signature (s : State) : List Byte :=
  (List.range 3309).map (fun i => (Config.freeDword (Config.freeAt s.free i 0)).setWidth 8)
/-- The report is at offset 0x2000, and offset 0x060 reads 0 (R395). -/
def report (s : State) : State :=
  let r := leBytes 8 s.sys.devid ++ s.sys.m0 ++ s.sys.m2 ++ s.sys.nonce ++ leBytes 8 s.gtime ++ signature s
  { s with free := s.free + 4, sys := { s.sys with attest := false, report := r } }
/-- R395: a report is made at once from stage 4 on, when the device has its identity key; before that the request stands. -/
def execAttestRequest (s : State) : Out :=
  if s.sys.halted then .next s
  else if s.sys.stage < 4 then .next { s with sys := { s.sys with attest := true } } else .next (report s)
/-- R394: stage 3 ends, and the device is ready; a report that has been asked for is made. -/
def execBootStage3 (s : State) : Out :=
  let s1 := { s with sys := { s.sys with stage := 4 } }
  if s.sys.stage = 3 && !s.sys.halted then .next (if s.sys.attest then report s1 else s1) else .next s
/-- R397: an edge that cannot stay live stops the device: every context is force-reset, whatever its state. INFO1 of the reset records
is not stated: it is free. A context that has held no descriptor has no fault log for a record, no block and no node: its state alone
changes. Before stage 2 no edge is live yet (R394). -/
def execDieLinkLoss (_edge : Fin 4) (s : State) : Out :=
  if s.sys.stage < 2 then .next s
  else
  let s1 := (List.range 64).foldl (fun s c =>
    if (s.ctx c).st ≠ 0 || (s.ctx c).log2n ≠ 0 then
      { forceReset s c (Config.freeDword (Config.freeAt s.free 0 4)).toNat with free := s.free + 1 }
    else s.updCtx c (fun x => { x with st := 4 })) s
  let s2 := devError { s1 with sys := { s1.sys with err := 0x0011 } } 7 none none
  .next { s2 with sys := { s2.sys with stopped := true } }
/-- R397: recalibration is not visible; a pin group that failed, of a stack that the part has (R5), is recorded, under a code that
the spec does not state. Before stage 2 no stack is live yet (R394). -/
def execDramRecalibration (stack : Fin 8) (group : Option (Fin 72)) (s : State) : Out :=
  match group with
  | none => .next s
  | some _ =>
    if s.sys.stage < 2 || 2 * s.part.dies ≤ stack.val then .next s
    else
      .next (devError { s with free := s.free + 1 } ((Config.freeDword (Config.freeAt s.free 0 5)).toNat % 2 ^ 32)
        (some stack.val) none)

/-! ## Global time (R398) -/

/-- TSTAT. -/
def tstatOf (ofs : Word) (locked : Bool) : Dword := (BitVec.ofBool locked ++ (0 : BitVec 31)) ++ ofs
/-- Since when the offset has stayed within 20 ns, after a measurement; `stayed` says that it has since the one before. -/
def nearSince (s : State) (ofs : Word) (stayed : Bool) : Option Nat :=
  if ofs.toInt ≤ 20 && -20 ≤ ofs.toInt then some (if stayed then s.sys.nearAt.getD s.gtime else s.gtime) else none
/-- The timer is stepped: what has been counted stays counted. -/
def stepTime (s : State) (time : Nat) : State :=
  let s1 := (List.range s.part.cores).foldl (fun s k =>
    (settleClock s k).updCore k (fun c => { c with cycAt := time, ratios := [] })) s
  { s1 with gtime := time, sys := { s1.sys with nearAt := s1.sys.nearAt.map (fun n => time - (s.gtime - n)) } }
/-- R398: the timer is disciplined from stage 3 on (R394); before stage 4 it is stepped, from then on it is only slewed. LOCK says that
the offset has stayed within 20 ns for 1 s. -/
def execPtpSync (time : Dword) (ofs : Word) (locked : Bool) (s : State) : Out :=
  if s.sys.stage < 3 then .next s
  else
    let near := nearSince s ofs locked
    let lock := near.any (fun n => decide (n + 1000000000 ≤ s.gtime))
    let s1 := { s with sys := { s.sys with tstat := tstatOf ofs lock, nearAt := near } }
    .next (if 4 ≤ s.sys.stage then s1 else stepTime s1 time.toNat)
/-- R398: LOCK clears; the count goes on. -/
def execGrandmasterLoss (s : State) : Out :=
  .next { s with sys := { s.sys with tstat := s.sys.tstat &&& ~~~(1#64 <<< 63), nearAt := none } }

end Sys2Proof.Machine
end

