-- ==== Sys2Proof/Machine/Issue.lean ====
section
/-! DEFINITION. How a frond issues: fetching (R383), the choice of its issue set (R35, R37, R120, R370), the start of a
clause (R35, R57, R80), the choice among fronds (R38). -/

namespace Sys2Proof.Machine

/-! ## Fetching (R383) -/

/-- What a fetch meets, with the state in which what it reads has been read: the 64 bits; a page to wait for; the host link or room at a
home slice to wait for; ACCV; poison. -/
inductive Fetch where
  | word (s : State) (x : Dword) | absent (s : State) | wait | fault (s : State) (code : Nat) | poison (s : State)
  deriving DecidableEq, Repr
/-- Fetches the header or word at an address (R383, R393). A word of a running code object whose bytes have changed executes as its new
content, of the two that R56 allows (DESIGN CHOICE, log entry 56). The code of a fetch through the remote window of a part that has
one is not stated, and is free. -/
def fetchWord (s : State) (core ctx : Nat) (va : Dword) : Fetch :=
  if va.toNat / 2 ^ 56 ≠ 0 then .fault s 1
  else if va.getLsbD 55 then
    if s.part.full then
      .fault { s with free := s.free + 1 } (Config.freeDword (Config.freeAt s.free 0 4) &&& 0xFF#64).toNat
    else .fault s 2
  else
    match walkAll s core ctx [va] .fetch with
    | none => .wait
    | some s0 =>
      match coreChk s0 core ctx va.toNat .fetch with
      | .absent => .absent s0
      | .accv k => .fault s0 k
      | .ok pa _ =>
        let s1 := tlbFill s0 core ctx va.toNat
        if tgtControl s pa then .word s1 (d64 (leNat (controlBytes s (pa - Config.csBase) 8)))
        else if (tgtHost s pa && !s.sys.hostL0) || !coreRoom s1 (pa / 64) then .wait
        else
          let s2 := seeLine s1 (pa / 64)
          if (lineNow s2 (pa / 64)).bad then .poison s2 else .word s2 (d64 (leNat (nowBytes s2 pa 8)))
      | _ => .fault s0 5

/-! ## Issue sets (R35, R37, R120, R370) -/

/-- The issue key of a thread as one number: PC, then resume slot, then last-word bit (R35). -/
def Thread.key (t : Thread) : Nat := (t.pc.toNat * 16 + t.rslot) * 2 + b2n t.last
/-- The key of a thread of a block. -/
def Block.keyOf (b : Block) (tid : Nat) : Nat := ((b.thread tid).map Thread.key).getD 0
/-- The groups of a slot: the frond's own threads, then its sub-fronds in the order they were created (R370). -/
def Frond.groups (f : Frond) : List Group := f.own :: f.subs
/-- The eligible threads of a group, in ascending lane. -/
def eligibleOf (b : Block) (slot : Nat) (f : Frond) (g : Nat) : List Nat :=
  let ms := (b.members slot).filter (fun e => e.2.eligible)
  b.byLane (match g with
    | 0 => (ms.filter (fun e => !e.2.handler)).map (·.1)
    | k + 1 => (ms.map (·.1)).filter (fun t => ((f.subs[k]?).map (fun x => x.tids.contains t)).getD false))
/-- The threads of a list at its lowest key. -/
def atLowestKey (b : Block) (ts : List Nat) : List Nat :=
  match sortBy b.keyOf ts with
  | [] => []
  | t :: _ => ts.filter (fun u => b.keyOf u == b.keyOf t)
/-- The next issue set of a group: past the threads that have just yielded (R120), or past a set that has repeated 256 times
(R37). -/
def issueSet (b : Block) (g : Group) (ts : List Nat) : List Nat :=
  let fresh := ts.filter (fun t => !g.skip.contains t)
  let outside := ts.filter (fun t => !g.prev.contains t)
  let from_ :=
    if !g.skip.isEmpty && !fresh.isEmpty then fresh
    else if 256 ≤ g.rep && !outside.isEmpty then outside
    else ts
  atLowestKey b from_
/-- A group after it has issued a set (R37). -/
def Group.issued (g : Group) (set ts : List Nat) : Group :=
  let rep :=
    if 256 ≤ g.rep || ts.all set.contains then 0
    else if set = g.prev then g.rep + 1
    else 1
  { g with rep := rep, prev := set, skip := [] }
/-- Changes a group of a frond by its place. -/
def Frond.updGroup (f : Frond) (g : Nat) (u : Group → Group) : Frond :=
  match g with
  | 0 => { f with own := u f.own }
  | k + 1 => { f with subs := match f.subs[k]? with
      | some x => f.subs.set k (u x)
      | none => f.subs }
/-- The groups in the order of their turns. -/
def rotation (f : Frond) : List Nat :=
  let n := f.groups.length
  (List.range n).map (fun k => (f.turn + k) % n)

/-! ## The start of a clause (R35, R57, R80) -/

/-- Parks an issue set whose header is not present (R383). -/
def parkHeader (s : State) (core bid slot : Nat) (b : Block) (tids : List Nat) (va : Dword) : State :=
  let s1 := s.updThreads bid tids (fun _ t => { t with status := .parked (.page (pageOf va) va true) })
  pageAbsent s1 b.ctx va 2 1 (whereOf core slot) b.obase (BitVec.ofNat 32 b.idx) (s.nodeOf b.launch)
/-- Raises one cause in an issue set at its header, with ESLOT 0 (R80). -/
def headerTrap (s : State) (bid slot : Nat) (tids : List Nat) (clause : Dword) (c : Cause) : State :=
  takeTrap s bid slot (tids.map (fun t => { tid := t, causes := [c], epc := clause, eslot := 0 }))
/-- ILLCL at a header (R366). -/
def illcl (clause : Dword) : Cause := { bit := 2, addr := clause, info := 0 }
/-- The wait mask of a header, valid or not (R57). -/
def waitMask (x : Dword) : BitVec 8 := x.extractLsb' 48 8
/-- Whether a thread's tokens of a mask are clear (R67). -/
def clearOf (m : BitVec 8) (t : Thread) : Bool := (List.range 8).all (fun k => !m.getLsbD k || t.getTok k == 0)
/-- The first word of an issue at a key (R35, R372): none when it lies beyond the clause. -/
def firstWord (h : Header) (t : Thread) : Option Nat :=
  let k := if t.last then 16 else Nat.max 1 t.rslot
  if k ≤ h.cnt.toNat + 1 then some k else none
/-- One group's issue: none while it is passed over. -/
def issueGroup (s : State) (core bid slot : Nat) (b : Block) (f : Frond) (g : Nat) : Option State :=
  let ts := eligibleOf b slot f g
  let set := issueSet b ((f.groups[g]?).getD (Group.new [])) ts
  match set.head? with
  | none => none
  | some t0 =>
    match b.thread t0 with
    | none => none
    | some t =>
      match fetchWord s core b.ctx t.pc with
      | .wait => none
      | .absent s1 => some (parkHeader s1 core bid slot b set t.pc)
      | .fault s1 k => some (headerTrap s1 bid slot set t.pc (accv t.pc k))
      | .poison s1 => some (killPoison s1 bid slot t.pc)
      | .word s1 x0 =>
        if !set.all (fun u => ((b.thread u).map (clearOf (waitMask x0))).getD true) then none
        else
          match Header.decode x0 with
          | none => some (headerTrap s1 bid slot set t.pc (illcl t.pc))
          | some h =>
            match firstWord h t with
            | none => some (headerTrap s1 bid slot set t.pc (illcl t.pc))
            | some k =>
              some (s1.updFrond bid slot (fun f =>
                { f.updGroup g (fun x => x.issued set ts) with
                  run := some { tids := set, clause := t.pc, hdr := h, pos := k }, turn := g + 1, fetch := none }))
/-- The first group of a rotation that issues. -/
def issueFirst (s : State) (core bid slot : Nat) (b : Block) (f : Frond) : List Nat → Option State
  | [] => none
  | g :: t =>
    match issueGroup s core bid slot b f g with
    | some s1 => some s1
    | none => issueFirst s core bid slot b f t

/-! ## The choice among fronds (R38, R39, R336) -/

/-- The slice that runs a clause of a frond slot: 0 to 3 the vector slices, 4 the uniform slice, 5 the engine slice (R39). -/
def Header.slice (h : Header) (slot : Nat) : Nat :=
  match h.cls with
  | .u => 4
  | .e => 5
  | _ => slot % 4
/-- The slice on which a frond slot's clause in flight runs. -/
def runSlice (s : State) (bid slot : Nat) : Option Nat :=
  (((s.block bid).bind (fun b => b.fronds.get? slot)).bind (fun f => f.run)).map (fun u => Header.slice u.hdr slot)
/-- What a frond without a clause in flight would issue: the state with its clause begun, or its trap taken. -/
def issueNext (s : State) (core bid slot : Nat) (b : Block) (f : Frond) : Option State :=
  if f.run.isSome || !(deliverables b slot).isEmpty then none else issueFirst s core bid slot b f (rotation f)
/-- A frond that is ready for a clause on a slice: its block, its slot, the slice. -/
structure Contender where
  bid   : Nat
  slot  : Nat
  slice : Nat
  deriving DecidableEq, Repr
/-- The state in which what the words of a core's fronds have brought has landed. -/
def landAll (s : State) (core : Nat) : State :=
  { s with blocks := s.blocks.mapVal (fun _ b =>
      if b.core? ≠ some core then b
      else { b with threads := b.threads.mapVal (fun _ t => t.land s.gtime),
                    fronds := b.fronds.mapVal (fun _ f => { f with pend := landed s.gtime f.pend }) }) }
/-- The ready fronds of a core. -/
def readyOn (s0 : State) (core : Nat) : List Contender :=
  let s := landAll s0 core
  (s.blocks.map (fun e =>
    if e.2.core? ≠ some core then []
    else e.2.fronds.filterMap (fun p => (issueNext s core e.1 p.1 e.2 p.2).bind (fun s1 =>
      (runSlice s1 e.1 p.1).map (fun k => ({ bid := e.1, slot := p.1, slice := k } : Contender)))))).flatten
/-- The cycle from which a frond counts on a slice: that of its last clause issue there, or that at which it became ready. -/
def countsFrom (s : State) (core : Nat) (r : Contender) : Nat :=
  let now := sliceCycles s core r.slice
  match (s.block r.bid).bind (fun b => b.fronds.get? r.slot) with
  | some f => (f.issued.get? r.slice).getD (f.since.getD r.slice now)
  | none => now
/-- Whether throttling may pass over a ready frond: its class is capped, and fewer than 4,096 cycles have passed (R38, R336). -/
def mayPass (s : State) (core : Nat) (r : Contender) : Bool :=
  let c := ((s.block r.bid).map throttleClass).getD 0
  s.sys.tcap.toNat / 2 ^ (4 * c) % 16 != 15 && decide (sliceCycles s core r.slice < countsFrom s core r + 4096)
/-- Whether a slice selects a ready frond: every other one for it issued later, or lies in a higher slot, or is passed over. -/
def selects (s : State) (core : Nat) (rs : List Contender) (r : Contender) : Bool :=
  rs.all (fun x => x == r || x.slice != r.slice || decide (countsFrom s core r < countsFrom s core x)
    || (countsFrom s core r == countsFrom s core x && decide (r.slot < x.slot)) || mayPass s core x)
/-- The cycle at which each frond of a core became ready is kept, as of now; a frond that has issued needs none. -/
def markReady (s : State) (core : Nat) (rs : List Contender) : State :=
  let since (bid slot : Nat) (f : Frond) : Map Nat :=
    match rs.find? (fun r => r.bid == bid && r.slot == slot) with
    | some r => if (f.issued.get? r.slice).isSome then [] else [(r.slice, f.since.getD r.slice (sliceCycles s core r.slice))]
    | none => []
  { s with blocks := s.blocks.mapVal (fun bid b =>
      if b.core? = some core then { b with fronds := b.fronds.mapVal (fun k f => { f with since := since bid k f }) } else b) }
/-- The fronds that are ready as the machine stands, before time passes, are noted, and the blocks for which R49 holds no longer. -/
def noteReady (s : State) : State :=
  ((s.blocks.filterMap (fun e => e.2.core?)).eraseDups).foldl (fun s k => markReady s k (readyOn s k)) (freshSaves s)
/-- Whether the next clause of a frond waits for the host link, or for room at a home slice: its first fetch does. -/
def fetchWaits (s : State) (core slot : Nat) (b : Block) (f : Frond) : Bool :=
  (rotation f).any (fun g => match (issueSet b ((f.groups[g]?).getD (Group.new [])) (eligibleOf b slot f g)).head? with
    | some t => decide (fetchWord s core b.ctx (((b.thread t).map (·.pc)).getD 0) = .wait)
    | none => false)
/-- A fetch begins to wait for the host link. -/
def markFetch (s : State) (bid slot : Nat) : State :=
  s.updFrond bid slot (fun f => { f with fetch := some (f.fetch.getD s.gtime) })
/-- A clause issue is noted on its slice (R38), where a new ratio takes effect (R399). -/
def markIssue (s : State) (core bid slot k : Nat) : State :=
  (newRatio s core k).updFrond bid slot (fun f => { f with issued := f.issued.put k (sliceCycles s core k), since := [] })
/-- R35, R36, R38, R57, R370: a slot with no clause in flight begins one, when its slice selects it; causes held for its threads are
delivered first (R203). -/
def execClauseIssue (core slot : Nat) (s : State) : Out :=
  match s.blockAt core slot with
  | none => .next s
  | some (bid, b) =>
    match b.fronds.get? slot with
    | none => .next s
    | some f =>
      if f.run.isSome then .next s
      else if !(deliverables b slot).isEmpty then .next (deliverCauses s bid slot b)
      else
        match issueNext s core bid slot b f with
        | none => .next (if fetchWaits s core slot b f then markFetch s bid slot else s)
        | some s1 =>
          match runSlice s1 bid slot with
          | none => .next s1
          | some k =>
            let rs := readyOn s core
            if selects s core rs { bid := bid, slot := slot, slice := k } then .next (markIssue (markReady s1 core rs) core bid slot k)
            else .next (markReady s core rs)

/-! ## A word of the clause in flight (R58, R59, R80, R81) -/

/-- What the word at a position becomes in a block: its instruction, or the causes it meets together (R81). -/
inductive WordRead where
  | run (i : Instr) | reject (causes : List Cause)
  deriving DecidableEq, Repr
/-- Reads a word by its class and place, against the block's register budget (R32) and features (R73). -/
def wordOf (b : Block) (u : Run) (x : Dword) : WordRead :=
  let k := u.hdr.classOf u.pos
  let va := u.clause + d64 (8 * u.pos)
  let d := decodeWord k x
  let op := d.illop || decide (d.need &&& b.hdr.features ≠ d.need)
  let opd := d.illopd || decide (b.hdr.regs < d.top)
  let cl := mustBeLast k x && (decide (u.pos ≤ u.hdr.cnt.toNat) || (k == .m && u.hdr.t))
  let cause (on : Bool) (bit : Nat) (addr : Dword) : List Cause := if on then [{ bit := bit, addr := addr, info := 0 }] else []
  let cs := cause op 0 va ++ cause opd 1 va ++ cause cl 2 u.clause
  match cs.isEmpty, d.val with
  | true, some i => .run i
  | true, none => .reject [{ bit := 0, addr := va, info := 0 }]
  | false, _ => .reject cs
/-- The common part of a word that is rejected: its stall count. -/
def stallOf (x : Dword) : Ctl := { stall := x.extractLsb' 52 4, set := false, tok := 0, gneg := false, gp := 15 }
/-- The lanes in which a word's state makes it an ILLOP, each with its code (R119, R190 to R196). -/
def stateIll (s : State) (i : Issue) (x : Option Instr) : List (Nat × Nat) :=
  match x with
  | some (.tret c) => (i.guarded c).noHandler
  | some (.cbar c _ slot) => cbarIll slot (i.guarded c)
  | some (.cvjoin c slot _ _ _) => cvjoinIll s slot (i.guarded c)
  | some (.cvld c _ _) => cvldIll s (i.guarded c)
  | some (.stepn c) => stepnIll (i.guarded c)
  | some (.ldnb c _ _ _ u) => ldnbIll s u (i.guarded c)
  | _ => []
/-- A word with its operand ids replaced by v0, where R191, R192 and R196 make it an ILLOP whatever its operands are. -/
def stripOperands (k : Cls) (x : Dword) : Dword :=
  let op := (Raw.unpack x).opc.toNat
  if k ≠ .m then x
  else if op = 0x70 || op = 0x71 then x &&& ~~~(0xFFFFF#64 <<< 23)
  else if op = 0x74 then x &&& ~~~(0x3FFFFFFF#64 <<< 13)
  else x
/-- The causes of a rejected word in a thread: those it meets everywhere, with the ILLOP that it meets there (R81). Where a word is an
ILLOP both by its bits or the features of its code object and by the state of its block, R366 gives EINFO 'the entry's code or 0' and no
rule says which: EINFO is 0, that of the former; so for `stepn` and `ldnb` in a block that is not paced and whose code object lacks
feature bit 5 (R73, R195, R196) (DESIGN CHOICE, log entry 58). -/
def causesIn (i : Issue) (cs : List Cause) (ill : List (Nat × Nat)) (t : Nat) : List Cause :=
  match ill.find? (fun e => e.1 == t) with
  | some e => if cs.any (fun k => k.bit == 0) then cs else { illopAt i.word with info := d64 e.2 } :: cs
  | none => cs
/-- A rejected word traps its issue set, or the elected thread of an E word (R80). -/
def rejectWord (s : State) (i : Issue) (x : Dword) (cs : List Cause) : State :=
  let tids := if i.run.hdr.classOf i.run.pos == .e then i.run.tids.take 1 else i.run.tids
  let ill := stateIll s i (decodeWord (i.run.hdr.classOf i.run.pos) (stripOperands (i.run.hdr.classOf i.run.pos) x)).val
  endWord (stallOf x) i.bid i.slot noTarget
    (takeTrap s i.bid i.slot (tids.map (fun t => { tid := t, causes := causesIn i cs ill t, epc := i.run.clause, eslot := i.run.pos })))
/-- Whether a thread of the clause in flight waits: an `lwait` before the last word keeps the clause where it is (R26, R232). -/
def Issue.waiting (i : Issue) : Bool :=
  i.run.tids.any (fun t => ((i.thr t).map (fun x => match x.status with | .waiting _ => true | _ => false)).getD false)
/-- What the frond that moves does: it executes an instruction, or its turn is over. -/
inductive Next where
  | exec (s : State) (i : Instr) | done (s : State)
  deriving DecidableEq, Repr
/-- Fetches and reads the word that issues next. -/
def nextWord (s : State) (i : Issue) : Next :=
  if i.run.tids.isEmpty then .done (endWord (stallOf 0) i.bid i.slot noTarget s)
  else if i.waiting then .done s
  else
    match fetchWord s i.core i.blk.ctx i.word with
    | .wait => .done (markFetch s i.bid i.slot)
    | .absent s1 => .done (endWord (stallOf 0) i.bid i.slot noTarget (i.parkPage s1 i.run.tids (fun _ => i.word) 2 true))
    | .fault s1 k =>
      .done (endWord (stallOf 0) i.bid i.slot noTarget
        (headerTrap s1 i.bid i.slot i.run.tids i.run.clause (accv i.word k)))
    | .poison s1 => .done (killPoison s1 i.bid i.slot i.word)
    | .word s1 x =>
      let s2 := if i.fr.fetch.isSome then s1.updFrond i.bid i.slot (fun f => { f with fetch := none }) else s1
      match wordOf i.blk i.run x with
      | .run ins => .exec s2 ins
      | .reject cs => .done (rejectWord s2 i x cs)

/-! ## The turn -/

/-- The fronds of a core that can move: with a clause in flight that does not wait, with a cause to take, selected for a clause. -/
def movers (s0 : State) (core : Nat) : List (Nat × Nat) :=
  let s := landAll s0 core
  let rs := readyOn s core
  (s.blocks.map (fun e =>
    if e.2.core? ≠ some core then []
    else e.2.fronds.filterMap (fun p =>
      let waits := (p.2.run.map (fun u => u.tids.any (fun t =>
        ((e.2.thread t).map (fun x => match x.status with | .waiting _ => true | _ => false)).getD false))).getD false
      let go := if p.2.run.isSome then !waits
        else !(deliverables e.2 p.1).isEmpty || (issueNext s core e.1 p.1 e.2 p.2).any (fun s1 => match runSlice s1 e.1 p.1 with
          | some k => selects s core rs { bid := e.1, slot := p.1, slice := k }
          | none => true)
      if go then some (p.2.cyc, p.1) else none))).flatten
/-- The frond that moves when nothing else is said: of those that can, the one that has run for the fewest cycles, ties to the
lowest core and slot. -/
def nextMover (s : State) : Option (Nat × Nat) :=
  let all := ((s.blocks.filterMap (fun e => e.2.core?)).eraseDups.map (fun k => (movers s k).map (fun x => (x.1, k, x.2)))).flatten
  (all.foldl (fun (best : Option (Nat × Nat × Nat)) x => match best with
    | none => some x
    | some y => if x.1 < y.1 || (x.1 == y.1 && decide (x.2.1 * 64 + x.2.2 < y.2.1 * 64 + y.2.2)) then some x else some y)
    none).map (·.2)
/-- The frond that moves: `gap` further cycles of its slice pass, and earlier results have landed. -/
def focusOn (s : State) (core slot gap : Nat) : State :=
  match s.blockAt core slot with
  | none => { s with focus := none }
  | some (bid, b) =>
    let s1 := s.updThreads bid ((b.members slot).map (·.1)) (fun _ t => t.land s.gtime)
    { s1.updFrond bid slot (fun f => { f with cyc := f.cyc + gap, pend := landed s.gtime f.pend }) with
      focus := some (bid, slot) }

/-- The turn that a state takes, and the state without it. The agenda says which agent moves and when; with nothing on it a frond
moves, and 1 ns passes. -/
def takeTurn (s : State) : Turn × State :=
  match s.agenda with
  | t :: rest => (t, { s with agenda := rest })
  | [] =>
    let dst := (nextMover s).getD (0, 0)
    ({ dt := 1, gap := 0, move := .run dst.1 dst.2 }, s)
/-- Global time passes; no frond has the move. -/
def passTime (s : State) (dt : Nat) : State := { s with gtime := s.gtime + dt, focus := none }
/-- Whether a move can be made: after the loss of a die-to-die edge only a device reset can (R397). -/
def mayMove (s : State) (m : Move) : Bool := !s.sys.stopped || decide (m = .event .deviceReset)

/-- A frond moves: the next word of its clause in flight, or the issue of a clause. -/
def frondMove (s : State) (core slot gap : Nat) : Next :=
  let s1 := focusOn s core slot gap
  match s1.issue? with
  | some i => nextWord s1 i
  | none => .exec s1 (.clauseIssue core slot)

/-! ## Inputs from outside, errors of cells, replacement (R247, R249, R250, R262, R265) -/

/-- The word of a core's memories is marked poisoned (R265, R386), when it stands there; a clause is fetched again. -/
def sramPoison (s : State) (core : Nat) (w : SramWord) : State :=
  let blk (bid : Nat) (ok : Block → Bool) (f : Block → Block) : State :=
    match s.block bid with
    | some b => if b.core? == some core && ok b then s.updBlock bid f else s
    | none => s
  match w with
  | .scratch bid n => blk bid (fun b => decide (4 * n < b.alloc)) (fun b => { b with scrBad := addNat b.scrBad n })
  | .acc bid n => blk bid (fun b => decide (n < 64 * b.accRows)) (fun b => { b with accBad := addNat b.accBad n })
  | .vreg bid tid n => blk bid (fun b => decide (n < b.hdr.regs))
      (fun b => b.updThread tid (fun t => { t with vbad := addNat t.vbad n }))
  | .preg bid tid n => blk bid (fun _ => decide (n < 15))
      (fun b => b.updThread tid (fun t => { t with pbad := setBit16 t.pbad n true }))
  | .sreg bid slot n => blk bid (fun _ => decide (n < 128)) (fun b => b.updFrond slot (fun f => { f with sbad := addNat f.sbad n }))
  | .l1 line => s.updCore core (fun k => { k with l1 := k.l1.modify line (fun x => { x with bad := true }) })
  | .bank n => s.updCore core (fun k => { k with banks := k.banks.modify n (fun x => { x with bad := true }) })
  | .clause => s
/-- An error in a word of a core's memories (R265, R402): a corrected one is counted; another one poisons its word and is
recorded. -/
def sramError (s : State) (core : Nat) (w : SramWord) (fixed : Bool) : State :=
  if s.part.cores ≤ core then s
  else if fixed then
    { s with sys := { s.sys with corrCore := s.sys.corrCore.put core (Nat.min (2 ^ 64 - 1) (s.sys.corrCore.getD core 0 + 1)) } }
  else devError (sramPoison s core w) 2 (some core) none
/-- What happens outside the opcode table: the host stores to its own memory, a line at a time; a DRAM line gains symbols in
error; a word of a core's memories has an error; a line or a cached translation is replaced; what other devices send arrives. -/
def takeInput (s : State) (x : Input) : State :=
  match x with
  | .hostStore pa bytes =>
    allRoom ((pieces pa bytes.length).foldl (fun s p =>
      if regionOf s.part p.1.toNat == .host then homeWrite s p.1.toNat ((bytes.drop (p.1.toNat - pa)).take p.2) false else s) s)
  | .symbols line n =>
    if regionOf s.part (line * 64) == .dram && n != 0 then
      { s with memErr := s.memErr.put line (s.memErr.getD line 0 + n) }
    else s
  | .sram core w fixed => sramError s core w fixed
  | .replaceLine core line => replaceLine s core line
  | .replaceTlb core ctx page =>
    s.updCore core (fun k => { k with tlb := k.tlb.filter (fun t => !(t.ctx == ctx && t.page == page)) })
  | .farAccepted tag => farAccepted s tag
  | .farSignal bid tid => farSignal s bid tid
  | .farBoost slot core prio => farBoost s slot core prio
  | .farDisarm src tag => dropFar s src tag
  | .resend tag => resend s tag
  | .localRelease bid seq => localRelease s bid seq

end Sys2Proof.Machine
end

