-- ==== Sys2Proof/Machine/VecInt.lean ====
section
/-! DEFINITION. The vector integer words (R130 to R136). Every one has latency 2 and sets no flag. -/

namespace Sys2Proof.Machine

/-- A one-source integer word. -/
def iop1 (c : Ctl) (w : Bool) (d : VReg) (a : Opnd) (f : Dword → Dword) (s : State) : Out :=
  vop c 2 d w [(a, w)] [] (fun _ _ l => f (src l 0)) s
/-- A two-source integer word. -/
def iop2 (c : Ctl) (w : Bool) (d : VReg) (a b : Opnd) (f : Dword → Dword → Dword) (s : State) : Out :=
  vop c 2 d w [(a, w), (b, w)] [] (fun _ _ l => f (src l 0) (src l 1)) s

/-- The low `w` bits of a value, 32 or 64. -/
def lowW (w64 : Bool) (x : Dword) : Dword := if w64 then x else (lo32 x).setWidth 64
/-- The width of an operation. -/
def widthOf (w64 : Bool) : Nat := if w64 then 64 else 32

/-- R130, R82. -/
def execAdd (c : Ctl) (ty : VTy) (sat : Bool) (d : VReg) (a b : Opnd) (s : State) : Out :=
  iop2 c (tyWide ty) d a b (intMap2 ty sat (· + ·)) s
/-- R130, R82. -/
def execSub (c : Ctl) (ty : VTy) (sat : Bool) (d : VReg) (a b : Opnd) (s : State) : Out :=
  iop2 c (tyWide ty) d a b (intMap2 ty sat (· - ·)) s
/-- R130, R82. -/
def execMul (c : Ctl) (ty : VTy) (sat : Bool) (d : VReg) (a b : Opnd) (s : State) : Out :=
  iop2 c (tyWide ty) d a b (intMap2 ty sat (· * ·)) s
/-- R130: the high W bits of the product. -/
def execMulh (c : Ctl) (ty : VTy) (d : VReg) (a b : Opnd) (s : State) : Out :=
  iop2 c (tyWide ty) d a b (intMap2 ty false (fun x y => x * y / 2 ^ tyW ty)) s

/-- `mad` in a lane (R131). -/
def madVal (uns w64 sat : Bool) (a b e : Dword) : Dword :=
  let w := widthOf w64
  let x (y : Dword) : Int := intOf w (!uns) (y.toNat % 2 ^ w)
  BitVec.ofNat 64 (intTo w (!uns) sat (x a * x b + x e))
/-- R131. -/
def execMad (c : Ctl) (uns w64 sat : Bool) (d : VReg) (a b e : Opnd) (s : State) : Out :=
  vop c 2 d w64 [(a, w64), (b, w64), (e, w64)] []
    (fun _ _ l => madVal uns w64 sat (src l 0) (src l 1) (src l 2)) s
/-- `madw` in a lane (R131). -/
def madwVal (uns : Bool) (a b e : Dword) : Dword :=
  let x (y : Dword) : Int := intOf 32 (!uns) (y.toNat % 2 ^ 32)
  BitVec.ofInt 64 (x a * x b + (e.toNat : Int))
/-- R131. -/
def execMadw (c : Ctl) (uns : Bool) (d : VReg) (a b e : Opnd) (s : State) : Out :=
  vop c 2 d true [(a, false), (b, false), (e, true)] [] (fun _ _ l => madwVal uns (src l 0) (src l 1) (src l 2)) s

/-- R130. -/
def execAnd (c : Ctl) (ty : VTy) (d : VReg) (a b : Opnd) (s : State) : Out := iop2 c (tyWide ty) d a b (· &&& ·) s
/-- R130. -/
def execOr (c : Ctl) (ty : VTy) (d : VReg) (a b : Opnd) (s : State) : Out := iop2 c (tyWide ty) d a b (· ||| ·) s
/-- R130. -/
def execXor (c : Ctl) (ty : VTy) (d : VReg) (a b : Opnd) (s : State) : Out := iop2 c (tyWide ty) d a b (· ^^^ ·) s
/-- R130. -/
def execNot (c : Ctl) (ty : VTy) (d : VReg) (a : Opnd) (s : State) : Out :=
  iop1 c (tyWide ty) d a (fun x => lowW (tyWide ty) (~~~x)) s

/-- The shift operations of R132 and R125. -/
inductive Shift where
  | left | right | arith | rotate
  deriving DecidableEq, Repr
/-- A shift by `n` places at width 32 or 64 (R132). -/
def shiftVal (k : Shift) (w64 : Bool) (a b : Dword) : Dword :=
  let n := b.toNat % widthOf w64
  if w64 then
    match k with
    | .left => a <<< n
    | .right => a >>> n
    | .arith => a.sshiftRight n
    | .rotate => a.rotateLeft n
  else
    let x := lo32 a
    (match k with
      | .left => x <<< n
      | .right => x >>> n
      | .arith => x.sshiftRight n
      | .rotate => x.rotateLeft n).setWidth 64
/-- R132. -/
def execShl (c : Ctl) (ty : VTy) (d : VReg) (a b : Opnd) (s : State) : Out :=
  iop2 c (tyWide ty) d a b (shiftVal .left (tyWide ty)) s
/-- R132. -/
def execShr (c : Ctl) (ty : VTy) (d : VReg) (a b : Opnd) (s : State) : Out :=
  iop2 c (tyWide ty) d a b (shiftVal .right (tyWide ty)) s
/-- R132. -/
def execSar (c : Ctl) (ty : VTy) (d : VReg) (a b : Opnd) (s : State) : Out :=
  iop2 c (tyWide ty) d a b (shiftVal .arith (tyWide ty)) s
/-- R132. -/
def execRot (c : Ctl) (ty : VTy) (d : VReg) (a b : Opnd) (s : State) : Out :=
  iop2 c (tyWide ty) d a b (shiftVal .rotate (tyWide ty)) s

/-- R130. -/
def execMin (c : Ctl) (ty : VTy) (d : VReg) (a b : Opnd) (s : State) : Out :=
  iop2 c (tyWide ty) d a b (intMap2 ty false min) s
/-- R130. -/
def execMax (c : Ctl) (ty : VTy) (d : VReg) (a b : Opnd) (s : State) : Out :=
  iop2 c (tyWide ty) d a b (intMap2 ty false max) s
/-- R130, R82. -/
def execAbs (c : Ctl) (ty : VTy) (sat : Bool) (d : VReg) (a : Opnd) (s : State) : Out :=
  iop1 c (tyWide ty) d a (intMap1 ty sat (fun x => (x.natAbs : Int))) s
/-- R130, R82. -/
def execNeg (c : Ctl) (ty : VTy) (sat : Bool) (d : VReg) (a : Opnd) (s : State) : Out :=
  iop1 c (tyWide ty) d a (intMap1 ty sat (fun x => -x)) s

/-- R133: each lane selects by its own predicate. -/
def execSel (c : Ctl) (w64 : Bool) (d : VReg) (a b : Opnd) (p : Pred) (s : State) : Out :=
  vop c 2 d w64 [(a, w64), (b, w64)] [.p p.val] (fun i tid l => if i.p tid p.val then src l 0 else src l 1) s
/-- R130. -/
def execMov (c : Ctl) (ty : VTy) (d : VReg) (a : Opnd) (s : State) : Out := iop1 c (tyWide ty) d a id s
/-- R130: SEXT(imm[22:0], 23), 32 bits. -/
def execMovi (c : Ctl) (d : VReg) (imm : BitVec 23) (s : State) : Out :=
  vop c 2 d false [] [] (fun _ _ _ => (imm.signExtend 32).setWidth 64) s

/-- Leading zero bits at a width. -/
def clzVal (w64 : Bool) (x : Dword) : Dword := BitVec.ofNat 64 (widthOf w64 - bitLen (lowW w64 x).toNat)
/-- One bits among the lowest `n`. -/
def popBits : Nat → Nat → Nat
  | 0, _ => 0
  | n + 1, x => x % 2 + popBits n (x / 2)
/-- One bits. -/
def popcVal (w64 : Bool) (x : Dword) : Dword := BitVec.ofNat 64 (popBits (widthOf w64) x.toNat)
/-- Bits in reverse order. -/
def brevVal (w64 : Bool) (x : Dword) : Dword :=
  if w64 then x.reverse else (lo32 x).reverse.setWidth 64
/-- R130. -/
def execClz (c : Ctl) (ty : VTy) (d : VReg) (a : Opnd) (s : State) : Out :=
  iop1 c (tyWide ty) d a (clzVal (tyWide ty)) s
/-- R130. -/
def execPopc (c : Ctl) (ty : VTy) (d : VReg) (a : Opnd) (s : State) : Out :=
  iop1 c (tyWide ty) d a (popcVal (tyWide ty)) s
/-- R130. -/
def execBrev (c : Ctl) (ty : VTy) (d : VReg) (a : Opnd) (s : State) : Out :=
  iop1 c (tyWide ty) d a (brevVal (tyWide ty)) s

/-- The position and length of a field of a width (R134). -/
def fieldPos (w64 : Bool) (pos : Dword) : Nat := pos.toNat % widthOf w64
def fieldLen (w64 : Bool) (pos len : Dword) : Nat := Nat.min (len.toNat % 128) (widthOf w64 - fieldPos w64 pos)
/-- `bfe` in a lane (R134). -/
def bfeVal (uns w64 : Bool) (a pos len : Dword) : Dword :=
  let k := fieldLen w64 pos len
  let f := (lowW w64 a).toNat / 2 ^ fieldPos w64 pos % 2 ^ k
  if k = 0 then 0
  else if uns then BitVec.ofNat 64 f
  else lowW w64 (BitVec.ofInt 64 (intOf k true f))
/-- `bfi` in a lane (R134): the field of d replaced by the low bits of a. -/
def bfiVal (w64 : Bool) (d a pos len : Dword) : Dword :=
  let k := fieldLen w64 pos len
  let mask : Dword := BitVec.ofNat 64 ((2 ^ k - 1) * 2 ^ fieldPos w64 pos)
  lowW w64 ((d &&& ~~~mask) ||| ((a <<< fieldPos w64 pos) &&& mask))
/-- R134: pos and len are 32-bit operands whatever the width. -/
def execBfe (c : Ctl) (uns w64 : Bool) (d : VReg) (a pos len : Opnd) (s : State) : Out :=
  vop c 2 d w64 [(a, w64), (pos, false), (len, false)] []
    (fun _ _ l => bfeVal uns w64 (src l 0) (src l 1) (src l 2)) s
/-- R134: d is also read. -/
def execBfi (c : Ctl) (w64 : Bool) (d : VReg) (a pos len : Opnd) (s : State) : Out :=
  vop c 2 d w64 [(.v d, w64), (a, w64), (pos, false), (len, false)] []
    (fun _ _ l => bfiVal w64 (src l 0) (src l 1) (src l 2) (src l 3)) s

/-- The exact sum of `addc` (R135). -/
def addcSum (w64 cin : Bool) (a b : Dword) : Nat := (lowW w64 a).toNat + (lowW w64 b).toNat + (if cin then 1 else 0)
/-- R135: the sum, and the carry into the predicate that was the carry in. -/
def execAddc (c : Ctl) (w64 : Bool) (d : VReg) (a b : Opnd) (p : Pred) (s : State) : Out :=
  let rd := opndRegs a w64 ++ opndRegs b w64 ++ [.p p.val]
  exVec c rd (.p p.val :: vregs d.val (wN w64)) s (fun i s =>
    i.lanes s (fun tid t =>
      let x := addcSum w64 (i.p tid p.val) (i.opnd tid a w64) (i.opnd tid b w64)
      (t.resVW i.fr.cyc 2 d.val w64 (lowW w64 (BitVec.ofNat 64 x)) (i.bad tid rd)).resP i.fr.cyc 2 p.val
        (decide (2 ^ widthOf w64 ≤ x)) (i.bad tid rd)))

/-- R136. -/
def execCmp (c : Ctl) (cc : Cc) (ty : VTy) (d : Pred) (a b : Opnd) (s : State) : Out :=
  let x (y : Dword) : Int := intOf (tyW ty) (tySigned ty) (lowW (tyWide ty) y).toNat
  vpred c 2 d [(a, tyWide ty), (b, tyWide ty)] (fun l => ccInt cc (x (src l 0)) (x (src l 1))) s

end Sys2Proof.Machine
end

