-- ==== Sys2Proof/Machine/Lane.lean ====
section
/-! DEFINITION. The lane operations (R145 to R153). Their results arrive under a token: here the values are those of the
issue, and they count as pending until the token is waited for or time has passed (the log names the choice). -/

namespace Sys2Proof.Machine

/-- A lane operation: with no active lane it writes nothing at all (R145). -/
def exLane (c : Ctl) (rd wr : List Reg) (s : State) (body : Issue → State → State) : Out :=
  exVec c rd wr s (fun i s => if i.act.isEmpty then s else body i s)

/-- The member of the frond at a lane, if the lane holds one (R145). -/
def laneMember (i : Issue) (s : State) (k : Nat) : Option (Nat × Thread) :=
  (s.block i.bid).bind (fun b => (b.liveMembers i.slot).find? (fun e => e.2.lane == k))
/-- A source lane's registers as they stand; a pending write there is read as old or new (R145). -/
def laneView (i : Issue) (s : State) (k : Nat) (rs : List Reg) : Option (Nat × Thread) :=
  (laneMember i s k).map (fun e => (e.1, viewThread i.fr i.fr.cyc s.free e.1 40 rs e.2))
/-- The free value of a step's reads of source lanes is used up. -/
def useFree (s : State) : State := { s with free := s.free + 1 }
/-- An operand read from lane `k`: 0 where the lane holds no member. -/
def laneOpnd (i : Issue) (s : State) (k : Nat) (x : Opnd) (wide : Bool) : Dword :=
  match laneView i s k (opndRegs x wide) with
  | none => 0
  | some (tid, t) => { i with blk := i.blk.updThread tid (fun _ => t) }.opnd tid x wide
/-- Whether an operand is poisoned in lane `k`. -/
def laneBad (i : Issue) (s : State) (k : Nat) (x : Opnd) (wide : Bool) : Bool :=
  match laneView i s k (opndRegs x wide) with
  | none => false
  | some (_, t) => (opndRegs x wide).any (regBad i.fr t)

/-- Whether any active lane holds poison in some registers (R386). -/
def Issue.anyBad (i : Issue) (rs : List Reg) : Bool := i.act.any (fun t => i.bad t rs)
/-- A 32-bit result in an s-register: sign-extended for i types, zero-extended otherwise (R145). -/
def toS (sg w64 : Bool) (x : Dword) : Dword := if w64 then x else if sg then (lo32 x).signExtend 64 else (lo32 x).setWidth 64

/-- The registers that a word reads in its own lanes beside those of source lanes: its index, and an s-register (R145). -/
def ownRegs (a n : Opnd) (w64 : Bool) : List Reg :=
  opndRegs n false ++ (match a with | .s _ => opndRegs a w64 | _ => [])
/-- A word that reads source lanes: it waits while a read there wants what a reply has still to bring (R69, R145). -/
def exFrom (c : Ctl) (rd wr : List Reg) (a : Opnd) (w64 : Bool) (lanes : Issue → List Nat) (s : State) (body : Issue → State → State) :
    Out :=
  match s.issue? with
  | none => .refused .noIssue
  | some i =>
    match startWord c rd wr false i s with
    | .go i1 _ =>
      let rs := earlyReads i1.fr i1.fr.cyc 40 ((lanes i1).filterMap (laneMember i1 s)) (opndRegs a w64)
      if rs.any (EarlyRead.wants s.free) then .next (keepReads s i1.bid i1.slot rs) else exLane c rd wr s body
    | _ => exLane c rd wr s body

/-- The mask of the lanes of some threads. -/
def laneMask (i : Issue) (tids : List Nat) : Dword := tids.foldl (fun m t => m ||| (1#64 <<< i.lane t)) 0
/-- R146. -/
def execBal (c : Ctl) (d : SReg) (p : Pred) (s : State) : Out :=
  exLane c [.p p.val] [.s d.val] s (fun i s =>
    i.putS s d.val (laneMask i (i.act.filter (fun t => i.p t p.val))) (i.anyBad [.p p.val]))
/-- R147. -/
def execVany (c : Ctl) (d p : Pred) (s : State) : Out :=
  exAll c [.p p.val] [.p d.val] d false s (fun i s =>
    i.putAll s c 0 d.val (i.act.any (fun t => i.p t p.val)) (i.anyBad [.p p.val]))
/-- R147. -/
def execVall (c : Ctl) (d p : Pred) (s : State) : Out :=
  exAll c [.p p.val] [.p d.val] d false s (fun i s =>
    i.putAll s c 0 d.val (i.act.all (fun t => i.p t p.val)) (i.anyBad [.p p.val]))
/-- R148. -/
def execRdfirst (c : Ctl) (w64 : Bool) (d : SReg) (a : Opnd) (s : State) : Out :=
  exLane c (opndRegs a w64) [.s d.val] s (fun i s =>
    i.putS s d.val (toS true w64 (i.opnd i.low a w64)) (i.bad i.low (opndRegs a w64)))
/-- R148: and whether every active lane holds the same value. -/
def execRdfirstChk (c : Ctl) (w64 : Bool) (d : SReg) (a : Opnd) (p : Pred) (s : State) : Out :=
  exAll c (opndRegs a w64) [.s d.val, .p p.val] p false s (fun i s =>
    let x := i.opnd i.low a w64
    let bad := i.anyBad (opndRegs a w64)
    let s1 := i.putS s d.val (toS true w64 x) (i.bad i.low (opndRegs a w64))
    i.putAll s1 c 0 p.val (i.act.all (fun t => i.opnd t a w64 == x)) bad)
/-- R149. The index is a value of 32 bits whatever the type of `a` (DEDUCED, log entry 61: R63 sets a lane or index apart from a 64-bit
vector operand). -/
def execRdlane (c : Ctl) (w64 : Bool) (d : SReg) (a n : Opnd) (s : State) : Out :=
  exFrom c (ownRegs a n w64) [.s d.val] a w64 (fun i => [(i.o32 i.low n).toNat % 32]) s (fun i s =>
    let k := (i.o32 i.low n).toNat % 32
    let bad := laneBad i s k a w64 || i.bad i.low (opndRegs n false)
    useFree (i.putS s d.val (toS true w64 (laneOpnd i s k a w64)) bad))

/-- A shuffle: each active lane reads the lane that `pick` names (R150), from an index of 32 bits (DEDUCED, log entry 61). -/
def shuffle (c : Ctl) (w64 : Bool) (d : VReg) (a b : Opnd) (pick : Nat → Nat → Nat) (s : State) : Out :=
  exFrom c (ownRegs a b w64) (vregs d.val (wN w64)) a w64
      (fun i => i.act.map (fun t => pick (i.lane t) (i.o32 t b).toNat)) s (fun i s =>
    let k (tid : Nat) : Nat := pick (i.lane tid) (i.o32 tid b).toNat
    useFree (i.lanes s (fun tid t =>
      t.putVW d.val w64 (laneOpnd i s (k tid) a w64) (laneBad i s (k tid) a w64 || i.bad tid (opndRegs b false)))))
/-- R150. -/
def execShfl (c : Ctl) (w64 : Bool) (d : VReg) (a b : Opnd) (s : State) : Out := shuffle c w64 d a b (fun _ x => x % 32) s
/-- R150. -/
def execShflx (c : Ctl) (w64 : Bool) (d : VReg) (a b : Opnd) (s : State) : Out :=
  shuffle c w64 d a b (fun l x => l ^^^ (x % 32)) s
/-- R150. -/
def execShflu (c : Ctl) (w64 : Bool) (d : VReg) (a b : Opnd) (s : State) : Out :=
  shuffle c w64 d a b (fun l x => if l < x then l else l - x) s
/-- R150. -/
def execShfld (c : Ctl) (w64 : Bool) (d : VReg) (a b : Opnd) (s : State) : Out :=
  shuffle c w64 d a b (fun l x => if 31 < l + x then l else l + x) s

/-- `.min` and `.max` of FP32 over lanes (R93, R151). -/
def fminList (mx : Bool) : List Nat → Nat
  | [] => 0
  | x :: t => t.foldl (fminOp fp32 mx) (if fp32.decode x = .nan then fp32.nan else x)
/-- The reduction of some lanes' values: the result as 64 bits and the flags (R151). -/
def redxVal (op : ROp) (ty : VTy) (xs : List Dword) : Dword × Nat :=
  let w := tyW ty
  let ns := xs.map (fun x => x.toNat % 2 ^ w)
  let is := ns.map (intOf w (tySigned ty))
  let int (x : Int) : Dword × Nat := (toS (tySigned ty) (tyWide ty) (BitVec.ofNat 64 (intTo w (tySigned ty) false x)), 0)
  match op with
  | .and => (toS (tySigned ty) (tyWide ty) (xs.foldl (· &&& ·) (BitVec.allOnes 64)), 0)
  | .or => (toS (tySigned ty) (tyWide ty) (xs.foldl (· ||| ·) 0), 0)
  | .add =>
    if ty = .f32 then
      let r := sumTo fp32 .rne false (ns.map fp32.decode) 0
      (BitVec.ofNat 64 r.bits, r.flags)
    else int (is.foldl (· + ·) 0)
  | .min =>
    if ty = .f32 then (BitVec.ofNat 64 (fminList false ns), 0)
    else int (is.foldl min ((is.head?).getD 0))
  | .max =>
    if ty = .f32 then (BitVec.ofNat 64 (fminList true ns), 0)
    else int (is.foldl max ((is.head?).getD 0))
/-- R151: an enabled flag in any active lane raises FPX in every one, and nothing is written. -/
def execRedx (c : Ctl) (op : ROp) (ty : VTy) (d : SReg) (a : Opnd) (s : State) : Out :=
  exLane c (opndRegs a (tyWide ty)) [.s d.val] s (fun i s =>
    let r := redxVal op ty (i.act.map (fun t => i.opnd t a (tyWide ty)))
    let trap := i.act.any (fun t => ((i.thr t).map (fun u => u.enables r.2)).getD false)
    let s1 := i.lanes s (fun _ t => t.flag r.2)
    if trap then takeTrap s1 i.bid i.slot (i.act.map (fun t => i.fpx t r.2))
    else i.putS s1 d.val r.1 (i.anyBad (opndRegs a (tyWide ty))))

/-- The inclusive sum up to a lane (R152). -/
def scanVal (ty : VTy) (xs : List Dword) : FRes :=
  if ty = .f32 then sumTo fp32 .rne false (xs.map (fun x => fp32.decode (elem 32 0 x))) 0
  else { bits := (xs.foldl (fun n x => n + elem 32 0 x) 0) % 2 ^ 32, flags := 0 }
/-- R152. -/
def execScanx (c : Ctl) (ty : VTy) (d : VReg) (a : Opnd) (s : State) : Out :=
  exLane c (opndRegs a false) [.v d.val] s (fun i s =>
    let upTo (tid : Nat) : List Nat := i.act.filter (fun t => decide (i.lane t ≤ i.lane tid))
    let r (tid : Nat) : FRes := scanVal ty ((upTo tid).map (fun t => i.opnd t a false))
    i.fpDone s (fun tid => (r tid).flags) (fun tid t =>
      t.putV d.val (BitVec.ofNat 32 (r tid).bits) ((upTo tid).any (fun t => i.bad t (opndRegs a false)))))

/-- R153. -/
def execLanes (c : Ctl) (d : VReg) (s : State) : Out :=
  exLane c [] [.v d.val] s (fun i s =>
    i.lanes s (fun tid t =>
      let below := (i.act.filter (fun u => decide (i.lane u < i.lane tid))).length
      t.putV d.val (BitVec.ofNat 32 (below + 256 * i.act.length)) false))
/-- R153: true in the lowest active lane, false in every other member. -/
def execElect (c : Ctl) (p : Pred) (s : State) : Out :=
  exAll c [] [.p p.val] p false s (fun i s =>
    (i.putAll s c 0 p.val false false).updThread i.bid i.low (fun t => t.putP p.val true false))

end Sys2Proof.Machine
end

