-- ==== Sys2Proof/Machine/Uniform.lean ====
section
/-! DEFINITION. The uniform words that touch no memory (R124 to R128). -/

namespace Sys2Proof.Machine

/-- R125. -/
def execSadd (c : Ctl) (d a : SReg) (b : USrc) (s : State) : Out := uop c d a b (· + ·) s
/-- R125. -/
def execSsub (c : Ctl) (d a : SReg) (b : USrc) (s : State) : Out := uop c d a b (· - ·) s
/-- R125. -/
def execSmul (c : Ctl) (d a : SReg) (b : USrc) (s : State) : Out := uop c d a b (· * ·) s
/-- The high half of the 128-bit product (R125). -/
def smulhVal (sg : Bool) (x y : Dword) : Dword :=
  if sg then BitVec.ofInt 64 (x.toInt * y.toInt / 2 ^ 64) else BitVec.ofNat 64 (x.toNat * y.toNat / 2 ^ 64)
/-- R125. -/
def execSmulh (c : Ctl) (sg : Bool) (d a : SReg) (b : USrc) (s : State) : Out := uop c d a b (smulhVal sg) s
/-- A uniform word with further s-registers read. -/
def uopMore (c : Ctl) (d : SReg) (rd : List Nat) (more : List Reg) (f : Issue → Dword) (s : State) : Out :=
  exUni c (rd.map Reg.s ++ more) [.s d.val] s (fun i s => i.putS s d.val (f i) (i.sBad rd || i.bad i.low more))
/-- The s-registers of a second source. -/
def usNums : USrc → List Nat
  | .reg r => [r.val]
  | .imm _ => []
/-- R125: a × b + d. -/
def execSmad (c : Ctl) (d a : SReg) (b : USrc) (s : State) : Out :=
  uopMore c d (d.val :: a.val :: usNums b) [] (fun i => i.s a.val * i.us b + i.s d.val) s
/-- R125. -/
def execSand (c : Ctl) (d a : SReg) (b : USrc) (s : State) : Out := uop c d a b (· &&& ·) s
/-- R125. -/
def execSor (c : Ctl) (d a : SReg) (b : USrc) (s : State) : Out := uop c d a b (· ||| ·) s
/-- R125. -/
def execSxor (c : Ctl) (d a : SReg) (b : USrc) (s : State) : Out := uop c d a b (· ^^^ ·) s
/-- R125. -/
def execSnot (c : Ctl) (d a : SReg) (s : State) : Out := uopMore c d [a.val] [] (fun i => ~~~(i.s a.val)) s
/-- R125: by b mod 64. -/
def execSshl (c : Ctl) (d a : SReg) (b : USrc) (s : State) : Out := uop c d a b (shiftVal .left true) s
/-- R125. -/
def execSshr (c : Ctl) (d a : SReg) (b : USrc) (s : State) : Out := uop c d a b (shiftVal .right true) s
/-- R125. -/
def execSsar (c : Ctl) (d a : SReg) (b : USrc) (s : State) : Out := uop c d a b (shiftVal .arith true) s
/-- The lesser value, or the greater (R125). -/
def sminVal (sg mx : Bool) (x y : Dword) : Dword :=
  let less := if sg then x.slt y else x.ult y
  if less != mx then x else y
/-- R125. -/
def execSmin (c : Ctl) (sg : Bool) (d a : SReg) (b : USrc) (s : State) : Out := uop c d a b (sminVal sg false) s
/-- R125. -/
def execSmax (c : Ctl) (sg : Bool) (d a : SReg) (b : USrc) (s : State) : Out := uop c d a b (sminVal sg true) s
/-- R127: the predicate of the lowest-lane thread selects. -/
def execSsel (c : Ctl) (d a b : SReg) (p : Pred) (neg : Bool) (s : State) : Out :=
  uopMore c d [a.val, b.val] [.p p.val] (fun i => if i.p i.low p.val != neg then i.s a.val else i.s b.val) s
/-- R125. -/
def execSmov (c : Ctl) (d a : SReg) (s : State) : Out := uopMore c d [a.val] [] (fun i => i.s a.val) s
/-- R125. -/
def execSclz (c : Ctl) (d a : SReg) (s : State) : Out := uopMore c d [a.val] [] (fun i => clzVal true (i.s a.val)) s
/-- R125. -/
def execSpopc (c : Ctl) (d a : SReg) (s : State) : Out := uopMore c d [a.val] [] (fun i => popcVal true (i.s a.val)) s
/-- `sbfe` (R127). -/
def sbfeVal (sg : Bool) (x : Dword) (pos len : Nat) : Dword :=
  let k := Nat.min len (64 - pos)
  let f := x.toNat / 2 ^ pos % 2 ^ k
  if k = 0 then 0 else if sg then BitVec.ofInt 64 (intOf k true f) else BitVec.ofNat 64 f
/-- R127. -/
def execSbfe (c : Ctl) (sg : Bool) (d a : SReg) (pos : BitVec 6) (len : BitVec 7) (s : State) : Out :=
  uopMore c d [a.val] [] (fun i => sbfeVal sg (i.s a.val) pos.toNat len.toNat) s
/-- R126. -/
def execSli (c : Ctl) (d : SReg) (imm : BitVec 22) (s : State) : Out :=
  uopMore c d [] [] (fun _ => imm.signExtend 64) s
/-- R126. -/
def execSlih (c : Ctl) (d a : SReg) (imm : BitVec 22) (s : State) : Out :=
  uopMore c d [a.val] [] (fun i => (i.s a.val <<< 22) ||| imm.setWidth 64) s
/-- R128: frond-wide, latency 1. -/
def execScmp (c : Ctl) (cc : Cc) (sg : Bool) (d : Pred) (a : SReg) (b : USrc) (s : State) : Out :=
  let x (y : Dword) : Int := if sg then y.toInt else y.toNat
  exAll c (Reg.s a.val :: usRegs b) [.p d.val] d true s (fun i s =>
    i.putAll s c 1 d.val (ccInt cc (x (i.s a.val)) (x (i.us b))) (i.sBad (a.val :: usNums b)))

end Sys2Proof.Machine
end

