-- ==== Sys2Proof/Machine/VecFp.lean ====
section
/-! DEFINITION. The vector floating-point words, conversions and packing (R137 to R144). -/

namespace Sys2Proof.Machine

/-- R137, R92. -/
def execFadd (c : Ctl) (ty : VTy) (m : FMod) (d : VReg) (a b : Opnd) (s : State) : Out :=
  fvop c 4 d false [(a, false), (b, false)] (fmap2 ty m (fun f => faddOp f m.rnd m.sat)) s
/-- R137, R92. -/
def execFsub (c : Ctl) (ty : VTy) (m : FMod) (d : VReg) (a b : Opnd) (s : State) : Out :=
  fvop c 4 d false [(a, false), (b, false)] (fmap2 ty m (fun f => fsubOp f m.rnd m.sat)) s
/-- R137, R92. -/
def execFmul (c : Ctl) (ty : VTy) (m : FMod) (d : VReg) (a b : Opnd) (s : State) : Out :=
  fvop c 4 d false [(a, false), (b, false)] (fmap2 ty m (fun f => fmulOp f m.rnd m.sat)) s
/-- R137, R92: rounded once. -/
def execFfma (c : Ctl) (ty : VTy) (rnd : Rnd) (sat : Bool) (d : VReg) (a b e : Opnd) (s : State) : Out :=
  fvop c 4 d false [(a, false), (b, false), (e, false)] (fmap3 ty (fun f => ffmaOp f rnd sat)) s
/-- R93: no flags. -/
def execFmin (c : Ctl) (ty : VTy) (m : FMod) (d : VReg) (a b : Opnd) (s : State) : Out :=
  fvop c 4 d false [(a, false), (b, false)]
    (fmap2 ty m (fun f x y => { bits := fminOp f false x y, flags := 0 })) s
/-- R93: no flags. -/
def execFmax (c : Ctl) (ty : VTy) (m : FMod) (d : VReg) (a b : Opnd) (s : State) : Out :=
  fvop c 4 d false [(a, false), (b, false)]
    (fmap2 ty m (fun f x y => { bits := fminOp f true x y, flags := 0 })) s
/-- The class masks of a register (R139): element i's mask lies at bit 16i. -/
def fclassVal (ty : VTy) (a : Dword) : Dword :=
  BitVec.ofNat 64 (joinElems 16 ((elems ty a).map (fclassOp (tyFmtD ty))))
/-- R139. -/
def execFclass (c : Ctl) (ty : VTy) (d : VReg) (a : Opnd) (s : State) : Out :=
  fvop c 4 d false [(a, false)] (fun l => (fclassVal ty (src l 0), 0)) s
/-- R94: no flags. -/
def execFround (c : Ctl) (ty : VTy) (rnd : Rnd) (d : VReg) (a : Opnd) (s : State) : Out :=
  fvop c 4 d false [(a, false)] (fmap1 ty (fun f x => { bits := froundOp f rnd x, flags := 0 })) s

/-- A function of R95 of one FP32 operand; its result arrives under a token. -/
def funop (c : Ctl) (d : VReg) (a : Opnd) (f : Nat → FRes) (s : State) : Out :=
  fvop c 0 d false [(a, false)] (fmap1 .f32 (fun _ => f)) s
/-- R95. -/
def execFrcp (c : Ctl) (rnd : Rnd) (d : VReg) (a : Opnd) (s : State) : Out := funop c d a (frcpOp rnd) s
/-- R95. -/
def execFsqrt (c : Ctl) (rnd : Rnd) (d : VReg) (a : Opnd) (s : State) : Out := funop c d a (fsqrtOp rnd) s
/-- R95. -/
def execFrsq (c : Ctl) (rnd : Rnd) (d : VReg) (a : Opnd) (s : State) : Out := funop c d a (frsqOp rnd) s
/-- R95. -/
def execFexp2 (c : Ctl) (rnd : Rnd) (d : VReg) (a : Opnd) (s : State) : Out := funop c d a (fexp2Op rnd) s
/-- R95. -/
def execFlog2 (c : Ctl) (rnd : Rnd) (d : VReg) (a : Opnd) (s : State) : Out := funop c d a (flog2Op rnd) s
/-- R95. -/
def execFdiv (c : Ctl) (rnd : Rnd) (d : VReg) (a b : Opnd) (s : State) : Out :=
  fvop c 0 d false [(a, false), (b, false)]
    (fun l => ofRes .f32 [fdivOp rnd (elem 32 0 (src l 0)) (elem 32 0 (src l 1))]) s

/-- `fdot` in a lane (R140): the sum of the element products and an FP32 addend, rounded once. -/
def fdotVal (ty : VTy) (rnd : Rnd) (sat : Bool) (a b e : Dword) : FRes :=
  let f := tyFmtD ty
  dotOp fp32 rnd sat (List.zipWith (fun x y => (f.decode x, f.decode y)) (elems ty a) (elems ty b))
    (fp32.decode (elem 32 0 e))
/-- R140. -/
def execFdot (c : Ctl) (ty : VTy) (rnd : Rnd) (sat : Bool) (d : VReg) (a b e : Opnd) (s : State) : Out :=
  fvop c 6 d false [(a, false), (b, false), (e, false)]
    (fun l => ofRes .f32 [fdotVal ty rnd sat (src l 0) (src l 1) (src l 2)]) s

/-- R138: a lane with an enabled flag writes no predicate. -/
def execFcmp (c : Ctl) (cc : Cc) (m : FMod) (d : Pred) (a b : Opnd) (s : State) : Out :=
  let rd := opndRegs a false ++ opndRegs b false
  exVec c rd [.p d.val] s (fun i s =>
    let r (tid : Nat) : Bool × Bool :=
      fcmpOp cc (modA fp32 m (i.o32 tid a).toNat) (modB fp32 m (i.o32 tid b).toNat)
    i.fpDone s (fun tid => if (r tid).2 then fInvalid else 0)
      (fun tid t => t.resP i.fr.cyc 4 d.val (r tid).1 (i.bad tid rd)))

/-! ## Conversions (R141 to R144) -/

/-- The least and greatest values of an integer type. -/
def tyLo (t : VTy) : Int := if tySigned t then -2 ^ (tyW t - 1) else 0
def tyHi (t : VTy) : Int := if tySigned t then 2 ^ (tyW t - 1) - 1 else 2 ^ tyW t - 1
/-- Converts one element of a type to an element of another (R96 to R98, R141). -/
def cvtEl (src dst : VTy) (rnd : Rnd) (sat : Bool) (x : Nat) : FRes :=
  match tyFmt src, tyFmt dst with
  | some f, some g => if f = g then copyFF f x else cvtFF f g rnd sat x
  | some f, none =>
    let r := cvtFI f (tyLo dst) (tyHi dst) rnd x
    { bits := (r.1 % 2 ^ tyW dst).toNat, flags := r.2 }
  | none, some g => cvtIF g rnd sat (intOf (tyW src) (tySigned src) x)
  | none, none => { bits := intTo (tyW dst) (tySigned dst) sat (intOf (tyW src) (tySigned src) x), flags := 0 }
/-- R141: element 0 of the source; the rest of d is 0. -/
def execCvt (c : Ctl) (ty : VTy) (rnd : Rnd) (sat : Bool) (d : VReg) (a : Opnd) (dst : VTy) (s : State) : Out :=
  fvop c 4 d (tyWide dst) [(a, tyWide ty)]
    (fun l => let r := cvtEl ty dst rnd sat (elem (tyW ty) 0 (src l 0)); (BitVec.ofNat 64 r.bits, r.flags)) s

/-- The type in which a source of `pack` holds its elements (R142). -/
def packSrc : VTy → VTy
  | .e4m3 => .f16 | .i16 => .i32 | .n16 => .n32 | .i8 => .i16 | .n8 => .n16 | _ => .f32
/-- R142. -/
def execPack (c : Ctl) (ty : VTy) (rnd : Rnd) (sat : Bool) (d : VReg) (a b : Opnd) (s : State) : Out :=
  fvop c 4 d false [(a, false), (b, false)]
    (fun l => ofRes ty ((elems (packSrc ty) (src l 0) ++ elems (packSrc ty) (src l 1)).map
      (cvtEl (packSrc ty) ty rnd sat))) s

/-- One element of a packed register made 32 bits wide (R143). -/
def unpackVal (ty : VTy) (a i : Dword) : Dword :=
  let x := elem (tyW ty) (i.toNat % tyCount ty) a
  match tyFmt ty with
  | some f => BitVec.ofNat 64 (cvtFF f fp32 .rne false x).bits
  | none => (BitVec.ofInt 32 (intOf (tyW ty) (tySigned ty) x)).setWidth 64
/-- R143: no flags. -/
def execUnpack (c : Ctl) (ty : VTy) (d : VReg) (a i : Opnd) (s : State) : Out :=
  fvop c 4 d false [(a, false), (i, false)] (fun l => (unpackVal ty (src l 0) (src l 1), 0)) s

/-- `perm` in a lane (R144). -/
def permVal (a b e : Dword) : Dword :=
  let x := (lo32 b).toNat * 2 ^ 32 + (lo32 a).toNat
  let byte (j : Nat) : Nat :=
    let k := elem 4 j e
    if k ≥ 8 then 0 else x / 2 ^ (8 * k) % 256
  BitVec.ofNat 64 (joinElems 8 ((List.range 4).map byte))
/-- R144: latency 2. -/
def execPerm (c : Ctl) (d : VReg) (a b e : Opnd) (s : State) : Out :=
  vop c 2 d false [(a, false), (b, false), (e, false)] []
    (fun _ _ l => permVal (src l 0) (src l 1) (src l 2)) s

end Sys2Proof.Machine
end

