-- ==== Sys2Proof/Machine/Dispatch.lean ====
section
/-! DEFINITION. One arm for each constructor of the instruction: a direct call of its meaning. -/

namespace Sys2Proof.Machine

/-- What an instruction or event does. -/
def exec (i : Instr) (s : State) : Host.Outcome State Fault Refusal :=
  match i with
  | .clauseIssue core slot => Sys2Proof.Machine.execClauseIssue core slot s
  -- class C (R74)
  | .nop c => Sys2Proof.Machine.execNop c s
  | .bra c off => Sys2Proof.Machine.execBra c off s
  | .brx c a => Sys2Proof.Machine.execBrx c a s
  | .call c off => Sys2Proof.Machine.execCall c off s
  | .callx c a => Sys2Proof.Machine.execCallx c a s
  | .ret c => Sys2Proof.Machine.execRet c s
  | .reform c => Sys2Proof.Machine.execReform c s
  | .bjoin c => Sys2Proof.Machine.execBjoin c s
  | .exit c => Sys2Proof.Machine.execExit c s
  | .trap c n => Sys2Proof.Machine.execTrap c n s
  | .brk c => Sys2Proof.Machine.execBrk c s
  | .tret c => Sys2Proof.Machine.execTret c s
  | .yield c => Sys2Proof.Machine.execYield c s
  | .sleep c a => Sys2Proof.Machine.execSleep c a s
  | .srd c d wide num => Sys2Proof.Machine.execSrd c d wide num s
  | .swr c a wide num => Sys2Proof.Machine.execSwr c a wide num s
  -- class U (R75)
  | .sadd c d a b => Sys2Proof.Machine.execSadd c d a b s
  | .ssub c d a b => Sys2Proof.Machine.execSsub c d a b s
  | .smul c d a b => Sys2Proof.Machine.execSmul c d a b s
  | .smulh c sg d a b => Sys2Proof.Machine.execSmulh c sg d a b s
  | .smad c d a b => Sys2Proof.Machine.execSmad c d a b s
  | .sand c d a b => Sys2Proof.Machine.execSand c d a b s
  | .sor c d a b => Sys2Proof.Machine.execSor c d a b s
  | .sxor c d a b => Sys2Proof.Machine.execSxor c d a b s
  | .snot c d a => Sys2Proof.Machine.execSnot c d a s
  | .sshl c d a b => Sys2Proof.Machine.execSshl c d a b s
  | .sshr c d a b => Sys2Proof.Machine.execSshr c d a b s
  | .ssar c d a b => Sys2Proof.Machine.execSsar c d a b s
  | .smin c sg d a b => Sys2Proof.Machine.execSmin c sg d a b s
  | .smax c sg d a b => Sys2Proof.Machine.execSmax c sg d a b s
  | .ssel c d a b p neg => Sys2Proof.Machine.execSsel c d a b p neg s
  | .smov c d a => Sys2Proof.Machine.execSmov c d a s
  | .sclz c d a => Sys2Proof.Machine.execSclz c d a s
  | .spopc c d a => Sys2Proof.Machine.execSpopc c d a s
  | .sbfe c sg d a pos len => Sys2Proof.Machine.execSbfe c sg d a pos len s
  | .sli c d imm => Sys2Proof.Machine.execSli c d imm s
  | .slih c d a imm => Sys2Proof.Machine.execSlih c d a imm s
  | .scmp c cc sg d a b => Sys2Proof.Machine.execScmp c cc sg d a b s
  | .sld c sz d a imm => Sys2Proof.Machine.execSld c sz d a imm s
  | .sst c sz a imm b => Sys2Proof.Machine.execSst c sz a imm b s
  | .sldl c sz d a imm => Sys2Proof.Machine.execSldl c sz d a imm s
  -- class V, integer (R76, R130 to R136)
  | .add c ty sat d a b => Sys2Proof.Machine.execAdd c ty sat d a b s
  | .sub c ty sat d a b => Sys2Proof.Machine.execSub c ty sat d a b s
  | .mul c ty sat d a b => Sys2Proof.Machine.execMul c ty sat d a b s
  | .mulh c ty d a b => Sys2Proof.Machine.execMulh c ty d a b s
  | .mad c uns w64 sat d a b e => Sys2Proof.Machine.execMad c uns w64 sat d a b e s
  | .madw c uns d a b e => Sys2Proof.Machine.execMadw c uns d a b e s
  | .and c ty d a b => Sys2Proof.Machine.execAnd c ty d a b s
  | .or c ty d a b => Sys2Proof.Machine.execOr c ty d a b s
  | .xor c ty d a b => Sys2Proof.Machine.execXor c ty d a b s
  | .not c ty d a => Sys2Proof.Machine.execNot c ty d a s
  | .shl c ty d a b => Sys2Proof.Machine.execShl c ty d a b s
  | .shr c ty d a b => Sys2Proof.Machine.execShr c ty d a b s
  | .sar c ty d a b => Sys2Proof.Machine.execSar c ty d a b s
  | .rot c ty d a b => Sys2Proof.Machine.execRot c ty d a b s
  | .min c ty d a b => Sys2Proof.Machine.execMin c ty d a b s
  | .max c ty d a b => Sys2Proof.Machine.execMax c ty d a b s
  | .abs c ty sat d a => Sys2Proof.Machine.execAbs c ty sat d a s
  | .neg c ty sat d a => Sys2Proof.Machine.execNeg c ty sat d a s
  | .sel c w64 d a b p => Sys2Proof.Machine.execSel c w64 d a b p s
  | .mov c ty d a => Sys2Proof.Machine.execMov c ty d a s
  | .movi c d imm => Sys2Proof.Machine.execMovi c d imm s
  | .clz c ty d a => Sys2Proof.Machine.execClz c ty d a s
  | .popc c ty d a => Sys2Proof.Machine.execPopc c ty d a s
  | .brev c ty d a => Sys2Proof.Machine.execBrev c ty d a s
  | .bfe c uns w64 d a pos len => Sys2Proof.Machine.execBfe c uns w64 d a pos len s
  | .bfi c w64 d a pos len => Sys2Proof.Machine.execBfi c w64 d a pos len s
  | .addc c w64 d a b p => Sys2Proof.Machine.execAddc c w64 d a b p s
  | .cmp c cc ty d a b => Sys2Proof.Machine.execCmp c cc ty d a b s
  -- class V, floating point and conversion (R137 to R144)
  | .fadd c ty m d a b => Sys2Proof.Machine.execFadd c ty m d a b s
  | .fsub c ty m d a b => Sys2Proof.Machine.execFsub c ty m d a b s
  | .fmul c ty m d a b => Sys2Proof.Machine.execFmul c ty m d a b s
  | .ffma c ty rnd sat d a b e => Sys2Proof.Machine.execFfma c ty rnd sat d a b e s
  | .fmin c ty m d a b => Sys2Proof.Machine.execFmin c ty m d a b s
  | .fmax c ty m d a b => Sys2Proof.Machine.execFmax c ty m d a b s
  | .fclass c ty d a => Sys2Proof.Machine.execFclass c ty d a s
  | .fround c ty rnd d a => Sys2Proof.Machine.execFround c ty rnd d a s
  | .frcp c rnd d a => Sys2Proof.Machine.execFrcp c rnd d a s
  | .fsqrt c rnd d a => Sys2Proof.Machine.execFsqrt c rnd d a s
  | .frsq c rnd d a => Sys2Proof.Machine.execFrsq c rnd d a s
  | .fexp2 c rnd d a => Sys2Proof.Machine.execFexp2 c rnd d a s
  | .flog2 c rnd d a => Sys2Proof.Machine.execFlog2 c rnd d a s
  | .fdiv c rnd d a b => Sys2Proof.Machine.execFdiv c rnd d a b s
  | .fdot c ty rnd sat d a b e => Sys2Proof.Machine.execFdot c ty rnd sat d a b e s
  | .fcmp c cc m d a b => Sys2Proof.Machine.execFcmp c cc m d a b s
  | .cvt c ty rnd sat d a dst => Sys2Proof.Machine.execCvt c ty rnd sat d a dst s
  | .pack c ty rnd sat d a b => Sys2Proof.Machine.execPack c ty rnd sat d a b s
  | .unpack c ty d a x1 => Sys2Proof.Machine.execUnpack c ty d a x1 s
  | .perm c d a b e => Sys2Proof.Machine.execPerm c d a b e s
  -- class V, lane operations (R145 to R153)
  | .bal c d p => Sys2Proof.Machine.execBal c d p s
  | .vany c d p => Sys2Proof.Machine.execVany c d p s
  | .vall c d p => Sys2Proof.Machine.execVall c d p s
  | .rdfirst c w64 d a => Sys2Proof.Machine.execRdfirst c w64 d a s
  | .rdfirstChk c w64 d a p => Sys2Proof.Machine.execRdfirstChk c w64 d a p s
  | .rdlane c w64 d a x1 => Sys2Proof.Machine.execRdlane c w64 d a x1 s
  | .shfl c w64 d a b => Sys2Proof.Machine.execShfl c w64 d a b s
  | .shflx c w64 d a b => Sys2Proof.Machine.execShflx c w64 d a b s
  | .shflu c w64 d a b => Sys2Proof.Machine.execShflu c w64 d a b s
  | .shfld c w64 d a b => Sys2Proof.Machine.execShfld c w64 d a b s
  | .redx c op ty d a => Sys2Proof.Machine.execRedx c op ty d a s
  | .scanx c ty d a => Sys2Proof.Machine.execScanx c ty d a s
  | .lanes c d => Sys2Proof.Machine.execLanes c d s
  | .elect c p => Sys2Proof.Machine.execElect c p s
  -- class M (R77, R154 to R196)
  | .ld c sz ord sc d m => Sys2Proof.Machine.execLd c sz ord sc d m s
  | .ldNc c sz sc d m => Sys2Proof.Machine.execLdNc c sz sc d m s
  | .st c sz ord sc m a => Sys2Proof.Machine.execSt c sz ord sc m a s
  | .ldl c sz skew ord sc d x imm => Sys2Proof.Machine.execLdl c sz skew ord sc d x imm s
  | .stl c sz skew ord sc x imm a => Sys2Proof.Machine.execStl c sz skew ord sc x imm a s
  | .ldp c sz d x imm => Sys2Proof.Machine.execLdp c sz d x imm s
  | .stp c sz x imm a => Sys2Proof.Machine.execStp c sz x imm a s
  | .lda c d x imm => Sys2Proof.Machine.execLda c d x imm s
  | .sta c x imm a => Sys2Proof.Machine.execSta c x imm a s
  | .atom c k ord sc d m => Sys2Proof.Machine.execAtom c k ord sc d m s
  | .red c k ord sc m a => Sys2Proof.Machine.execRed c k ord sc m a s
  | .atoml c k ord sc d x imm => Sys2Proof.Machine.execAtoml c k ord sc d x imm s
  | .ptest c p x imm => Sys2Proof.Machine.execPtest c p x imm s
  | .fence c ord sc => Sys2Proof.Machine.execFence c ord sc s
  | .efence c sc => Sys2Proof.Machine.execEfence c sc s
  | .cinv c x imm b => Sys2Proof.Machine.execCinv c x imm b s
  | .cwb c x imm b => Sys2Proof.Machine.execCwb c x imm b s
  | .waitc c cc uns ord sc x cmp t => Sys2Proof.Machine.execWaitc c cc uns ord sc x cmp t s
  | .mon c x imm => Sys2Proof.Machine.execMon c x imm s
  | .mwait c ord sc t => Sys2Proof.Machine.execMwait c ord sc t s
  | .tktake c d x imm => Sys2Proof.Machine.execTktake c d x imm s
  | .tkwait c ord sc x imm t => Sys2Proof.Machine.execTkwait c ord sc x imm t s
  | .tkserve c ord sc x imm => Sys2Proof.Machine.execTkserve c ord sc x imm s
  | .binit c x1 n => Sys2Proof.Machine.execBinit c x1 n s
  | .barr c sc x1 => Sys2Proof.Machine.execBarr c sc x1 s
  | .bsync c sc x1 => Sys2Proof.Machine.execBsync c sc x1 s
  | .bwait c sc x1 k => Sys2Proof.Machine.execBwait c sc x1 k s
  | .cbar c sc slot => Sys2Proof.Machine.execCbar c sc slot s
  | .cvjoin c slot x imm n => Sys2Proof.Machine.execCvjoin c slot x imm n s
  | .cvld c d two => Sys2Proof.Machine.execCvld c d two s
  | .cvleave c => Sys2Proof.Machine.execCvleave c s
  | .stepn c => Sys2Proof.Machine.execStepn c s
  | .ldnb c d o t u => Sys2Proof.Machine.execLdnb c d o t u s
  -- class E (R79, R197 to R235)
  | .mxownTake c => Sys2Proof.Machine.execMxownTake c s
  | .mxownPass c r => Sys2Proof.Machine.execMxownPass c r s
  | .mxownRelease c => Sys2Proof.Machine.execMxownRelease c s
  | .mxload c e r bank => Sys2Proof.Machine.execMxload c e r bank s
  | .mxevict c e bank => Sys2Proof.Machine.execMxevict c e bank s
  | .mxres c e r => Sys2Proof.Machine.execMxres c e r s
  | .mma c e r => Sys2Proof.Machine.execMma c e r s
  | .mmal c e r => Sys2Proof.Machine.execMmal c e r s
  | .mxgrad c e r => Sys2Proof.Machine.execMxgrad c e r s
  | .mxzero c e first cnt => Sys2Proof.Machine.execMxzero c e first cnt s
  | .cpy c e r slice => Sys2Proof.Machine.execCpy c e r slice s
  | .cpyo c e r => Sys2Proof.Machine.execCpyo c e r s
  | .binsc c e r => Sys2Proof.Machine.execBinsc c e r s
  | .npost c e r node n => Sys2Proof.Machine.execNpost c e r node n s
  | .ltrig c e => Sys2Proof.Machine.execLtrig c e s
  | .lwait c r => Sys2Proof.Machine.execLwait c r s
  | .coll c e r => Sys2Proof.Machine.execColl c e r s
  | .cstat c e r domain => Sys2Proof.Machine.execCstat c e r domain s
  -- engine execution, completion and asynchronous causes (R200 to R231)
  | .mxownGrant core => Sys2Proof.Machine.execMxownGrant core s
  | .bankEmptying core => Sys2Proof.Machine.execBankEmptying core s
  | .mxloadExec core => Sys2Proof.Machine.execMxloadExec core s
  | .mxevictExec core => Sys2Proof.Machine.execMxevictExec core s
  | .mxresExec core => Sys2Proof.Machine.execMxresExec core s
  | .mmaExec core => Sys2Proof.Machine.execMmaExec core s
  | .mmalExec core => Sys2Proof.Machine.execMmalExec core s
  | .mxgradExec core => Sys2Proof.Machine.execMxgradExec core s
  | .mxzeroExec core => Sys2Proof.Machine.execMxzeroExec core s
  | .cpyExec core op => Sys2Proof.Machine.execCpyExec core op s
  | .cpyoExec core op => Sys2Proof.Machine.execCpyoExec core op s
  | .binscExec core op => Sys2Proof.Machine.execBinscExec core op s
  | .npostExec core op => Sys2Proof.Machine.execNpostExec core op s
  | .ltrigExec core op => Sys2Proof.Machine.execLtrigExec core op s
  | .cstatExec core op => Sys2Proof.Machine.execCstatExec core op s
  | .operationComplete core op => Sys2Proof.Machine.execOperationComplete core op s
  | .asyncCauseDelivery bid tid => Sys2Proof.Machine.execAsyncCauseDelivery bid tid s
  -- bins, waits, tickets, releases, timers (R42 to R400)
  | .reformBinDue core bin => Sys2Proof.Machine.execReformBinDue core bin s
  | .sleepWake bid tid => Sys2Proof.Machine.execSleepWake bid tid s
  | .monitorWake bid tid => Sys2Proof.Machine.execMonitorWake bid tid s
  | .monitorFallback bid tid => Sys2Proof.Machine.execMonitorFallback bid tid s
  | .waitTimeout bid tid => Sys2Proof.Machine.execWaitTimeout bid tid s
  | .tkwaitGrant bid tid => Sys2Proof.Machine.execTkwaitGrant bid tid s
  | .ticketBoost bid tid => Sys2Proof.Machine.execTicketBoost bid tid s
  | .boostExpire bid word => Sys2Proof.Machine.execBoostExpire bid word s
  | .releaseWave core => Sys2Proof.Machine.execReleaseWave core s
  | .stepnRelease bid => Sys2Proof.Machine.execStepnRelease bid s
  | .slotWriteRelease bid => Sys2Proof.Machine.execSlotWriteRelease bid s
  | .convoyDetach l cohort => Sys2Proof.Machine.execConvoyDetach l cohort s
  | .ftimerFire bid slot => Sys2Proof.Machine.execFtimerFire bid slot s
  -- blocks, launches, nodes and contexts (R34 to R340)
  | .blockDormant bid => Sys2Proof.Machine.execBlockDormant bid s
  | .blockRevive bid => Sys2Proof.Machine.execBlockRevive bid s
  | .blockRetire bid => Sys2Proof.Machine.execBlockRetire bid s
  | .launchCompletion bid => Sys2Proof.Machine.execLaunchCompletion bid s
  | .nodeWake ctx node => Sys2Proof.Machine.execNodeWake ctx node s
  | .gangFlush ctx node => Sys2Proof.Machine.execGangFlush ctx node s
  | .blockPlace l => Sys2Proof.Machine.execBlockPlace l s
  | .launchHold l => Sys2Proof.Machine.execLaunchHold l s
  | .drainStart l => Sys2Proof.Machine.execDrainStart l s
  | .contextResume ctx => Sys2Proof.Machine.execContextResume ctx s
  | .drainDeadline ctx => Sys2Proof.Machine.execDrainDeadline ctx s
  | .nodeUnfreeze ctx node => Sys2Proof.Machine.execNodeUnfreeze ctx node s
  | .ctxdEnable ctx v => Sys2Proof.Machine.execCtxdEnable ctx v s
  | .ctxdDisable ctx v => Sys2Proof.Machine.execCtxdDisable ctx v s
  | .ctxdRst ctx => Sys2Proof.Machine.execCtxdRst ctx s
  | .xinv v => Sys2Proof.Machine.execXinv v s
  | .pageFaultResponse ctx n resp => Sys2Proof.Machine.execPageFaultResponse ctx n resp s
  -- home slices, L1 and DRAM (R241 to R264)
  | .homeRead core line => Sys2Proof.Machine.execHomeRead core line s
  | .homeWrite core line => Sys2Proof.Machine.execHomeWrite core line s
  | .homeAtomic core line => Sys2Proof.Machine.execHomeAtomic core line s
  | .mergeReply line => Sys2Proof.Machine.execMergeReply line s
  | .fillReply core line => Sys2Proof.Machine.execFillReply core line s
  | .l1LineAgeOut core line => Sys2Proof.Machine.execL1LineAgeOut core line s
  | .dramScrub line => Sys2Proof.Machine.execDramScrub line s
  -- remote window, links, domains and collectives (R344 to R365)
  | .remoteRequest src tag acc => Sys2Proof.Machine.execRemoteRequest src tag acc s
  | .remoteReply tag rep => Sys2Proof.Machine.execRemoteReply tag rep s
  | .remoteTimeout tag => Sys2Proof.Machine.execRemoteTimeout tag s
  | .remoteTagExpire src tag => Sys2Proof.Machine.execRemoteTagExpire src tag s
  | .linkFail port => Sys2Proof.Machine.execLinkFail port s
  | .portRetrain port => Sys2Proof.Machine.execPortRetrain port s
  | .linkTrained port ndev nport width => Sys2Proof.Machine.execLinkTrained port ndev nport width s
  | .linkTableFlood dev version links => Sys2Proof.Machine.execLinkTableFlood dev version links s
  | .domainFormed => Sys2Proof.Machine.execDomainFormed s
  | .domctlWrite v => Sys2Proof.Machine.execDomctlWrite v s
  | .collStart core op peers => Sys2Proof.Machine.execCollStart core op peers s
  | .collChunk core op chunk below result => Sys2Proof.Machine.execCollChunk core op chunk below result s
  | .collRecompute core op marked => Sys2Proof.Machine.execCollRecompute core op marked s
  | .genHoldExpiry core op => Sys2Proof.Machine.execGenHoldExpiry core op s
  -- audit, host, registers, power, snapshots, boot and time (R389 to R403)
  | .auditCopyComplete l => Sys2Proof.Machine.execAuditCopyComplete l s
  | .hostDmaAccess off acc => Sys2Proof.Machine.execHostDmaAccess off acc s
  | .hostLinkTimeout w => Sys2Proof.Machine.execHostLinkTimeout w s
  | .registerWrite off v => Sys2Proof.Machine.execRegisterWrite off v s
  | .sratioWrite core v => Sys2Proof.Machine.execSratioWrite core v s
  | .powerThrottle die => Sys2Proof.Machine.execPowerThrottle die s
  | .attestRequest => Sys2Proof.Machine.execAttestRequest s
  | .snapshotGo v => Sys2Proof.Machine.execSnapshotGo v s
  | .snapshotTimer => Sys2Proof.Machine.execSnapshotTimer s
  | .snapinEdge => Sys2Proof.Machine.execSnapinEdge s
  | .snapshotWritten => Sys2Proof.Machine.execSnapshotWritten s
  | .deviceReset => Sys2Proof.Machine.execDeviceReset s
  | .bootStage0 valid image => Sys2Proof.Machine.execBootStage0 valid image s
  | .bootStage1 dies dram => Sys2Proof.Machine.execBootStage1 dies dram s
  | .bootStage2 valid image => Sys2Proof.Machine.execBootStage2 valid image s
  | .bootStage3 => Sys2Proof.Machine.execBootStage3 s
  | .dieLinkLoss edge => Sys2Proof.Machine.execDieLinkLoss edge s
  | .dramRecalibration stack group => Sys2Proof.Machine.execDramRecalibration stack group s
  | .ptpSync time ofs locked => Sys2Proof.Machine.execPtpSync time ofs locked s
  | .hostLinkLeavesL0 => Sys2Proof.Machine.execHostLinkLeavesL0 s
  | .hostLinkReturnsL0 => Sys2Proof.Machine.execHostLinkReturnsL0 s
  | .linkWidthRetrain port width => Sys2Proof.Machine.execLinkWidthRetrain port width s
  | .grandmasterLoss => Sys2Proof.Machine.execGrandmasterLoss s

end Sys2Proof.Machine
end

