-- ==== Sys2Proof/Machine/Place.lean ====
section
/-! DEFINITION. A clause placed where a frond issues it next: this stands for the launch of a code object from outside (the
log says how a program comes to run from reset). -/

namespace Sys2Proof.Machine

/-- Where the placed clause lies: its virtual address; the physical page that backs it; the three tables. -/
def placedVa : Nat := 0x10100
def placedTables : List (Nat × Nat) := [(0x10000, 0x20001), (0x20000, 0x30001), (0x30008, 0x40017)]
/-- The header of the code object: one thread, every feature of the part, every register. -/
def placedHdr (p : Config.Part) : CodeHdr :=
  { features := p.caps0.toNat, entry := 0x100, trap := 0, regs := 640, scratch := 4096, priv := 64, accum := 64, bx := 1, byy := 1,
    bz := 1, pslot := 0, pskew := 0, cohn := 0, codesz := 136, datasz := 0, ctoff := 0, ctn := 0 }
/-- The context in which it runs. -/
def placedCtx : Ctx := { Ctx.init with en := true, st := 1, ptroot := 0x10000, privb := 0x10000, privsz := 0x1000 }
/-- The clause in flight, when its header is valid. -/
def placedRun (w : Nat) : Option Run :=
  (Header.decode (BitVec.ofNat 64 w)).map (fun h => { tids := [0], clause := BitVec.ofNat 64 placedVa, hdr := h, pos := 1 })
/-- The block, on core 0, with its one thread in slot 0. -/
def placedBlock (p : Config.Part) (w : Nat) : Block :=
  let f := Frond.fresh [] []
  { ctx := 0, launch := 0, idx := 0, place := .resident 0, obase := 0x10000, hdr := placedHdr p, arg := 0, tile := (0, 0, 0),
    nblk := 1, prio := 0, gang := 1, pbase := 0x10000, threads := [(0, Thread.start (placedHdr p) 0x10000 0 0)],
    fronds := [(0, { f with run := placedRun w })], scr := [], scrBad := [], absent := [], acc := [], accBad := [],
    bars := [], skwbase := 0, skwrows := 0, paced := false, step := 0, published := false, coh := [], convoy := none,
    trigged := false, boosts := [], tickets := [], home := 0, lastWait := 0, saveFailed := false, saveTried := false, fin := 0,
    stas := [], late := [], rels := [] }
/-- The tables, and a clause whose header is bits 63 to 0 of a number and whose first word is bits 127 to 64. -/
def placedMem (m : List Host.Cell) (w : Nat) : List Host.Cell :=
  Memory.write (placedTables.foldl (fun m e => Memory.write m e.1 (leBytes 8 e.2)) m) 0x40100 (leBytes 136 w)
/-- A state in which the next step issues the first word of the placed clause. -/
def placeWord (s : State) (w : Nat) : State :=
  { s with mem := placedMem s.mem w, memBad := delNat s.memBad (0x40100 / 64), memErr := s.memErr.del (0x40100 / 64),
           ctxs := s.ctxs.put 0 placedCtx, blocks := s.blocks.put s.seq (placedBlock s.part w), seq := s.seq + 1,
           agenda := [{ dt := 0, gap := 0, move := .run 0 0 }] }

end Sys2Proof.Machine
end

