-- ==== Sys2Proof/Machine/Step.lean ====
section
/-! DEFINITION. One step of the machine: the turn that comes next, and what it does. -/

namespace Sys2Proof.Machine

/-- One step: the fronds that are ready are noted, time passes, then the agent whose turn it is moves. A frond fetches, decodes and executes a word, or begins a
clause; a step of another agent is executed; an input arrives. -/
def step (s : State) : Host.Outcome State Fault Refusal :=
  let t := (takeTurn s).1
  let s1 := passTime (noteReady (takeTurn s).2) t.dt
  if mayMove s1 t.move then
    match t.move with
    | .run core slot =>
      match frondMove s1 core slot t.gap with
      | .exec s2 i => exec i s2
      | .done s2 => .next s2
    | .event i => exec i s1
    | .input x => .next (takeInput s1 x)
  else .fault .deviceStopped

/-- The state with an instruction stored where the next step fetches it. -/
def State.withFetchWord (s : State) (nbits w : Nat) : State := placeWord s (w % 2 ^ nbits)

end Sys2Proof.Machine
end

