-- ==== Sys2Proof/Safety.lean ====
section
/-! DEFINITION. The terms in which the statements speak: a good state, what a word may change besides its results, a word
that is ready to execute. -/

namespace Sys2Proof.Machine

/-- The invariant of the machine's memory: it stands in its one canonical form. -/
def State.Inv (s : State) : Prop := Memory.wf s.mem = true
/-- A state whose next turn is an event of the opcode table, with no time passing before it. -/
def State.withEvent (s : State) (i : Instr) : State :=
  { s with agenda := { dt := 0, gap := 0, move := .event i } :: s.agenda }
/-- The outcome is a next state with a property. -/
def Goes (o : Out) (p : State → Prop) : Prop := ∃ t, o = .next t ∧ p t

/-! ## What every word may change

A word that ends moves its frond: the clause in flight, the slice's cycle, the PCs of the issue set, the marks of pending
results, its own token while its result is on its way, a thread that was parked for the word's acceptance. Two states with the
same bare form agree in everything else: every register, every special register, the tokens that a reply counts, statuses, each
byte of each memory, caches, queues, engines, contexts. -/

/-- The token-tracked results of a token that wait for a reply: those whose count comes down by itself are left out (R67). -/
def Thread.owed (t : Thread) (k : Nat) : Nat := t.getTok k - (t.dues.filter (fun d => d.1 == k)).length
/-- The eight tokens of a thread as `owed` counts them. -/
def Thread.owes (t : Thread) : Map Nat := (List.range 8).map (fun k => (k, t.owed k))
/-- A thread without its place in the code and its marks of pending results, past a word's acceptance. -/
def Thread.bare (t : Thread) : Thread :=
  { t with pc := 0, rslot := 0, last := false, pend := [], status := t.accepted.status, tok := t.owes, dues := [] }
/-- A frond without the clause in flight, its cycle, its marks of pending results, what it has captured of a word that waited. -/
def Frond.bare (f : Frond) : Frond := { f with run := none, cyc := 0, pend := [], ehold := none, eblk := none, took := [] }
/-- A block whose threads and fronds are bare. -/
def Block.bare (b : Block) : Block :=
  { b with threads := b.threads.mapVal (fun _ t => t.bare), fronds := b.fronds.mapVal (fun _ f => f.bare) }
/-- A state whose blocks are bare. -/
def State.bare (s : State) : State := { s with blocks := s.blocks.mapVal (fun _ b => b.bare) }

/-! ## A word that is ready -/

/-- A word as R60 and R69 see it: its common part, the registers it reads and writes, whether its guard is evaluated in the
lowest lane alone (R61). -/
structure WordForm where
  c    : Ctl
  rd   : List Reg
  wr   : List Reg
  once : Bool
  deriving DecidableEq, Repr
/-- The registers a word names, its guard among them. -/
def WordForm.regs (w : WordForm) : List Reg := Reg.p w.c.gp.val :: w.rd ++ w.wr
/-- The threads in which a word evaluates its guard. -/
def WordForm.tids (w : WordForm) (i : Issue) : List Nat := if w.once then i.run.tids.take 1 else i.run.tids
/-- The threads in which a word executes (R61, R107). -/
def WordForm.active (w : WordForm) (i : Issue) : List Nat :=
  (w.tids i).filter (fun t => ((i.thr t).map (guardOf w.c)).getD false)
/-- No result is pending on any of some registers (R69). -/
abbrev settled (now : Nat) (rs : List Reg) (l : List Pend) : Prop := ∀ p ∈ l, p.reg ∈ rs → p.out now = false
/-- A word can issue and makes no early access: an issue set holds it, it has not begun to wait for one, no result is pending on a register
it names (R69), no guard is poisoned (R387), no token counter of its token is full (R67). -/
structure Ready (w : WordForm) (s : State) (i : Issue) : Prop where
  issue   : s.issue? = some i
  here    : ∀ t ∈ i.run.tids, (i.thr t).isSome
  fresh   : i.fr.took = []
  frond   : settled i.fr.cyc w.regs i.fr.pend
  threads : ∀ e ∈ i.blk.threads, e.1 ∈ i.run.tids →
    settled i.fr.cyc w.regs e.2.pend ∧ (w.c.gp ≠ 15 → e.2.pbad.getLsbD w.c.gp.val = false)
      ∧ (w.c.set = true → e.2.getTok w.c.tok.toNat < 63)
/-- The issue of a word that is ready, with the lanes in which it executes. -/
def WordForm.issue (w : WordForm) (i : Issue) : Issue := { i with act := w.active i }

/-! ## Integer results, element by element (R82, R83, R130) -/

/-- Element `k` of a register of a type. -/
def part (ty : VTy) (k : Nat) (x : Dword) : BitVec (tyW ty) := x.extractLsb' (tyW ty * k) (tyW ty)
/-- The elements of a result are a function of those of its operands; above them the result is 0. -/
def Each1 (ty : VTy) (f : BitVec (tyW ty) → BitVec (tyW ty)) (a r : Dword) : Prop :=
  (∀ k, k < tyCount ty → part ty k r = f (part ty k a)) ∧ r.toNat < 2 ^ (tyW ty * tyCount ty)
def Each2 (ty : VTy) (f : BitVec (tyW ty) → BitVec (tyW ty) → BitVec (tyW ty)) (a b r : Dword) : Prop :=
  (∀ k, k < tyCount ty → part ty k r = f (part ty k a) (part ty k b)) ∧ r.toNat < 2 ^ (tyW ty * tyCount ty)
/-- The integer that an element of a type stands for. -/
def valueOf (ty : VTy) (x : BitVec (tyW ty)) : Int := if tySigned ty then x.toInt else x.toNat
/-- An exact integer delivered to a type: wrapped, or clamped to its range (R82). -/
def deliverInt (ty : VTy) (sat : Bool) (x : Int) : BitVec (tyW ty) :=
  let lo : Int := if tySigned ty then -2 ^ (tyW ty - 1) else 0
  let hi : Int := if tySigned ty then 2 ^ (tyW ty - 1) - 1 else 2 ^ tyW ty - 1
  BitVec.ofInt (tyW ty) (if sat then max lo (min hi x) else x)

/-! ## Words that write one vector register in each active lane -/

/-- A word with a vector destination: its form, its sources at their widths, and what its result is for their values. -/
structure LaneWord where
  form : WordForm
  d    : VReg
  wide : Bool
  srcs : List (Opnd × Bool)
  ok   : List Dword → Dword → Prop
/-- A word with given sources and no other register. -/
def laneWord (c : Ctl) (d : VReg) (wide : Bool) (srcs : List (Opnd × Bool)) (ok : List Dword → Dword → Prop) : LaneWord :=
  { form := { c := c, rd := (srcs.map (fun x => opndRegs x.1 x.2)).flatten, wr := vregs d.val (wN wide), once := false },
    d := d, wide := wide, srcs := srcs, ok := ok }
/-- The values of a word's sources in a lane (R108). -/
def LaneWord.vals (w : LaneWord) (i : Issue) (t : Nat) : List Dword := w.srcs.map (fun x => i.opnd t x.1 x.2)

/-- One, two and three sources of an integer type (R130). -/
def word1 (c : Ctl) (ty : VTy) (d : VReg) (a : Opnd) (ok : Dword → Dword → Prop) : LaneWord :=
  laneWord c d (tyWide ty) [(a, tyWide ty)] (fun l r => ok (src l 0) r)
def word2 (c : Ctl) (ty : VTy) (d : VReg) (a b : Opnd) (ok : Dword → Dword → Dword → Prop) : LaneWord :=
  laneWord c d (tyWide ty) [(a, tyWide ty), (b, tyWide ty)] (fun l r => ok (src l 0) (src l 1) r)
/-- The integer type of a V4 word (R130): `n` when m[2] is set, 64 bits when m[1] is. -/
def v4Ty (uns w64 : Bool) : VTy := if w64 then (if uns then .n64 else .i64) else if uns then .n32 else .i32
/-- A value of type `ty` in the low bits of an operand. -/
def whole (ty : VTy) (x : Dword) : BitVec (tyW ty) := x.setWidth (tyW ty)

/-- The arithmetic words on integers (R82, R130, R131). -/
def arithWord : Instr → Option LaneWord
  | .add c ty sat d a b => some (word2 c ty d a b (Each2 ty (fun x y => deliverInt ty sat (valueOf ty x + valueOf ty y))))
  | .sub c ty sat d a b => some (word2 c ty d a b (Each2 ty (fun x y => deliverInt ty sat (valueOf ty x - valueOf ty y))))
  | .mul c ty sat d a b => some (word2 c ty d a b (Each2 ty (fun x y => deliverInt ty sat (valueOf ty x * valueOf ty y))))
  | .mulh c ty d a b =>
    some (word2 c ty d a b (Each2 ty (fun x y => deliverInt ty false (valueOf ty x * valueOf ty y / 2 ^ tyW ty))))
  | .min c ty d a b => some (word2 c ty d a b (Each2 ty (fun x y => if valueOf ty x ≤ valueOf ty y then x else y)))
  | .max c ty d a b => some (word2 c ty d a b (Each2 ty (fun x y => if valueOf ty x ≤ valueOf ty y then y else x)))
  | .abs c ty sat d a => some (word1 c ty d a (Each1 ty (fun x => deliverInt ty sat ((valueOf ty x).natAbs : Int))))
  | .neg c ty sat d a => some (word1 c ty d a (Each1 ty (fun x => deliverInt ty sat (-(valueOf ty x)))))
  | .mad c uns w64 sat d a b e =>
    let ty := v4Ty uns w64
    some (laneWord c d w64 [(a, w64), (b, w64), (e, w64)] (fun l r =>
      r = (deliverInt ty sat (valueOf ty (whole ty (src l 0)) * valueOf ty (whole ty (src l 1))
        + valueOf ty (whole ty (src l 2)))).setWidth 64))
  | .madw c uns d a b e =>
    some (laneWord c d true [(a, false), (b, false), (e, true)] (fun l r =>
      let x (y : Dword) : Dword := if uns then (lo32 y).setWidth 64 else (lo32 y).signExtend 64
      r = x (src l 0) * x (src l 1) + src l 2))
  | _ => none

/-- The low W bits of an operand, W = 32 or 64. -/
def opW (w64 : Bool) (x : Dword) : BitVec (widthOf w64) := x.setWidth (widthOf w64)
/-- The field of `bfe` and `bfi`: its place p and its length k (R134). -/
def fieldAt (w64 : Bool) (pos len : Dword) : Nat × Nat :=
  let p := pos.toNat % widthOf w64
  (p, Nat.min (len.toNat % 128) (widthOf w64 - p))
/-- The bitwise words, moves, counts and fields (R130, R132, R134). -/
def bitWord : Instr → Option LaneWord
  | .and c ty d a b => some (word2 c ty d a b (fun x y r => ∀ j, j < 64 → r.getLsbD j = (x.getLsbD j && y.getLsbD j)))
  | .or c ty d a b => some (word2 c ty d a b (fun x y r => ∀ j, j < 64 → r.getLsbD j = (x.getLsbD j || y.getLsbD j)))
  | .xor c ty d a b => some (word2 c ty d a b (fun x y r => ∀ j, j < 64 → r.getLsbD j = (x.getLsbD j != y.getLsbD j)))
  | .not c ty d a => some (word1 c ty d a (fun x r =>
      ∀ j, j < 64 → r.getLsbD j = (decide (j < widthOf (tyWide ty)) && !x.getLsbD j)))
  | .shl c ty d a b => some (word2 c ty d a b (fun x y r =>
      r = (opW (tyWide ty) x <<< (y.toNat % widthOf (tyWide ty))).setWidth 64))
  | .shr c ty d a b => some (word2 c ty d a b (fun x y r =>
      r = (opW (tyWide ty) x >>> (y.toNat % widthOf (tyWide ty))).setWidth 64))
  | .sar c ty d a b => some (word2 c ty d a b (fun x y r =>
      r = ((opW (tyWide ty) x).sshiftRight (y.toNat % widthOf (tyWide ty))).setWidth 64))
  | .rot c ty d a b => some (word2 c ty d a b (fun x y r =>
      r = ((opW (tyWide ty) x).rotateLeft (y.toNat % widthOf (tyWide ty))).setWidth 64))
  | .mov c ty d a => some (word1 c ty d a (fun x r => r = x))
  | .movi c d imm => some (laneWord c d false [] (fun _ r => r = (imm.signExtend 32).setWidth 64))
  | .clz c ty d a => some (word1 c ty d a (fun x r =>
      let w := widthOf (tyWide ty)
      r.toNat ≤ w ∧ (∀ j, w - r.toNat ≤ j → j < w → x.getLsbD j = false)
        ∧ (r.toNat < w → x.getLsbD (w - 1 - r.toNat) = true)))
  | .popc c ty d a => some (word1 c ty d a (fun x r =>
      r.toNat = ((List.range (widthOf (tyWide ty))).filter (fun j => x.getLsbD j)).length))
  | .brev c ty d a => some (word1 c ty d a (fun x r =>
      ∀ j, j < 64 → r.getLsbD j = (decide (j < widthOf (tyWide ty)) && x.getLsbD (widthOf (tyWide ty) - 1 - j))))
  | .bfe c uns w64 d a pos len =>
    some (laneWord c d w64 [(a, w64), (pos, false), (len, false)] (fun l r =>
      let f := fieldAt w64 (src l 1) (src l 2)
      ∀ j, j < 64 → r.getLsbD j = (decide (j < widthOf w64) &&
        (if j < f.2 then (src l 0).getLsbD (f.1 + j)
         else !uns && decide (f.2 ≠ 0) && (src l 0).getLsbD (f.1 + f.2 - 1)))))
  | .bfi c w64 d a pos len =>
    some (laneWord c d w64 [(.v d, w64), (a, w64), (pos, false), (len, false)] (fun l r =>
      let f := fieldAt w64 (src l 2) (src l 3)
      ∀ j, j < 64 → r.getLsbD j = (decide (j < widthOf w64) &&
        (if f.1 ≤ j ∧ j < f.1 + f.2 then (src l 1).getLsbD (j - f.1) else (src l 0).getLsbD j))))
  | .perm c d a b e =>
    some (laneWord c d false [(a, false), (b, false), (e, false)] (fun l r =>
      r.toNat < 2 ^ 32 ∧ ∀ j, j < 4 → (r.extractLsb' (8 * j) 8 : Byte) =
        if (src l 2).getLsbD (4 * j + 3) then 0
        else
          let k := ((src l 2).extractLsb' (4 * j) 3).toNat
          if k < 4 then (src l 0).extractLsb' (8 * k) 8 else (src l 1).extractLsb' (8 * (k - 4)) 8))
  | _ => none

/-- A ready word does to the bare state what `eff` says of its issue. -/
def does (x : Instr) (w : WordForm) (eff : Issue → State → State) : Prop :=
  ∀ s i, Ready w s i → Goes (exec x s) (fun u => u.bare = (eff (w.issue i) s).bare)
/-- What a lane word writes: a value that its relation allows in each active lane, poisoned where a source is (R386). -/
def LaneWord.does (w : LaneWord) (x : Instr) : Prop :=
  ∀ s i, Ready w.form s i → ∃ r : Nat → Dword, (∀ t ∈ w.form.active i, w.ok (w.vals i t) (r t)) ∧
    Goes (exec x s) (fun u => u.bare =
      (s.updThreads i.bid (w.form.active i) (fun t y => y.putVW w.d.val w.wide (r t) (i.bad t w.form.rd))).bare)
/-- A vector, memory or control word with given registers. -/
def vform (c : Ctl) (rd wr : List Reg) : WordForm := { c := c, rd := rd, wr := wr, once := false }
/-- A uniform or engine word with given registers. -/
def uform (c : Ctl) (rd wr : List Reg) : WordForm := { c := c, rd := rd, wr := wr, once := true }

/-! ## Floating-point words (R83, R86 to R98, R137 to R143) -/

/-- A floating-point word with a vector destination: its result and flags for the values of its sources. -/
structure FpWord where
  c    : Ctl
  d    : VReg
  wide : Bool
  srcs : List (Opnd × Bool)
  val  : List Dword → Dword × Nat
/-- Its form. -/
def FpWord.form (w : FpWord) : WordForm :=
  vform w.c ((w.srcs.map (fun x => opndRegs x.1 x.2)).flatten) (vregs w.d.val (wN w.wide))
/-- Its result and flags in a lane. -/
def FpWord.inLane (w : FpWord) (i : Issue) (t : Nat) : Dword × Nat := w.val (w.srcs.map (fun x => i.opnd t x.1 x.2))
/-- A word with 32-bit sources and a 32-bit result. -/
def fpw (c : Ctl) (d : VReg) (srcs : List Opnd) (val : List Dword → Dword × Nat) : FpWord :=
  { c := c, d := d, wide := false, srcs := srcs.map (fun x => (x, false)), val := val }
/-- The floating-point words with a vector destination. -/
def fpWord : Instr → Option FpWord
  | .fadd c ty m d a b => some (fpw c d [a, b] (fmap2 ty m (fun f => faddOp f m.rnd m.sat)))
  | .fsub c ty m d a b => some (fpw c d [a, b] (fmap2 ty m (fun f => fsubOp f m.rnd m.sat)))
  | .fmul c ty m d a b => some (fpw c d [a, b] (fmap2 ty m (fun f => fmulOp f m.rnd m.sat)))
  | .ffma c ty rnd sat d a b e => some (fpw c d [a, b, e] (fmap3 ty (fun f => ffmaOp f rnd sat)))
  | .fmin c ty m d a b => some (fpw c d [a, b] (fmap2 ty m (fun f x y => { bits := fminOp f false x y, flags := 0 })))
  | .fmax c ty m d a b => some (fpw c d [a, b] (fmap2 ty m (fun f x y => { bits := fminOp f true x y, flags := 0 })))
  | .fclass c ty d a => some (fpw c d [a] (fun l => (fclassVal ty (src l 0), 0)))
  | .fround c ty rnd d a => some (fpw c d [a] (fmap1 ty (fun f x => { bits := froundOp f rnd x, flags := 0 })))
  | .frcp c rnd d a => some (fpw c d [a] (fmap1 .f32 (fun _ => frcpOp rnd)))
  | .fsqrt c rnd d a => some (fpw c d [a] (fmap1 .f32 (fun _ => fsqrtOp rnd)))
  | .frsq c rnd d a => some (fpw c d [a] (fmap1 .f32 (fun _ => frsqOp rnd)))
  | .fexp2 c rnd d a => some (fpw c d [a] (fmap1 .f32 (fun _ => fexp2Op rnd)))
  | .flog2 c rnd d a => some (fpw c d [a] (fmap1 .f32 (fun _ => flog2Op rnd)))
  | .fdiv c rnd d a b =>
    some (fpw c d [a, b] (fun l => ofRes .f32 [fdivOp rnd (elem 32 0 (src l 0)) (elem 32 0 (src l 1))]))
  | .fdot c ty rnd sat d a b e =>
    some (fpw c d [a, b, e] (fun l => ofRes .f32 [fdotVal ty rnd sat (src l 0) (src l 1) (src l 2)]))
  | .cvt c ty rnd sat d a dst =>
    some { c := c, d := d, wide := tyWide dst, srcs := [(a, tyWide ty)], val := fun l =>
      let r := cvtEl ty dst rnd sat (elem (tyW ty) 0 (src l 0)); (BitVec.ofNat 64 r.bits, r.flags) }
  | .pack c ty rnd sat d a b =>
    some (fpw c d [a, b] (fun l => ofRes ty ((elems (packSrc ty) (src l 0) ++ elems (packSrc ty) (src l 1)).map
      (cvtEl (packSrc ty) ty rnd sat))))
  | .unpack c ty d a x1 => some (fpw c d [a, x1] (fun l => (unpackVal ty (src l 0) (src l 1), 0)))
  | _ => none

/-! ## Lane operations (R145 to R153) -/

/-- The member of a frond at a lane that has not exited (R145). -/
def memberAt (i : Issue) (k : Nat) : Option (Nat × Thread) := (i.blk.liveMembers i.slot).find? (fun e => e.2.lane == k)
/-- A source lane's value: 0 where the lane holds no member. -/
def fromLane (i : Issue) (k : Nat) (a : Opnd) (wide : Bool) : Dword :=
  match memberAt i k with
  | some e => i.opnd e.1 a wide
  | none => 0
/-- Whether a source is poisoned in a lane. -/
def badLane (i : Issue) (k : Nat) (a : Opnd) (wide : Bool) : Bool :=
  match memberAt i k with
  | some e => i.bad e.1 (opndRegs a wide)
  | none => false
/-- The members of the frond that have not exited: what a frond-wide write reaches (R109). -/
def everyone (i : Issue) : List Nat := (i.blk.liveMembers i.slot).map (·.1)
/-- No result is pending on some registers in any member of the frond. -/
abbrev noPend (i : Issue) (rs : List Reg) : Prop :=
  ∀ e ∈ i.blk.threads, e.1 ∈ everyone i → settled i.fr.cyc rs e.2.pend
/-- A value of a type in 64 bits, sign-extended for signed types (R145). -/
def extS (ty : VTy) (x : BitVec (tyW ty)) : Dword := if tySigned ty then x.signExtend 64 else x.setWidth 64
/-- What an integer reduction delivers for its lanes' values (R151). -/
def reduced (op : ROp) (ty : VTy) (xs : List Dword) (r : Dword) : Prop :=
  match op with
  | .add => r = extS ty (deliverInt ty false ((xs.map (fun x => valueOf ty (whole ty x))).sum))
  | .min => ∃ x ∈ xs, r = extS ty (whole ty x) ∧ ∀ y ∈ xs, valueOf ty (whole ty x) ≤ valueOf ty (whole ty y)
  | .max => ∃ x ∈ xs, r = extS ty (whole ty x) ∧ ∀ y ∈ xs, valueOf ty (whole ty y) ≤ valueOf ty (whole ty x)
  | .and => ∃ x : BitVec (tyW ty), r = extS ty x ∧ ∀ j, j < tyW ty → x.getLsbD j = xs.all (fun y => y.getLsbD j)
  | .or => ∃ x : BitVec (tyW ty), r = extS ty x ∧ ∀ j, j < tyW ty → x.getLsbD j = xs.any (fun y => y.getLsbD j)
/-- The active lanes up to a lane. -/
def upTo (i : Issue) (t : Nat) : List Nat := i.act.filter (fun u => decide (i.lane u ≤ i.lane t))

/-! ## Uniform words (R124 to R127) -/

/-- A uniform word with an s-register destination: the s-registers it reads, the others, its result. -/
structure UWord where
  c    : Ctl
  d    : SReg
  rd   : List Nat
  more : List Reg
  val  : Issue → Dword
/-- Its form. -/
def UWord.form (w : UWord) : WordForm := uform w.c (w.rd.map Reg.s ++ w.more) [.s w.d.val]
/-- Two sources, the second a register or a constant (R124). -/
def uw2 (c : Ctl) (d a : SReg) (b : USrc) (f : Dword → Dword → Dword) : UWord :=
  { c := c, d := d, rd := a.val :: usNums b, more := [], val := fun i => f (i.s a.val) (i.us b) }
/-- One source. -/
def uw1 (c : Ctl) (d a : SReg) (f : Dword → Dword) : UWord :=
  { c := c, d := d, rd := [a.val], more := [], val := fun i => f (i.s a.val) }
/-- A number as a 64-bit value, signed or not. -/
def num64 (sg : Bool) (x : Dword) : Int := if sg then x.toInt else x.toNat
/-- The uniform words with an s-register destination and no memory access. -/
def uWord : Instr → Option UWord
  | .sadd c d a b => some (uw2 c d a b (fun x y => BitVec.ofNat 64 (x.toNat + y.toNat)))
  | .ssub c d a b => some (uw2 c d a b (fun x y => BitVec.ofInt 64 ((x.toNat : Int) - y.toNat)))
  | .smul c d a b => some (uw2 c d a b (fun x y => BitVec.ofNat 64 (x.toNat * y.toNat)))
  | .smulh c sg d a b => some (uw2 c d a b (fun x y => BitVec.ofInt 64 (num64 sg x * num64 sg y / 2 ^ 64)))
  | .smad c d a b =>
    some { c := c, d := d, rd := d.val :: a.val :: usNums b, more := [],
           val := fun i => BitVec.ofNat 64 ((i.s a.val).toNat * (i.us b).toNat + (i.s d.val).toNat) }
  | .sand c d a b => some (uw2 c d a b (fun x y => x &&& y))
  | .sor c d a b => some (uw2 c d a b (fun x y => x ||| y))
  | .sxor c d a b => some (uw2 c d a b (fun x y => x ^^^ y))
  | .snot c d a => some (uw1 c d a (fun x => ~~~x))
  | .sshl c d a b => some (uw2 c d a b (fun x y => x <<< (y.toNat % 64)))
  | .sshr c d a b => some (uw2 c d a b (fun x y => x >>> (y.toNat % 64)))
  | .ssar c d a b => some (uw2 c d a b (fun x y => x.sshiftRight (y.toNat % 64)))
  | .smin c sg d a b => some (uw2 c d a b (fun x y => if num64 sg x ≤ num64 sg y then x else y))
  | .smax c sg d a b => some (uw2 c d a b (fun x y => if num64 sg x ≤ num64 sg y then y else x))
  | .ssel c d a b p neg =>
    some { c := c, d := d, rd := [a.val, b.val], more := [.p p.val],
           val := fun i => if i.p i.low p.val != neg then i.s a.val else i.s b.val }
  | .smov c d a => some (uw1 c d a id)
  | .sclz c d a => some (uw1 c d a (fun x => BitVec.ofNat 64 (64 - bitLen x.toNat)))
  | .spopc c d a => some (uw1 c d a (fun x => BitVec.ofNat 64 ((List.range 64).filter (fun j => x.getLsbD j)).length))
  | .sbfe c sg d a pos len =>
    some (uw1 c d a (fun x =>
      let k := Nat.min len.toNat (64 - pos.toNat)
      if k = 0 then 0 else if sg then (x.extractLsb' pos.toNat k).signExtend 64 else (x.extractLsb' pos.toNat k).setWidth 64))
  | .sli c d imm => some { c := c, d := d, rd := [], more := [], val := fun _ => imm.signExtend 64 }
  | .slih c d a imm => some (uw1 c d a (fun x => x <<< 22 ||| imm.setWidth 64))
  | _ => none

/-! ## Words with conditions, and where a clause goes on -/

/-- A ready word that meets a condition does to the bare state what `eff` says. -/
def doesIf (x : Instr) (w : WordForm) (pre : State → Issue → Prop) (eff : Issue → State → State) : Prop :=
  ∀ s i, Ready w s i → pre s (w.issue i) → Goes (exec x s) (fun u => u.bare = (eff (w.issue i) s).bare)
/-- The word that issues is the last of its clause. -/
abbrev Issue.atEnd (i : Issue) : Prop := i.run.hdr.cnt.toNat < i.run.pos
/-- The clause has ended: each thread that was still in it continues at its target, or at the next clause, with resume
slot 0 (R28, R107). -/
def goesTo (i : Issue) (tgt : Nat → Option Dword) (u : State) : Prop :=
  (∀ b f, u.block i.bid = some b → b.fronds.get? i.slot = some f → f.run = none) ∧
  ∀ t ∈ i.run.tids, ∀ y, u.thread i.bid t = some y → y.pc = (tgt t).getD i.next ∧ y.rslot = 0 ∧ y.last = false
/-- The clause goes on with its next word, `stall` + 1 cycles later (R58, R66); no thread's PC has moved. -/
def goesOn (i : Issue) (c : Ctl) (s u : State) : Prop :=
  (∀ b f, u.block i.bid = some b → b.fronds.get? i.slot = some f →
    f.run = some { i.run with pos := i.run.pos + 1 } ∧ f.cyc = i.fr.cyc + c.stall.toNat + 1) ∧
  ∀ t y, s.thread i.bid t = some y → ∃ z, u.thread i.bid t = some z ∧ z.pc = y.pc ∧ z.rslot = y.rslot
/-- No poisoned register is used as an address, target or condition in an active lane (R387). -/
abbrev Issue.clean (i : Issue) (rs : List Reg) : Prop := ∀ t ∈ i.act, i.bad t rs = false
/-- No earlier acquire, and for a release no earlier access, holds the word (R157). -/
abbrev calm (o : Ord) (sc : Scope) (s : State) (i : Issue) : Prop := i.held s i.act o sc = false
/-- A scratchpad access of `n` bytes at an offset is in bounds, aligned, and reaches present lines only (R162). -/
abbrev scrOk (b : Block) (skew : Bool) (o : Int) (n : Nat) : Prop :=
  0 ≤ o ∧ o + n ≤ b.alloc ∧ o.toNat % n = 0 ∧
    ∀ a ∈ b.scrAddrs skew o.toNat n, a < b.alloc ∧ b.absent.contains (a / 64) = false
/-- The walks of a word's accesses have read their lines (R377). -/
abbrev Issue.walk (i : Issue) (s : State) (vas : List Dword) (a : Acc) : State := (walkAll s i.core i.blk.ctx vas a).getD s
/-- The home slices have room for them (R245). -/
abbrev Issue.mayWalk (i : Issue) (s : State) (vas : List Dword) (a : Acc) : Prop := (walkAll s i.core i.blk.ctx vas a).isSome = true
/-- The translation that an access uses is cached (R379). -/
abbrev Issue.cached (i : Issue) (s : State) (va : Dword) (wr : Bool) : State :=
  tlbFill s i.core i.blk.ctx ((i.accessVa s va wr).getD 0).toNat
/-- The pieces of the private accesses of a word's lanes, by their addresses (R258). -/
abbrev Issue.privVas (i : Issue) (p : Nat → Int) (n : Nat) : List Dword :=
  i.act.flatMap (fun t => (privPieces (p t).toNat n).map (fun q => i.blk.privVa t q.1))
/-- A trap of lanes at the word that issues (R80). -/
abbrev Issue.trap (i : Issue) (s : State) (l : List Nat) (c : Nat → Cause) : State :=
  takeTrap s i.bid i.slot (l.map (fun t => { tid := t, causes := [c t], epc := i.run.clause, eslot := i.run.pos }))
/-- The effects of a word's lanes, one after the other in ascending lane order (R160). -/
def eachLane (i : Issue) (s : State) (f : State → Nat → State) : State := i.act.foldl f s

/-- A global memory word as its checks see it: its form, its address and width, how it uses it, what a lane's access meets. -/
structure GWord where
  form : WordForm
  m    : MAddr
  n    : Nat
  use  : Use
  fate : State → Issue → Dword → Fate
/-- A load or store of a size. -/
def szWord (c : Ctl) (m : MAddr) (sz : Sz) (use : Use) (data : List Reg) (wr : List Reg) : GWord :=
  { form := vform c (addrRegs m ++ data) wr, m := m, n := szBytes sz, use := use,
    fate := fun s i va => globalFate s i va (szBytes sz) (szBytes sz) use }
/-- An atomic or reduction. -/
def aopWord (c : Ctl) (m : MAddr) (k : AOp) (data : List Reg) (wr : List Reg) : GWord :=
  { form := vform c (addrRegs m ++ data) wr, m := m, n := aopBytes k, use := .atomic, fate := fun s i va => atomFate s i k va }
/-- The global memory words (R161, R166, R168). -/
def gWord : Instr → Option GWord
  | .ld c sz _ _ d m => some (szWord c m sz .load [] (szRegs d.val sz))
  | .ldNc c sz _ d m => some (szWord c m sz .load [] (szRegs d.val sz))
  | .st c sz _ _ m a => some (szWord c m sz .store (dataRegs a sz) [])
  | .atom c k _ _ d m => some (aopWord c m k (atomRegs k d.val) (szRegs d.val (aopSz k)))
  | .red c k _ _ m a => some (aopWord c m k (opndRegs a (aopWide k)) [])
  | _ => none
/-- How an access of a use is checked. -/
def Use.acc (u : Use) : Acc := if u = .load then .read else .write
/-- The addresses that the accesses of its lanes translate. -/
def GWord.vas (w : GWord) (s : State) (i : Issue) : List Dword := i.walkVas s i.act (fun t => i.addr t w.m) w.n w.use
/-- The state in which they are made: the walks have read their lines. -/
abbrev GWord.walked (w : GWord) (s : State) (i : Issue) : State := i.walk s (w.vas s i) w.use.acc
/-- It reaches its checks: no poisoned address, nothing that holds it, room for its walks. -/
abbrev GWord.checks (w : GWord) (s : State) (i : Issue) : Prop :=
  i.clean (addrRegs w.m) ∧ calm .rlx .none s i ∧ i.mayWalk s (w.vas s i) w.use.acc

/-! ## Engine words (R197 to R235) -/

/-- An engine word that starts an operation: its opcode, the s-register that holds its parameter offset with the bytes it
covers, whether they are read and which of their words count, and the verdict of its checks. -/
structure EWord where
  c       : Ctl
  e       : ECtl
  opc     : Nat
  reg     : Option SReg
  n       : Nat
  reads   : Bool
  used    : List Word → Nat → Bool
  verdict : Issue → Nat → List Word → Verdict
/-- Its form. -/
def EWord.form (w : EWord) : WordForm := uform w.c ((w.reg.map (fun r => Reg.s r.val)).toList) []
/-- The scratchpad offset of its parameters, 0 for a word without. -/
def EWord.off (w : EWord) (i : Issue) : Nat := (w.reg.map (fun r => (lo32 (i.s r.val)).toNat)).getD 0
/-- The words that it reads there. -/
def EWord.words (w : EWord) (i : Issue) : List Word := if w.reads then i.blk.scrWords (w.off i) w.n else []
/-- Its parameters can be read: no poison, inside the allocation and aligned, present (R198). -/
def EWord.sound (w : EWord) (i : Issue) : Prop :=
  match w.reg with
  | none => True
  | some r => i.sBad [r.val] = false ∧ i.blk.badArea (w.off i) w.n = false ∧
      (w.reads = true → i.blk.absentIn ((List.range w.n).map (· + w.off i)) = none ∧
        i.blk.parmBad (w.off i) w.n (w.used (w.words i)) = false)
/-- A word without parameters, one whose parameters are read when it executes, one that reads them as it is accepted. -/
def eBare (c : Ctl) (e : ECtl) (opc : Nat) (v : Issue → Verdict) : EWord :=
  { c := c, e := e, opc := opc, reg := none, n := 0, reads := false, used := allUsed, verdict := fun i _ _ => v i }
def eLate (c : Ctl) (e : ECtl) (opc : Nat) (r : SReg) (n : Nat) (v : Issue → Verdict) : EWord :=
  { c := c, e := e, opc := opc, reg := some r, n := n, reads := false, used := allUsed, verdict := fun i _ _ => v i }
def eNow (c : Ctl) (e : ECtl) (opc : Nat) (r : SReg) (n : Nat) (used : List Word → Nat → Bool)
    (v : Issue → Nat → List Word → Verdict) : EWord :=
  { c := c, e := e, opc := opc, reg := some r, n := n, reads := true, used := used, verdict := v }
/-- The engine words that start an operation, but for `coll`. -/
def engineWord : Instr → Option EWord
  | .mxload c e r bank =>
    some (eLate c e 0x01 r 64 (fun i => judge [(barAll i e, 6)] { Plan.of (.mxload bank.toNat) [] with owned := true }))
  | .mxevict c e bank =>
    some (eBare c e 0x02 (fun i => judge [(barAll i e, 6)] { Plan.of (.mxevict bank.toNat) [] with owned := true }))
  | .mxres c e r => some (eLate c e 0x03 r 128 (fun i => judge [(barAll i e, 6)] (Plan.of .mxres [])))
  | .mma c e r => some (eNow c e 0x04 r 128 mmaUsed (mmaVerdict .mma false e))
  | .mmal c e r => some (eNow c e 0x05 r 128 mmaUsed (mmaVerdict .mmal true e))
  | .mxgrad c e r => some (eNow c e 0x06 r 128 gradUsed (gradVerdict e))
  | .mxzero c e first cnt =>
    some (eBare c e 0x07 (fun i =>
      judge [(decide (i.blk.accRows < first.toNat + (cnt.toNat + 1)), 4), (barAll i e, 6)]
        { Plan.of (.mxzero first.toNat (cnt.toNat + 1)) [] with rows := (first.toNat, cnt.toNat + 1) }))
  | .cpy c e r slice => some (eNow c e 0x10 r 64 allUsed (cpyVerdict e slice))
  | .cpyo c e r => some (eNow c e 0x11 r 64 allUsed (cpyoVerdict e))
  | .binsc c e r => some (eNow c e 0x12 r 128 binUsed (binVerdict e))
  | .npost c e r node n =>
    some (eLate c e 0x20 r (64 * (n.toNat + 1)) (fun i =>
      judge [(barAll i e, 6)] (Plan.of (.npost node.toNat (n.toNat + 1)) [])))
  | .ltrig c e => some (eBare c e 0x21 (fun i => judge [(barAll i e, 6)] (Plan.of .ltrig [])))
  | .cstat c e r domain =>
    some (eLate c e 0x31 r 64 (fun i => judge [(barAll i e, 6)] (Plan.of (.cstat domain.toNat) [])))
  | _ => none

end Sys2Proof.Machine
end

