-- ==== Sys2Proof/Certificates/Slice0/Obligations.lean ====
section
/-! DEFINITION. The statements for the provers. Each docstring names the rules of spec/ that its statement follows. -/

open Sys2Proof Sys2Proof.Machine

/-! ## Words that compute -/

/-- R82, R107, R108, R130, R131: an arithmetic word on integers writes, in each active lane, the exact result of its
sources delivered to its type, each element by itself, and changes nothing else but its frond's place in the clause. -/
def Obligations.ArithmeticWords : Prop := ∀ x w, arithWord x = some w → w.does x
/-- R130, R132, R134, R144: the bitwise words, shifts, moves, counts, fields and `perm`, bit by bit. -/
def Obligations.BitWords : Prop := ∀ x w, bitWord x = some w → w.does x

/-- R133: `sel` picks by each lane's own predicate. R135: `addc` delivers the sum and its carry. R136: `cmp` compares two
numbers. A write to p15 is discarded (R15), and p15 as a carry in is 1. -/
def Obligations.PredicateWords : Prop :=
  (∀ c w64 d a b p, does (.sel c w64 d a b p)
    (vform c (opndRegs a w64 ++ opndRegs b w64 ++ [.p p.val]) (vregs d.val (wN w64)))
    (fun i s => s.updThreads i.bid i.act (fun t y =>
      y.putVW d.val w64 (if i.p t p.val then i.opnd t a w64 else i.opnd t b w64)
        (i.bad t (opndRegs a w64 ++ opndRegs b w64 ++ [.p p.val])))))
  ∧ (∀ c w64 d a b p, does (.addc c w64 d a b p)
      (vform c (opndRegs a w64 ++ opndRegs b w64 ++ [.p p.val]) (.p p.val :: vregs d.val (wN w64)))
      (fun i s => s.updThreads i.bid i.act (fun t y =>
        let n := (opW w64 (i.opnd t a w64)).toNat + (opW w64 (i.opnd t b w64)).toNat + (if i.p t p.val then 1 else 0)
        let bad := i.bad t (opndRegs a w64 ++ opndRegs b w64 ++ [.p p.val])
        let z := y.putVW d.val w64 ((BitVec.ofNat (widthOf w64) n).setWidth 64) bad
        if p.val = 15 then z else z.putP p.val (decide (2 ^ widthOf w64 ≤ n)) bad)))
  ∧ (∀ c cc ty d a b, ty.int = true → does (.cmp c cc ty d a b)
      (vform c (opndRegs a (tyWide ty) ++ opndRegs b (tyWide ty)) [.p d.val])
      (fun i s => s.updThreads i.bid i.act (fun t y =>
        let x := valueOf ty (whole ty (i.opnd t a (tyWide ty)))
        let z := valueOf ty (whole ty (i.opnd t b (tyWide ty)))
        if d.val = 15 then y
        else y.putP d.val (ccInt cc x z) (i.bad t (opndRegs a (tyWide ty) ++ opndRegs b (tyWide ty))))))

/-- R72, R83, R91: a floating-point word whose flags no active lane enables writes its result and ORs its flags into
FPFLAGS in each active lane. The values are those of R86 to R98 and R137 to R143. R93, R138: `fcmp` writes its
predicate in each active lane; an ordered comparison with a NaN raises invalid. Log entries 7, 45 and 54 are the
model's own choices here. -/
def Obligations.FloatingWords : Prop :=
  (∀ x w, fpWord x = some w → ∀ s i, Ready w.form s i →
    (∀ t ∈ w.form.active i, ∀ y, i.thr t = some y → y.enables (w.inLane i t).2 = false) →
    Goes (exec x s) (fun u => u.bare = (s.updThreads i.bid (w.form.active i) (fun t y =>
      (y.flag (w.inLane i t).2).putVW w.d.val w.wide (w.inLane i t).1 (i.bad t w.form.rd))).bare))
  ∧ (∀ c cc m d a b s (i : Issue),
      let w := vform c (opndRegs a false ++ opndRegs b false) [.p d.val]
      let r (t : Nat) := fcmpOp cc (modA fp32 m (i.o32 t a).toNat) (modB fp32 m (i.o32 t b).toNat)
      Ready w s i →
      (∀ t ∈ w.active i, ∀ y, i.thr t = some y → y.enables (if (r t).2 then fInvalid else 0) = false) →
      Goes (exec (.fcmp c cc m d a b) s) (fun u => u.bare = (s.updThreads i.bid (w.active i) (fun t y =>
        (y.flag (if (r t).2 then fInvalid else 0)).putP d.val (r t).1 (i.bad t w.rd))).bare))

/-- R72, R91, R366, R368: a lane in which a floating-point word raises a flag that its FCTL enables writes no result and
takes the trap FPX, with the flags in EINFO; the others go on. R138, R152: so do `fcmp` and `scanx.f32`. R151: a flag of
`redx.f32` that any active lane enables traps every one of them, and nothing is written. Log entries 7, 45 and 54 are the
model's own choices here. -/
def Obligations.FloatingTrap : Prop :=
  (∀ x w, fpWord x = some w → ∀ s i, Ready w.form s i →
    Goes (exec x s) (fun u =>
      let on (t : Nat) : Bool := ((i.thr t).map (fun y => y.enables (w.inLane i t).2)).getD false
      u.bare = (takeTrap (s.updThreads i.bid (w.form.active i) (fun t y =>
          let z := y.flag (w.inLane i t).2
          if on t then z else z.putVW w.d.val w.wide (w.inLane i t).1 (i.bad t w.form.rd)))
        i.bid i.slot (((w.form.active i).filter on).map (fun t => i.fpx t (w.inLane i t).2))).bare))
  ∧ (∀ c cc m d a b s (i : Issue),
      let w := vform c (opndRegs a false ++ opndRegs b false) [.p d.val]
      let r (t : Nat) := fcmpOp cc (modA fp32 m (i.o32 t a).toNat) (modB fp32 m (i.o32 t b).toNat)
      let fl (t : Nat) : Nat := if (r t).2 then fInvalid else 0
      let on (t : Nat) : Bool := ((i.thr t).map (fun y => y.enables (fl t))).getD false
      Ready w s i → Goes (exec (.fcmp c cc m d a b) s) (fun u => u.bare =
        (takeTrap (s.updThreads i.bid (w.active i) (fun t y =>
            if on t then y.flag (fl t) else (y.flag (fl t)).putP d.val (r t).1 (i.bad t w.rd)))
          i.bid i.slot (((w.active i).filter on).map (fun t => i.fpx t (fl t)))).bare))
  ∧ (∀ c d a s i, let w := vform c (opndRegs a false) [.v d.val]
      let j := w.issue i
      let r (t : Nat) : FRes := sumTo fp32 .rne false ((upTo j t).map (fun u => fp32.decode (i.o32 u a).toNat)) 0
      let on (t : Nat) : Bool := ((i.thr t).map (fun y => y.enables (r t).flags)).getD false
      Ready w s i → w.active i ≠ [] → Goes (exec (.scanx c .f32 d a) s) (fun u => u.bare =
        (takeTrap (s.updThreads i.bid (w.active i) (fun t y =>
            if on t then y.flag (r t).flags
            else (y.flag (r t).flags).putV d.val (BitVec.ofNat 32 (r t).bits) ((upTo j t).any (fun u => i.bad u w.rd))))
          i.bid i.slot (((w.active i).filter on).map (fun t => i.fpx t (r t).flags))).bare))
  ∧ (∀ c op d a s i, let w := vform c (opndRegs a false) [.s d.val]
      let r := redxVal op .f32 ((w.active i).map (fun t => i.opnd t a false))
      Ready w s i → (∃ t ∈ w.active i, ∃ y, i.thr t = some y ∧ y.enables r.2 = true) →
      Goes (exec (.redx c op .f32 d a) s) (fun u => u.bare =
        (takeTrap (s.updThreads i.bid (w.active i) (fun _ y => y.flag r.2)) i.bid i.slot
          ((w.active i).map (fun t => i.fpx t r.2))).bare))
/-! ## Lane operations -/

/-- R146, R147, R148, R153: the words that combine the active lanes; with none they write nothing (R145). A frond-wide
write reaches every member that has not exited (R109), where no earlier write to its predicate is pending in one of them
(R69). Log entry 7 is the model's own choice here. -/
def Obligations.LaneWords : Prop :=
  (∀ c d p s i, let w := vform c [.p p.val] [.s d.val]
    Ready w s i → Goes (exec (.bal c d p) s) (fun u =>
      if (w.active i).isEmpty then u.bare = s.bare
      else ∃ m : Dword, (∀ k, k < 64 → m.getLsbD k = (w.active i).any (fun t => i.lane t == k && i.p t p.val)) ∧
        u.bare = (s.updFrond i.bid i.slot (fun f => f.putS d.val m ((w.active i).any (fun t => i.bad t w.rd)))).bare))
  ∧ (∀ c d p, doesIf (.vany c d p) (vform c [.p p.val] [.p d.val]) (fun _ i => noPend i [.p d.val]) (fun i s =>
      if i.act.isEmpty then s
      else s.updThreads i.bid (everyone i) (fun _ y =>
        y.putP d.val (i.act.any (fun t => i.p t p.val)) (i.act.any (fun t => i.bad t [.p p.val])))))
  ∧ (∀ c d p, doesIf (.vall c d p) (vform c [.p p.val] [.p d.val]) (fun _ i => noPend i [.p d.val]) (fun i s =>
      if i.act.isEmpty then s
      else s.updThreads i.bid (everyone i) (fun _ y =>
        y.putP d.val (i.act.all (fun t => i.p t p.val)) (i.act.any (fun t => i.bad t [.p p.val])))))
  ∧ (∀ c w64 d a, does (.rdfirst c w64 d a) (vform c (opndRegs a w64) [.s d.val]) (fun i s =>
      if i.act.isEmpty then s
      else s.updFrond i.bid i.slot (fun f =>
        f.putS d.val (if w64 then i.opnd i.low a true else (i.o32 i.low a).signExtend 64) (i.bad i.low (opndRegs a w64)))))
  ∧ (∀ c w64 d a p, doesIf (.rdfirstChk c w64 d a p) (vform c (opndRegs a w64) [.s d.val, .p p.val])
      (fun _ i => noPend i [.p p.val]) (fun i s =>
      if i.act.isEmpty then s
      else (s.updFrond i.bid i.slot (fun f =>
          f.putS d.val (if w64 then i.opnd i.low a true else (i.o32 i.low a).signExtend 64)
            (i.bad i.low (opndRegs a w64)))).updThreads i.bid (everyone i) (fun _ y =>
        y.putP p.val (i.act.all (fun t => i.opnd t a w64 == i.opnd i.low a w64))
          (i.act.any (fun t => i.bad t (opndRegs a w64))))))
  ∧ (∀ c d, does (.lanes c d) (vform c [] [.v d.val]) (fun i s =>
      s.updThreads i.bid i.act (fun t y =>
        y.putV d.val (BitVec.ofNat 32 ((i.act.filter (fun u => decide (i.lane u < i.lane t))).length + 256 * i.act.length))
          false)))
  ∧ (∀ c p, doesIf (.elect c p) (vform c [] [.p p.val]) (fun _ i => noPend i [.p p.val]) (fun i s =>
      if i.act.isEmpty then s
      else (s.updThreads i.bid (everyone i) (fun _ y => y.putP p.val false false)).updThread i.bid i.low
        (fun y => y.putP p.val true false)))

/-- R145, R149, R150: the words that read a source lane. Where no write to the source is pending there, `rdlane` reads
lane k mod 32 and each shuffle the lane that its table gives; a lane that holds no member of the frond reads as 0. Log
entry 7 is the model's own choice here. -/
def Obligations.SourceLaneWords : Prop :=
  (∀ c w64 d a n s i, let w := vform c (opndRegs a w64 ++ opndRegs n false) [.s d.val]
    Ready w s i → noPend i (opndRegs a w64) →
    Goes (exec (.rdlane c w64 d a n) s) (fun u =>
      let j := w.issue i
      let k := (i.o32 j.low n).toNat % 32
      let x := fromLane i k a w64
      u.bare = (if j.act.isEmpty then s else { s with free := s.free + 1 }.updFrond i.bid i.slot (fun f =>
        f.putS d.val (if w64 then x else (lo32 x).signExtend 64) (badLane i k a w64 || i.bad j.low (opndRegs n false)))).bare))
  ∧ (∀ (pick : Nat → Nat → Nat) (x : Ctl → Bool → VReg → Opnd → Opnd → Instr),
      (x, pick) ∈ [(Instr.shfl, fun _ b => b % 32), (.shflx, fun l b => l ^^^ (b % 32)),
        (.shflu, fun l b => if l < b then l else l - b), (.shfld, fun l b => if l + b ≤ 31 then l + b else l)] →
      ∀ c w64 d a b s i, let w := vform c (opndRegs a w64 ++ opndRegs b false) (vregs d.val (wN w64))
      Ready w s i → noPend i (opndRegs a w64) →
      Goes (exec (x c w64 d a b) s) (fun u =>
        u.bare = (if (w.active i).isEmpty then s
          else { s with free := s.free + 1 }.updThreads i.bid (w.active i) (fun t y =>
            let k := pick (i.lane t) (i.o32 t b).toNat
            y.putVW d.val w64 (fromLane i k a w64) (badLane i k a w64 || i.bad t (opndRegs b false)))).bare))

/-- R151, R152: `redx` reduces the active lanes into an s-register; `scanx` gives each active lane the inclusive sum of
the lanes up to it. Integer sums wrap; an FP32 sum is the exact sum rounded once, whatever the order of the lanes. Log
entry 7 is the model's own choice here. -/
def Obligations.ReductionWords : Prop :=
  (∀ c op ty d a s i, let w := vform c (opndRegs a (tyWide ty)) [.s d.val]
    ty.int = true → Ready w s i → w.active i ≠ [] →
    ∃ r, reduced op ty ((w.active i).map (fun t => i.opnd t a (tyWide ty))) r ∧
      Goes (exec (.redx c op ty d a) s) (fun u => u.bare =
        (s.updFrond i.bid i.slot (fun f => f.putS d.val r ((w.active i).any (fun t => i.bad t w.rd)))).bare))
  ∧ (∀ c op d a s i, let w := vform c (opndRegs a false) [.s d.val]
      let r := redxVal op .f32 ((w.active i).map (fun t => i.opnd t a false))
      Ready w s i → w.active i ≠ [] → (∀ t ∈ w.active i, ∀ y, i.thr t = some y → y.enables r.2 = false) →
      Goes (exec (.redx c op .f32 d a) s) (fun u => u.bare =
        ((s.updThreads i.bid (w.active i) (fun _ y => y.flag r.2)).updFrond i.bid i.slot (fun f =>
          f.putS d.val r.1 ((w.active i).any (fun t => i.bad t w.rd)))).bare))
  ∧ (∀ c ty d a s i, let w := vform c (opndRegs a false) [.v d.val]
      let j := w.issue i
      let r (t : Nat) : FRes := if ty = .f32 then sumTo fp32 .rne false ((upTo j t).map (fun u => fp32.decode (i.o32 u a).toNat)) 0
        else { bits := ((upTo j t).map (fun u => (i.o32 u a).toNat)).sum % 2 ^ 32, flags := 0 }
      Ready w s i → (∀ t ∈ w.active i, ∀ y, i.thr t = some y → y.enables (r t).flags = false) →
      Goes (exec (.scanx c ty d a) s) (fun u => u.bare = (s.updThreads i.bid (w.active i) (fun t y =>
        (y.flag (r t).flags).putV d.val (BitVec.ofNat 32 (r t).bits) ((upTo j t).any (fun u => i.bad u w.rd)))).bare))

/-! ## Uniform words -/

/-- R61, R124 to R127: a uniform word computes once, and only where its guard holds in the lowest lane of the issue set.
R109, R128: `scmp` compares 64-bit values and writes the predicate in every member that has not exited. -/
def Obligations.UniformWords : Prop :=
  (∀ x w, uWord x = some w → does x w.form (fun i s =>
    if i.act.isEmpty then s
    else s.updFrond i.bid i.slot (fun f =>
      f.putS w.d.val (w.val i) (w.rd.any (fun n => i.fr.sbad.contains n) || i.bad i.low w.more))))
  ∧ (∀ c cc sg d a b, doesIf (.scmp c cc sg d a b) (uform c (.s a.val :: usRegs b) [.p d.val])
      (fun _ i => noPend i [.p d.val]) (fun i s =>
      if i.act.isEmpty then s
      else s.updThreads i.bid (everyone i) (fun _ y =>
        y.putP d.val (ccInt cc (num64 sg (i.s a.val)) (num64 sg (i.us b)))
          ((a.val :: usNums b).any (fun n => i.fr.sbad.contains n)))))

/-! ## The clause, branches and traps -/

/-- R28, R36, R58, R66: after a vector or uniform word the clause goes on with its next word, or, after its last word,
each thread of the issue set continues at the next clause with resume slot 0. R69, R366: with CHK = 1 an early read or
write of a v-register raises STALL in every thread of the issue set, and the word has no effect. Log entries 6 and 7 are
the model's own choices here. -/
def Obligations.ClauseAdvances : Prop :=
  (∀ x (w : WordForm), ((∃ l, arithWord x = some l ∧ w = l.form) ∨ (∃ l, bitWord x = some l ∧ w = l.form)
      ∨ (∃ l, uWord x = some l ∧ w = l.form)) →
    ∀ s i, Ready w s i → i.run.tids ≠ [] →
      (i.atEnd → Goes (exec x s) (fun u => goesTo i (fun _ => none) u))
      ∧ (¬ i.atEnd → Goes (exec x s) (fun u => goesOn i w.c s u)))
  ∧ (∀ x (w : WordForm), ((∃ l, arithWord x = some l ∧ w = l.form) ∨ (∃ l, bitWord x = some l ∧ w = l.form)) →
      ∀ s i t y p n, s.issue? = some i → t ∈ i.run.tids → i.thr t = some y → y.fctl.getLsbD 0 = true →
        guardOf w.c y = true → p ∈ y.pend → p.reg = .v n → p.out i.fr.cyc = true →
        (p.reg ∈ w.rd ∨ (p.reg ∈ w.wr ∧ p.tracked = true)) →
        Goes (exec x s) (fun u => u.bare = (takeTrap s i.bid i.slot (i.run.tids.map (fun k =>
          { tid := k, causes := [{ bit := 10, addr := i.word, info := 0 }], epc := i.run.clause, eslot := i.run.pos }))).bare))

/-- R110, R111: `bra` and `brx` move the active lanes to their targets; the others continue at the next clause. -/
def Obligations.Branches : Prop :=
  (∀ c off s i, let w := vform c [] []
    Ready w s i → i.atEnd → Goes (exec (.bra c off) s) (fun u => u.bare = s.bare ∧
      goesTo i (fun t => if t ∈ w.active i then some (i.run.clause + 8 * off.signExtend 64) else none) u))
  ∧ (∀ c a s i, let w := vform c (opndRegs a true) []
      Ready w s i → i.atEnd → (w.issue i).clean (opndRegs a true) →
      (∀ t ∈ w.active i, (i.opnd t a true).toNat % 8 = 0) →
      Goes (exec (.brx c a) s) (fun u => u.bare = s.bare ∧
        goesTo i (fun t => if t ∈ w.active i then some (i.opnd t a true) else none) u))

/-- R112, R113: where the private stack has room and the target passes its checks, `call` and `callx` store the return
address at private offset PRIV - 8 x (depth + 1), count the depth up, and go to the target. Log entries 22 and 59 are the
model's own choices here. -/
def Obligations.Calls : Prop :=
  (∀ c off s i (ps : Nat → List (Nat × Bool × Nat)), let w := vform c [] []
    let depth (t : Nat) : Nat := ((i.thr t).map (·.depth)).getD 0
    let push (v : State) (t : Nat) := stackFate v (w.issue i) t (i.blk.hdr.priv - 8 * (depth t + 1)) true
    let after (l : List Nat) : State := l.foldl (fun v t => ((push v t).map (·.1)).getD v) s
    Ready w s i → i.atEnd → calm .rlx .none s (w.issue i) →
    (∀ l t r, w.active i = l ++ t :: r → 8 * (depth t + 1) ≤ i.blk.hdr.priv ∧
      ∃ v a n, push (after l) t = some (v, ps t, .go a n)) →
    Goes (exec (.call c off) s) (fun u =>
      u.bare = (eachLane (w.issue i) (after (w.active i)) (fun s t =>
        (privWrite s i.core i.bid (ps t) (leBytes 8 i.next.toNat) false).updThread i.bid t
          (fun y => { y with depth := y.depth + 1 }))).bare ∧
      goesTo i (fun t => if t ∈ w.active i then some (i.run.clause + 8 * off.signExtend 64) else none) u))
  ∧ (∀ c a s i (ps : Nat → List (Nat × Bool × Nat)), let w := vform c (opndRegs a true) []
      let depth (t : Nat) : Nat := ((i.thr t).map (·.depth)).getD 0
      let look (v : State) (t : Nat) : State × Lookup := lookupFrom v (w.issue i) (i.opnd t a true) i.blk.hdr.ctn 0
      let push (v : State) (t : Nat) := stackFate v (w.issue i) t (i.blk.hdr.priv - 8 * (depth t + 1)) true
      let after (l : List Nat) : State := l.foldl (fun v t => ((push (look v t).1 t).map (·.1)).getD v) s
      Ready w s i → i.atEnd → (w.issue i).clean (opndRegs a true) → calm .rlx .none s (w.issue i) →
      (∀ t ∈ w.active i, (i.opnd t a true).toNat % 8 = 0 ∧ 8 * (depth t + 1) ≤ i.blk.hdr.priv) →
      (∀ l t r, w.active i = l ++ t :: r → (∃ n, (look (after l) t).2 = .found n ∧ n ≤ i.blk.hdr.regs) ∧
        ∃ v p n, push (look (after l) t).1 t = some (v, ps t, .go p n)) →
      Goes (exec (.callx c a) s) (fun u =>
        u.bare = (eachLane (w.issue i) (after (w.active i)) (fun s t =>
          (privWrite s i.core i.bid (ps t) (leBytes 8 i.next.toNat) false).updThread i.bid t
            (fun y => { y with depth := y.depth + 1 }))).bare ∧
        goesTo i (fun t => if t ∈ w.active i then some (i.opnd t a true) else none) u))

/-- R112, R114: `ret` reads, in each active lane, the return address at private offset PRIV - 8 x depth, goes there, and
counts the depth down; a lane at depth 0 raises PRIVOV with EINFO 0. Log entry 22 is the model's own choice here. -/
def Obligations.Returns : Prop :=
  (∀ c s i (dst : Nat → Dword), let w := vform c [] []
    let depth (t : Nat) : Nat := ((i.thr t).map (·.depth)).getD 0
    let pull (v : State) (t : Nat) := stackFate v (w.issue i) t (i.blk.hdr.priv - 8 * depth t) false
    let got (v : State) (t : Nat) : State × List Byte × Bool := match pull v t with
      | some (v1, ps, _) => privRead v1 i.core i.bid ps
      | none => (v, [], false)
    let after (l : List Nat) : State := l.foldl (fun v t => (got v t).1) s
    Ready w s i → i.atEnd → calm .rlx .none s (w.issue i) →
    (∀ l t r, w.active i = l ++ t :: r → depth t ≠ 0 ∧ (∃ v ps a n, pull (after l) t = some (v, ps, .go a n)) ∧
      (got (after l) t).2.2 = false ∧ dst t = d64 (leNat (got (after l) t).2.1) ∧ (dst t).toNat % 8 = 0) →
    Goes (exec (.ret c) s) (fun u =>
      u.bare = ((after (w.active i)).updThreads i.bid (w.active i) (fun _ y => { y with depth := y.depth - 1 })).bare ∧
      goesTo i (fun t => if t ∈ w.active i then some (dst t) else none) u))
  ∧ (∀ c s i, let w := vform c [] []
      Ready w s i → (∀ t ∈ w.active i, ∃ y, i.thr t = some y ∧ y.depth = 0) → calm .rlx .none s (w.issue i) →
      Goes (exec (.ret c) s) (fun u => u.bare = (i.trap s (w.active i) (fun _ => { bit := 15, addr := 0, info := 0 })).bare))

/-- R366 to R370: TAKING A TRAP. Lanes outside a handler, with a handler to go to, leave the issue set and form one new
sub-frond; each has its causes ORed into CAUSE, EADDR and EINFO of its lowest-numbered cause, EPC and ESLOT as its entry
says, and stands at OBASE + TVEC, eligible, in its handler. Nothing else changes. An audit copy's lanes do so too, but for
a cause that ends the audit (R389). -/
def Obligations.TakingATrap : Prop :=
  ∀ s bid slot b rs, s.block bid = some b →
    (s.isCopy b.launch = true → ∀ r ∈ rs, ∀ c ∈ r.causes, c.bit = 4 → c.info ≠ 9) → rs ≠ [] →
    (rs.map (·.tid)).Nodup →
    (∀ r ∈ rs, ∀ y, b.thread r.tid = some y → y.handler = false ∧ y.tvec ≠ 0) →
    let t := takeTrap s bid slot rs
    (∀ r ∈ rs, ∀ y, b.thread r.tid = some y → ∃ z, t.thread bid r.tid = some z ∧
      z = { y with pc := b.obase + y.tvec, rslot := 0, last := false, status := .eligible, epc := r.epc,
                   eslot := BitVec.ofNat 64 r.eslot, handler := true, cause := z.cause, eaddr := z.eaddr, einfo := z.einfo } ∧
      (∀ c ∈ r.causes, c.bit < 64 → z.cause.getLsbD c.bit = true) ∧
      (∀ k, k < 64 → (∀ c ∈ r.causes, c.bit ≠ k) → z.cause.getLsbD k = y.cause.getLsbD k) ∧
      (r.causes = [] → z.eaddr = y.eaddr ∧ z.einfo = y.einfo) ∧
      (r.causes ≠ [] → ∃ c ∈ r.causes, (∀ d ∈ r.causes, c.bit ≤ d.bit) ∧ z.eaddr = c.addr ∧ z.einfo = c.info))
    ∧ (∀ k y, (∀ r ∈ rs, r.tid ≠ k) → b.thread k = some y → t.thread bid k = some y)
    ∧ (∀ f, b.fronds.get? slot = some f → ((t.block bid).bind (fun c => c.fronds.get? slot)) = some
        { f with subs := f.subs ++ [Group.new (rs.map (·.tid))],
                 run := f.run.map (fun u => { u with tids := u.tids.filter (fun k => !(rs.map (·.tid)).contains k) }) })
    ∧ (∀ k, k ≠ slot → ((t.block bid).bind (fun c => c.fronds.get? k)) = b.fronds.get? k)
    ∧ (∃ c, t.block bid = some c ∧ c = { b with threads := c.threads, fronds := c.fronds })
    ∧ (∀ k, k ≠ bid → t.block k = s.block k)
    ∧ t = { s with blocks := t.blocks }

/-- R119, R371, R372: `tret` in a lane with CAUSE 0 and no cause held leaves the handler: the thread continues at EPC with
resume slot ESLOT, 16 as 15 with the last-word bit. With a cause set it enters its handler again at TVEC and nothing else of
it changes; with CAUSE 0 and causes held it does so with the oldest of them delivered. Where TVEC is then 0 its block is
killed (R373). Outside a handler it raises ILLOP. R118: `trap` raises SWTRAP with its number in EINFO and `brk` raises BRKPT in each active lane, with EPC the next
clause and EADDR the word. -/
def Obligations.TrapWords : Prop :=
  (∀ c s i, let w := vform c [] []
    Ready w s i → (∀ t ∈ w.active i, ∃ y, i.thr t = some y ∧ y.handler = true ∧ (y.cause ≠ 0 ∨ y.async ≠ [] → y.tvec ≠ 0)) →
    Goes (exec (.tret c) s) (fun u => ∀ t ∈ w.active i, ∀ y, i.thr t = some y → ∃ z, u.thread i.bid t = some z ∧
      (y.cause = 0 → y.async = [] → z.pc = y.epc ∧ z.rslot = (if y.eslot.toNat = 16 then 15 else y.eslot.toNat) ∧
        z.last = decide (y.eslot.toNat = 16) ∧ z.bare = ({ y with handler := false } : Thread).bare) ∧
      (y.cause ≠ 0 → z.pc = i.blk.obase + y.tvec ∧ z.rslot = 0 ∧ z.last = false ∧ z.bare = y.bare) ∧
      (∀ k l, y.cause = 0 → y.async = k :: l → z.pc = i.blk.obase + y.tvec ∧ z.rslot = 0 ∧ z.last = false ∧
        z.bare = ({ y with cause := causeBit k.bit, eaddr := k.addr, einfo := k.info, async := l } : Thread).bare)))
  ∧ (∀ c s i t y, let w := vform c [] []
      Ready w s i → w.active i = [t] → i.thr t = some y → y.handler = true → (y.cause ≠ 0 ∨ y.async ≠ []) → y.tvec = 0 →
      Goes (exec (.tret c) s) (fun u => u.block i.bid = none))
  ∧ (∀ c s i, let w := vform c [] []
      Ready w s i → w.active i ≠ [] → (∀ t ∈ w.active i, ∃ y, i.thr t = some y ∧ y.handler = false) →
      Goes (exec (.tret c) s) (fun u => u.bare = (i.trap s (w.active i) (fun _ => { bit := 0, addr := i.word, info := 0 })).bare))
  ∧ (∀ c n, does (.trap c n) (vform c [] []) (fun i s => takeTrap s i.bid i.slot (i.act.map (fun t =>
      { tid := t, causes := [{ bit := 13, addr := i.word, info := n.setWidth 64 }], epc := i.next, eslot := 0 }))))
  ∧ (∀ c, does (.brk c) (vform c [] []) (fun i s => takeTrap s i.bid i.slot (i.act.map (fun t =>
      { tid := t, causes := [{ bit := 14, addr := i.word, info := 0 }], epc := i.next, eslot := 0 }))))

/-- R371, R373: a trap in a lane whose handler is running, or whose TVEC is 0, kills the block: it is gone, and the launch
counts it as killed. R387: so does a poisoned value that a word uses as its guard, as the address of a global access, or as the offset
or a field of an engine word's parameters, with a record of kind 3 and reason 3; the use does not take place. -/
def Obligations.TrapKills : Prop :=
  (∀ s bid slot b rs r y, s.block bid = some b → s.isCopy b.launch = false → r ∈ rs → b.thread r.tid = some y →
    (y.handler = true ∨ y.tvec = 0) →
    (takeTrap s bid slot rs).block bid = none
    ∧ ∀ l, s.launch b.launch = some l → ∃ m, (takeTrap s bid slot rs).launch b.launch = some m ∧ b.idx ∈ m.killed)
  ∧ (∀ x (w : WordForm), ((∃ l, arithWord x = some l ∧ w = l.form) ∨ (∃ l, bitWord x = some l ∧ w = l.form)
        ∨ (∃ l, uWord x = some l ∧ w = l.form)) →
      ∀ s i t y, s.issue? = some i → t ∈ w.tids i → i.thr t = some y → w.c.gp ≠ 15 → y.pbad.getLsbD w.c.gp.val = true →
        settled i.fr.cyc w.regs i.fr.pend → (∀ e ∈ i.blk.threads, e.1 ∈ i.run.tids → settled i.fr.cyc w.regs e.2.pend) →
        exec x s = .next (killPoison s i.bid i.slot i.word))
  ∧ (∀ x w s i, gWord x = some w → Ready w.form s i → (∃ t ∈ w.form.active i, i.bad t (addrRegs w.m) = true) →
      ∃ t ∈ w.form.active i, i.bad t (addrRegs w.m) = true ∧ exec x s = .next (killPoison s i.bid i.slot (i.addr t w.m)))
  ∧ (∀ x w s i r, engineWord x = some w → Ready w.form s i → i.fr.ehold = none → w.form.active i ≠ [] →
      relsOf s i.bid i.run.tids = [] → w.reg = some r →
      (i.sBad [r.val] = true ∨ (auditStops s i w.opc = false ∧ w.reads = true ∧ i.blk.badArea (w.off i) w.n = false ∧
        i.blk.absentIn ((List.range w.n).map (· + w.off i)) = none ∧ i.blk.parmBad (w.off i) w.n (w.used (w.words i)) = true)) →
      exec x s = .next (killPoison s i.bid i.slot (d64 (w.off i))))
  ∧ (∀ s bid slot va b, s.block bid = some b → (killPoison s bid slot va).block bid = none ∧
      killPoison s bid slot va = logEvent (killQuiet s bid) b.ctx (mkRecord 3 (whereOf b.core slot) s.gtime va b.obase
        (BitVec.ofNat 32 b.idx) (s.nodeOf b.launch) 3#64 0))

/-- R45, R116, R117, R120, R121: `nop` changes nothing; `yield` makes the group's next issue pass over its lanes; `bjoin`
and `sleep` make their active lanes wait, a sleep of 0 ns not at all; `exit` ends its lanes for good, frees their monitors
and passes on the causes they held. When every member of a frond that has not exited waits at `bjoin`, all of them go on;
while one does not, none does. -/
def Obligations.SchedulingWords : Prop :=
  (∀ c, does (.nop c) (vform c [] []) (fun _ s => s))
  ∧ (∀ c, does (.yield c) (vform c [] []) (fun i s =>
      if i.act.isEmpty then s
      else s.updFrond i.bid i.slot (fun f => f.setGroup i.run.tids (fun g => { g with skip := i.act, rep := 0 }))))
  ∧ (∀ c, does (.bjoin c) (vform c [] []) (fun i s =>
      bjoinCheck (i.startWait s i.act (fun _ => i.waitRec .bjoin 0 .none)) i.bid i.slot))
  ∧ (∀ c a, doesIf (.sleep c a) (vform c (opndRegs a false) []) (fun _ i => i.clean (opndRegs a false)) (fun i s =>
      i.startWait s (i.act.filter (fun t => decide ((i.o32 t a).toNat ≠ 0)))
        (fun t => i.waitRec (.sleep (s.gtime + (i.o32 t a).toNat)) 0 .none)))
  ∧ (∀ c, doesIf (.exit c) (vform c [] []) (fun _ i => i.act ≠ []) (fun i s =>
      let s1 := s.updThreads i.bid i.act (fun _ t =>
        { t with status := .exited, pend := [], tok := [], dues := [], async := [] })
      let s2 := { s1 with mons := s1.mons.filter (fun m => !(m.bid == i.bid && i.act.contains m.tid)) }
      let held := (i.act.filterMap (fun t => (i.thr t).map (fun x => x.async.map (fun c => (t, c))))).flatten
      afterExit (held.foldl (fun s e => sendCause s i.bid e.1 e.2) s2) i.bid i.slot))
  ∧ (∀ s bid slot b, s.block bid = some b →
      let waits (e : Nat × Thread) : Prop := ∃ r, e.2.status = .waiting r ∧ r.kind = .bjoin
      ((∀ e ∈ b.liveMembers slot, waits e) → b.liveMembers slot ≠ [] →
        bjoinCheck s bid slot = s.updThreads bid ((b.liveMembers slot).map (·.1)) (fun _ t => { t with status := .eligible }))
      ∧ ((∃ e ∈ b.liveMembers slot, ¬ waits e) → bjoinCheck s bid slot = s))

/-- R42, R115, R370: `reform` files its active lanes in ascending tid, none of a handler. A thread goes to the open bin
of its key, or to the lowest free bin with its frond's s-registers; without either it stays. Log entry 55 is the
model's own choice here. -/
def Obligations.ReformFiles : Prop :=
  (∀ c, does (.reform c) (vform c [] []) (fun i s =>
    (sortBy id (i.act.filter (fun t => ((i.thr t).map (fun x => !x.handler)).getD false))).foldl (fun s t => fileThread i s t) s))
  ∧ (∀ i s t n b, openBin (s.core i.core) i.bid i.next = some n → (s.core i.core).bins.get? n = some b →
      let b1 : Bin := { b with tids := b.tids ++ [t], full := decide (32 ≤ b.tids.length + 1) }
      fileThread i s t = (s.updCore i.core (fun k => { k with bins := k.bins.put n b1 })).updThread i.bid t
        (fun y => { y with status := .filed n, pc := i.next, rslot := 0, last := false }))
  ∧ (∀ i s t n, openBin (s.core i.core) i.bid i.next = none → freeBin (s.core i.core) = some n →
      let b1 : Bin := { bid := i.bid, pc := i.next, filedAt := coreCycles s i.core, full := false, tids := [t],
                        s := i.fr.s, sbad := i.fr.sbad }
      fileThread i s t = (s.updCore i.core (fun k => { k with bins := k.bins.put n b1 })).updThread i.bid t
        (fun y => { y with status := .filed n, pc := i.next, rslot := 0, last := false }))
  ∧ (∀ i s t, openBin (s.core i.core) i.bid i.next = none → freeBin (s.core i.core) = none → fileThread i s t = s)

/-! ## Special registers -/

/-- R70 to R72, R122, R123, R255, R366, R367, R375: `srd` reads a special register in each active lane; `swr` writes
one: a thread's copy in each active lane, a frond's or block's with the value of the lowest active lane. Log entry 7 is
the model's own choice here. -/
def Obligations.SpecialRegisters : Prop :=
  (∀ c d wide num, does (.srd c d wide num) (vform c [] (vregs d.val (wN wide))) (fun i s =>
    s.updThreads i.bid i.act (fun t y =>
      y.putVW d.val wide (specialReg s i.blk i.core i.slot i.fr t y num.toNat) false)))
  ∧ (∀ c a wide num, doesIf (.swr c a wide num) (vform c (opndRegs a wide) [])
      (fun _ i => i.act ≠ [] ∧ i.clean (opndRegs a wide)) (fun i s =>
        ((s.updThreads i.bid i.act (fun t y => y.writeSpecial num.toNat (i.opnd t a wide))).updFrond i.bid i.slot
          (fun f => f.writeSpecial num.toNat (i.opnd i.low a wide))).updBlock i.bid
            (fun b => b.writeSpecial num.toNat (i.opnd i.low a wide))))
  ∧ (∀ (t : Thread) x, t.writeSpecial 0x012 x = { t with cause := t.cause &&& ~~~x }
      ∧ t.writeSpecial 0x010 x = { t with epc := x &&& ~~~7#64 }
      ∧ t.writeSpecial 0x013 x = { t with tvec := x &&& 0xFFFFFFF8#64 }
      ∧ t.writeSpecial 0x018 x = { t with fctl := x &&& 0x3F#64 }
      ∧ t.writeSpecial 0x019 x = { t with fpflags := x &&& 0x1F#64 })
  ∧ (∀ s b core slot f tid (t : Thread), let r := specialReg s b core slot f tid t
      r 0x000 = d64 t.lane ∧ r 0x001 = d64 tid ∧ r 0x002 = b.tile.1.setWidth 64 ∧ r 0x003 = b.tile.2.1.setWidth 64 ∧
      r 0x004 = b.tile.2.2.setWidth 64 ∧ r 0x005 = b.nblk.setWidth 64 ∧ r 0x006 = d64 slot ∧ r 0x007 = d64 core ∧
      r 0x008 = d64 s.sys.devid ∧ r 0x009 = d64 b.ctx ∧ r 0x00A = d64 b.prio ∧ r 0x00B = b.obase ∧ r 0x010 = t.epc ∧
      r 0x011 = t.eslot ∧ r 0x012 = t.cause ∧ r 0x013 = t.tvec ∧ r 0x014 = t.eaddr ∧ r 0x015 = t.einfo ∧ r 0x018 = t.fctl ∧
      r 0x019 = t.fpflags ∧ r 0x020 = d64 s.gtime ∧ r 0x022 = f.ftimer ∧ r 0x060 = b.skwbase ∧ r 0x061 = b.skwrows ∧
      (b.paced = true → r 0x030 = b.step.setWidth 64 ∧ r 0x031 = d64 b.hdr.pskew) ∧
      (b.paced = false → r 0x030 = 0 ∧ r 0x031 = 0) ∧
      (∀ k id idx, k < 4 → b.coh[k]? = some { id := id, idx := idx } → r (0x032 + k) = d64 (idx * 65536 + 256 + id)) ∧
      (∀ k, k < 4 → b.coh[k]? = none → r (0x032 + k) = 0) ∧ r 0x080 = s.sys.didt ∧ r 0x082 = s.sys.dormt ∧
      r 0x081 = (s.core core).sratio ∧ r 0x083 = (s.core core).refage)

/-! ## The block's own memories -/

/-- R154, R162, R163, R386: in bounds, aligned and present, `ldl` and `sldl` read the scratchpad bytes of their offset,
little-endian, with their poison; with the skewed window each byte is read where the window maps its word. R170:
`ptest` reads the presence bit of a line. Log entries 7 and 53 are the model's own choices here. -/
def Obligations.ScratchpadLoads : Prop :=
  (∀ c sz skew ord sc d x imm, doesIf (.ldl c sz skew ord sc d x imm) (vform c (opndRegs x false) (szRegs d.val sz))
    (fun s i => i.clean (opndRegs x false) ∧ calm .rlx .none s i ∧
      ∀ t ∈ i.act, scrOk i.blk skew (i.offset t x imm) (szBytes sz) ∧
        i.blk.behindRel t (i.blk.scrAddrs skew (i.offset t x imm).toNat (szBytes sz)) = false)
    (fun i s =>
      let at_ (t : Nat) := i.blk.scrAddrs skew (i.offset t x imm).toNat (szBytes sz)
      scrAcquire i ord sc (fun t => .go (at_ t)) (eachLane i s (fun s t => s.updThread i.bid t (fun y =>
        y.load d.val sz ((at_ t).map i.blk.scrByte) (i.blk.scrIsBad (at_ t)))))))
  ∧ (∀ c sz d a imm,
      let o (i : Issue) : Int := ((lo32 (i.s a.val)).toNat : Int) + imm.toInt
      doesIf (.sldl c sz d a imm) (uform c [.s a.val] [.s d.val])
      (fun s i => i.act ≠ [] ∧ i.sBad [a.val] = false ∧ acquireOut s i.bid i.run.tids = false ∧
        scrOk i.blk false (o i) (szBytes sz) ∧
        ∀ t ∈ i.run.tids, i.blk.behindRel t ((List.range (szBytes sz)).map (fun k => (o i).toNat + k)) = false)
      (fun i s => s.updFrond i.bid i.slot (fun f =>
        let at_ := (List.range (szBytes sz)).map (fun k => (o i).toNat + k)
        f.putS d.val (d64 (leNat (at_.map i.blk.scrByte))) (i.blk.scrIsBad at_))))
  ∧ (∀ c p x imm, doesIf (.ptest c p x imm) (vform c (opndRegs x false) [.p p.val])
      (fun s i => i.clean (opndRegs x false) ∧ calm .rlx .none s i ∧
        ∀ t ∈ i.act, 0 ≤ i.offset t x imm ∧ i.offset t x imm + 1 ≤ (i.blk.alloc : Int))
      (fun i s => s.updThreads i.bid i.act (fun t y =>
        y.putP p.val (!i.blk.absent.contains ((i.offset t x imm).toNat / 64)) false)))

/-- R154, R160, R162, R163, R347: in bounds, aligned and present, and outside a held step slot, `stl` writes its lanes' data
to the scratchpad in ascending lane order. R167, R169: `atoml` reads, computes and writes lane after lane, and returns the
old value. R157: a release that may not perform yet takes its place in the block's list instead, and the word goes on; it
performs when what it orders has. Log entries 7 and 57 are the model's own choices here. -/
def Obligations.ScratchpadStores : Prop :=
  (∀ c sz skew ord sc x imm a,
    let w := vform c (opndRegs x false ++ dataRegs a sz) []
    doesIf (.stl c sz skew ord sc x imm a) w
      (fun s i => i.clean (opndRegs x false) ∧ calm .rlx .none s i ∧ i.fr.held = false ∧ slotHeld s i.blk = false ∧
        ∀ t ∈ i.act, scrOk i.blk skew (i.offset t x imm) (szBytes sz) ∧
          i.blk.behindRel t (i.blk.scrAddrs skew (i.offset t x imm).toNat (szBytes sz)) = false)
      (fun i s =>
        let at_ (t : Nat) := i.blk.scrAddrs skew (i.offset t x imm).toNat (szBytes sz)
        eachLane i (scrPublish i ord (fun t => .go (at_ t)) s) (fun v t =>
          if i.held s i.act ord sc then
            countUp (pushRel v i.bid { seq := v.seq, tid := t, tok := ctlToken c, acq := .none, rel := relScope ord sc,
                                       addrs := at_ t, bytes := i.data t a sz, bad := i.bad t (dataRegs a sz), rmw := none })
              c i.bid [t]
          else scrStore v i.core i.bid t (at_ t) (i.data t a sz) (i.bad t (dataRegs a sz)))))
  ∧ (∀ c k ord sc d x imm,
      let w := vform c (opndRegs x false ++ atomRegs k d.val) [.v d.val]
      doesIf (.atoml c k ord sc d x imm) w
      (fun s i => i.clean (opndRegs x false) ∧ calm ord sc s i ∧ i.fr.held = false ∧ slotHeld s i.blk = false ∧
        ∀ t ∈ i.act, scrOk i.blk false (i.offset t x imm) 4 ∧
          i.blk.behindRel t ((List.range 4).map (fun j => (i.offset t x imm).toNat + j)) = false)
      (fun i s =>
        let at_ (t : Nat) : List Nat := (List.range 4).map (fun j => (i.offset t x imm).toNat + j)
        scrAcquire i ord sc (fun t => .go (at_ t)) (eachLane i (scrPublish i ord (fun t => .go (at_ t)) s) (fun s t =>
          let b := (s.block i.bid).getD i.blk
          let r := aopApply k (d64 (leNat ((at_ t).map b.scrByte))) (i.atomOps k t d.val).1 (i.atomOps k t d.val).2
          let bad := b.scrIsBad (at_ t) || i.bad t (atomRegs k d.val)
          (scrStore s i.core i.bid t (at_ t) (leBytes 4 r.1.toNat) bad).updThread i.bid t (fun y => y.putV d.val (lo32 r.2) bad)))))
  ∧ (∀ s bid b r, s.block bid = some b → b.core?.isSome = true → b.rels.find? (fun x => x.seq == r.seq) = some r → r.rmw = none →
      localRelease s bid r.seq = if releaseReady s b.core bid [r.tid] r.rel r.seq then
        countDown (scrStore (s.updBlock bid (fun b => { b with rels := b.rels.filter (fun x => x.seq != r.seq) })) b.core bid r.tid
          r.addrs r.bytes r.bad) bid [r.tid] r.tok
      else s)
  ∧ (∀ s core bid t at_ bytes bad, readsTiles (s.core core) bid = false →
      scrStore s core bid t at_ bytes bad = s.updBlock bid (fun b => b.scrPut at_ bytes bad))

/-- R162, R163: a lane whose offset is out of bounds, or mapped out of it by the skewed window, raises SCROV, a misaligned
one MISAL; where its line is absent a write raises ENGRC with code 64, a read parks while an incomplete `cpy` writes the line
and raises ABSENT otherwise; EADDR holds the offset. A word whose active lanes all meet such a check reads and writes
nothing: they take the trap, or park. R386: a scratchpad byte reads as it was last written. Log entry 53 is the model's own
choice here. -/
def Obligations.ScratchpadChecks : Prop :=
  (∀ s i skew write (o : Int) (n : Nat), 0 ≤ o → o + n ≤ (i.blk.alloc : Int) → o.toNat % n = 0 →
    (∃ a ∈ i.blk.scrAddrs skew o.toNat n, i.blk.alloc ≤ a) → scrFate s i skew write o n =
      .trap { bit := 16, addr := BitVec.ofInt 64 o, info := 0 })
  ∧ (∀ s i skew write (o : Int) (n line : Nat), let as := i.blk.scrAddrs skew o.toNat n
      0 ≤ o → o + n ≤ (i.blk.alloc : Int) → o.toNat % n = 0 → (∀ a ∈ as, a < i.blk.alloc) → i.blk.absentIn as = some line →
      scrFate s i skew write o n =
        if write then .trap { bit := 5, addr := BitVec.ofInt 64 o, info := 64 }
        else if cpyWrites (s.core i.core) i.bid line then .park line o.toNat
        else .trap { bit := 18, addr := BitVec.ofInt 64 o, info := 0 })
  ∧ (∀ c sz skew ord sc d x imm (k : Nat → Cause), doesIf (.ldl c sz skew ord sc d x imm)
      (vform c (opndRegs x false) (szRegs d.val sz))
      (fun s i => i.clean (opndRegs x false) ∧ calm .rlx .none s i ∧
        ∀ t ∈ i.act, scrFate s i skew false (i.offset t x imm) (szBytes sz) = .trap (k t))
      (fun i s => i.trap s i.act k))
  ∧ (∀ c sz skew ord sc d x imm (line off : Nat → Nat), doesIf (.ldl c sz skew ord sc d x imm)
      (vform c (opndRegs x false) (szRegs d.val sz))
      (fun s i => i.clean (opndRegs x false) ∧ calm .rlx .none s i ∧
        ∀ t ∈ i.act, scrFate s i skew false (i.offset t x imm) (szBytes sz) = .park (line t) (off t))
      (fun i s => i.parkLine s i.act line off))
  ∧ (∀ c sz skew ord sc x imm a (k : Nat → Cause), doesIf (.stl c sz skew ord sc x imm a)
      (vform c (opndRegs x false ++ dataRegs a sz) [])
      (fun s i => i.clean (opndRegs x false) ∧ calm .rlx .none s i ∧ i.fr.held = false ∧
        ∀ t ∈ i.act, scrFate s i skew true (i.offset t x imm) (szBytes sz) = .trap (k t))
      (fun i s => i.trap s i.act k))
  ∧ (∀ c op ord sc d x imm (k : Nat → Cause), doesIf (.atoml c op ord sc d x imm)
      (vform c (opndRegs x false ++ atomRegs op d.val) [.v d.val])
      (fun s i => i.clean (opndRegs x false) ∧ calm .rlx .none s i ∧ i.fr.held = false ∧
        ∀ t ∈ i.act, scrFate s i false true (i.offset t x imm) 4 = .trap (k t))
      (fun i s => i.trap s i.act k))
  ∧ (∀ c sz d a imm (k : Cause), doesIf (.sldl c sz d a imm) (uform c [.s a.val] [.s d.val])
      (fun s i => i.act ≠ [] ∧ i.sBad [a.val] = false ∧ acquireOut s i.bid i.run.tids = false ∧
        scrFate s i false false (((lo32 (i.s a.val)).toNat : Int) + imm.toInt) (szBytes sz) = .trap k)
      (fun i s => i.trap s i.run.tids (fun _ => k)))
  ∧
  (∀ s i skew write (o : Int) (n : Nat), (o < 0 ∨ (i.blk.alloc : Int) < o + n) → scrFate s i skew write o n =
    .trap { bit := 16, addr := BitVec.ofInt 64 o, info := 0 })
  ∧ (∀ s i skew write (o : Int) (n : Nat), 0 ≤ o → o + n ≤ (i.blk.alloc : Int) → o.toNat % n ≠ 0 → scrFate s i skew write o n =
      .trap { bit := 3, addr := BitVec.ofInt 64 o, info := 0 })
  ∧ (∀ (b : Block) o bytes bad k, k < bytes.length → (b.scrWrite o bytes bad).scrByte (o + k) = (bytes[k]?).getD 0)
  ∧ (∀ (b : Block) o bytes bad a, (a < o ∨ o + bytes.length ≤ a) → (b.scrWrite o bytes bad).scrByte a = b.scrByte a)

/-- R164, R258: where its offset is inside PRIV, aligned, and its backing bytes may be accessed, `ldp` reads a lane's
private bytes through the L1 and `stp` writes them. An offset outside PRIV raises PRIVOV, a misaligned one MISAL. Log
entries 7 and 22 are the model's own choices here. -/
def Obligations.PrivateWords : Prop :=
  (∀ c sz d x imm (ps : Nat → List (Nat × Bool × Nat)),
    doesIf (.ldp c sz d x imm) (vform c (opndRegs x false) (szRegs d.val sz))
      (fun s i =>
        let vas := i.privVas (fun t => i.offset t x imm) (szBytes sz)
        i.clean (opndRegs x false) ∧ calm .rlx .none s i ∧ i.mayWalk s vas .read ∧ ∀ t ∈ i.act,
        0 ≤ i.offset t x imm ∧ i.offset t x imm + szBytes sz ≤ (i.blk.hdr.priv : Int) ∧
        (i.offset t x imm).toNat % szBytes sz = 0 ∧ privReady (i.walk s vas .read) i.core false (ps t) = true ∧
        ∃ a n, privFate (i.walk s vas .read) i t (i.offset t x imm).toNat (szBytes sz) false = (ps t, .go a n))
      (fun i s => eachLane i (i.walk s (i.privVas (fun t => i.offset t x imm) (szBytes sz)) .read) (fun s t =>
        let r := privRead s i.core i.bid (ps t)
        r.1.updThread i.bid t (fun y => y.load d.val sz r.2.1 r.2.2))))
  ∧ (∀ c sz x imm a (ps : Nat → List (Nat × Bool × Nat)),
      doesIf (.stp c sz x imm a) (vform c (opndRegs x false ++ dataRegs a sz) [])
      (fun s i =>
        let vas := i.privVas (fun t => i.offset t x imm) (szBytes sz)
        i.clean (opndRegs x false) ∧ calm .rlx .none s i ∧ i.mayWalk s vas .write ∧ ∀ t ∈ i.act,
        0 ≤ i.offset t x imm ∧ i.offset t x imm + szBytes sz ≤ (i.blk.hdr.priv : Int) ∧
        (i.offset t x imm).toNat % szBytes sz = 0 ∧ privReady (i.walk s vas .write) i.core true (ps t) = true ∧
        ∃ p n, privFate (i.walk s vas .write) i t (i.offset t x imm).toNat (szBytes sz) true = (ps t, .go p n))
      (fun i s => eachLane i (i.walk s (i.privVas (fun t => i.offset t x imm) (szBytes sz)) .write) (fun s t =>
        privWrite s i.core i.bid (ps t) (i.data t a sz) (i.bad t (dataRegs a sz)))))
  ∧ (∀ c sz d x imm, doesIf (.ldp c sz d x imm) (vform c (opndRegs x false) (szRegs d.val sz))
      (fun s i => i.clean (opndRegs x false) ∧ calm .rlx .none s i ∧ ∀ t ∈ i.act,
        i.offset t x imm < 0 ∨ (i.blk.hdr.priv : Int) < i.offset t x imm + szBytes sz ∨
          (i.offset t x imm).toNat % szBytes sz ≠ 0)
      (fun i s => i.trap s i.act (fun t =>
        if i.offset t x imm < 0 ∨ (i.blk.hdr.priv : Int) < i.offset t x imm + szBytes sz then
          { bit := 15, addr := 0, info := BitVec.ofInt 64 (i.offset t x imm) }
        else { bit := 3, addr := BitVec.ofInt 64 (i.offset t x imm), info := 0 })))

/-- R165: `lda` and `sta` move accumulator values: lane l at offset a0 is the value at byte a0 + 4 l of the block's
accumulator store. A misaligned offset, one out of bounds, and a row named by an incomplete operation are left to the
traps. Log entry 7 is the model's own choice here. -/
def Obligations.AccumulatorWords : Prop :=
  let ok (s : State) (i : Issue) (a0 : Int) : Prop := a0 % 128 = 0 ∧ 0 ≤ a0 ∧ a0 + 128 ≤ (256 * i.blk.hdr.accum : Int) ∧
    rowNamed (s.core i.core) i.bid (a0.toNat / 256) = false
  (∀ c d x imm, doesIf (.lda c d x imm) (vform c (opndRegs x false) [.v d.val])
    (fun s i => i.act ≠ [] ∧ i.bad i.low (opndRegs x false) = false ∧ calm .rlx .none s i ∧ ok s i (i.offset i.low x imm))
    (fun i s => s.updThreads i.bid i.act (fun t y =>
      let k := ((i.offset i.low x imm).toNat + 4 * i.lane t) / 4
      y.putV d.val (i.blk.acc.getD k 0) (i.blk.accBad.contains k))))
  ∧ (∀ c x imm a, doesIf (.sta c x imm a) (vform c (opndRegs x false ++ opndRegs a false) [])
      (fun s i => i.act ≠ [] ∧ i.bad i.low (opndRegs x false) = false ∧ calm .rlx .none s i ∧ ok s i (i.offset i.low x imm))
      (fun i s => eachLane i s (fun s t =>
        let k := ((i.offset i.low x imm).toNat + 4 * i.lane t) / 4
        accStore s i.bid t (k / 64) (k % 64) (i.o32 t a) (i.bad t (opndRegs a false)))))
  ∧ (∀ s bid t row col x bad b, s.block bid = some b → ∃ c, (accStore s bid t row col x bad).block bid = some c ∧
      c.acc = b.acc.set 0 (64 * row + col) x ∧ c.accBad = markNat b.accBad (64 * row + col) bad ∧ c.scr = b.scr ∧
      c.threads = b.threads)

/-! ## Global memory -/

/-- R155 to R161, R241, R248, R251: the walks of the lanes' accesses read their lines; where each active lane's address then
passes its checks, `ld`, `ld.nc`, `st`, `atom` and
`red` make one access in each active lane in ascending lane order: a load lands from the L1 or joins a fill; a store, an
atomic and a reduction are sent to the home slice. Where every active lane's address fails its checks, the lanes take their
traps and nothing else happens; where every lane's page is not present they park on it, with one page fault for each page
(R380). Log entries 7, 20, 21 and 24 are the model's own choices here. -/
def Obligations.GlobalWords : Prop :=
  (∀ c sz ord sc d m (tgt : Nat → Nat) (nc : Nat → Bool) s i s1, let w := vform c (addrRegs m) (szRegs d.val sz)
    let j := w.issue i
    let vas := j.walkVas s j.act (fun t => i.addr t m) (szBytes sz) .load
    let v := j.walk s vas .read
    Ready w s i → j.clean (addrRegs m) → calm .rlx .none s j → j.mayWalk s vas .read →
    (∀ t ∈ w.active i, globalFate v j (i.addr t m) (szBytes sz) (szBytes sz) .load = .go (tgt t) (nc t) ∧
      i.behind v (tgt t) = false) →
    (w.active i).foldlM (fun s t => loadAt (j.cached s (i.addr t m) false) j c
      { tid := t, tids := [t] } (i.addr t m) (tgt t) (nc t) sz (acqScope ord sc) (.v d.val)) v = some s1 →
    Goes (exec (.ld c sz ord sc d m) s) (fun u => u.bare = s1.bare))
  ∧ (∀ c sz sc d m (tgt : Nat → Nat) (nc : Nat → Bool) s i s1, let w := vform c (addrRegs m) (szRegs d.val sz)
      let j := w.issue i
      let vas := j.walkVas s j.act (fun t => i.addr t m) (szBytes sz) .load
      let v := j.walk s vas .read
      Ready w s i → j.clean (addrRegs m) → calm .rlx .none s j → j.mayWalk s vas .read →
      (∀ t ∈ w.active i, globalFate v j (i.addr t m) (szBytes sz) (szBytes sz) .load = .go (tgt t) (nc t) ∧
        i.behind v (tgt t) = false) →
      (w.active i).foldlM (fun s t => loadAt (j.cached s (i.addr t m) false) j c
        { tid := t, tids := [t] } (i.addr t m) (tgt t) true sz .none (.v d.val)) v = some s1 →
      Goes (exec (.ldNc c sz sc d m) s) (fun u => u.bare = s1.bare))
  ∧ (∀ c sz ord sc m a (tgt : Nat → Nat) (nc : Nat → Bool),
      let vas (i : Issue) (s : State) := i.walkVas s i.act (fun t => i.addr t m) (szBytes sz) .store
      doesIf (.st c sz ord sc m a) (vform c (addrRegs m ++ dataRegs a sz) [])
      (fun s i => i.clean (addrRegs m) ∧ calm .rlx .none s i ∧ i.mayWalk s (vas i s) .write ∧
        let v := i.walk s (vas i s) .write
        ∀ t ∈ i.act, globalFate v i (i.addr t m) (szBytes sz) (szBytes sz) .store = .go (tgt t) (nc t) ∧ i.behind v (tgt t) = false ∧
          (tgtDram v (tgt t) = true ∨ i.bad t (dataRegs a sz) = false))
      (fun i s =>
        let v := i.walk s (vas i s) .write
        eachLane i (i.publish v ord i.act) (fun s t =>
          storeAt (i.cached s (i.addr t m) true) i c { tid := t, tids := [t] } (i.addr t m) (tgt t)
            (relScope ord sc) (i.data t a sz) (i.bad t (dataRegs a sz)))))
  ∧ (∀ c k ord sc d m (tgt : Nat → Nat) (nc : Nat → Bool),
      let vas (i : Issue) (s : State) := i.walkVas s i.act (fun t => i.addr t m) (aopBytes k) .atomic
      doesIf (.atom c k ord sc d m) (vform c (addrRegs m ++ atomRegs k d.val) (szRegs d.val (aopSz k)))
      (fun s i => i.clean (addrRegs m) ∧ calm .rlx .none s i ∧ i.mayWalk s (vas i s) .write ∧
        let v := i.walk s (vas i s) .write
        ∀ t ∈ i.act, atomFate v i k (i.addr t m) = .go (tgt t) (nc t) ∧ tgtControl v (tgt t) = false ∧ i.behind v (tgt t) = false ∧
          (tgtDram v (tgt t) = true ∨ i.bad t (atomRegs k d.val) = false))
      (fun i s =>
        let v := i.walk s (vas i s) .write
        eachLane i (i.publish v ord i.act) (fun s t =>
          let ab := i.atomOps k t d.val
          awaitDst (atomicAt (i.cached s (i.addr t m) true) i c { tid := t, tids := [t] } (i.addr t m) (tgt t)
            (acqScope ord sc) (relScope ord sc) (.atomic (tgt t % 64) k ab.1 ab.2 (i.bad t (atomRegs k d.val)) (some d.val)))
            i.bid t (.v d.val) (aopSz k))))
  ∧ (∀ c k ord sc m a (tgt : Nat → Nat) (nc : Nat → Bool),
      let vas (i : Issue) (s : State) := i.walkVas s i.act (fun t => i.addr t m) (aopBytes k) .atomic
      doesIf (.red c k ord sc m a) (vform c (addrRegs m ++ opndRegs a (aopWide k)) [])
      (fun s i => i.clean (addrRegs m) ∧ calm .rlx .none s i ∧ i.mayWalk s (vas i s) .write ∧
        let v := i.walk s (vas i s) .write
        ∀ t ∈ i.act, atomFate v i k (i.addr t m) = .go (tgt t) (nc t) ∧ tgtControl v (tgt t) = false ∧ i.behind v (tgt t) = false ∧
          (tgtDram v (tgt t) = true ∨ i.bad t (opndRegs a (aopWide k)) = false))
      (fun i s =>
        let v := i.walk s (vas i s) .write
        eachLane i (i.publish v ord i.act) (fun s t =>
          atomicAt (i.cached s (i.addr t m) true) i c { tid := t, tids := [t] } (i.addr t m) (tgt t) (acqScope ord sc)
            (relScope ord sc) (.atomic (tgt t % 64) k (i.opnd t a (aopWide k)) 0 (i.bad t (opndRegs a (aopWide k))) none))))
  ∧ (∀ x w k, gWord x = some w → doesIf x w.form
      (fun s i => w.checks s i ∧ ∀ t ∈ i.act, w.fate (w.walked s i) i (i.addr t w.m) = .trap (k t))
      (fun i s => i.trap (w.walked s i) i.act k))
  ∧ (∀ x w, gWord x = some w → doesIf x w.form
      (fun s i => w.checks s i ∧ ∀ t ∈ i.act, w.fate (w.walked s i) i (i.addr t w.m) = .park)
      (fun i s => i.parkPage (w.walked s i) i.act (fun t => i.addr t w.m) (if w.use = .load then 0 else 1) false))

/-- R129: `sld` and `sst` make one access for the whole issue set; where its checks fail, each of its threads takes the trap, and
where its page is not present they park on it, with one page fault that counts once (R155, R380). Log entries 20, 21 and 53 are the
model's own choices here. -/
def Obligations.UniformMemoryWords : Prop :=
  (∀ c sz d a imm tgt nc s i s1, let w := uform c [.s a.val] [.s d.val]
    let j := w.issue i
    let va := i.s a.val + imm.signExtend 64
    let vas := j.walkVas s [j.low] (fun _ => va) (szBytes sz) .load
    let v := j.walk s vas .read
    Ready w s i → w.active i ≠ [] → i.sBad [a.val] = false → acquireOut s i.bid i.run.tids = false → j.mayWalk s vas .read →
    globalFate v j va (szBytes sz) (szBytes sz) .load = .go tgt nc → i.behind v tgt = false →
    loadAt (j.cached v va false) j c { tid := j.low, tids := i.run.tids } va tgt nc sz .none (.s i.slot d.val) = some s1 →
    Goes (exec (.sld c sz d a imm) s) (fun u => u.bare = s1.bare))
  ∧ (∀ c sz a imm b tgt nc,
      let va (i : Issue) : Dword := i.s a.val + imm.signExtend 64
      let vas (i : Issue) (s : State) := i.walkVas s [i.low] (fun _ => va i) (szBytes sz) .store
      doesIf (.sst c sz a imm b) (uform c [.s a.val, .s b.val] [])
      (fun s i => let v := i.walk s (vas i s) .write
        i.act ≠ [] ∧ i.sBad [a.val] = false ∧ acquireOut s i.bid i.run.tids = false ∧ i.mayWalk s (vas i s) .write ∧
        globalFate v i (va i) (szBytes sz) (szBytes sz) .store = .go tgt nc ∧ i.behind v tgt = false ∧
        (tgtDram v tgt = true ∨ i.sBad [b.val] = false))
      (fun i s => storeAt (i.cached (i.walk s (vas i s) .write) (va i) true) i c { tid := i.low, tids := i.run.tids } (va i) tgt .none
        (leBytes (szBytes sz) (i.s b.val).toNat) (i.sBad [b.val])))
  ∧ (∀ x c sz (a : SReg) (imm : BitVec 22) rd wr u,
      ((∃ d, x = .sld c sz d a imm ∧ rd = [.s a.val] ∧ wr = [.s d.val] ∧ u = .load) ∨
        (∃ b, x = .sst c sz a imm b ∧ rd = [.s a.val, .s b.val] ∧ wr = [] ∧ u = .store)) →
      let va (i : Issue) : Dword := i.s a.val + imm.signExtend 64
      let vas (i : Issue) (s : State) := i.walkVas s [i.low] (fun _ => va i) (szBytes sz) u
      let v (i : Issue) (s : State) := i.walk s (vas i s) u.acc
      let pre (s : State) (i : Issue) : Prop := i.act ≠ [] ∧ i.sBad [a.val] = false ∧ acquireOut s i.bid i.run.tids = false ∧
        i.mayWalk s (vas i s) u.acc
      (∀ k, doesIf x (uform c rd wr) (fun s i => pre s i ∧ globalFate (v i s) i (va i) (szBytes sz) (szBytes sz) u = .trap k)
        (fun i s => i.trap (v i s) i.run.tids (fun _ => k))) ∧
      doesIf x (uform c rd wr) (fun s i => pre s i ∧ globalFate (v i s) i (va i) (szBytes sz) (szBytes sz) u = .park)
        (fun i s => i.parkPage (v i s) i.run.tids (fun _ => va i) (if u = .load then 0 else 1) true))

/-- R156, R158, R248, R251: what one access does to device memory's home. A load that hits its core's L1 lands at once; one that
misses joins the entry of the fill tracker for its line that is on its way, or takes a new one at the end and sends its read behind
the core's earlier requests, and finds no room while all entries are in use; a store updates the line that its L1 holds and the
bytes of a fill on its way, and is sent with its bytes; none of them changes memory. Log entries 7, 20 and 21 are the model's own
choices here. -/
def Obligations.AccessPaths : Prop :=
  (∀ s i c p va tgt sz d x, tgtDram s tgt = true → (s.core i.core).l1.get? (tgt / 64) = some x → x.priv = none →
    s.gtime < x.time + 100000 →
    loadAt s i c p va tgt false sz .none d = some (landLoad s i.bid p.tid p.tids d sz
      ((x.data.drop (tgt % 64)).take (szBytes sz)) x.bad))
  ∧ (∀ s i c p va tgt nc sz acq d s1, loadAt s i c p va tgt nc sz acq d = some s1 → s1.mem = s.mem)
  ∧ (∀ s i c p va tgt nc sz acq d, tgtDram s tgt = true → l1Hit s i.core (tgt / 64) nc acq = none →
      let k := s.core i.core
      let line := tgt / 64
      let lanes := p.tids ++ i.act
      let joins (f : Fill) : Prop := f.line = line ∧ f.install = true ∧ mayJoin s k f i.bid lanes = true
      let j : Join := { bid := i.bid, tid := p.tid, tids := p.tids, va := va, dst := d, sz := sz, off := tgt % 64,
                        tok := c.tok.toNat, acq := acq, seq := s.seq }
      ((∃ f ∈ k.fills, joins f) → ∃ u, loadAt s i c p va tgt nc sz acq d = some u ∧ (u.core i.core).reqs = k.reqs ∧
        (u.core i.core).fills.length = k.fills.length ∧ ∀ (n : Nat) (f : Fill), k.fills[n]? = some f →
          (joins f → (u.core i.core).fills[n]? = some { f with nc := f.nc && nc, joins := f.joins ++ [j] }) ∧
          (¬ joins f → (u.core i.core).fills[n]? = some f)) ∧
      ((∀ f ∈ k.fills, ¬ joins f) → k.fills.length < Config.fillEntries →
        ∃ u, loadAt s i c p va tgt nc sz acq d = some u ∧
          (∃ f r, (u.core i.core).fills.getLast? = some f ∧ f.line = line ∧ f.joins = [j] ∧ f.seq = s.seq ∧ f.reply = none ∧
            (u.core i.core).reqs = k.reqs ++ [r] ∧ r.line = line ∧ r.kind = .read ∧ r.seq = s.seq)) ∧
      ((∀ f ∈ k.fills, ¬ joins f) → Config.fillEntries ≤ k.fills.length → loadAt s i c p va tgt nc sz acq d = none))
  ∧ (∀ s i c p va tgt rel bytes bad, tgtDram s tgt = true →
      let t := storeAt s i c p va tgt rel bytes bad
      let r : Req := { seq := s.seq, time := s.gtime, va := va, line := tgt / 64, bid := i.bid, tid := p.tid, tids := p.tids,
                       tok := ctlToken c, acq := .none, rel := rel, who := .thread, kind := .write (tgt % 64) bytes bad }
      t.mem = s.mem ∧ (t.core i.core).reqs = (s.core i.core).reqs ++ [r] ∧
      (rel = .none → ∀ x, (s.core i.core).l1.get? (tgt / 64) = some x → x.priv = none →
        (t.core i.core).l1.get? (tgt / 64) = some { x with data := overlay x.data (tgt % 64) bytes, bad := x.bad || bad }))
  ∧ (∀ data off bytes k, off + bytes.length ≤ data.length →
      (overlay data off bytes)[k]? = if off ≤ k ∧ k < off + bytes.length then bytes[k - off]? else data[k]?)

/-- R157, R171 to R174: a fence issues when what it waits for has performed; an acquire at die scope or wider empties
the L1 of clean global lines; `efence` releases and acquires; `cinv` drops the lines of a range, `cwb` writes back a
thread's private lines. Log entries 21, 22, 46 and 57 are the model's own choices here. -/
def Obligations.FenceWords : Prop :=
  (∀ c ord sc, doesIf (.fence c ord sc) (vform c [] [])
    (fun s i => i.act ≠ [] ∧ calm ord sc s i ∧ (ordAcq ord = true → loadOut s i.bid i.act s.seq = false))
    (fun i s =>
      let s1 := if ordRel ord then publishStas s i.bid i.act [atFence] else s
      let s2 := if ordAcq ord && wideScope sc then s1.updCore i.core Core.invalGlobal else s1
      if ordAcq ord then learnAt s2 i.bid i.act (fun p => widePlace p || decide (atScr 0 ≤ p)) else s2))
  ∧ (∀ c sc, doesIf (.efence c sc) (vform c [] []) (fun s i => i.act ≠ [] ∧ calm .rel sc s i)
      (fun i s =>
        let s1 := fenceStas s i.bid i.slot i.act
        if wideScope sc then s1.updCore i.core Core.invalGlobal else s1))
  ∧ (∀ c x imm b,
      let va (i : Issue) (t : Nat) : Dword := i.opnd t x true + imm.signExtend 64
      let n (i : Issue) (t : Nat) : Nat := if 262144 ≤ (i.o32 t b).toNat then 0 else (i.o32 t b).toNat
      doesIf (.cinv c x imm b) (vform c (opndRegs x true ++ opndRegs b false) [])
      (fun s i => i.clean (opndRegs x true ++ opndRegs b false) ∧ calm .rlx .none s i ∧
        ∀ t ∈ i.act, pagesRoom s i.blk.ctx (va i t) (n i t) = true)
      (fun i s => eachLane i s (fun s t =>
        cinvRange (touchPages s i.blk.ctx (va i t) (n i t)) i.core i.blk.ctx (va i t).toNat (i.o32 t b).toNat)))
  ∧ (∀ c x imm b,
      let lines (i : Issue) (s : State) (t : Nat) : List Nat :=
        let first := (i.offset t x imm).toNat
        let n := (i.offset t x imm + (i.o32 t b).toNat).toNat - first
        (s.core i.core).privOf i.bid (privLines i t first n)
      doesIf (.cwb c x imm b) (vform c (opndRegs x false ++ opndRegs b false) [])
      (fun s i => i.clean (opndRegs x false ++ opndRegs b false) ∧ calm .rlx .none s i ∧
        ∀ t ∈ i.act, ∀ l ∈ lines i s t, canWriteBack s i.core l = true)
      (fun i s => eachLane i s (fun s t => (lines i s t).foldl (fun s l => writeBack s i.core l) s)))
  ∧ (∀ (k : Core) n x, k.invalGlobal.l1.get? n = some x → x.priv ≠ none)

/-! ## Waits, monitors and tickets -/

/-- R175 to R177: where each active lane's address passes its checks, `waitc` arms a monitor on each lane's line, makes the lane
wait and sends the read of its first evaluation; `mon` arms a monitor; `mwait` lets a lane go on that has none or whose monitor
has been signalled, with an order after its earlier loads, and makes the others wait until their deadline. Log entries 16 and 44
are the model's own choices here. -/
def Obligations.WatchWords : Prop :=
  (∀ c cc uns ord sc x cmp t (tgt : Nat → Nat) (nc : Nat → Bool),
    let rd := opndRegs x true ++ opndRegs cmp false ++ opndRegs t false
    ∀ s i s1, let w := vform c rd []
    let j := w.issue i
    let vas := j.walkVas s j.act (fun l => i.opnd l x true) 4 .load
    let v := j.walk s vas .read
    Ready w s i → j.clean rd → calm .rlx .none s j → j.mayWalk s vas .read →
    (∀ l ∈ w.active i, globalFate v j (i.opnd l x true) 4 4 .load = .go (tgt l) (nc l) ∧ i.behind v (tgt l) = false) →
    (w.active i).foldlM (fun s l =>
      let s0 := armMon (j.cached s (i.opnd l x true) false) i.bid l (i.opnd l x true) (tgt l)
      sendEval (i.startWait s0 [l] (fun _ =>
        { i.waitRec (.watch (i.opnd l x true) (tgt l) cc uns (i.o32 l cmp) ord) (deadlineOf s (i.o32 l t).toNat)
            (acqScope ord sc) with poll := pollOf s0 i.bid l })) i.core i.bid l (i.opnd l x true) (tgt l)) v = some s1 →
    Goes (exec (.waitc c cc uns ord sc x cmp t) s) (fun u => u.bare = s1.bare))
  ∧ (∀ (uns : Bool) (v cmp : Word), let n (x : Word) : Int := if uns then x.toNat else x.toInt
      watchHolds .eq uns v.toNat cmp = decide (v = cmp) ∧ watchHolds .ne uns v.toNat cmp = decide (v ≠ cmp)
      ∧ watchHolds .lt uns v.toNat cmp = decide (n v < n cmp) ∧ watchHolds .le uns v.toNat cmp = decide (n v ≤ n cmp)
      ∧ watchHolds .gt uns v.toNat cmp = decide (n cmp < n v) ∧ watchHolds .ge uns v.toNat cmp = decide (n cmp ≤ n v))
  ∧ (∀ c x imm (tgt : Nat → Nat) (nc : Nat → Bool),
      let va (i : Issue) (l : Nat) : Dword := i.opnd l x true + imm.signExtend 64
      let vas (i : Issue) (s : State) := i.walkVas s i.act (va i) 1 .load
      doesIf (.mon c x imm) (vform c (opndRegs x true) [])
      (fun s i => i.clean (opndRegs x true) ∧ calm .rlx .none s i ∧ i.mayWalk s (vas i s) .read ∧
        let v := i.walk s (vas i s) .read
        ∀ l ∈ i.act, monFate v i (va i l) = .go (tgt l) (nc l) ∧ i.behind v (tgt l) = false)
      (fun i s => eachLane i (i.walk s (vas i s) .read) (fun s l =>
        armMon (i.cached s (va i l) false) i.bid l (va i l) (tgt l))))
  ∧ (∀ c ord sc t, doesIf (.mwait c ord sc t) (vform c (opndRegs t false) [])
      (fun s i => i.clean (opndRegs t false) ∧ calm .rlx .none s i ∧ (ordAcq ord = true →
        loadOut s i.bid (i.act.filter (fun l => !((monOf s i.bid l).map (fun m => !m.hit)).getD false)) s.seq = false))
      (fun i s =>
        let waits (l : Nat) : Bool := ((monOf s i.bid l).map (fun m => !m.hit)).getD false
        let go := i.act.filter (fun l => !waits l)
        let s1 := go.foldl (fun s l => disarm s i.bid l) s
        let s2 := if go.isEmpty then s1 else acquireBy s1 i.core i.bid go (acqScope ord sc)
        i.startWait s2 (i.act.filter waits) (fun l =>
          { i.waitRec (.mwait ord) (deadlineOf s (i.o32 l t).toNat) (acqScope ord sc) with poll := pollOf s i.bid l })))

/-- R179 to R183: where each active lane's ticket word passes its checks, `tktake` asks its home for the next ticket,
`tkserve` asks it to serve the next one and ends the block's boost on it, `tkwait` waits for its ticket. Log entry 20 is
the model's own choice here. -/
def Obligations.TicketWords : Prop :=
  (∀ c d x imm (tgt : Nat → Nat) (nc : Nat → Bool),
    let va (i : Issue) (l : Nat) : Dword := i.opnd l x true + imm.signExtend 64
    let vas (i : Issue) (s : State) := i.walkVas s i.act (va i) 16 .atomic
    doesIf (.tktake c d x imm) (vform c (opndRegs x true) [.v d.val])
      (fun s i => i.clean (opndRegs x true) ∧ calm .rlx .none s i ∧ i.mayWalk s (vas i s) .write ∧
        let v := i.walk s (vas i s) .write
        ∀ l ∈ i.act, globalFate v i (va i l) 16 16 .atomic = .go (tgt l) (nc l) ∧ tgtControl v (tgt l) = false ∧
          i.behind v (tgt l) = false)
      (fun i s => eachLane i (i.walk s (vas i s) .write) (fun s l =>
        awaitDst (atomicAt (i.cached s (va i l) true) i c { tid := l, tids := [l] } (va i l) (tgt l) .none
          .none (.take (tgt l % 64) d.val)) i.bid l (.v d.val) .b32)))
  ∧ (∀ c ord sc x imm (tgt : Nat → Nat) (nc : Nat → Bool),
      let va (i : Issue) (l : Nat) : Dword := i.opnd l x true + imm.signExtend 64
      let vas (i : Issue) (s : State) := i.walkVas s i.act (va i) 16 .atomic
      doesIf (.tkserve c ord sc x imm) (vform c (opndRegs x true) [])
      (fun s i => i.clean (opndRegs x true) ∧ calm .rlx .none s i ∧ i.mayWalk s (vas i s) .write ∧
        let v := i.walk s (vas i s) .write
        ∀ l ∈ i.act, globalFate v i (va i l) 16 16 .atomic = .go (tgt l) (nc l) ∧ tgtControl v (tgt l) = false ∧
          i.behind v (tgt l) = false)
      (fun i s => eachLane i (i.publish (i.walk s (vas i s) .write) ord i.act) (fun s l =>
        let s0 := i.cached s (va i l) true
        atomicAt (endBoost s0 i.bid (ticketKey s0 (tgt l))) i c { tid := l, tids := [l] } (va i l) (tgt l) .none
          (relScope ord sc) (.serve (tgt l % 64) false))))
  ∧ (∀ c ord sc x imm t (tgt : Nat → Nat) (nc : Nat → Bool),
      let va (i : Issue) (l : Nat) : Dword := i.opnd l x true + imm.signExtend 64
      let vas (i : Issue) (s : State) := i.walkVas s i.act (va i) 16 .atomic
      doesIf (.tkwait c ord sc x imm t) (vform c (opndRegs x true ++ opndRegs t false) [])
      (fun s i => i.clean (opndRegs x true ++ opndRegs t false) ∧ calm .rlx .none s i ∧ i.mayWalk s (vas i s) .write ∧
        let v := i.walk s (vas i s) .write
        ∀ l ∈ i.act, globalFate v i (va i l) 16 16 .atomic = .go (tgt l) (nc l) ∧ i.behind v (tgt l) = false)
      (fun i s => eachLane i (i.walk s (vas i s) .write) (fun s l =>
        let s0 := i.cached s (va i l) true
        let s1 := armMon (s0.updCore i.core (fun k => k.invalLine (tgt l / 64))) i.bid l (va i l) (tgt l)
        i.startWait s1 [l] (fun _ =>
          { i.waitRec (.ticket (va i l) (tgt l) (i.o32 l t) ord) 0 (acqScope ord sc) with
              poll := if tgtHost s0 (tgt l) then Nat.max 1 s0.gtime else pollOf s1 i.bid l }))))

/-! ## Barriers -/

/-- R185 to R188, R190: `binit` sets a barrier that nothing uses; `barr` and `bsync` wait for the phase their lanes
arrive in, and `bsync` adds the operations accepted before; `bwait` goes on when the phase it names has completed and
waits otherwise; `cbar` waits for its cohort. R400: an arrival that completes a phase, with no engine operation left to
wait for, counts the phase and releases every thread that waited for it; an earlier one only counts. Log entry 16 is the
model's own choice here. -/
def Obligations.BarrierWords : Prop :=
  (∀ c n k, doesIf (.binit c n k) (vform c (opndRegs n false ++ opndRegs k false) [])
    (fun s i => i.act ≠ [] ∧ calm .rlx .none s i ∧ barBusy s i.core i.bid ((i.o32 i.low n).toNat % 16) = false)
    (fun i s => s.updBlock i.bid (fun b =>
      b.setBar ((i.o32 i.low n).toNat % 16) { c := (i.o32 i.low k).toNat % 4096, a := 0, p := 0, ops := [] })))
  ∧ (∀ c sc n, doesIf (.barr c sc n) (vform c (opndRegs n false) [])
      (fun s i => i.act ≠ [] ∧ calm .acqrel sc s i)
      (fun i s => 
        let k := (i.o32 i.low n).toNat % 16
        eachLane i (publishStas s i.bid i.act [k]) (arriveLane i sc k)))
  ∧ (∀ c sc n, doesIf (.bsync c sc n) (vform c (opndRegs n false) [])
      (fun s i => i.act ≠ [] ∧ calm .acqrel sc s i)
      (fun i s =>
        let k := (i.o32 i.low n).toNat % 16
        eachLane i ((publishStas s i.bid i.act [k]).updBlock i.bid (fun b =>
          b.setBar k { b.bar k with ops := (opsOf s i.core i.bid).foldl addNat (b.bar k).ops })) (arriveLane i sc k)))
  ∧ (∀ c sc n k, doesIf (.bwait c sc n k) (vform c (opndRegs n false ++ opndRegs k false) [])
      (fun s i => i.act ≠ [] ∧ i.bad i.low (opndRegs k false) = false ∧ calm .rlx .none s i)
      (fun i s =>
        let j := (i.o32 i.low n).toNat % 16
        let ph : BitVec 16 := (i.o32 i.low k).setWidth 16
        if phaseDone (i.blk.bar j).p ph then learnAt (acquireAt s i.core sc) i.bid i.act (· == atDone j)
        else i.startWait s i.act (fun _ => i.waitRec (.phase j ph) 0 sc)))
  ∧ (∀ c sc slot, let sc1 : Scope := if sc = .none then .dev else sc
      doesIf (.cbar c sc slot) (vform c [] [])
      (fun s i => i.act ≠ [] ∧ slot.toNat < i.blk.coh.length ∧ calm .acqrel sc1 s i)
      (fun i s => cbarArrive (i.startWait (publishStas s i.bid i.act [atHome]) i.act (fun _ => i.waitRec (.cbar slot.toNat) 0 sc1))
        i.bid))
  ∧ (∀ s bid n b, s.block bid = some b → (b.bar n).ops = [] →
    (if (b.bar n).c = 0 then b.live.length ≤ (b.bar n).a + 1 else (b.bar n).c ≤ (b.bar n).a + 1) →
    ∃ c, (barArrive s bid n).block bid = some c ∧ c.bar n = { b.bar n with a := 0, p := (b.bar n).p + 1 } ∧
      ∀ t y r, b.thread t = some y → y.status = .waiting r → r.wave = none → r.kind = .barr n (b.bar n).p.toNat →
        ∃ z, c.thread t = some z ∧ (z.status = .eligible ∨ ∃ at_, z.status = .waiting { r with wave := some at_ }))
  ∧ (∀ s bid n b, s.block bid = some b →
      ¬ (if (b.bar n).c = 0 then b.live.length ≤ (b.bar n).a + 1 else (b.bar n).c ≤ (b.bar n).a + 1) →
      barArrive s bid n = s.updBlock bid (fun b => b.setBar n { b.bar n with a := (b.bar n).a + 1 }))
  ∧ (∀ p k : BitVec 16, phaseDone p k = true ↔ ∃ d : Nat, 1 ≤ d ∧ d ≤ 32767 ∧ p = k + BitVec.ofNat 16 d)

/-! ## Convoys and paced steps -/

/-- R191 to R194: `cvjoin` joins at position 0, `cvleave` leaves, and a `cvld` that nothing holds reads each lane's word of its
line, 0 past the end, and advances the position. A `cvld` that would run more than the slip ahead of the slowest other active
member, which has lines left, is held: its issue set is parked where it is (R25, R261). Log entries 7, 20, 21 and 59 are the
model's own choices here. -/
def Obligations.ConvoyWords : Prop :=
  (∀ c slot x imm n id, doesIf (.cvjoin c slot x imm n) (vform c (opndRegs x true ++ opndRegs n false) [])
    (fun s i => i.act ≠ [] ∧ i.bad i.low (opndRegs x true ++ opndRegs n false) = false ∧ calm .rlx .none s i ∧
      convoySlot s i.blk slot.toNat = some id ∧ (i.opnd i.low x true + imm.signExtend 64).toNat % 64 = 0 ∧
      i.o32 i.low n ≠ 0)
    (fun i s => convoyJoin s i.bid id (i.opnd i.low x true + imm.signExtend 64) (i.o32 i.low n).toNat))
  ∧ (∀ c, doesIf (.cvleave c) (vform c [] []) (fun _ i => i.act ≠ []) (fun i s => convoyLeave s i.bid))
  ∧ (∀ c d two s i co m id (tgt : Nat → Nat) (nc : Nat → Bool) s1, let w := vform c [] [.v d.val]
      let j := w.issue i
      let line (t : Nat) : Option Dword := cvLine j m two t
      let reads := j.act.filter (fun t => (line t).isSome)
      let vas := j.walkVas s reads (fun t => (line t).getD 0) 64 .load
      let v := j.walk s vas .read
      Ready w s i → j.act ≠ [] → calm .rlx .none s j → convoyOf s i.blk = some (co, m) → i.blk.convoy = some id →
      convoyHeld co i.blk.idx m (cvCount two) = false → (∀ e ∈ i.blk.threads, e.1 ∈ j.act → e.2.cvline = none) →
      j.mayWalk s vas .read →
      (∀ t ∈ j.act, ∀ va, line t = some va → globalFate v j va 64 64 .load = .go (tgt t) (nc t) ∧
        i.behind v (tgt t) = false) →
      reads.foldlM (fun s t =>
        loadAt (j.cached s ((line t).getD 0) false) j c { tid := t, tids := [t] } ((line t).getD 0)
          (tgt t + 4 * (i.lane t % 16)) true .b32 .none (.v d.val))
        (v.updThreads i.bid (j.act.filter (fun t => (line t).isNone)) (fun _ y => y.putV d.val 0 false)) = some s1 →
      Goes (exec (.cvld c d two) s) (fun u => u.bare = (updMember s1 i.blk.launch id i.blk.idx (fun m =>
        { m with pos := Nat.min (m.pos + cvCount two) m.count, adv := s.gtime,
                 parked := m.parked.filter (fun h => h.1 != i.slot) })).bare))
  ∧ (∀ c d two s i co m, let w := vform c [] [.v d.val]
      Ready w s i → w.active i ≠ [] → (∀ e ∈ i.blk.threads, e.1 ∈ w.active i → e.2.cvline = none) →
      convoyOf s i.blk = some (co, m) → m.active = true →
      (∃ l, lowestOther co i.blk.idx = some (l, true) ∧ l + co.slip < m.pos + cvCount two) →
      exec (.cvld c d two) s = .next (holdCvld s (w.issue i) two))
  ∧ (∀ s i two, (∀ t ∈ i.run.tids, ∀ y, s.thread i.bid t = some y → ∃ z, (holdCvld s i two).thread i.bid t = some z ∧
      z.status = .parked .issue ∧ z.pc = y.pc ∧ z.v = y.v) ∧ (holdCvld s i two).mem = s.mem)

/-- R195, R196, R344 to R346: `stepn` in a paced block makes its lanes wait for the step; `ldnb` reads a word of another block's
step slot where that block's step admits it, and acquires what that block has published (R272). Log entries 7 and 59 are the
model's own choices here. -/
def Obligations.PacedWords : Prop :=
  (∀ c, doesIf (.stepn c) (vform c [] [])
    (fun s i => i.act ≠ [] ∧ i.blk.paced = true ∧ i.blk.step ≠ 0xFFFFFFFF#32 ∧ calm .acqrel (paceScope s i.blk) s i)
    (fun i s => stepnCheck (i.startWait s i.act (fun _ => i.waitRec .stepn 0 (paceScope s i.blk))) i.bid))
  ∧ (∀ c d o t u idx xb x, let rd := opndRegs o false ++ opndRegs t false
      doesIf (.ldnb c d o t u) (vform c rd [.v d.val])
      (fun s i => i.act ≠ [] ∧ i.clean rd ∧ calm .rlx .none s i ∧ i.blk.paced = true ∧
        (coh0Members s i.blk)[u.toNat]? = some idx ∧ (i.blk.coh[0]?).map (·.idx) ≠ some u.toNat ∧
        s.goneIn i.blk.launch idx = false ∧ s.blockOf i.blk.launch idx = some (xb, x) ∧
        ∀ l ∈ i.act, (i.o32 l o).toNat % 4 = 0 ∧ (i.o32 l o).toNat + 4 ≤ i.blk.hdr.pslot ∧
          (i.o32 l t).toNat + 1 ≤ x.step.toNat ∧ x.step.toNat ≤ (i.o32 l t).toNat + i.blk.hdr.pskew + 1)
      (fun i s => (acquireBy s i.core i.bid i.act (paceScope s i.blk)).updThreads i.bid i.act (fun l y =>
        let at_ := (i.o32 l t).toNat % (i.blk.hdr.pskew + 1) * i.blk.hdr.pslot + (i.o32 l o).toNat
        y.putV d.val (BitVec.ofNat 32 (x.scrNum at_ 4)) (x.rangeBad at_ 4))))
  ∧ (∀ s bid b, s.block bid = some b → b.live ≠ [] → b.published = false →
      (∀ e ∈ b.live, ∃ r, e.2.status = .waiting r ∧ r.wave = none ∧ r.kind = .stepn) →
      releaseReady s b.core bid b.threads.keys (paceScope s b) s.seq = true →
      ∃ c, (stepnCheck s bid).block bid = some c ∧ c.step = b.step + 1)

/-! ## Engine words -/

/-- R25, R40, R157, R198, R199, R347: a ready engine word whose parameters can be read is accepted once, by the elected thread, when
its checks pass, its issue set has no scratchpad release still to perform, and the core has room; while the core has none, or a status
field that it initialises lies in a held step slot, its issue set is parked with what the word has captured, and is accepted with that
afterwards; when a check fails, the elected thread alone raises ENGFLT with the check's code. Log entry 30 is the model's own choice
here. -/
def Obligations.EngineWords : Prop :=
  let reads (w : EWord) (s : State) (i : Issue) : Prop := i.fr.ehold = none ∧ i.act ≠ [] ∧ relsOf s i.bid i.run.tids = [] ∧
    auditStops s i w.opc = false ∧ w.sound i
  (∀ x w p, engineWord x = some w → doesIf x w.form
    (fun s i => reads w s i ∧ w.verdict i (w.off i) (w.words i) = .go p ∧ i.takes s p = true)
    (fun i s => i.accept s w.c w.e w.opc (d64 (w.off i)) p))
  ∧ (∀ x w p s i, engineWord x = some w → Ready w.form s i → reads w s (w.form.issue i) →
      w.verdict (w.form.issue i) (w.off i) (w.words i) = .go p →
      i.takes s p = false → exec x s = .next ((w.form.issue i).hold s (d64 (w.off i)) p))
  ∧ (∀ x w s i, engineWord x = some w → Ready w.form s i → i.fr.ehold = none → w.form.active i ≠ [] →
      relsOf s i.bid i.run.tids ≠ [] → exec x s = .next s)
  ∧ (∀ x w h s i, engineWord x = some w → s.issue? = some i → i.fr.ehold = some h →
      (i.takes s h.plan = true → Goes (exec x s) (fun u => u.bare =
        ({ i with act := i.run.tids.take 1 }.accept s w.c w.e w.opc h.parm h.plan).bare))
      ∧ (i.takes s h.plan = false → exec x s = .next s))
  ∧ (∀ (i : Issue) s p, i.takes s p = true ↔ (s.core i.core).takesOp i.bid p = true ∧
      (slotHeld s i.blk = true → ∀ w ∈ p.init, inSlot i.blk w.1 w.2.length = false))
  ∧ (∀ x w k, engineWord x = some w → doesIf x w.form
      (fun s i => reads w s i ∧ w.verdict i (w.off i) (w.words i) = .fault k)
      (fun i s =>
        let cause : Cause := { bit := 19, addr := d64 (w.off i), info := d64 (256 * w.opc + k) }
        takeTrap s i.bid i.slot [{ tid := i.low, causes := [cause], epc := i.run.clause, eslot := i.run.pos }]))

/-- R40, R67, R198, R206: acceptance appends the operation to the core's queue with its captured parameters, locks its ranges,
clears the presence bits of its lines, and sets its token once more in every thread of the issue set. The place of the new locks
at the end of the list is log entry 25's; log entry 30 is a choice of the model here too. -/
def Obligations.Acceptance : Prop :=
  ∀ (i : Issue) s c e opc parm p b, s.block i.bid = some b → p.init = [] →
    let t := i.accept s c e opc parm p
    let o := i.opOf s c e opc parm p
    (t.core i.core).queue = (s.core i.core).queue ++ [o]
    ∧ (t.core i.core).locks = (s.core i.core).locks ++
        p.ranges.map (fun r => { op := s.seq, ctx := i.blk.ctx, lo := r.1, hi := r.2.1, dest := r.2.2 })
    ∧ (∃ d, t.block i.bid = some d ∧ d.scr = b.scr ∧ d.acc = b.acc ∧
        ∀ l, (l ∈ d.absent ↔ l ∈ p.lines ∨ l ∈ b.absent))
    ∧ (∀ k y, s.thread i.bid k = some y → ∃ z, t.thread i.bid k = some z ∧
        z.getTok c.tok.toNat = (if c.set ∧ k ∈ i.run.tids then y.getTok c.tok.toNat + 1 else y.getTok c.tok.toNat))
    ∧ t.mem = s.mem

/-- R207, R232, R233, R295, R296: taking a free matrix array with no take waiting makes the block its owner, an owner's
release frees it, an owner's pass makes a resident block of its launch the owner or frees it, a take that must wait
parks its issue set (R25); `lwait` makes its issue set wait, with a monitor on its word, and sends the read of its
first evaluation; `coll` first asks for the 64 bytes of its parameter block, and is accepted with their words. Log
entries 30 and 52 are the model's own choices here. -/
def Obligations.OwnershipAndWaits : Prop :=
  (∀ c, doesIf (.mxownTake c) (uform c [] [])
    (fun s i => i.act ≠ [] ∧ (s.core i.core).owner = none ∧ (s.core i.core).takes = [])
    (fun i s => grantArray s i.core i.bid))
  ∧ (∀ c, doesIf (.mxownTake c) (uform c [] []) (fun s i => (s.core i.core).owner = some i.bid) (fun _ s => s))
  ∧ (∀ c s i, Ready (uform c [] []) s i → (uform c [] []).active i ≠ [] →
      (∃ o, (s.core i.core).owner = some o ∧ o ≠ i.bid) →
      (s.core i.core).takes.any (fun t => t.1 == i.bid && t.2 == i.slot) = false →
      exec (.mxownTake c) s = .next ((s.updThreads i.bid i.run.tids (fun _ y => { y with status := .parked .issue })).updCore i.core
        (fun k => { k with takes := k.takes ++ [(i.bid, i.slot)] })))
  ∧ (∀ c r bid b, doesIf (.mxownPass c r) (uform c [.s r.val] [])
      (fun s i => i.act ≠ [] ∧ i.sBad [r.val] = false ∧ (s.core i.core).owner = some i.bid ∧
        s.blockOf i.blk.launch (lo32 (i.s r.val)).toNat = some (bid, b))
      (fun i s => if b.core? = some i.core then grantArray s i.core bid
        else s.updCore i.core (fun k => { k with owner := none })))
  ∧ (∀ c, doesIf (.mxownRelease c) (uform c [] [])
      (fun s i => i.act ≠ [] ∧ (s.core i.core).owner = some i.bid)
      (fun i s => s.updCore i.core (fun k => { k with owner := none })))
  ∧ (∀ c r tgt nc s i s1, let w := uform c [.s r.val] []
      let j := w.issue i
      let low := j.low
      let vas := j.walkVas s [low] (fun _ => i.s r.val) 4 .load
      let s0 := armMon (j.walk s vas .read) i.bid low (i.s r.val) tgt
      Ready w s i → w.active i ≠ [] → i.sBad [r.val] = false → auditStops s i 0x22 = false →
      acquireOut s i.bid i.run.tids = false → j.mayWalk s vas .read →
      globalFate (j.walk s vas .read) j (i.s r.val) 4 4 .load = .go tgt nc →
      sendEval (i.startWait s0 i.run.tids (fun _ =>
        { i.waitRec (.lwait (i.s r.val) tgt) 0 .dev with poll := pollOf s0 i.bid low })) i.core i.bid low (i.s r.val) tgt = some s1 →
      Goes (exec (.lwait c r) s) (fun u => u.bare = s1.bare))
  ∧ (∀ c e r tgt nc s i s1, let w := uform c [.s r.val] []
      let j := w.issue i
      let v := j.walk s [i.s r.val] .read
      Ready w s i → i.fr.ehold = none → i.fr.eblk = none → w.active i ≠ [] → relsOf s i.bid i.run.tids = [] →
      i.sBad [r.val] = false → auditStops s i 0x30 = false → (i.s r.val).toNat % 64 = 0 → acquireOut s i.bid [j.low] = false → j.mayWalk s [i.s r.val] .read →
      globalFate v j (i.s r.val) 64 64 .load = .go tgt nc → i.behind v tgt = false →
      askBlock (tlbFill v i.core i.blk.ctx (i.s r.val).toNat) j (i.s r.val) tgt nc = some s1 →
      exec (.coll c e r) s = .next s1)
  ∧ (∀ c e r g p, doesIf (.coll c e r) (uform c [.s r.val] [])
      (fun s i => i.fr.ehold = none ∧ i.fr.eblk = some (some g) ∧ i.act ≠ [] ∧ relsOf s i.bid i.run.tids = [] ∧
        g.data ≠ [] ∧ g.bad = false ∧ collVerdict s e i (wordsOf g.data) = .go p ∧ i.takes s p = true)
      (fun i s => i.accept s c e 0x30 (i.s r.val) p))

/-! ## Engine execution -/

/-- R200, R207, R209 to R212, R219, R296, R303, R304: the steps of the matrix stream on banks and rows: a load takes its header's
fields into a filling bank and then fills it, an eviction passes through evicting to empty, a change of context takes every
bank there, a report writes the banks' registers, `mxzero` clears accumulator rows, and a free array goes to the oldest
waiting take. Log entry 25 is the model's own choice here. -/
def Obligations.MatrixSteps : Prop :=
  (∀ core s o n b, matrixHead s core = some o → o.kind = .mxload n → s.block o.bid = some b →
    exec (.mxloadExec core) s = .next (loadStep s core o n b)
    ∧ (∀ h, o.stage = 0 → b.rangeAbsent o.parm.toNat 64 = false → (b.scrAs o s.free).cwt o.parm.toNat = some h →
        ¬ (h.cls = 1 ∧ n % 2 = 1) →
        (targetBanks n h.cls).any (fun k => ((s.core core).banks.get? k).any (fun b => b.cls == 1)) = false →
        ((loadStep s core o n b).core core).banks =
          beginFill (endEvict (s.core core).banks) n h ((b.scrAs o s.free).rangeBad o.parm.toNat 64))
    ∧ (o.stage = 2 → let h := cwtOf o.parm.toNat (o.keep / 2)
        b.rangeAbsent o.parm.toNat (cwtSize h.cls) = false →
        ((loadStep s core o n b).core core).banks = endFill (s.core core).banks n h.cls ((b.scrAs o s.free).cwtElems h)
          ((b.scrAs o s.free).rangeBad (o.parm.toNat + 64) (cwtSize h.cls - 64))))
  ∧ (∀ core s o n, matrixHead s core = some o → o.kind = .mxevict n → n < 8 →
      (o.stage = 0 ∧ ((s.core core).banks.get? n).isSome = true →
        exec (.mxevictExec core) s = .next (toStage (updBanks s core (fun m => beginEvict m n)) core o.id 1))
      ∧ (o.stage ≠ 0 ∨ (s.core core).banks.get? n = none →
        exec (.mxevictExec core) s = .next (endOp (updBanks s core endEvict) core o.id none)))
  ∧ (∀ core s o n, matrixHead s core = some o → o.kind = .mxevict n → 8 ≤ n →
      (o.stage = 0 ∧ (s.core core).banks ≠ [] → exec (.bankEmptying core) s = .next (toStage (updBanks s core (fun m =>
        m.mapVal (fun _ b => { b with st := 3 }))) core o.id 1))
      ∧ (o.stage ≠ 0 ∨ (s.core core).banks = [] →
        Goes (exec (.bankEmptying core) s) (fun t => (t.core core).banks = [] ∧ t.mem = s.mem ∧ t.blocks = s.blocks)))
  ∧ (∀ core s o, matrixHead s core = some o → o.kind = .mxres →
      exec (.mxresExec core) s = .next (endOp (s.updBlock o.bid (fun b =>
        b.scrWrite o.parm.toNat (mxresBytes s core) false)) core o.id none))
  ∧ (∀ core s o first n, matrixHead s core = some o → o.kind = .mxzero first n →
      exec (.mxzeroExec core) s = .next (endOp (zeroStep s core o.bid first n) core o.id none))
  ∧ (∀ core s bid slot l, (s.core core).owner = none → (s.core core).takes = (bid, slot) :: l →
      exec (.mxownGrant core) s = .next (grantArray s core bid))
  ∧ (∀ core s bid b, s.block bid = some b → ((grantArray s core bid).core core).owner = some bid)
  ∧ (∀ banks n h bad, h.cls ≠ 1 → ∃ k, (beginFill banks n h bad).get? n = some k ∧ k.st = 1 ∧ k.cls = h.cls ∧ k.zp = h.zp ∧
      k.tile = BitVec.ofNat 32 h.tile ∧ k.scale = BitVec.ofNat 32 h.scale ∧ k.bad = bad)
  ∧ (∀ (banks : Map Bank) n k cls elems bad, cls ≠ 1 → banks.get? n = some k →
      (endFill banks n cls elems bad).get? n = some { k with st := 2, elems := elems, bad := k.bad || bad })
  ∧ (∀ (banks : Map Bank) n k, banks.get? n = some k → (beginEvict banks n).get? n = some { k with st := 3 })
  ∧ (∀ (banks : Map Bank) e, e ∈ endEvict banks ↔ e ∈ banks ∧ e.2.st ≠ 3)
  ∧ (∀ (b : Block) first n r c, c < 64 → (zeroRows b first n).accAt r c = if first ≤ r ∧ r < first + n then 0 else b.accAt r c)

/-- R99 to R102, R213 to R218, R302, R305: `mma`, `mmal` and `mxgrad` take their rows one at a time: a row that hits a bank adds
to each of its 64 accumulators the exact group sum, rounded and scaled as R102 says, and writes no other row; a skipped row
changes nothing; a row that misses ends the operation with a tag-miss cause; after the last row the status is 1. Log entries 25
and 31 are the model's own choices here. -/
def Obligations.MatrixProducts : Prop :=
  (∀ core s o b, matrixHead s core = some o → s.block o.bid = some b →
    (o.kind = .mma → exec (.mmaExec core) s = .next (mmaStep s core false o b))
    ∧ (o.kind = .mmal → exec (.mmalExec core) s = .next (mmaStep s core true o b))
    ∧ (o.kind = .mxgrad → exec (.mxgradExec core) s = .next (gradStep s core o b)))
  ∧ (∀ s core lut o b, o.stage ≠ 0 → mmaStep s core lut o b = rowStep { s with free := s.free + 1 } core o
      (pf o.words 1 0 11 - pf o.words 1 16 11) (mmaRow (s.core core).banks lut o.header.1 o.words o.header.2 (viewOf s o b) b
        (pf o.words 1 16 11 + o.next)))
  ∧ (∀ s core o n, (o.next + 1 < n → rowStep s core o n .skip = updOp s core o.id (fun o => { o with next := o.next + 1 }))
      ∧ (n ≤ o.next + 1 → rowStep s core o n .skip = endStatus s core o 1 0 0 none)
      ∧ (∀ m, rowStep s core o n (.stop m 0 2) = endStatus s core o 2 m 0 (some { bit := 6, addr := o.parm, info := d64 m })))
  ∧ (∀ banks lut h ws bad v b m k n, b.rangeAbsent (h.tagAt m) 1 = false → v.scrNum (h.tagAt m) 1 < 128 →
      tagBank banks lut h.cls ws (v.scrNum (h.tagAt m) 1) = some k → b.catAbsent h m = false →
      b.rangeAbsent (h.scale m) 4 = false → n < 64 →
      let row := pf ws 2 0 32 + m
      let sum := exactSum ((v.catRow h m).zip ((List.range 128).map (fun j => k.weight (64 * j + n))))
      let old := if pf ws 3 6 1 = 1 then 0 else (v.accAt row n).toNat
      ∃ c, mmaRow banks lut h ws bad v b m = .wrote c [(row, 1)] ∧ c.accAt row n =
          BitVec.ofNat 32 (add32 old (mul32 (rne32 sum) (mul32 (v.scrNum (h.scale m) 4) k.scale.toNat))) ∧
        ∀ r, r ≠ row → c.accAt r n = b.accAt r n)
  ∧ (∀ banks lut h ws bad v b m, b.rangeAbsent (h.tagAt m) 1 = false → 128 ≤ v.scrNum (h.tagAt m) 1 →
      mmaRow banks lut h ws bad v b m = .skip)
  ∧ (∀ banks lut h ws bad v b m, b.rangeAbsent (h.tagAt m) 1 = false → v.scrNum (h.tagAt m) 1 < 128 →
      tagBank banks lut h.cls ws (v.scrNum (h.tagAt m) 1) = none → mmaRow banks lut h ws bad v b m = .stop m 0 2)
  ∧ (∀ v h t ws bad rows b i, gradSel v h rows i = [] → gradRegion v h t ws bad rows b i = b)

/-- R202, R204, R222 to R228: a copy asks for the lines of its source one after the other, and with all of them writes its slice
and sets its lines present; `cpyo` and `binsc` go on row by row; a completed operation whose writes have been accepted leaves
the queue with its locks, counts its token down in each of its threads, arrives at its barrier and sends its cause to its
thread. Log entries 25 and 30 are the model's own choices here. -/
def Obligations.CopySteps : Prop :=
  (∀ core op s o k b, copyOp s core op = some o → o.kind = .cpy k → s.block o.bid = some b →
    let ws := o.words
    let rows := (List.range ((sliceRows ws k).2 - (sliceRows ws k).1)).map (· + (sliceRows ws k).1)
    let len := pf ws 4 16 16 * fmtBytes (pf ws 3 0 8)
    let lines := sourceLines (pf64 ws 0) (pf ws 2 0 32) len rows
    let s0 := startOp s core o.id
    (∀ l tgt v s1, lines[o.stage]? = some l → engWalk s0 core b [d64 (l * 64)] .read = some v →
      engAcc v core b o (d64 (l * 64)) .read = .go tgt → engAsk v core o (d64 (l * 64)) tgt 64 = some s1 →
      exec (.cpyExec core op) s = .next (updOp s1 core o.id (fun o => { o with begun := true, stage := o.stage + 1 })))
    ∧ (o.stage = lines.length → lines.length ≤ o.inbox.length →
      let s1 := s0.updBlock o.bid (fun b => copySlice b ws k (rows.map (fun r => (r, o.got (pf64 ws 0 + r * pf ws 2 0 32) len))))
      exec (.cpyExec core op) s = .next (endOp (setPresent s1 o.bid (linesDone (s1.core core) o)) core o.id none)))
  ∧ (∀ core op s o b, copyOp s core op = some o → o.kind = .cpyo → s.block o.bid = some b →
      rowsBusy (s.core core) o = false → exec (.cpyoExec core op) s = .next (cpyoStep (startOp s core o.id) core b o))
  ∧ (∀ core op s o b, copyOp s core op = some o → o.kind = .binsc → s.block o.bid = some b → auditOf s b = none →
      exec (.binscExec core op) s = .next (binStep (startOp s core o.id) core b o)
      ∧ (let at_ := pf o.words 2 0 32 + 2 * o.next
        o.stage = 0 → b.rangeAbsent at_ 2 = false → b.rangeBad at_ 2 = false → b.scrNum at_ 2 = 0xFFFF →
        exec (.binscExec core op) s = .next (binNext (startOp s core o.id) core o)))
  ∧ (∀ core op s o, (s.core core).queue.find? (fun o => o.id == op) = some o → o.done = true → o.frozen = false →
      opOut s core o = false → exec (.operationComplete core op) s = .next (completeOp s core o))
  ∧ (∀ core op s o, (s.core core).queue.find? (fun o => o.id == op) = some o → (o.done = false ∨ opOut s core o = true) →
      exec (.operationComplete core op) s = .next s)
  ∧ (∀ s core o b, s.block o.bid = some b → o.lines = [] → o.ctl.be = false → o.cause = none → b.bars = [] →
      let t := completeOp s core o
      (t.core core).queue = (s.core core).queue.filter (fun p => p.id != o.id) ∧
      (t.core core).locks = (s.core core).locks.filter (fun x => x.op != o.id) ∧ t.mem = s.mem ∧
      ∀ k y, s.thread o.bid k = some y → ∃ z, t.thread o.bid k = some z ∧ z.async = y.async ∧ z.v = y.v ∧
        ∀ n, z.getTok n = (if o.tok = some n ∧ k ∈ o.tids ∧ y.status ≠ .exited then y.getTok n - 1 else y.getTok n))
  ∧ (∀ s core o b x n, s.block o.bid = some b → o.lines = [] → o.cause = none → o.ctl.be = true → o.ctl.bar.toNat = n →
      b.bars = [(n, x)] → x.ops = [] → x.c ≠ 0 → ∃ c, (completeOp s core o).block o.bid = some c ∧
        c.bar n = if x.c ≤ x.a + 1 then { x with a := 0, p := x.p + 1 } else { x with a := x.a + 1 })
  ∧ (∀ s core o c, o.cause = some c → completeOp s core o = sendCause (completeOp s core { o with cause := none }) o.bid o.tid c)
  ∧ (∀ s bid tid c b y, s.block bid = some b → b.thread tid = some y → y.status ≠ .exited → ∃ z, (sendCause s bid tid c).thread bid tid = some z ∧
      z.async = y.async ++ [c] ∧ z.status = y.status)
  ∧ (∀ bid tid s b t, s.block bid = some b → b.thread tid = some t → deliverable b tid = true → b.core?.isSome = true →
      exec (.asyncCauseDelivery bid tid) s = .next (deliverCauses s bid t.slot b))

/-! ## The ends of waits -/

/-- R121, R175, R177, R178, R184, R232, R281: a sleep ends when its instant has come, not before; a signalled monitor lets a
waiter of `mwait` go on, with an order after its earlier loads, and has a watched word evaluated again, at the place that its
address has then; an evaluation whose condition holds lets the waiter go on, another one arms its monitor again; at its instants an
unarmed wait of `mwait`, `waitc` or `lwait`, or a `tkwait` on host memory, is evaluated again; a deadline raises MONTO at the waiting
word and revives a dormant block. Log entries 16, 44 and 52 are the model's own choices here. -/
def Obligations.WaitEnds : Prop :=
  (∀ s bid tid b t w due, waitOf s bid tid = some (b, t, w) → w.kind = .sleep due →
    (due ≤ s.gtime → exec (.sleepWake bid tid) s = .next (s.updThread bid tid (fun y => { y with status := .eligible })))
    ∧ (s.gtime < due → exec (.sleepWake bid tid) s = .next s))
  ∧ (∀ s bid tid b t w o m, waitOf s bid tid = some (b, t, w) → w.kind = .mwait o → monOf s bid tid = some m → m.hit = true →
      (ordAcq o = true → loadOut s bid [tid] s.seq = false) →
      exec (.monitorWake bid tid) s = .next (finishWait s bid tid b [tid] w.scope))
  ∧ (∀ s bid tid b t w va pa m v q s1, waitOf s bid tid = some (b, t, w) →
      (w.kind = .lwait va pa ∨ ∃ cc uns cmp o, w.kind = .watch va pa cc uns cmp o) →
      monOf s bid tid = some m → m.hit = true → evalOut s b.home bid tid = false →
      waitTgt s bid tid b va pa 4 .read = (v, some q) →
      sendEval (takeHit v bid tid) b.home bid tid va q = some s1 → exec (.monitorWake bid tid) s = .next s1)
  ∧ (∀ s bid tid b t w va pa v q s1, waitOf s bid tid = some (b, t, w) →
      (w.kind = .lwait va pa ∨ ∃ cc uns cmp o, w.kind = .watch va pa cc uns cmp o) → w.poll ≠ 0 →
      (s.gtime < w.poll → exec (.monitorFallback bid tid) s = .next s)
      ∧ (w.poll ≤ s.gtime →
        let s0 := s.updThread bid tid (fun y => { y with status := .waiting { w with poll := s.gtime + 1000 } })
        evalOut s0 b.home bid tid = false → waitTgt s0 bid tid b va pa 4 .read = (v, some q) →
        sendEval (takeHit v bid tid) b.home bid tid va q = some s1 → exec (.monitorFallback bid tid) s = .next s1))
  ∧ (∀ s bid tid b t w va pa k o, waitOf s bid tid = some (b, t, w) → w.kind = .ticket va pa k o → w.poll ≠ 0 → w.poll ≤ s.gtime →
      let s0 := s.updThread bid tid (fun y => { y with status := .waiting { w with poll := s.gtime + 1000 } })
      exec (.monitorFallback bid tid) s = .next
        (if tgtHost s pa = true ∧ w.got = false then reevaluate s0 bid tid b (va + 4) (pa + 4) else s0))
  ∧ (∀ s bid tid b va pa n a s1 nc, auditOf s b = none → walkAll s b.home b.ctx [va] a = some s1 →
      accessChk s1 b.home b.ctx va n a = .ok pa nc → waitTgt s bid tid b va pa n a = (s1, some pa))
  ∧ (∀ s bid tid b t w va pa cc uns cmp o v, waitOf s bid tid = some (b, t, w) → w.kind = .watch va pa cc uns cmp o →
      (watchHolds cc uns v cmp = true → evalWatch s bid tid v = finishWait s bid tid b [tid] w.scope)
      ∧ (watchHolds cc uns v cmp = false → evalWatch s bid tid v =
          if ((monOf s bid tid).map (·.hit)).getD false then s else rearm s bid tid va pa))
  ∧ (∀ s bid tid b t w va pa v, waitOf s bid tid = some (b, t, w) → w.kind = .lwait va pa →
      (v = 0 → evalWatch s bid tid v = finishWait s bid tid b (lwaitSet b t.slot w) w.scope)
      ∧ (v ≠ 0 → evalWatch s bid tid v = if ((monOf s bid tid).map (·.hit)).getD false then s else rearm s bid tid va pa))
  ∧ (∀ s bid tid b t w o, waitOf s bid tid = some (b, t, w) → w.kind = .mwait o → w.poll ≠ 0 → w.poll ≤ s.gtime →
      let s1 := s.updThread bid tid (fun y => { y with status := .waiting { w with poll := s.gtime + 1000 } })
      (ordAcq o = true → loadOut s1 bid [tid] s1.seq = false) →
      exec (.monitorFallback bid tid) s = .next (finishWait s1 bid tid b [tid] w.scope))
  ∧ (∀ s bid tid b t w va, waitOf s bid tid = some (b, t, w) → watchedVa s bid tid w = some va → w.deadline ≠ 0 →
      w.deadline ≤ s.gtime →
      exec (.waitTimeout bid tid) s = .next (wakeBlock (takeTrap (disarm s bid tid) bid t.slot
        [{ tid := tid, causes := [{ bit := 8, addr := va, info := 0 }], epc := w.clause, eslot := w.pos }]) bid))
  ∧ (∀ s bid tid b tids sc t y r, s.block bid = some b → t ∈ tids → b.thread t = some y → y.status = .waiting r → r.wave = none →
      ∃ z, (finishWait s bid tid b tids sc).thread bid t = some z ∧
        (z.status = .eligible ∨ ∃ at_ line, z.status = .waiting { r with wave := some at_, line := line }))

/-- R179 to R184, R275, R337: a ticket is granted when SERVE equals it, HOLDER is written in the same step, and the core's copy of
the line goes; the highest priority among a word's waiters boosts the holder's block for 2 µs; a boost that is over leaves. Log
entries 44 and 52 are the model's own choices here. -/
def Obligations.TicketSteps : Prop :=
  (∀ s bid tid b t w va old ticket o v pa, waitOf s bid tid = some (b, t, w) → w.kind = .ticket va old ticket o →
    waitTgt s bid tid b va old 16 .write = (v, some pa) →
    tgtDram v pa = true → lineOut v b.home pa = false → atomFree v (pa / 64) = true → coreRoom v (pa / 64) = true →
    (v.core b.home).fills.length < Config.fillEntries →
    let s1 := seeLine v (pa / 64)
    (lineNow s1 (pa / 64)).bad = false →
    exec (.tkwaitGrant bid tid) s = .next (
      if leNat (nowBytes s1 (pa + 4) 4) = ticket.toNat then grantTicket s1 bid tid b t w pa else s1))
  ∧ (∀ s bid tid b t w pa,
      let h := 2 ^ 31 + s.sys.devid % 1024 * 2 ^ 14 + t.slot * 256 + b.home
      grantTicket s bid tid b t w pa = finishWait (setHolder ((homeWrite s (pa + 8) (leBytes 4 h) false).updCore b.home
        (fun k => k.invalLine (pa / 64))) bid (pa / 16) h) bid tid b [tid] w.scope)
  ∧ (∀ s bid tid b t w va pa ticket o, waitOf s bid tid = some (b, t, w) → w.kind = .ticket va pa ticket o →
      tgtDram s pa = true →
      let s1 := seeLine s (pa / 64)
      (lineNow s1 (pa / 64)).bad = false →
      exec (.ticketBoost bid tid) s = .next (sendBoost s1 (pa / 16) (leNat (nowBytes s1 (pa / 16 * 16 + 8) 4))
        ((ticketPrios s (pa / 16)).foldl Nat.max 0)))
  ∧ (∀ s key holder prio k c, 2 ^ 31 ≤ holder → holder / 2 ^ 14 % 1024 = s.sys.devid → s.block k = some c →
      (sendBoost s key holder prio).block k = some ((c.tickets.filter (fun e => e.2 == holder && e.1 == key)).foldl
        (fun c e => c.boost e.1 prio (s.gtime + 2000)) c))
  ∧ (∀ s bid word b, s.block bid = some b → Goes (exec (.boostExpire bid word) s) (fun u => ∃ c, u.block bid = some c ∧
      (∀ e, e ∈ c.boosts ↔ e ∈ b.boosts ∧ ¬ (e.1 = word ∧ e.2.2 ≤ s.gtime)) ∧ c.threads = b.threads))

/-- R42 to R44, R193, R195, R347, R374, R399, R400: a due bin whose threads hold no tokens forms a frond in the first empty
slot, in filing order from lane 0, or its threads go on where they are; a wave that has come releases its threads; a step and
a held slot write proceed when they may; a laggard is detached when CVREL has run out; a frond timer that is due is cleared
and raises FTIME in every member. -/
def Obligations.ReleaseSteps : Prop :=
  (∀ s core bin x b, (s.core core).bins.get? bin = some x →
    (s.updThreads x.bid x.tids (fun _ y => y.land s.gtime)).block x.bid = some b → binDue s core x = true →
    (∀ t ∈ x.tids, ∀ y, b.thread t = some y → y.tok = []) →
    let s1 := s.updCore core (fun k => { k with bins := k.bins.del bin })
    (∀ slot, b.fronds.keys.find? (emptyFor b x.tids) = some slot →
      exec (.reformBinDue core bin) s = .next (b.fronds.keys.foldl (fun s f => bjoinCheck s x.bid f)
        { dropUniform s1 x.bid slot with blocks := s1.blocks.put x.bid (formFrond b x slot) }))
    ∧ (b.fronds.keys.find? (emptyFor b x.tids) = none →
      exec (.reformBinDue core bin) s = .next (s1.updThreads x.bid x.tids (fun _ y => { y with status := .eligible }))))
  ∧ (∀ b x slot t y, t ∈ x.tids → b.thread t = some y → ∃ z, (formFrond b x slot).thread t = some z ∧
      z.status = .eligible ∧ z.slot = slot ∧ z.lane = (x.tids.takeWhile (· != t)).length ∧ z.pc = y.pc ∧ z.v = y.v ∧
      z.p = y.p ∧ z.tok = y.tok)
  ∧ (∀ b x slot, ∃ f, (formFrond b x slot).fronds.get? slot = some f ∧ f.s = x.s ∧ f.run = none ∧ f.subs = [] ∧ f.ftimer = 0)
  ∧ (∀ s core bid b t y, s.block bid = some b → b.core? = some core → b.thread t = some y →
      Goes (exec (.releaseWave core) s) (fun u => ∃ z, u.thread bid t = some z ∧
        (∀ r d, y.status = .waiting r → r.wave = some d → d ≤ s.gtime → z.status = .eligible) ∧
        (∀ r, y.status = .waiting r → (r.wave = none ∨ ∃ d, r.wave = some d ∧ s.gtime < d) → z = y)))
  ∧ (∀ s bid, exec (.stepnRelease bid) s = .next (stepnCheck s bid))
  ∧ (∀ s bid b slot f, s.block bid = some b → slotHeld s b = false → b.fronds.get? slot = some f →
      Goes (exec (.slotWriteRelease bid) s) (fun u => ∃ c, u.block bid = some c ∧
        c.fronds.get? slot = some { f with held := false }))
  ∧ (∀ s l x cohort c h low, s.launch l = some x → x.cohorts[cohort]? = some c → c.heldAt = some h → lowestActive c = some low →
      (∃ e ∈ c.conv, e.2.active = true ∧ e.2.pos = low ∧ e.2.pos < e.2.count ∧ Nat.max e.2.adv h + c.rel < s.gtime) →
      Goes (exec (.convoyDetach l cohort) s) (fun u => ∃ y d, u.launch l = some y ∧ y.cohorts[cohort]? = some d ∧
        ∀ i m, c.conv.get? i = some m → m.active = true → m.pos = low → m.pos < m.count →
          Nat.max m.adv h + c.rel < s.gtime → d.conv.get? i = some { m with active := false, detached := true }))
  ∧ (∀ s bid slot b f, s.block bid = some b → b.fronds.get? slot = some f → b.core?.isSome = true → f.ftimer ≠ 0 →
      f.ftimer.toNat ≤ s.gtime →
      exec (.ftimerFire bid slot) s = .next ((s.updFrond bid slot (fun f => { f with ftimer := 0 })).updThreads bid
        ((b.liveMembers slot).map (·.1)) (fun _ y =>
          { y with async := y.async ++ [{ bit := 9, addr := 0, info := f.ftimer }] })))

/-! ## Blocks and contexts -/

/-- R29 to R33, R327 to R330, R334: the next block of a launch is placed when it may be and a core has room; it starts
with every thread eligible at CODE + ENTRY in lane tid mod 32, its handler at TRAP, s0 the argument, and every other
register, the scratchpad and the accumulator store 0, every line of the scratchpad present. The block of a gang (R330) starts with its
records from scratchpad byte 0 on and their count in s1. A launch that has waited 100 µs for room that it still lacks holds
back lower priorities. Log entries 50 and 60 are the model's own choices here. -/
def Obligations.Placement : Prop :=
  (∀ l s x s1, s.launch l = some x → waitsRoom s x = true → mayPlace s l x = true → tryPlace s l x = some s1 →
    (x.next ≠ 0 ∨ x.copyOf ≠ none → exec (.blockPlace l) s = .next s1)
    ∧ (x.next = 0 → x.copyOf = none → exec (.blockPlace l) s = .next
        (((x.recs.filterMap (fun r => if r.succ = 0 then none else some r.succ)).eraseDups).foldl
          (fun s cell => earlyPost s x.ctx cell) s1)))
  ∧ (∀ s l x core slots r, x.first.paced = false → bestCore s x.hdr (coreOk s x x.next) = some (core, slots) →
      freeRegion s x.ctx (privSize x.hdr) = some r →
      ∃ t, tryPlace s l x = some t ∧ t.block s.seq = some (startBlock s l x x.next core slots ((s.ctx x.ctx).privb + d64 r)))
  ∧ (∀ s l x idx core slots pb t, t < x.hdr.threads → ∃ y, (startBlock s l x idx core slots pb).thread t = some y ∧
      y.pc = x.first.code + d64 x.hdr.entry ∧ y.status = .eligible ∧ y.lane = t % 32 ∧ y.slot = slots.getD (t / 32) 0 ∧
      y.tvec = d64 x.hdr.trap ∧ y.rslot = 0 ∧ y.depth = 0 ∧ y.fctl = 0 ∧ y.handler = false ∧ (∀ n, y.getV n = 0) ∧
      (∀ n, n ≠ 15 → y.getP n = false))
  ∧ (∀ s l x idx core slots pb, let b := startBlock s l x idx core slots pb
      b.place = .resident core ∧ b.obase = x.first.code ∧ b.acc = [] ∧ b.accBad = [] ∧ b.scrBad = [] ∧ b.absent = [] ∧ b.bars = [] ∧
      b.step = 0 ∧ (∀ k f, b.fronds.get? k = some f → f.getS 0 = x.first.arg ∧ ∀ n, 2 ≤ n → f.getS n = 0) ∧
      (((∀ n, nodeAt s x.ctx x.node = some n → n.gang ≤ 1) ∨ x.first.count ≠ 1) →
        b.scr = [] ∧ ∀ k f, b.fronds.get? k = some f → f.getS 1 = 0) ∧
      (∀ n, nodeAt s x.ctx x.node = some n → 1 < n.gang → x.first.count = 1 →
        (∀ k, b.scr.getD k 0 = (x.rawRecs.flatten).getD k 0) ∧ ∀ k f, b.fronds.get? k = some f → f.getS 1 = d64 x.recs.length))
  ∧ (∀ l s x, s.launch l = some x →
      (waitsRoom s x = true → x.ready + 100000 ≤ s.gtime → tryPlace s l x = none →
        exec (.launchHold l) s = .next (s.updLaunch l (fun x => { x with hold := true })))
      ∧ ((tryPlace s l x).isSome = true → exec (.launchHold l) s = .next s))

/-- R49, R50, R272, R341, R375, R385: a block that may go dormant, all of whose accesses have performed as a release asks, leaves its
core, once its save has been written, with its registers, tokens and waits, marked for revival when one of its waits has already ended;
a save that fails is recorded once, with the address at which it failed, and is not tried again while R49 holds on; a woken one is
revived on the best core with the same threads, SCYC going on from where it stood. Log entries 19 and 32 are the model's own choices
here. -/
def Obligations.Dormancy : Prop :=
  (∀ bid s b core off s1 at_, s.block bid = some b → b.core? = some core → mayDorm s bid b core = true →
    saveReady s core bid b = true → freeSave s b.ctx (saveSize b) = some off →
    let va := (s.ctx b.ctx).dorm + d64 off
    (saveBlock s core bid b va (saveSize b) = (s1, .ok, at_) →
      exec (.blockDormant bid) s = .next (drainCheck (layDown s1 bid b core off (saveSize b)
        (backing s1 b.ctx va (saveSize b))) b.ctx))
    ∧ (saveBlock s core bid b va (saveSize b) = (s1, .fail, at_) → b.saveFailed = false →
      exec (.blockDormant bid) s = .next ((seqEvent s1 b.ctx 9 (s.nodeOf b.launch) at_ b.obase 3 0).updBlock bid (fun b =>
        { b with saveFailed := true, saveTried := true }))))
  ∧ (∀ bid s b core, s.block bid = some b → b.core? = some core →
      (mayDorm s bid b core = false ∨ b.saveTried = true ∨ b.rels ≠ [] ∨ releaseReady s core bid b.threads.keys .dev s.seq = false) →
      exec (.blockDormant bid) s = .next s)
  ∧ (∀ s bid b core off size pages, ∃ c w, (layDown s bid b core off size pages).block bid = some c ∧
      c.place = .dormant off size pages w ∧ c.threads = b.threads ∧ c.scr = b.scr ∧ c.acc = b.acc ∧
      (w = true ↔ ∃ e ∈ b.threads, ∃ r, e.2.status = .waiting r ∧ r.wave.isSome = true))
  ∧ (∀ bid s b off size pages core slots, s.block bid = some b → b.place = .dormant off size pages true →
      (s.ctx b.ctx).st = 1 → bestCore s b.hdr (reviveOk s b) = some (core, slots) →
      let s1 := { s.mapJoins (moveJoin bid (newSlot b slots)) with blocks := s.blocks.put bid (standUp s b core slots) }
      exec (.blockRevive bid) s = .next (fireOverdue (s1.updCore core Core.invalGlobal) bid))
  ∧ (∀ s b core slots t y, b.thread t = some y → ∃ z, (standUp s b core slots).thread t = some z ∧ z.pc = y.pc ∧
      z.status = y.status ∧ z.lane = y.lane ∧ z.v = y.v ∧ z.p = y.p ∧ z.tok = y.tok ∧ z.async = y.async)

/-- R314 to R317, R338 to R340: the moves of a context's state. A starved launch drains a victim, one at a time; a
drained context resumes when no launch of higher priority waits; a drain past its deadline, and RST, are forced resets;
CTXD writes enable an idle context, start a drain, or return it to idle. Log entry 50 is the model's own choice here. -/
def Obligations.ContextSteps : Prop :=
  (∀ l s x c, s.launch l = some x → waitsRoom s x = true → x.ready + 100000 ≤ s.gtime → tryPlace s l x = none →
    s.ctxs.any (fun e => e.2.st == 2) = false → drainVictim s x.ctx (launchPrio s x) = some c →
    exec (.drainStart l) s = .next (startDrain s c false))
  ∧ (∀ s c dis, residentOf s c ≠ 0 → (startDrain s c dis).ctx c =
      { s.ctx c with st := 2, disabling := dis, deadline := some (s.gtime + drainTime s) })
  ∧ (∀ c s, (s.ctx c).st = 3 → s.launches.any (fun e => e.2.ctx != c && waitsRoom s e.2 &&
        decide (resumePrio s c < launchPrio s e.2)) = false →
      exec (.contextResume c) s = .next (waitAfresh (s.updCtx c (fun x => { x with st := 1 })) c))
  ∧ (∀ s c l x, s.launch l = some x → (waitAfresh s c).launch l =
      some (if x.ctx = c then { x with ready := s.gtime, hold := false } else x))
  ∧ (∀ c s d, (s.ctx c).st = 2 → (s.ctx c).deadline = some d → d ≤ s.gtime →
      exec (.drainDeadline c) s = .next (forceReset s c 1))
  ∧ (∀ c v s, s.sys.halted = false → c < 64 → v.getLsbD 0 = true → v.getLsbD 1 = false → 4 ≤ s.sys.stage → (s.ctx c).st = 0 →
      exec (.ctxdEnable c v) s = .next (enableCtx s c (v.extractLsb' 6 46).toNat))
  ∧ (∀ c v s, s.sys.halted = false → c < 64 → v.getLsbD 0 = false → v.getLsbD 1 = false → (s.ctx c).st = 1 →
      exec (.ctxdDisable c v) s = .next (startDrain
        (s.updCtx c (fun x => { x with en := false, desc := (v.extractLsb' 6 46).toNat })) c true))
  ∧ (∀ c v s, s.sys.halted = false → c < 64 → v.getLsbD 0 = false → v.getLsbD 1 = false → (s.ctx c).st = 4 →
      Goes (exec (.ctxdDisable c v) s) (fun u => (u.ctx c).st = 0 ∧ (u.ctx c).en = false ∧ u.blocks = s.blocks))
  ∧ (∀ c s, (s.ctx c).st = 1 ∨ (s.ctx c).st = 2 ∨ (s.ctx c).st = 3 → exec (.ctxdRst c) s = .next (forceReset s c 2))

/-- R34, R331, R335, R380, R389: a block whose threads have exited and whose operations have completed retires and frees
what it held; once its writes have been performed it is counted, and the last block performs the launch's actions; an
audit that matches goes on with the deferred completion; the host's response to a page fault lets its accesses go on or
fail. Log entries 18 and 34 are the model's own choices here. -/
def Obligations.CompletionSteps : Prop :=
  (∀ bid s b core, s.block bid = some b → b.core? = some core → b.live = [] →
    (∀ o ∈ (s.core core).queue, o.bid ≠ bid) →
    exec (.blockRetire bid) s = .next (cbarRecheck (((freeBlock s bid b core).updBlock bid (fun b =>
      { b with place := .retired core false })).updLaunch b.launch (fun x => { x with retired := addNat x.retired b.idx })) b.launch))
  ∧ (∀ bid s b core, s.block bid = some b → b.core? = some core → (b.live ≠ [] ∨ ∃ o ∈ (s.core core).queue, o.bid = bid) →
      exec (.blockRetire bid) s = .next s)
  ∧ (∀ s bid b core, let t := freeBlock s bid b core
      (∀ m ∈ t.mons, m.bid ≠ bid) ∧ (t.core core).owner ≠ some bid ∧ t.mem = s.mem)
  ∧ (∀ bid s b core s1, s.block bid = some b → b.place = .retired core false → flushing s bid = false →
      trigCells s bid b = (s1, true) →
      exec (.launchCompletion bid) s = .next (drainCheck (afterCount ((s1.updBlock bid (fun b =>
        { b with place := .retired core true })).updLaunch b.launch (fun x => { x with counted := x.counted + 1 })) bid
          b.launch) b.ctx))
  ∧ (∀ s bid l x, s.launch l = some x → x.counted ≠ x.count → afterCount s bid l = { s with blocks := s.blocks.del bid })
  ∧ (∀ s bid l x, s.launch l = some x → x.counted = x.count → x.copyOf = none → x.acts = none → x.first.auditable = false →
      afterCount s bid l = closeLaunch (s.updLaunch l (fun x => { x with acts := some 0 })) bid l)
  ∧ (∀ (x : Launch) r, x.recs = [r] → x.count ≠ 0 → x.actions = (if r.succ = 0 then [] else [.join r.succ]) ++
      (if r.siga = 0 then [] else [.signal r.siga r.sigv]) ++ (if r.flags.getLsbD 6 then [.notify] else []))
  ∧ (∀ l s a x s1, s.sys.audits.find? (fun a => a.copy == l) = some a → s.launch l = some x → (s.ctx x.ctx).st = 1 →
      x.copyBad = false → x.killed = [] → x.counted = x.count → compareShadow s x a = (s1, true) →
      exec (.auditCopyComplete l) s = .next (finishOrig (closeAudit s1 a) a.orig))
  ∧ (∀ c n s f, faultOf s c n = some f →
      let at_ := (s.ctx c).flog + 64 + d64 (64 * (n % 2 ^ (s.ctx c).log2n)) + 2
      let s1 (r : Nat) : State := (vwrite s c at_ (leBytes 2 r)).getD s
      exec (.pageFaultResponse c n 1) s = .next (logRoom (retryPage (dropFault (s1 1) c f.page) c f.page) c)
      ∧ exec (.pageFaultResponse c n 2) s = .next (logRoom (failPage (dropFault (s1 2) c f.page) c f.page) c))

/-! ## The sequencer -/

/-- R230, R231, R319 to R326: a woken node reads its line; a TAIL too far ahead freezes it; a running node with GATE 0
takes its head record, which is refused for the first check it fails or becomes a launch, alone or with its gang, while HEAD
advances; the record that a skip has begun is consumed with its last action; FLUSH ends a gang; PSTATE 0 unfreezes a node; `npost` reserves slots and then publishes its records, and `ltrig`
decrements each trigger count once, both in the order in which they reach the hub (R200). Log
entries 26, 28, 29, 33, 49 and 60 are the model's own choices here. -/
def Obligations.SequencerSteps : Prop :=
  (∀ c n s, watching s c = true → exec (.nodeWake c n) s = .next (readNode (earlyAgain s c) c n false))
  ∧ (∀ s c n x s1 l, nodeAt s c n = some x → x.wait = false → x.ok = true → x.st ≠ 3 → readHtl s c n x = (s1, .data l false) →
      let tail : Word := BitVec.ofNat 32 (fld l 4 4)
      (x.size < (tail - x.head).toNat → readNode s c n false = setNode s1 c n 3)
      ∧ ((tail - x.head).toNat ≤ x.size → ∃ seen, readNode s c n false = runNode (restoreHtl (updNode s1 c n (fun x =>
          { x with tail := tail, gate := BitVec.ofNat 32 (fld l 12 4), seen := seen })) c n x l) c n false))
  ∧ (∀ s c n x, nodeAt s c n = some x → skipLaunch s c n = none → x.gate = 0 → x.st = 1 → (s.ctx c).st = 1 →
      runNode s c n false = acceptHead s c n x (x.flush == 0))
  ∧ (∀ s c n l s1, skipLaunch s c n = some l → (s.ctx c).st = 1 →
      (finishLaunch s l = (s1, true) → runNode s c n false = advanceHead (dropLaunch s1 l) c n 1)
      ∧ (finishLaunch s l = (s1, false) → runNode s c n false = s1))
  ∧ (∀ s c n x f s1 bs bad s2, x.head ≠ x.tail → x.gang ≤ 1 →
      seqRead s c (.ofNode n) (slotVa x x.head.toNat) 64 = (s1, .data bs bad) → prevPlaced s1 c n = true →
      (∀ k, launchCheck s1 c n (recOf bs) bad x.gang = (s2, .refuse k) →
        acceptHead s c n x f = refuseRecord s2 c n x (recOf bs) k)
      ∧ (∀ h cs, launchCheck s1 c n (recOf bs) bad x.gang = (s2, .ok h cs) →
        acceptHead s c n x f = newLaunch (advanceHead s2 c n 1) c n x [bs] h cs (recOf bs).count))
  ∧ (∀ s c n x f s1 bs s2 g s3 h cs s4 more, x.head ≠ x.tail → 1 < x.gang →
      seqRead s c (.ofNode n) (slotVa x x.head.toNat) 64 = (s1, .data bs false) → (recOf bs).count = 1 →
      gangFrom c n x (recOf bs) (x.gang - 1) 1 s1 = (s2, g) →
      (x.gang ≤ g.raws.length + 1 ∨ g.ended = true ∨ f = true) → launchCheck s2 c n (recOf bs) false x.gang = (s3, .ok h cs) →
      gangChecked c n h s3 g.raws = (s4, some more) →
      acceptHead s c n x f = newLaunch (advanceHead s4 c n (more.length + 1)) c n x (bs :: more) h cs 1)
  ∧ (∀ s c n r bad gang, (bad = true → launchCheck s c n r bad gang = (s, .refuse 11))
      ∧ (bad = false → r.count = 0 → launchCheck s c n r bad gang = (s, .refuse 10))
      ∧ (bad = false → r.count ≠ 0 → r.flags.toNat < 128 → r.siga.toNat % 8 = 0 → r.code.toNat % 256 ≠ 0 →
          launchCheck s c n r bad gang = (s, .refuse 1)))
  ∧ (∀ c n s x, nodeAt s c n = some x → watching s c = true → x.ok = true → x.wait = false → x.st = 1 →
      x.head ≠ x.tail →
      headSeen s x + x.flush ≤ s.gtime → seqRoom s c x.htl 64 = true → exec (.gangFlush c n) s = .next (runNode s c n true))
  ∧ (∀ c n s x s1 l, nodeAt s c n = some x → watching s c = true → x.ok = true → x.st = 3 →
      readHtl s c n x = (s1, .data l false) →
      exec (.nodeUnfreeze c n) s = .next (if fld l 0x10 4 = 0 then defineNode s1 c n else s1))
  ∧ (∀ core op s o b node n, hubOp s core op = some (o, b) → o.kind = .npost node n →
      exec (.npostExec core op) s = .next (npostStep s core o b node n)
      ∧ (o.stage = 0 → nodeAt s b.ctx node = none → npostStep s core o b node n = endOp s core o.id
          (some { bit := 19, addr := o.parm, info := d64 (256 * o.opc + 9) }))
      ∧ (∀ x s1 k, o.stage = 0 → nodeAt s b.ctx node = some x → x.wait = false → x.ok = true →
          reserveSlots s b.ctx node (Agent.ofOp node o.id).who n = (s1, .first k) →
          npostStep s core o b node n = updOp (invalNode s1 core b.ctx node 0 0) core o.id (fun o =>
            { o with begun := true, stage := 1, keep := k }))
      ∧ (∀ s1, o.stage ≠ 0 → b.rangeAbsent o.parm.toNat (64 * n) = false →
          publish s b.ctx node (Agent.ofOp node o.id).who o.keep ((List.range n).map (fun i =>
            (b.scrBytes (o.parm.toNat + 64 * i) 64, b.rangeBad (o.parm.toNat + 64 * i) 64))) = (s1, .done []) →
          npostStep s core o b node n = endOp (invalNode s1 core b.ctx node o.keep n) core o.id none))
  ∧ (∀ core op s o b, hubOp s core op = some (o, b) → o.kind = .ltrig → o.stage = 0 →
      (b.trigged = true → exec (.ltrigExec core op) s = .next (endOp s core o.id none))
      ∧ (b.trigged = false → releaseReady s core o.bid o.tids .dev o.seq = true → o.next = 0 →
          let s1 := s.updBlock o.bid (fun b => { b with trigged := true })
          (blockCells s b = [] → exec (.ltrigExec core op) s = .next (endOp s1 core o.id none))
          ∧ (∀ cell s2, blockCells s b = [cell] → trigWord s1 b.ctx (.ofOp (s.nodeOf b.launch) o.id) cell 1 = (s2, true) →
              exec (.ltrigExec core op) s = .next (endOp (hubInval s2 core b.ctx (cell + 4) 4) core o.id none))))
  ∧ (∀ core op s o b, hubOp s core op = some (o, b) →
      ∀ p ∈ (s.core core).queue.takeWhile (fun p => p.id != op), p.kind.hub = true → p.begun = true)

/-! ## Home slices and caches -/

/-- R158, R167, R180, R182, R184, R241 to R249, R251, R252, R262, R264, R379: the home of a line accepts the oldest request of
a core: a write, an atomic while its unit has room, a read that opens or joins a merge entry, or waits for one in arrival order; its
reply lands in every read that joined. A write changes the bytes it names and, on a line without errors, no other, and signals every
monitor of its line, a `tkwait`'s when SERVE is then its ticket (R181). Lines age out, are scrubbed; XINV drops translations. Log entries 20, 21, 42 and 47 are the model's own
choices here. -/
def Obligations.HomeSteps : Prop :=
  (∀ core line s r off bytes bad, headReq s core line = some r → r.kind = .write off bytes bad → homeOpen s line = true →
    heldLine s line = false → r.ready s core = true →
    let s1 := dropReq s core r.seq
    let s2 := if r.rel = .none then s1 else s1.updCore core (fun k => k.storeOver line off bytes bad r.seq)
    exec (.homeWrite core line) s = .next (countDown (homeWrite s2 (line * 64 + off) bytes bad) r.bid r.tids r.tok))
  ∧ (∀ s pa bytes bad, Memory.read (homeWrite s pa bytes bad).mem pa bytes.length = bytes ∧
      (s.memErr.get? (pa / 64) = none → ∀ a, (a < pa ∨ pa + bytes.length ≤ a) →
        Memory.get (homeWrite s pa bytes bad).mem a = Memory.get s.mem a) ∧
      ∀ m ∈ s.mons, m.line = pa / 64 → m.armed = true → m.hit = false →
        let t := homeWrite s pa bytes bad
        let signalled := ∃ d, { m with hit := true, due := d } ∈ t.mons
        ((∀ b y r va q k o, s.block m.bid = some b → b.threads.get? m.tid = some y → y.status = .waiting r →
            r.kind ≠ .ticket va q k o) → signalled)
        ∧ (∀ b y r va q k o, s.block m.bid = some b → b.threads.get? m.tid = some y → y.status = .waiting r →
            r.kind = .ticket va q k o → s.memErr.get? (pa / 64) = none →
            (t.num (m.line * 64 + q % 64 / 16 * 16 + 4) 4 = k.toNat → signalled)
            ∧ (t.num (m.line * 64 + q % 64 / 16 * 16 + 4) 4 ≠ k.toNat → m ∈ t.mons)))
  ∧ (∀ core line s r, headReq s core line = some r → r.kind.rmw = true → homeOpen s line = true → r.ready s core = true →
      (tgtHost s (line * 64) = false → atomRoom s line = true →
        let x := rmwHere (dropReq s core r.seq) line r.kind
        exec (.homeAtomic core line) s = .next (holdLine (ackReq x.1 r) line { core := core, req := r, val := x.2.1, bad := x.2.2 }))
      ∧ (tgtHost s (line * 64) = false → atomRoom s line = false → exec (.homeAtomic core line) s = .next s)
      ∧ (tgtHost s (line * 64) = true → exec (.homeAtomic core line) s = .next (hostAtomic s core line r)))
  ∧ (∀ core line s, (∀ r, headReq s core line = some r → r.kind.rmw = false) →
      exec (.homeAtomic core line) s = .next (sendAtom s line))
  ∧ (∀ s line x q, s.atoms = [{ line := line, queue := x :: q }] → sendAtom s line =
      landOut { s with atoms := if q = [] then [] else [{ line := line, queue := q }] } x)
  ∧ (∀ s x d sz, x.req.who = .thread → x.req.kind.dst = some (d, sz) → landOut s x =
      countDown (landAtomic s x.core x.req d sz x.val x.bad) x.req.bid x.req.tids x.req.tok)
  ∧ (∀ s core line r off, (r.kind = .serve off false → (hostAtomic s core line r).mem =
        (homeWrite s (line * 64 + off + 8) (leBytes 4 0) false).mem)
      ∧ (r.kind = .serve off true → hostAtomic s core line r =
        countDown (atomicHere (dropReq s core r.seq) (line * 64 + off + 4) .addI32 1 0 false).1 r.bid r.tids r.tok))
  ∧ (∀ s pa k a b, s.memErr.get? (pa / 64) = none → lineBad s (pa / 64) = false →
      let x := atomicHere s pa k a b false
      let r := aopApply k (d64 (s.num pa (aopBytes k))) a b
      x.2 = (r.2, false) ∧ Memory.read x.1.mem pa (aopBytes k) = leBytes (aopBytes k) r.1.toNat)
  ∧ (∀ core line s r, headReq s core line = some r → r.kind = .read → homeOpen s line = true →
      (tgtHost s (line * 64) = true → exec (.homeRead core line) s
        = .next (answerFill (dropReq s core r.seq) core r.seq { lineRep s line with bad := false }))
      ∧ (tgtHost s (line * 64) = false →
          let x := acceptRead s line (core, r.seq) (fun _ => true) (fun m => { m with joins := m.joins ++ [(core, r.seq)] })
          exec (.homeRead core line) s = .next (match x with
            | some s1 => dropReq s1 core r.seq
            | none => refuseRead s line (core, r.seq))))
  ∧ (∀ s line me room join, let wait := waitingAt s (homeSlice s.part (line * 64))
      (heldLine s line = true → acceptRead s line me room join = none ∧ refuseRead s line me = s)
      ∧ (heldLine s line = false → (∀ y, wait.head? = some y → y = me) →
          (∀ m, openMerge s line = some m → room m = true → ∃ u, acceptRead s line me room join = some u ∧ u.mem = s.mem ∧
            u.merges = s.merges.map (fun m => if m.line = line ∧ m.opened = true then join m else m))
          ∧ (openMerge s line = none → entriesAt s line < Config.mergeEntries → ∃ u, acceptRead s line me room join = some u ∧
              u.mem = (touchLine s line).mem ∧ u.merges = (touchLine s line).merges ++
                [join { line := line, rep := lineRep (touchLine s line) line, joins := [], others := [], opened := true }])
          ∧ (openMerge s line = none → Config.mergeEntries ≤ entriesAt s line → acceptRead s line me room join = none))
      ∧ (heldLine s line = false → (∃ y, wait.head? = some y ∧ y ≠ me) → openMerge s line = none →
          acceptRead s line me room join = none))
  ∧ (∀ line s m, s.merges.find? (fun m => m.line == line) = some m → m.others = [] →
      exec (.mergeReply line) s = .next (m.joins.foldl (fun s j => answerFill s j.1 j.2 m.rep)
        { s with merges := s.merges.eraseP (fun m => m.line == line) }))
  ∧ (∀ core line s f rep, (s.core core).fills.find? (fun f => f.line == line && f.reply.isSome) = some f →
      f.reply = some rep →
      let s1 := s.updCore core (fun k => { k with fills := k.fills.filter (fun g => g.seq != f.seq) })
      exec (.fillReply core line) s = .next (installFill (f.joins.foldl (landJoin core f rep) s1) core f rep))
  ∧ (∀ core line s x, (s.core core).l1.get? line = some x → x.priv = none →
      (x.time + 100000 ≤ s.gtime →
        exec (.l1LineAgeOut core line) s = .next (s.updCore core (fun k => { k with l1 := k.l1.del line })))
      ∧ (s.gtime < x.time + 100000 → exec (.l1LineAgeOut core line) s = .next s))
  ∧ (∀ line s, tgtDram s (line * 64) = true → exec (.dramScrub line) s = .next (touchLine s line))
  ∧ (∀ v s, s.sys.halted = false → s.sys.xinv.getLsbD 63 = false → v.getLsbD 63 = false →
      exec (.xinv v) s = .next { s with sys := { s.sys with xinv := v &&& ~~~(1#64 <<< 55) } })
  ∧ (∀ v s, s.sys.halted = false → s.sys.xinv.getLsbD 63 = false → v.getLsbD 63 = true → v.getLsbD 55 = false →
      Goes (exec (.xinv v) s) (fun t => t.mem = s.mem ∧ t.sys.xinv.getLsbD 63 = ctxBusy t (v.extractLsb' 56 6).toNat ∧
        ∀ k ∈ t.cores, ∀ e ∈ k.2.tlb, xinvNames v e = false))

/-! ## The fabric -/

/-- R160, R253, R350 to R352, R364: an arriving request is performed once for its tag and answered, a read within a line of device
memory by a merge entry; it meets EXPCTL as that was when it arrived, and a closed export window refuses it with code 0x21; a request or
a reply that a link brings over 100 µs after it was sent is discarded; a request of this device to its own window is the one that it has
outstanding, after the earlier ones of its core or block to that line; a reply lands, a refusal or 100 µs without a reply ends the
access with its code, a pending reply restarts the clock; a request is sent again over the path of the present map; a kept tag is dropped
after 200 µs. Log entry 24 is the model's own choice here. -/
def Obligations.RemoteSteps : Prop :=
  (∀ src tag acc s, tagKnown s src tag = true → exec (.remoteRequest src tag acc) s = .next s)
  ∧ (∀ src tag acc s, src ≠ s.sys.devid → acc.time + 100000 < s.gtime → exec (.remoteRequest src tag acc) s = .next s)
  ∧ (∀ src tag s, (∀ a ∈ s.fab.arrived, ¬ (a.1 = src ∧ a.2.1 = tag)) →
      arrive s src tag = { s with fab := { s.fab with arrived := s.fab.arrived ++ [(src, tag, s.fab.expctl)] } } ∧
        arrivedUnder (arrive s src tag) src tag = s.fab.expctl)
  ∧ (∀ src tag s ctl, s.fab.arrived.find? (fun a => a.1 == src && a.2.1 == tag) = some (src, tag, ctl) →
      arrive s src tag = s ∧ arrivedUnder s src tag = ctl)
  ∧ (∀ src tag acc s, s.part.full = true → tagKnown s src tag = false → src ≠ s.sys.devid → s.gtime ≤ acc.time + 100000 →
      let s0 := arrive s src tag
      let ctl := arrivedUnder s0 src tag
      let c := expCtx ctl
      let x := spanOf acc.body
      let s1 := touchVa s0 c x.1
      (ctl.getLsbD 63 = false → exec (.remoteRequest src tag acc) s = .next (keepTag s0 src tag (.refused 0x21)))
      ∧ (ctl.getLsbD 63 = true → (s0.ctx c).waits.contains (x.1 / 65536, (Agent.ofFar src tag).who) = false → walkRoom s0 c x.1 = true →
          ∀ pa nc, freshChk s1 c x.1 (if x.2.2 then .write else .read) = .ok pa nc →
          ((x.2.2 = true → ctl.getLsbD 62 = true ∧ controlHit s1 pa x.2.1 = false) →
            (tgtHost s1 pa = true → s1.sys.hostL0 = true ∧ hostTakes acc.body = true) →
            (∀ off n, acc.body = .read off n → tgtDram s1 pa = true →
              exec (.remoteRequest src tag acc) s = .next (match acceptRead s1 (pa / 64) (1024 + src, tag)
                  (fun m => decide (m.others.length < Config.otherSlots))
                  (fun m => { m with others := m.others ++ [{ src := src, tag := tag, off := pa % 64, n := n }] }) with
                | some s2 => markAccepted s2 src tag
                | none => refuseRead s1 (pa / 64) (1024 + src, tag)))
            ∧ ((∀ off n, acc.body = .read off n → tgtDram s1 pa = false) → sliceTakes s1 pa acc.body = true →
                let y := serveAt s1 pa src tag acc.body
                Goes (exec (.remoteRequest src tag acc) s) (fun t => t.mem = y.1.mem ∧
                  t.fab.kept = y.1.fab.kept ++ [{ src := src, tag := tag, rep := .data y.2.1 y.2.2, time := y.1.gtime }])))
          ∧ (x.2.2 = true → ctl.getLsbD 62 = false ∨ controlHit s1 pa x.2.1 = true →
              exec (.remoteRequest src tag acc) s = .next (keepTag s1 src tag
                (.refused (if controlHit s1 pa x.2.1 then 0x22 else 0x23))))))
  ∧ (∀ tag acc s q, s.part.full = true → tagKnown s s.sys.devid tag = false →
      s.fab.remote.find? (fun q => q.tag == tag && q.dev == s.sys.devid) = some q → q.accepted = false →
      (behindRemote s q = true → exec (.remoteRequest s.sys.devid tag acc) s = .next s)
      ∧ (behindRemote s q = false → q.req.ready s q.core = true →
          exec (.remoteRequest s.sys.devid tag acc) s = .next (serve s s.sys.devid tag (accOf s q))))
  ∧ (∀ s src tag rep, (keepTag s src tag rep).mem = s.mem ∧
      { src := src, tag := tag, rep := rep, time := s.gtime } ∈ (keepTag s src tag rep).fab.kept)
  ∧ (∀ tag s q time rep, s.fab.remote.find? (fun q => q.tag == tag) = some q → q.gone s = true →
      let later := { s with fab := { s.fab with remote := s.fab.remote.map (fun p => if p.tag = tag then { p with sent := s.gtime } else p) } }
      (q.dev ≠ s.sys.devid → time + 100000 < s.gtime → exec (.remoteReply tag { time := time, body := rep }) s = .next s)
      ∧ (q.dev ≠ s.sys.devid → s.gtime ≤ time + 100000 →
          (∀ bytes bad, rep = .data bytes bad → exec (.remoteReply tag { time := time, body := rep }) s = .next (landRemote s q bytes bad))
          ∧ (∀ code, rep = .refused code → exec (.remoteReply tag { time := time, body := rep }) s = .next (failRemote s q code.toNat))
          ∧ (rep = .pending → exec (.remoteReply tag { time := time, body := rep }) s = .next later))
      ∧ (q.dev = s.sys.devid →
          (∀ k bytes bad, keptOf s q.dev tag = some k → k.rep = .data bytes bad →
            exec (.remoteReply tag { time := time, body := rep }) s = .next (landRemote s q bytes bad))
          ∧ (∀ k code, keptOf s q.dev tag = some k → k.rep = .refused code →
            exec (.remoteReply tag { time := time, body := rep }) s = .next (failRemote s q code.toNat))
          ∧ (keptOf s q.dev tag = none → servicing s q = true → exec (.remoteReply tag { time := time, body := rep }) s = .next later)
          ∧ (keptOf s q.dev tag = none → servicing s q = false → exec (.remoteReply tag { time := time, body := rep }) s = .next s)))
  ∧ (∀ tag s q, s.fab.remote.find? (fun q => q.tag == tag) = some q → q.req.ready s q.core = true → q.sends ≠ 0 →
      (q.sent + 100000 ≤ s.gtime → exec (.remoteTimeout tag) s = .next (failRemote s q 0x20))
      ∧ (s.gtime < q.sent + 100000 → exec (.remoteTimeout tag) s = .next s))
  ∧ (∀ s tag q, q ∈ s.fab.remote → q.tag = tag → q.req.ready s q.core = true →
      (pathOf s q.dev ≠ none ∨ q.dev = s.sys.devid →
        { q with sent := s.gtime, path := pathOf s q.dev, sends := q.sends + 1 } ∈ (resend s tag).fab.remote)
      ∧ (pathOf s q.dev = none → q.dev ≠ s.sys.devid → { q with path := none } ∈ (resend s tag).fab.remote))
  ∧ (∀ src tag s, Goes (exec (.remoteTagExpire src tag) s) (fun t => ∀ k, k ∈ t.fab.kept ↔
      k ∈ s.fab.kept ∧ ¬ (k.src = src ∧ k.tag = tag ∧ k.time + 200000 ≤ s.gtime)))

/-- R353 to R356, R361, R397: a link that fails leaves STATE 3 and is counted; it trains again 100 µs later; a trained
link joins the map; a table is accepted when it is newer, discarded 100 µs after it was sent (R364), and one that shows a duplicate id
ends the map; EN opens formation, and DOMAIN is kept while EN is 1; the map
is formed when nothing has changed for 20 µs. Log entry 35 is the model's own choice here. -/
def Obligations.FabricSteps : Prop :=
  (∀ j s, s.part.full = true → ((s.port j.val).st = 1 ∨ (s.port j.val).st = 2) →
    exec (.linkFail j) s = .next (mapChange s (setPort s j.val
      { s.port j.val with st := 3, fails := Nat.min 255 ((s.port j.val).fails + 1), time := s.gtime })))
  ∧ (∀ j s, (s.port j.val).st = 3 →
      ((s.port j.val).time + 100000 ≤ s.gtime →
        exec (.portRetrain j) s = .next (setPort s j.val { s.port j.val with st := 1 }))
      ∧ (s.gtime < (s.port j.val).time + 100000 → exec (.portRetrain j) s = .next s))
  ∧ (∀ j dev port width s, (s.port j.val).st = 1 → width.toNat < 3 →
      exec (.linkTrained j dev port width) s = .next (mapChange s (setPort s j.val { s.port j.val with
        st := 2, ndev := dev.toNat, nport := port.toNat, width := width.toNat })))
  ∧ (∀ j width s, (s.port j.val).st = 2 → (s.port j.val).width < width.toNat → width.toNat < 3 →
      exec (.linkWidthRetrain j width) s = .next (setPort s j.val { s.port j.val with width := width.toNat }))
  ∧ (∀ s t, t.fab.domctl.getLsbD 63 = false → mapChange s t = t)
  ∧ (∀ s t, t.part.full = true → t.fab.domctl.getLsbD 63 = true →
      (∃ l k, l ∈ (candidate s).2 ∧ k ∈ (candidate s).2 ∧ l ≠ k ∧ l ∉ (candidate t).2 ∧ k ∉ (candidate t).2) →
      (mapChange s t).fab.forming = true ∧ (mapChange s t).fab.changed = t.gtime ∧
        (mapChange s t).fab.version = t.fab.version + 1 ∧ ∀ r ∈ (mapChange s t).fab.runs, r.started = true → r.paused = true)
  ∧ (∀ s dev v ls j, j < 16 → (s.port j).st = 2 →
      { port := j, dev := dev, version := v, time := s.gtime, links := ls } ∈ (flood s dev v ls).fab.floods)
  ∧ (∀ dev v ls s, s.part.full = true → s.fab.domctl.getLsbD 63 = true →
      let mine := ls.body.filter (fun l => l.a == dev)
      (ls.time + 100000 < s.gtime → exec (.linkTableFlood dev v ls) s = .next s)
      ∧ (s.gtime ≤ ls.time + 100000 → dev = s.sys.devid → exec (.linkTableFlood dev v ls) s =
          .next (if (v, mine) ∈ s.fab.mine then s else noMap s))
      ∧ (s.gtime ≤ ls.time + 100000 → dev ≠ s.sys.devid → (∃ l, s.fab.tables.get? dev = some (v, l) ∧ l ≠ mine) →
          exec (.linkTableFlood dev v ls) s = .next (noMap s))
      ∧ (s.gtime ≤ ls.time + 100000 → dev ≠ s.sys.devid → (∀ x, s.fab.tables.get? dev = some x → x.1 < v) →
          exec (.linkTableFlood dev v ls) s = .next (mapChange s (flood { s with fab := { s.fab with
            tables := s.fab.tables.put dev (v, mine) } } dev v mine)))
      ∧ (dev ≠ s.sys.devid → (∃ x, s.fab.tables.get? dev = some x ∧ v < x.1) → exec (.linkTableFlood dev v ls) s = .next s))
  ∧ (∀ v s, s.part.full = true → s.sys.halted = false →
      (s.fab.domctl.getLsbD 63 = false → v.getLsbD 63 = true → Goes (exec (.domctlWrite v) s) (fun t =>
        t.fab.domctl = v &&& 0x800000000000FFFF#64 ∧ t.fab.forming = true ∧ t.fab.changed = s.gtime ∧ t.fab.tables = [] ∧
        t.fab.version = s.fab.version + 1))
      ∧ (s.fab.domctl.getLsbD 63 = true → v.getLsbD 63 = false → Goes (exec (.domctlWrite v) s) (fun t =>
          t.fab.domctl = s.fab.domctl &&& 0xFFFF#64 ∧ t.fab.devs = [] ∧ t.fab.dstate = 0)))
  ∧ (∀ s, s.part.full = true → s.fab.domctl.getLsbD 63 = true → s.fab.forming = true → s.fab.changed + 20000 ≤ s.gtime →
      (candidate s).1.length ≤ 1024 →
      Goes (exec .domainFormed s) (fun t => t.fab.devs = (candidate s).1 ∧ t.fab.links = (candidate s).2 ∧
        t.fab.trees = treeSet (candidate s).1 (candidate s).2 ∧ t.fab.forming = false ∧ t.fab.epoch = s.fab.epoch + 1 ∧
        t.fab.dstate = (if s.fab.runs.any (fun r => r.paused) then 2
          else if s.fab.parted = true ∧ s.fab.devs = (candidate s).1 then 3 else 1)))

/-- R233 to R235, R358 to R364: an operation that every device of the map has issued alike, of the same domain and
generation, starts, or waits for the hold on its generation; fields that differ, or a generation that runs, end it
with status 3, and a refusal whose status waits stays one; a ninth operation waits; a chunk goes up the tree of its start and comes
down it; a packet of another generation, of a paused map's epoch, or one over 100 µs old, is discarded, any other is kept; a recomputation goes on with the chunks that some device lacks, or
ends partitioned when a device is gone; `cstat` reports the domain. Log entries 25, 36 and 52 are the model's own
choices here. -/
def Obligations.CollectiveSteps : Prop :=
  (∀ core op peers s o b, let s0 := pruneRuns s
    collOp s0 core op = some (o, b) →
    (∀ r, runOf s0 core op = some r → r.final = none → r.equal = false →
      exec (.collStart core op peers) s = .next (collCompare s0 core b o r peers))
    ∧ (∀ r, runOf s0 core op = none → runOf (collEnter s0 core b o) core op = some r → r.final = none → r.equal = false →
        exec (.collStart core op peers) s = .next (collCompare (collEnter s0 core b o) core b o r peers)))
  ∧ (∀ s core b o, let s1 := updOp s core o.id (fun o => { o with begun := true })
      let runs := s1.fab.runs.filter (fun r => r.dom == pf o.words 1 0 16)
      (o.keep = collRefused ∨ (∃ r ∈ runs, r.gen = pf o.words 1 16 12) → collEnter s core b o =
        collEnd (updOp s1 core o.id (fun o => { o with keep := collRefused })) core b o 3)
      ∧ (o.keep ≠ collRefused → (∀ r ∈ runs, r.gen ≠ pf o.words 1 16 12) → 8 ≤ runs.length → collEnter s core b o = s1)
      ∧ (o.keep ≠ collRefused → (∀ r ∈ runs, r.gen ≠ pf o.words 1 16 12) → runs.length < 8 → runOf s1 core o.id = none →
          ∃ r, runOf (collEnter s core b o) core o.id = some r ∧ r.gen = pf o.words 1 16 12 ∧ r.started = false ∧
            r.holdTo = genHold s r.gen))
  ∧ (∀ s core b o r peers, let others := s.fab.devs.filter (fun d => d != s.sys.devid)
      let peer (d : Nat) : Option Peer := peers.find? (fun p => p.dev == d && p.dom.toNat == r.dom && p.gen.toNat == r.gen)
      r.started = false → r.equal = false → r.final = none → s.fab.forming = false → domState s r.dom ≠ 0 →
      ((∃ d ∈ others, peer d = none) → collCompare s core b o r peers = s)
      ∧ ((∀ d ∈ others, ∃ p, peer d = some p ∧ peerEqual o p = true) → pf o.words 0 0 4 ≠ 3 → ∃ l : List Nat,
          let x := { r with equal := true, marked := l }
          collCompare s core b o r peers = collStartNow (updRun s core o.id (fun _ => x)) core b o x)
      ∧ ((∀ d ∈ others, peer d ≠ none) → (∃ d ∈ others, ∃ p, peer d = some p ∧ peerEqual o p = false) →
          collCompare s core b o r peers = collEnd s core b o 3))
  ∧ (∀ core op s o b r, collOp s core op = some (o, b) → runOf s core op = some r → r.equal = true → r.started = false →
      r.final = none → s.fab.forming = false → s.fab.devs ≠ [] →
      (r.holdTo ≤ s.gtime → exec (.genHoldExpiry core op) s = .next (collBegin s core b o))
      ∧ (s.gtime < r.holdTo → exec (.genHoldExpiry core op) s = .next s))
  ∧ (∀ core op chunk below result s o b r t, let s1 := takePackets s core op chunk below result
      collOp s1 core op = some (o, b) → runOf s1 core op = some r → r.started = true →
      r.paused = false → r.final = none → chunk ∈ r.todo → r.treeOf s1 chunk = some t →
      let e := chunkElems o r.size chunk
      exec (.collChunk core op chunk below result) s = .next (runChunk (startChunk s1 core op chunk t) core b
        { op := o, run := r, tree := t, me := s1.sys.devid, c := chunk, lo := e.1, hi := e.2 }
        (r.packets chunk true) (r.packets chunk false)))
  ∧ (∀ (r : CollRun) s c, (∀ t, r.along.find? (fun e => e.1 == c) = some (c, t) → r.treeOf s c = some t) ∧
      (s.fab.trees ≠ [] → r.along.find? (fun e => e.1 == c) = none → r.treeOf s c = s.fab.trees[c % s.fab.trees.length]?))
  ∧ (∀ (r : CollRun) s c up k,
      (k.time + 100000 < s.gtime ∨ k.gen ≠ r.gen ∨ k.epoch < r.since → r.take s c up k = r)
      ∧ (s.gtime ≤ k.time + 100000 → k.gen = r.gen → r.since ≤ k.epoch →
          { chunk := c, up := up, pkt := k } ∈ (r.take s c up k).got ∧
          ∀ g ∈ r.got, ¬ (g.chunk = c ∧ g.up = up ∧ g.pkt.dev = k.dev) → g ∈ (r.take s c up k).got))
  ∧ (∀ s core b p own below result xs, Pass.up p below own = some xs →
      (parentOf p.tree p.me = none → collUp s core b p own below result = collDown s core b p (some xs))
      ∧ (∀ d, parentOf p.tree p.me = some d → p.sends p.me = true → collUp s core b p own below result =
          collDown (updRun (p.send s d true xs) core p.op.id (fun r => { r with sentUp := addNat r.sentUp p.c })) core b p
            (p.down result)))
  ∧ (∀ (p : Pass) l d n, (∀ k ∈ l, k.dev ≠ d ∨ k.gen ≠ p.run.gen ∨ k.epoch < p.run.since) → p.packet l d n = none)
  ∧ (∀ ty red xs ys own, partial_ ty red [] own = own ∧ partial_ ty red [xs] own = List.zipWith (collAdd ty red) xs own ∧
      partial_ ty red [xs, ys] own = List.zipWith (collAdd ty red) (List.zipWith (collAdd ty red) xs ys) own)
  ∧ (∀ core op marked s o b r, let s0 := takeMark s core op
      collOp s0 core op = some (o, b) → runOf s0 core op = some r → r.paused = true → s0.fab.forming = false → s0.fab.devs ≠ [] →
      o.next % 2 = 0 → o.stage ≤ o.inbox.length →
      exec (.collRecompute core op marked) s = .next (resumeRun s0 core b o r marked))
  ∧ (∀ s core b o r marked, let again := Nat.min 255 (r.recomp + 1)
      let todo := (List.range (chunkCount o r.size)).filter (fun c => !(r.own.contains c && marked.contains c))
      let s1 := collClear s core o
      ((∀ d ∈ r.devs, d ∈ s.fab.devs) → resumeRun s core b o r marked = collFinish (endRecomp (updRun s1 core o.id (fun r =>
        { r with paused := false, recomp := again, todo := todo, marked := marked }))) core b o)
      ∧ ((∃ d ∈ r.devs, d ∉ s.fab.devs) → resumeRun s core b o r marked = endRecomp (collEnd
          (updRun { s1 with fab := { s1.fab with parted := true } } core o.id (fun r => { r with paused := false, recomp := again }))
          core b o (2 + again * 16 + s.fab.trees.length % 16 * 4096))))
  ∧ (∀ f : Fabric, f.devs ≠ [] → f.settled.dstate =
      if f.forming = true ∨ (∃ r ∈ f.runs, r.paused = true) then 2 else if f.parted = true then 3 else 1)
  ∧ (∀ core op s o b dom, hubOp s core op = some (o, b) → o.kind = .cstat dom → opSlotHeld s o = false →
      exec (.cstatExec core op) s = .next (endOp (s.updBlock o.bid (fun b =>
        b.scrWrite o.parm.toNat (cstatReport s dom) false)) core op none))

/-! ## The host, registers and boot -/

/-- R390, R392, R393, R394, R396, R399, R402, R403: a host access inside its window reads, writes or updates memory, and an illegal one
freezes the host's channel, a frozen one again; an access that has waited 10 ms for the link ends with code 0x0A, a frozen channel or a
forced reset; a write to control space stores the writable fields of its register and is ignored where there is none, and after a
halt of the boot; new ratios are in force from a slice's next clause issue. Log entries 23 and 41 are the model's own choices here. -/
def Obligations.HostSteps : Prop :=
  (∀ off s, s.sys.hostL0 = true → s.sys.frozenDma = false → off < 2 ^ 36 →
    let pa := s.sys.hwbase * 2 ^ 36 + off
    (∀ n, dmaIllegal s pa n = false → exec (.hostDmaAccess off (.read n)) s =
        .next (if (linesOf pa n).all (hubRoom s) then seeRange s pa n else s))
    ∧ (∀ bytes, dmaIllegal s pa bytes.length = false →
        ((linesOf pa bytes.length).any (heldLine s) = false →
          exec (.hostDmaAccess off (.write bytes)) s = .next (allRoom (physWrite s pa bytes)))
        ∧ ((linesOf pa bytes.length).any (heldLine s) = true → exec (.hostDmaAccess off (.write bytes)) s = .next s))
    ∧ (∀ k a b, dmaIllegal s pa (aopBytes k) = false →
        (atomFree s (pa / 64) = true →
          let s1 := touchLine s (pa / 64)
          let new := (aopApply k (d64 (s1.num pa (aopBytes k))) a b).1
          exec (.hostDmaAccess off (.atomic k a b)) s =
            .next (allRoom (homeWrite s1 pa (leBytes (aopBytes k) new.toNat) (lineBad s1 (pa / 64)))))
        ∧ (atomFree s (pa / 64) = false → exec (.hostDmaAccess off (.atomic k a b)) s = .next s)))
  ∧ (∀ off s, s.sys.hostL0 = true → off < 2 ^ 36 →
    let pa := s.sys.hwbase * 2 ^ 36 + off
    let frozen := devError { s with sys := { s.sys with frozenDma := true, snap := s.sys.snap.map (fun x =>
      { x with frozen := x.frozen.filter (fun k => k != 0) }) } } 3 none none
    (∀ n, dmaIllegal s pa n = true → exec (.hostDmaAccess off (.read n)) s = .next frozen)
    ∧ (∀ bytes, dmaIllegal s pa bytes.length = true → exec (.hostDmaAccess off (.write bytes)) s = .next frozen)
    ∧ (∀ k a b, dmaIllegal s pa (aopBytes k) = true → exec (.hostDmaAccess off (.atomic k a b)) s = .next frozen)
    ∧ (∀ acc, s.sys.frozenDma = true → (∀ n, acc = .read n → dmaIllegal s pa n = false) →
        (∀ bytes, acc = .write bytes → dmaIllegal s pa bytes.length = false) →
        (∀ k a b, acc = .atomic k a b → dmaIllegal s pa (aopBytes k) = false) → exec (.hostDmaAccess off acc) s = .next s))
  ∧ (∀ bid tid s core r, hostReq s bid tid = some (core, r) →
      exec (.hostLinkTimeout (.thread bid tid)) s = .next (failHost s core r))
  ∧ (∀ core id s o since va, (s.core core).queue.find? (fun o => o.id == id) = some o → o.link = some (since, va) →
      linkLate s since = true → o.frozen = false → exec (.hostLinkTimeout (.op core id)) s = .next (freezeOp s core o va))
  ∧ (∀ core id s o va, (s.core core).queue.find? (fun o => o.id == id) = some o → o.link = none → hostOp s core id = some va →
      o.frozen = false → exec (.hostLinkTimeout (.op core id)) s = .next (freezeOp s core o va))
  ∧ (∀ l s x since, s.launch l = some x → x.linkSince = some since → linkLate s since = true → signalOut s l = false →
      exec (.hostLinkTimeout (.signal l)) s = .next (forceReset s x.ctx 3))
  ∧ (∀ s since, linkLate s since = true ↔ s.sys.hostL0 = false ∧ Nat.max since s.sys.hostAt + 10000000 ≤ s.gtime)
  ∧ (∀ s, s.sys.hostL0 = true → Goes (exec .hostLinkLeavesL0 s) (fun t => t.sys.hostL0 = false ∧ t.sys.hostAt = s.gtime ∧
      t.mem = s.mem ∧ t.blocks = s.blocks))
  ∧ (∀ s, s.sys.hostL0 = false → 2 ≤ s.sys.stage → exec .hostLinkReturnsL0 s = .next (allRoom (linkBack s)))
  ∧ (∀ s, (linkBack s).sys.hostL0 = true ∧ (linkBack s).mem = s.mem ∧ (linkBack s).blocks = s.blocks ∧ (linkBack s).ctxs = s.ctxs)
  ∧ (∀ s, (∀ c ∈ s.ctxs.keys, logsWait s c = false) → allRoom s = s)
  ∧ (∀ off v s, s.sys.halted = true → exec (.registerWrite off v) s = .next s)
  ∧ (∀ v s, s.sys.halted = false → exec (.registerWrite 0x8 v) s = .next (if s.fab.domctl.getLsbD 63 then s
        else { s with sys := { s.sys with devid := v.toNat % 1024 } })
      ∧ exec (.registerWrite 0x10 v) s = .next { s with sys := { s.sys with hwbase := v.toNat / 2 ^ 36 % 2 ^ 16 } }
      ∧ exec (.registerWrite 0x10408 v) s = .next { s with sys := { s.sys with draint := v &&& 0xFFFFFFFF#64 } }
      ∧ exec (.registerWrite 0x70000 v) s = .next { s with sys := { s.sys with ehead := lo32 v } }
      ∧ exec (.registerWrite 0x0 v) s = .next s ∧ exec (.registerWrite 0x18 v) s = .next s
      ∧ exec (.registerWrite 0x20 v) s = .next s)
  ∧ (∀ core v s, s.sys.halted = false → core < s.part.cores → Goes (exec (.sratioWrite core v) s) (fun t =>
      (t.core core).sratio = v &&& 0xFFFFFF#64 ∧ coreCycles t core = coreCycles s core ∧
      ∀ k, k < 6 → sliceCycles t core k = sliceCycles s core k ∧ sliceRatio t core k = sliceRatio s core k))
  ∧ (∀ s core k, core < s.part.cores → k < 6 → let t := newRatio s core k
      sliceRatio t core k = (t.core core).ratioOf k ∧ (t.core core).sratio = (s.core core).sratio ∧
      sliceCycles t core k = sliceCycles s core k)
  ∧ (∀ die s, s.sys.halted = false → die.val < s.part.dies → 25 < s.sys.mhz.getD die.val 4000 →
      Goes (exec (.powerThrottle die) s) (fun t => t.sys.mhz.getD die.val 4000 = s.sys.mhz.getD die.val 4000 - 25))

/-- R394, R395, R397, R398, R401, R403: the four boot stages, their failures and measurements; the report; the reset;
the loss of an edge, after which nothing but a reset moves; the timer; snapshots. Log entries 37, 38, 39, 40 and 41 are
the model's own choices here. -/
def Obligations.BootSteps : Prop :=
  (∀ image s, s.sys.stage = 0 → s.sys.halted = false →
    exec (.bootStage0 true image) s = .next { s with sys := { s.sys with
      stage := 1, m0 := shake256 (List.replicate 64 0 ++ shake256 image) } }
    ∧ exec (.bootStage0 false image) s = .next { s with sys := { s.sys with err := 1, halted := true } })
  ∧ (∀ s, s.sys.stage = 1 → s.sys.halted = false →
      Goes (exec (.bootStage1 true true) s) (fun t => t.sys.stage = 2 ∧ t.sys.hostL0 = true ∧
        (s.part.full = true → ∀ j, j < 16 → (t.port j).st = 1))
      ∧ exec (.bootStage1 false true) s = .next { s with sys := { s.sys with err := 0x10, halted := true } }
      ∧ exec (.bootStage1 true false) s = .next { s with sys := { s.sys with err := 0x20, halted := true } })
  ∧ (∀ image s, s.sys.stage = 2 → s.sys.halted = false → s.sys.retryAt ≤ s.gtime →
      exec (.bootStage2 true image) s = .next { s with sys := { s.sys with
        stage := 3, m2 := shake256 (s.sys.m0 ++ shake256 image) } }
      ∧ exec (.bootStage2 false image) s = .next { s with sys := { s.sys with err := 2, halted := false, retryAt := s.gtime + 10000000000 } })
  ∧ (∀ valid image s, s.gtime < s.sys.retryAt → exec (.bootStage2 valid image) s = .next s)
  ∧ (∀ s, s.sys.stage = 3 → s.sys.halted = false → let s1 := { s with sys := { s.sys with stage := 4 } }
      exec .bootStage3 s = .next (if s.sys.attest then report s1 else s1))
  ∧ (∀ s, s.sys.halted = false → s.sys.stage < 4 → exec .attestRequest s = .next { s with sys := { s.sys with attest := true } })
  ∧ (∀ s, s.sys.halted = false → 4 ≤ s.sys.stage → Goes (exec .attestRequest s) (fun t => ∃ sig : List Byte, sig.length = 3309 ∧
      t.sys.report = leBytes 8 s.sys.devid ++ s.sys.m0 ++ s.sys.m2 ++ s.sys.nonce ++ leBytes 8 s.gtime ++ sig))
  ∧ (∀ s, Goes (exec .deviceReset s) (fun t => t.sys = (State.resetOn s.part).sys ∧ t.fab = Fabric.init ∧ t.blocks = [] ∧
      t.launches = [] ∧ t.ctxs = [] ∧ t.cores = [] ∧ t.gtime = 0 ∧ t.mem = s.mem ∧ t.memBad = s.memBad))
  ∧ (∀ e s, 2 ≤ s.sys.stage → Goes (exec (.dieLinkLoss e) s) (fun t => t.sys.stopped = true ∧ t.sys.err = 0x11))
  ∧ (∀ e s, s.sys.stage < 2 → exec (.dieLinkLoss e) s = .next s)
  ∧ (∀ s, s.sys.stopped = true → (takeTurn s).1.move ≠ .event .deviceReset → step s = .fault .deviceStopped)
  ∧ (∀ stack s, exec (.dramRecalibration stack none) s = .next s)
  ∧ (∀ stack g s, (2 ≤ s.sys.stage → stack.val < 2 * s.part.dies → ∃ code, exec (.dramRecalibration stack (some g)) s =
        .next (devError { s with free := s.free + 1 } code (some stack.val) none))
      ∧ (s.sys.stage < 2 ∨ 2 * s.part.dies ≤ stack.val → exec (.dramRecalibration stack (some g)) s = .next s))
  ∧ (∀ time ofs stayed s, s.sys.stage < 3 → exec (.ptpSync time ofs stayed) s = .next s)
  ∧ (∀ time ofs stayed s, 3 ≤ s.sys.stage → let near := -20 ≤ ofs.toInt ∧ ofs.toInt ≤ 20
      Goes (exec (.ptpSync time ofs stayed) s) (fun t => t.gtime = (if 4 ≤ s.sys.stage then s.gtime else time.toNat) ∧ lo32 t.sys.tstat = ofs ∧
        (t.sys.tstat.getLsbD 63 = true ↔ near ∧ stayed = true ∧ ∃ n, s.sys.nearAt = some n ∧ n + 1000000000 ≤ s.gtime) ∧
        (4 ≤ s.sys.stage → ¬ near → t.sys.nearAt = none) ∧
        (4 ≤ s.sys.stage → near → t.sys.nearAt = if stayed = true ∧ s.sys.nearAt ≠ none then s.sys.nearAt else some s.gtime)))
  ∧ (∀ s, Goes (exec .grandmasterLoss s) (fun t => t.sys.tstat = s.sys.tstat &&& 0x7FFFFFFFFFFFFFFF#64 ∧ t.gtime = s.gtime ∧
      t.sys.nearAt = none))
  ∧ (∀ v s, v.getLsbD 63 = true → v.getLsbD 0 = true → 4 ≤ s.sys.stage → (s.sys.snapat = s.gtime → s.sys.snap = [] ∧ s.sys.snapseq = 0) →
      Goes (exec (.snapshotGo v) s) (fun t => t.sys.snap = s.sys.snap ++ [latch { s with sys := { s.sys with snapctl := v &&& 0xF#64 } }] ∧
        t.sys.snapctl = v &&& 0xE#64 ∧ t.sys.snapat = s.gtime ∧ t.mem = s.mem))
  ∧ (∀ v s, v.getLsbD 63 = true → s.sys.snapat = s.gtime → s.sys.snap ≠ [] →
      exec (.snapshotGo v) s = .next { s with sys := { s.sys with snapctl := v &&& 0xF#64 } })
  ∧ (∀ s, s.sys.snapctl.getLsbD 2 = true → s.sys.snapctl.getLsbD 0 = true → s.sys.snaptime ≠ 0 →
      (s.sys.snaptime.toNat ≤ s.gtime → exec .snapshotTimer s = .next (snapFire s))
      ∧ (s.gtime < s.sys.snaptime.toNat → exec .snapshotTimer s = .next s))
  ∧ (∀ s, exec .snapinEdge s = .next (if s.sys.snapctl.getLsbD 3 then snapFire s else s))
  ∧ (∀ s n k x, snapNext s = some (n, k, x) → let pa := s.sys.snapbuf.toNat
      tgtHost s pa = false → (linesOf pa x.bytes.length).any (heldLine s) = false →
      (dmaIllegal s pa x.bytes.length = false → exec .snapshotWritten s = .next (let s1 := physWrite s pa x.bytes
          backInService { s1 with sys := { s1.sys with snap := s1.sys.snap.eraseIdx n, snapseq := (s1.sys.snapseq + 1) % 2 ^ 32 } } x))
      ∧ (dmaIllegal s pa x.bytes.length = true → exec .snapshotWritten s = .next (devError { s with sys := { s.sys with
          haltedMgmt := addNat s.sys.haltedMgmt k } } 3 none none)))
  ∧ (∀ s x rest, s.sys.snap = x :: rest → s.sys.haltedMgmt = [] → snapNext s = some (0, 0, x))
  ∧ (∀ s x, x.mgmt = [] → let t := backInService s x
      t.mem = s.mem ∧ t.sys.frozenDma = (s.sys.frozenDma && !x.frozen.contains 0) ∧
      (∀ k ∈ t.cores, ∀ o ∈ k.2.queue, o.frozen = true → o.id ∉ x.frozen))
  ∧ (∀ s x, 1 ∉ x.mgmt → ∀ k, k ∈ (backInService s x).sys.haltedMgmt ↔ k ∈ s.sys.haltedMgmt ∧ (k = 1 ∨ k ∉ x.mgmt))

/-! ## Issue, the step, the encoding, the invariant -/

/-- R35, R38, R39, R57, R80, R370: a frond with no clause in flight and no cause held begins the clause at its lowest
issue key, with every eligible thread at that key, when the slice of the clause's class selects it: it has issued
there least recently, ties to the lowest slot. It waits while a token of the wait mask is set; an invalid header
raises ILLCL. Log entries 13, 15 and 56 are the model's own choices here. -/
def Obligations.ClauseIssue : Prop :=
  (∀ core slot s bid b f t0 l t s1 x, let set := issueSet b f.own (eligibleOf b slot f 0)
    s.blockAt core slot = some (bid, b) → s.block bid = some b → b.fronds.get? slot = some f → f.run = none → f.subs = [] →
    deliverables b slot = [] → set = t0 :: l → b.thread t0 = some t → fetchWord s core b.ctx t.pc = .word s1 x →
    ((∃ u ∈ set, ∃ y, b.thread u = some y ∧ ∃ k, k < 8 ∧ x.getLsbD (48 + k) = true ∧ y.getTok k ≠ 0) →
      exec (.clauseIssue core slot) s = .next s)
    ∧ ((∀ u ∈ set, ∀ y, b.thread u = some y → ∀ k, k < 8 → x.getLsbD (48 + k) = true → y.getTok k = 0) →
        (Header.decode x = none → exec (.clauseIssue core slot) s = .next (takeTrap s1 bid slot (set.map (fun u =>
          { tid := u, causes := [{ bit := 2, addr := t.pc, info := 0 }], epc := t.pc, eslot := 0 }))))
        ∧ (∀ h k, Header.decode x = some h → firstWord h t = some k →
            let me : Contender := { bid := bid, slot := slot, slice := Header.slice h slot }
            (selects s core (readyOn s core) me = true →
              Goes (exec (.clauseIssue core slot) s) (fun u => u.mem = s1.mem ∧ ∃ c g, u.block bid = some c ∧
                c.fronds.get? slot = some g ∧ g.run = some { tids := set, clause := t.pc, hdr := h, pos := k } ∧
                g.issued.get? me.slice = some (sliceCycles s core me.slice)))
            ∧ (selects s core (readyOn s core) me = false →
                exec (.clauseIssue core slot) s = .next (markReady s core (readyOn s core))))))
  ∧ (∀ s core rs (r : Contender), selects s core rs r = true ↔ ∀ x ∈ rs, x = r ∨ x.slice ≠ r.slice ∨
      countsFrom s core r < countsFrom s core x ∨ (countsFrom s core r = countsFrom s core x ∧ r.slot < x.slot) ∨
      mayPass s core x = true)
  ∧ (∀ (h : Header) slot, (h.cls = .u → Header.slice h slot = 4) ∧ (h.cls = .e → Header.slice h slot = 5) ∧
      (h.cls ≠ .u → h.cls ≠ .e → Header.slice h slot = slot % 4))
  ∧ (∀ b g ts, g.skip = [] → g.rep < 256 → ∀ t, t ∈ issueSet b g ts ↔ t ∈ ts ∧ ∀ u ∈ ts, b.keyOf t ≤ b.keyOf u)
  ∧ (∀ h t, (t.last = false → firstWord h t = (if Nat.max 1 t.rslot ≤ h.cnt.toNat + 1 then some (Nat.max 1 t.rslot) else none))
      ∧ (t.last = true → firstWord h t = (if h.cnt = 15 then some 16 else none)))
  ∧ (∀ core slot s bid b f, s.blockAt core slot = some (bid, b) → b.fronds.get? slot = some f → f.run.isSome = true →
      exec (.clauseIssue core slot) s = .next s)

/-- R36, R38, R57 to R59, R80, R81, R383: A STEP RUNS THE DECODED INSTRUCTION. When the frond whose turn it is holds a
clause in flight and the bits at the next word's address decode to an instruction that its block may execute, the
step is `exec` of that instruction; when they are rejected, the issue set traps; while a thread of the clause waits,
nothing issues. A frond without a clause in flight begins one; an event of the table is `exec` of that event. The
agenda is the model's own. Log entries 4, 9, 14, 15, 51 and 56 are the model's own choices here. -/
def Obligations.StepRunsDecoded : Prop :=
  (∀ s core slot dt gap rest i x s1 ins, s.sys.stopped = false →
    s.agenda = { dt := dt, gap := gap, move := .run core slot } :: rest →
    let s0 := focusOn (passTime (noteReady { s with agenda := rest }) dt) core slot gap
    s0.issue? = some i → i.run.tids ≠ [] → i.waiting = false → fetchWord s0 i.core i.blk.ctx i.word = .word s1 x →
    let k := i.run.hdr.classOf i.run.pos
    decodeInstr k x = some ins → (decodeWord k x).need &&& i.blk.hdr.features = (decodeWord k x).need →
    (decodeWord k x).top ≤ i.blk.hdr.regs →
    (mustBeLast k x = true → i.run.hdr.cnt.toNat < i.run.pos ∧ (k = .m → i.run.hdr.t = false)) →
    step s = exec ins (if i.fr.fetch.isSome then s1.updFrond i.bid i.slot (fun f => { f with fetch := none }) else s1))
  ∧ (∀ s core slot dt gap rest i x s1 cs, s.sys.stopped = false →
      s.agenda = { dt := dt, gap := gap, move := .run core slot } :: rest →
      let s0 := focusOn (passTime (noteReady { s with agenda := rest }) dt) core slot gap
      s0.issue? = some i → i.run.tids ≠ [] → i.waiting = false → fetchWord s0 i.core i.blk.ctx i.word = .word s1 x →
      wordOf i.blk i.run x = .reject cs → step s = .next (rejectWord
        (if i.fr.fetch.isSome then s1.updFrond i.bid i.slot (fun f => { f with fetch := none }) else s1) i x cs))
  ∧ (∀ s core slot dt gap rest i, s.sys.stopped = false →
      s.agenda = { dt := dt, gap := gap, move := .run core slot } :: rest →
      let s0 := focusOn (passTime (noteReady { s with agenda := rest }) dt) core slot gap
      s0.issue? = some i → i.run.tids ≠ [] → i.waiting = true → step s = .next s0)
  ∧ (∀ s core slot dt gap rest, s.sys.stopped = false → s.agenda = { dt := dt, gap := gap, move := .run core slot } :: rest →
      let s0 := focusOn (passTime (noteReady { s with agenda := rest }) dt) core slot gap
      s0.issue? = none → step s = exec (.clauseIssue core slot) s0)
  ∧ (∀ (s : State) x, s.sys.stopped = false → step (s.withEvent x) = exec x { noteReady s with focus := none })

/-- R57, R60 to R79: DECODE AND ENCODE AGREE. Each well-formed word decodes from its encoding, with every operand at
every value that the encoding admits; so does each header. Log entry 51 is the model's own choice here. -/
def Obligations.RoundTrip : Prop :=
  (∀ i k w, i.wf = true → encode i = some (k, w) → decodeInstr k w = some i)
  ∧ (∀ h : Header, (h.t = true → h.cls ≠ .c ∧ h.cnt ≠ 0) → Header.decode h.encode = some h)

/-- R53, R241: the memory of the machine stands in its one canonical form, the address list strictly rising with no entry equal
to what an unlisted address reads as, right after reset; R51, R394, R396: what reset leaves, REFAGE at 64 among it. Log entries
1, 2 and 3 are the model's own choices here. -/
def Obligations.ResetState : Prop :=
  State.reset.Inv ∧ State.reset.sys.stage = 0 ∧ State.reset.sys.hostL0 = false ∧ State.reset.fab.domctl = 0 ∧
    (∀ c, (State.reset.ctx c).st = 0 ∧ (State.reset.ctx c).en = false) ∧ (∀ k, (State.reset.core k).owner = none ∧
    (State.reset.core k).banks = [] ∧ (State.reset.core k).refage = 64)

/-- AN INVARIANT THAT EVERY STEP KEEPS: every step of every agent, from every state whose memory stands in its canonical
form, ends in such a state. The form is the model's own representation of R241's memory. Log entry 1 is the model's own
choice here. -/
def Obligations.StepKeepsInvariant : Prop := ∀ s t, s.Inv → step s = .next t → t.Inv

/-- R67, R107, R108, R130, R386: THE FRAME of the words that compute. After an arithmetic or bitwise word, every byte of memory, of
the scratchpad and of the accumulator store reads as before; every register but the destination in the active lanes, every
predicate, special register and exception register is unchanged, in every thread of every block, and every token but the word's own,
which counts its result while that is on its way; so is every uniform register. After a uniform word the same holds, and its
s-register alone may change. -/
def Obligations.Frames : Prop :=
  let others (u s : State) : Prop := (∀ a, Memory.get u.mem a = Memory.get s.mem a) ∧ u.cores = s.cores ∧ u.ctxs = s.ctxs ∧
    u.launches = s.launches ∧ u.fab = s.fab ∧ u.sys = s.sys ∧ u.mons = s.mons ∧ u.merges = s.merges ∧
    ∀ bid b, s.block bid = some b → ∃ c, u.block bid = some c ∧ c.scr = b.scr ∧ c.acc = b.acc ∧ c.absent = b.absent ∧
      c.bars = b.bars ∧ c.step = b.step ∧ c.place = b.place
  let special (c : Ctl) (z y : Thread) : Prop := z.fctl = y.fctl ∧ z.fpflags = y.fpflags ∧ z.cause = y.cause ∧ z.epc = y.epc ∧
    z.eslot = y.eslot ∧ z.tvec = y.tvec ∧ z.eaddr = y.eaddr ∧ z.einfo = y.einfo ∧ z.handler = y.handler ∧ z.depth = y.depth ∧
    (∀ k, z.owed k = y.owed k) ∧ (∀ k, (c.set = true ∧ k = c.tok.toNat) ∨ z.getTok k = y.getTok k) ∧
    (z.status = y.status ∨ (y.status = .parked .issue ∧ z.status = .eligible))
  (∀ x w, arithWord x = some w ∨ bitWord x = some w → ∀ s i u, Ready w.form s i → exec x s = .next u →
    others u s
    ∧ (∀ bid t y, s.thread bid t = some y → ∃ z, u.thread bid t = some z ∧ special w.form.c z y ∧ z.p = y.p ∧
        ∀ n, (bid = i.bid ∧ t ∈ w.form.active i ∧ Reg.v n ∈ w.form.wr) ∨ z.getV n = y.getV n)
    ∧ (∀ bid b slot f, s.block bid = some b → b.fronds.get? slot = some f → ∃ c g, u.block bid = some c ∧
        c.fronds.get? slot = some g ∧ g.s = f.s ∧ g.ftimer = f.ftimer))
  ∧ (∀ x w, uWord x = some w → ∀ s i u, Ready w.form s i → exec x s = .next u →
      others u s
      ∧ (∀ bid t y, s.thread bid t = some y → ∃ z, u.thread bid t = some z ∧ special w.form.c z y ∧ z.p = y.p ∧ z.v = y.v)
      ∧ (∀ bid b slot f, s.block bid = some b → b.fronds.get? slot = some f → ∃ c g, u.block bid = some c ∧
          c.fronds.get? slot = some g ∧ g.ftimer = f.ftimer ∧
          ∀ n, (bid = i.bid ∧ slot = i.slot ∧ n = w.d.val) ∨ g.getS n = f.getS n))

/-- R57, R60, R62, R65, R75 to R77, R80, R197: words written out in spec/ from their encodings decode to the instructions
they stand for; the store with an order and no scope is rejected. -/
def Obligations.DecodeWords : Prop :=
  let c0 : Ctl := { stall := 0, set := false, tok := 0, gneg := false, gp := 15 }
  let tk (k : BitVec 3) : Ctl := { c0 with set := true, tok := k }
  let e0 : ECtl := { rel := false, rs := .none, be := false, bar := 0, cs := 0 }
  Header.decode 0x1100800000000000 = some { cls := .v, cnt := 1, wait := 0, t := true }
  ∧ Header.decode 0x1204800000000000 = some { cls := .v, cnt := 2, wait := 4, t := true }
  ∧ Header.decode 0x5000000000000000 = none
  ∧ decodeInstr .v 0x221078000150C000 = some (.cmp { c0 with stall := 1 } .lt .i32 0 (.v 2) (.s 6))
  ∧ decodeInstr .c 0x010080000000C000 = some (.bra { c0 with gneg := true, gp := 0 } 24)
  ∧ decodeInstr .u 0x0200789102800000 = some (.smul c0 9 8 (.reg 10))
  ∧ decodeInstr .v 0xC40E7D1601802000 = some (.rdfirstChk (tk 6) false 11 (.v 3) 1)
  ∧ decodeInstr .m 0x030F780C02D08000 = some (.ld (tk 7) .b16 .rlx .none 6 (.idx 4 5))
  ∧ decodeInstr .m 0x2400780542000214 = some (.st c0 .b32 .rel .dev (.off (.s 4) 16) (.v 2))
  ∧ decodeInstr .m 0x2400780542000210 = none
  ∧ decodeInstr .m 0x7F0078054451200C = some (.waitc c0 .ge true .acq .dev (.s 8) (.v 2) (.s 9))
  ∧ decodeInstr .e 0x100B788CA8000002 = some (.cpy (tk 3) { rel := true, rs := .dev, be := true, bar := 5, cs := 0 } 8 2)
  ∧ decodeInstr .e 0x07007800000FF000 = some (.mxzero c0 e0 0 255)
  ∧ decodeInstr .e 0x3008780C00000000 = some (.coll (tk 0) { e0 with rel := true, rs := .dev } 0)
  ∧ decodeInstr .c 0x0E0C780200000005 = some (.srd (tk 4) 1 false 5)
end

