-- ==== Sys2Proof/Laws/Map.lean ====
section
/-! SUPPORT. What the operations of a sparse map do: reading a key after a write of it or of another, and the canonical
form. -/

namespace Sys2Proof.Map
variable {α β : Type}

@[simp] theorem get?_nil (j : Nat) : get? ([] : Map α) j = none := rfl
theorem get?_cons (k : Nat) (v : α) (t : Map α) (j : Nat) :
    get? ((k, v) :: t) j = if k = j then some v else get? t j := rfl

/-- A key that was put holds the value. -/
@[simp] theorem get?_put_self (m : Map α) (j : Nat) (v : α) : (m.put j v).get? j = some v := by
  induction m with
  | nil => simp [put, get?]
  | cons e t ih =>
    obtain ⟨k, w⟩ := e
    simp only [put]
    split
    · simp [get?]
    · split
      · simp [get?]
      · next h1 h2 => simp [get?, ih, Ne.symm h2]
/-- A put leaves every other key alone. -/
theorem get?_put_ne (m : Map α) {i j : Nat} (h : i ≠ j) (v : α) : (m.put j v).get? i = m.get? i := by
  induction m with
  | nil => simp [put, get?, Ne.symm h]
  | cons e t ih =>
    obtain ⟨k, w⟩ := e
    simp only [put]
    split
    · simp [get?, Ne.symm h]
    · split
      · next h1 h2 => subst h2; simp [get?, Ne.symm h]
      · simp [get?, ih]
theorem get?_put (m : Map α) (i j : Nat) (v : α) : (m.put j v).get? i = if i = j then some v else m.get? i := by
  split
  · next h => subst h; exact get?_put_self m i v
  · next h => exact get?_put_ne m h v
/-- A deleted key is not listed. -/
@[simp] theorem get?_del_self (m : Map α) (j : Nat) : (m.del j).get? j = none := by
  induction m with
  | nil => rfl
  | cons e t ih =>
    obtain ⟨k, w⟩ := e
    simp only [del]
    split
    · exact ih
    · next h => simp [get?, h, ih]
theorem get?_del_ne (m : Map α) {i j : Nat} (h : i ≠ j) : (m.del j).get? i = m.get? i := by
  induction m with
  | nil => rfl
  | cons e t ih =>
    obtain ⟨k, w⟩ := e
    simp only [del]
    split
    · next hk => subst hk; simp [get?, Ne.symm h, ih]
    · simp [get?, ih]
/-- A listed key is changed. -/
theorem get?_modify (m : Map α) (i j : Nat) (f : α → α) :
    (m.modify j f).get? i = if i = j then (m.get? i).map f else m.get? i := by
  induction m with
  | nil => simp [modify]
  | cons e t ih =>
    obtain ⟨k, w⟩ := e
    simp only [modify]
    by_cases hk : k = j
    · subst hk
      by_cases hi : i = k
      · simp [get?, hi]
      · simp [get?, Ne.symm hi, hi]
    · by_cases hi : k = i
      · subst hi; simp [get?, hk]
      · simp [get?, hk, hi, ih]
@[simp] theorem get?_modify_self (m : Map α) (j : Nat) (f : α → α) : (m.modify j f).get? j = (m.get? j).map f := by
  simp [get?_modify]
theorem get?_modify_ne (m : Map α) {i j : Nat} (h : i ≠ j) (f : α → α) : (m.modify j f).get? i = m.get? i := by
  simp [get?_modify, h]
@[simp] theorem get?_mapVal (m : Map α) (f : Nat → α → β) (j : Nat) : (m.mapVal f).get? j = (m.get? j).map (f j) := by
  induction m with
  | nil => rfl
  | cons e t ih =>
    obtain ⟨k, w⟩ := e
    simp only [mapVal, get?, ih]
    split
    · next h => subst h; rfl
    · rfl
@[simp] theorem mapVal_id (m : Map α) : m.mapVal (fun _ x => x) = m := by
  induction m with
  | nil => rfl
  | cons e t ih => simp [mapVal, ih]
theorem mapVal_congr {m : Map α} {f g : Nat → α → β} (h : ∀ e ∈ m, f e.1 e.2 = g e.1 e.2) : m.mapVal f = m.mapVal g := by
  induction m with
  | nil => rfl
  | cons e t ih =>
    obtain ⟨k, w⟩ := e
    simp only [mapVal]
    rw [h (k, w) (by simp), ih (fun e he => h e (by simp [he]))]
/-- A change that a function of the values does not see. -/
theorem mapVal_modify {m : Map α} {j : Nat} {f : α → α} {g : Nat → α → β} (h : ∀ v, m.get? j = some v → g j (f v) = g j v) :
    (m.modify j f).mapVal g = m.mapVal g := by
  induction m with
  | nil => rfl
  | cons e t ih =>
    obtain ⟨k, w⟩ := e
    simp only [modify]
    by_cases hk : k = j
    · subst hk; simp [mapVal, h w (by simp [get?])]
    · simp only [if_neg hk, mapVal]
      rw [ih (fun v hv => h v (by simp [get?, hk, hv]))]
theorem mapVal_mapVal {γ : Type} (m : Map α) (f : Nat → α → β) (g : Nat → β → γ) :
    (m.mapVal f).mapVal g = m.mapVal (fun k x => g k (f k x)) := by
  induction m with
  | nil => rfl
  | cons e t ih => simp [mapVal, ih]
theorem modify_modify (m : Map α) (j : Nat) (f g : α → α) : (m.modify j f).modify j g = m.modify j (fun x => g (f x)) := by
  induction m with
  | nil => rfl
  | cons e t ih =>
    obtain ⟨k, w⟩ := e
    by_cases hk : k = j
    · simp [modify, hk]
    · simp [modify, hk, ih]
theorem modify_congr {m : Map α} {j : Nat} {f g : α → α} (h : ∀ v, m.get? j = some v → f v = g v) :
    m.modify j f = m.modify j g := by
  induction m with
  | nil => rfl
  | cons e t ih =>
    obtain ⟨k, w⟩ := e
    by_cases hk : k = j
    · simp [modify, hk, h w (by simp [get?, hk])]
    · simp only [modify, if_neg hk]
      rw [ih (fun v hv => h v (by simp [get?, hk, hv]))]
theorem modify_id (m : Map α) (j : Nat) : m.modify j (fun x => x) = m := by
  induction m with
  | nil => rfl
  | cons e t ih =>
    obtain ⟨k, w⟩ := e
    by_cases hk : k = j
    · simp [modify, hk]
    · simp [modify, hk, ih]
/-- Writing back what is listed changes nothing of a sorted map's readings. -/
theorem get?_mem {m : Map α} {j : Nat} {v : α} (h : m.get? j = some v) : (j, v) ∈ m := by
  induction m with
  | nil => simp at h
  | cons e t ih =>
    obtain ⟨k, w⟩ := e
    simp only [get?] at h
    split at h
    · next hk => subst hk; simp_all
    · simp [ih h]

/-! ## Maps with a default -/

@[simp] theorem getD_put_self (m : Map α) (j : Nat) (v d : α) : (m.put j v).getD j d = v := by simp [getD]
theorem getD_set [DecidableEq α] (m : Map α) (d : α) (i j : Nat) (v : α) :
    (m.set d j v).getD i d = if i = j then v else m.getD i d := by
  by_cases hv : v = d
  · subst hv
    by_cases h : i = j
    · subst h; simp [set, getD]
    · simp [set, getD, h, get?_del_ne m h]
  · by_cases h : i = j
    · subst h; simp [set, hv]
    · simp [set, hv, getD, h, get?_put_ne m h]
@[simp] theorem getD_set_self [DecidableEq α] (m : Map α) (d : α) (j : Nat) (v : α) : (m.set d j v).getD j d = v := by
  simp [getD_set]
theorem getD_set_ne [DecidableEq α] (m : Map α) (d : α) {i j : Nat} (h : i ≠ j) (v : α) :
    (m.set d j v).getD i d = m.getD i d := by
  simp [getD_set, h]

/-! ## The canonical form -/

/-- Every listed key lies above a bound. -/
def above (k : Nat) (m : Map α) : Prop := ∀ e ∈ m, k < e.1
theorem sorted_cons (k : Nat) (v : α) (t : Map α) : sorted ((k, v) :: t) = true ↔ above k t ∧ sorted t = true := by
  induction t generalizing k v with
  | nil => simp [sorted, above]
  | cons e t ih =>
    obtain ⟨j, w⟩ := e
    have hj := ih j w
    simp only [sorted, Bool.and_eq_true, decide_eq_true_eq]
    constructor
    · rintro ⟨h1, h2⟩
      refine ⟨?_, h2⟩
      intro e he
      rcases List.mem_cons.1 he with rfl | he
      · exact h1
      · exact Nat.lt_trans h1 ((hj.1 h2).1 e he)
    · rintro ⟨h1, h2⟩
      exact ⟨h1 (j, w) (by simp), h2⟩
theorem mem_put {m : Map α} {j : Nat} {v : α} {e : Nat × α} (h : e ∈ m.put j v) : e = (j, v) ∨ e ∈ m := by
  induction m with
  | nil => simpa [put] using h
  | cons x t ih =>
    obtain ⟨k, w⟩ := x
    simp only [put] at h
    split at h
    · simp only [List.mem_cons] at h ⊢; exact h
    · split at h
      · simp only [List.mem_cons] at h ⊢; rcases h with h | h <;> simp [h]
      · simp only [List.mem_cons] at h ⊢
        rcases h with h | h
        · simp [h]
        · rcases ih h with h | h <;> simp [h]
theorem mem_del {m : Map α} {j : Nat} {e : Nat × α} (h : e ∈ m.del j) : e ∈ m := by
  induction m with
  | nil => exact h
  | cons x t ih =>
    obtain ⟨k, w⟩ := x
    simp only [del] at h
    split at h
    · exact List.mem_cons_of_mem _ (ih h)
    · simp only [List.mem_cons] at h ⊢
      rcases h with h | h
      · exact .inl h
      · exact .inr (ih h)
theorem sorted_put {m : Map α} (h : m.sorted = true) (j : Nat) (v : α) : (m.put j v).sorted = true := by
  induction m with
  | nil => rfl
  | cons x t ih =>
    obtain ⟨k, w⟩ := x
    have hs := (sorted_cons k w t).1 h
    simp only [put]
    split
    · next hjk =>
      refine (sorted_cons _ _ _).2 ⟨?_, h⟩
      intro e he
      rcases List.mem_cons.1 he with rfl | he
      · exact hjk
      · exact Nat.lt_trans hjk (hs.1 e he)
    · split
      · next h1 h2 => subst h2; exact (sorted_cons _ _ _).2 hs
      · next h1 h2 =>
        refine (sorted_cons _ _ _).2 ⟨?_, ih hs.2⟩
        intro e he
        rcases mem_put he with rfl | he
        · simp; omega
        · exact hs.1 e he
theorem sorted_del {m : Map α} (h : m.sorted = true) (j : Nat) : (m.del j).sorted = true := by
  induction m with
  | nil => rfl
  | cons x t ih =>
    obtain ⟨k, w⟩ := x
    have hs := (sorted_cons k w t).1 h
    simp only [del]
    split
    · exact ih hs.2
    · exact (sorted_cons _ _ _).2 ⟨fun e he => hs.1 e (mem_del he), ih hs.2⟩
/-- A write of a map with a default keeps its canonical form. -/
theorem canon_set [DecidableEq α] {d : α} {m : Map α} (h : canon d m = true) (j : Nat) (v : α) :
    canon d (m.set d j v) = true := by
  simp only [canon, Bool.and_eq_true, List.all_eq_true, decide_eq_true_eq] at h ⊢
  unfold set
  split
  · exact ⟨sorted_del h.1 j, fun e he => h.2 e (mem_del he)⟩
  · next hv =>
    refine ⟨sorted_put h.1 j v, fun e he => ?_⟩
    rcases mem_put he with rfl | he
    · exact hv
    · exact h.2 e he

end Sys2Proof.Map
end

