-- ==== Sys2Proof/Laws/Memory.lean ====
section
/-! SUPPORT. Memory: reading a byte after a write, and its canonical form kept by every write. -/

namespace Sys2Proof.Machine

@[simp] theorem Memory.get_set_self (m : List Host.Cell) (a : Nat) (v : Byte) : Memory.get (Memory.set m a v) a = v :=
  Map.getD_set_self m 0 a v
theorem Memory.get_set_ne (m : List Host.Cell) {a b : Nat} (h : b ≠ a) (v : Byte) :
    Memory.get (Memory.set m a v) b = Memory.get m b :=
  Map.getD_set_ne m 0 h v
/-- A write leaves a byte alone that it does not cover. -/
theorem Memory.get_write_out (m : List Host.Cell) (a : Nat) (bs : List Byte) (b : Nat) (h : b < a ∨ a + bs.length ≤ b) :
    Memory.get (Memory.write m a bs) b = Memory.get m b := by
  induction bs generalizing m a with
  | nil => rfl
  | cons x t ih =>
    simp only [List.length_cons] at h
    rw [Memory.write, ih _ _ (by omega), Memory.get_set_ne m (by omega)]
/-- A byte that a write covers reads as written. -/
theorem Memory.get_write_in (m : List Host.Cell) (a : Nat) (bs : List Byte) (k : Nat) (h : k < bs.length) :
    Memory.get (Memory.write m a bs) (a + k) = bs[k] := by
  induction bs generalizing m a k with
  | nil => simp at h
  | cons x t ih =>
    cases k with
    | zero => rw [Memory.write, Memory.get_write_out _ _ _ _ (by omega)]; simp
    | succ k =>
      have := ih (Memory.set m a x) (a + 1) k (by simpa using h)
      rw [Memory.write, show a + (k + 1) = a + 1 + k by omega, this]; simp
/-- What was written is read. -/
theorem Memory.read_write (m : List Host.Cell) (a : Nat) (bs : List Byte) :
    Memory.read (Memory.write m a bs) a bs.length = bs := by
  induction bs generalizing m a with
  | nil => rfl
  | cons x t ih =>
    have h := ih (Memory.set m a x) (a + 1)
    simp only [List.length_cons, Memory.read, Memory.write]
    rw [h, Memory.get_write_out _ _ _ _ (by omega), Memory.get_set_self]
theorem Memory.wf_nil : Memory.wf [] = true := rfl
theorem Memory.wf_set {m : List Host.Cell} (h : Memory.wf m = true) (a : Nat) (v : Byte) :
    Memory.wf (Memory.set m a v) = true :=
  Map.canon_set h a v
/-- Every write keeps the canonical form. -/
theorem Memory.wf_write {m : List Host.Cell} (h : Memory.wf m = true) (a : Nat) (bs : List Byte) :
    Memory.wf (Memory.write m a bs) = true := by
  induction bs generalizing m a with
  | nil => exact h
  | cons x t ih => exact ih (Memory.wf_set h a x) (a + 1)

end Sys2Proof.Machine
end

