-- ==== Sys2Proof/Laws/State.lean ====
section
/-! SUPPORT. Each named update of the state, field by field: what it changes is one field, and the others stand. -/

namespace Sys2Proof.Machine

@[simp] theorem State.updBlock_part (s : State) (bid : Nat) (f : Block → Block) : (s.updBlock bid f).part = s.part := rfl
@[simp] theorem State.updBlock_gtime (s : State) (bid : Nat) (f : Block → Block) : (s.updBlock bid f).gtime = s.gtime := rfl
@[simp] theorem State.updBlock_mem (s : State) (bid : Nat) (f : Block → Block) : (s.updBlock bid f).mem = s.mem := rfl
@[simp] theorem State.updBlock_memBad (s : State) (bid : Nat) (f : Block → Block) : (s.updBlock bid f).memBad = s.memBad := rfl
@[simp] theorem State.updBlock_memErr (s : State) (bid : Nat) (f : Block → Block) : (s.updBlock bid f).memErr = s.memErr := rfl
@[simp] theorem State.updBlock_merges (s : State) (bid : Nat) (f : Block → Block) : (s.updBlock bid f).merges = s.merges := rfl
@[simp] theorem State.updBlock_queued (s : State) (bid : Nat) (f : Block → Block) : (s.updBlock bid f).queued = s.queued := rfl
@[simp] theorem State.updBlock_atoms (s : State) (bid : Nat) (f : Block → Block) : (s.updBlock bid f).atoms = s.atoms := rfl
@[simp] theorem State.updBlock_far (s : State) (bid : Nat) (f : Block → Block) : (s.updBlock bid f).far = s.far := rfl
@[simp] theorem State.updBlock_boosts (s : State) (bid : Nat) (f : Block → Block) : (s.updBlock bid f).boosts = s.boosts := rfl
@[simp] theorem State.updBlock_mons (s : State) (bid : Nat) (f : Block → Block) : (s.updBlock bid f).mons = s.mons := rfl
@[simp] theorem State.updBlock_cores (s : State) (bid : Nat) (f : Block → Block) : (s.updBlock bid f).cores = s.cores := rfl
@[simp] theorem State.updBlock_launches (s : State) (bid : Nat) (f : Block → Block) : (s.updBlock bid f).launches = s.launches := rfl
@[simp] theorem State.updBlock_ctxs (s : State) (bid : Nat) (f : Block → Block) : (s.updBlock bid f).ctxs = s.ctxs := rfl
@[simp] theorem State.updBlock_fab (s : State) (bid : Nat) (f : Block → Block) : (s.updBlock bid f).fab = s.fab := rfl
@[simp] theorem State.updBlock_sys (s : State) (bid : Nat) (f : Block → Block) : (s.updBlock bid f).sys = s.sys := rfl
@[simp] theorem State.updBlock_agenda (s : State) (bid : Nat) (f : Block → Block) : (s.updBlock bid f).agenda = s.agenda := rfl
@[simp] theorem State.updBlock_focus (s : State) (bid : Nat) (f : Block → Block) : (s.updBlock bid f).focus = s.focus := rfl
@[simp] theorem State.updBlock_free (s : State) (bid : Nat) (f : Block → Block) : (s.updBlock bid f).free = s.free := rfl
@[simp] theorem State.updBlock_seq (s : State) (bid : Nat) (f : Block → Block) : (s.updBlock bid f).seq = s.seq := rfl

@[simp] theorem State.updThread_part (s : State) (bid tid : Nat) (f : Thread → Thread) : (s.updThread bid tid f).part = s.part := rfl
@[simp] theorem State.updThread_gtime (s : State) (bid tid : Nat) (f : Thread → Thread) : (s.updThread bid tid f).gtime = s.gtime := rfl
@[simp] theorem State.updThread_mem (s : State) (bid tid : Nat) (f : Thread → Thread) : (s.updThread bid tid f).mem = s.mem := rfl
@[simp] theorem State.updThread_memBad (s : State) (bid tid : Nat) (f : Thread → Thread) : (s.updThread bid tid f).memBad = s.memBad := rfl
@[simp] theorem State.updThread_memErr (s : State) (bid tid : Nat) (f : Thread → Thread) : (s.updThread bid tid f).memErr = s.memErr := rfl
@[simp] theorem State.updThread_merges (s : State) (bid tid : Nat) (f : Thread → Thread) : (s.updThread bid tid f).merges = s.merges := rfl
@[simp] theorem State.updThread_queued (s : State) (bid tid : Nat) (f : Thread → Thread) : (s.updThread bid tid f).queued = s.queued := rfl
@[simp] theorem State.updThread_atoms (s : State) (bid tid : Nat) (f : Thread → Thread) : (s.updThread bid tid f).atoms = s.atoms := rfl
@[simp] theorem State.updThread_far (s : State) (bid tid : Nat) (f : Thread → Thread) : (s.updThread bid tid f).far = s.far := rfl
@[simp] theorem State.updThread_boosts (s : State) (bid tid : Nat) (f : Thread → Thread) : (s.updThread bid tid f).boosts = s.boosts := rfl
@[simp] theorem State.updThread_mons (s : State) (bid tid : Nat) (f : Thread → Thread) : (s.updThread bid tid f).mons = s.mons := rfl
@[simp] theorem State.updThread_cores (s : State) (bid tid : Nat) (f : Thread → Thread) : (s.updThread bid tid f).cores = s.cores := rfl
@[simp] theorem State.updThread_launches (s : State) (bid tid : Nat) (f : Thread → Thread) : (s.updThread bid tid f).launches = s.launches := rfl
@[simp] theorem State.updThread_ctxs (s : State) (bid tid : Nat) (f : Thread → Thread) : (s.updThread bid tid f).ctxs = s.ctxs := rfl
@[simp] theorem State.updThread_fab (s : State) (bid tid : Nat) (f : Thread → Thread) : (s.updThread bid tid f).fab = s.fab := rfl
@[simp] theorem State.updThread_sys (s : State) (bid tid : Nat) (f : Thread → Thread) : (s.updThread bid tid f).sys = s.sys := rfl
@[simp] theorem State.updThread_agenda (s : State) (bid tid : Nat) (f : Thread → Thread) : (s.updThread bid tid f).agenda = s.agenda := rfl
@[simp] theorem State.updThread_focus (s : State) (bid tid : Nat) (f : Thread → Thread) : (s.updThread bid tid f).focus = s.focus := rfl
@[simp] theorem State.updThread_free (s : State) (bid tid : Nat) (f : Thread → Thread) : (s.updThread bid tid f).free = s.free := rfl
@[simp] theorem State.updThread_seq (s : State) (bid tid : Nat) (f : Thread → Thread) : (s.updThread bid tid f).seq = s.seq := rfl

@[simp] theorem State.updThreads_part (s : State) (bid : Nat) (l : List Nat) (f : Nat → Thread → Thread) : (s.updThreads bid l f).part = s.part := rfl
@[simp] theorem State.updThreads_gtime (s : State) (bid : Nat) (l : List Nat) (f : Nat → Thread → Thread) : (s.updThreads bid l f).gtime = s.gtime := rfl
@[simp] theorem State.updThreads_mem (s : State) (bid : Nat) (l : List Nat) (f : Nat → Thread → Thread) : (s.updThreads bid l f).mem = s.mem := rfl
@[simp] theorem State.updThreads_memBad (s : State) (bid : Nat) (l : List Nat) (f : Nat → Thread → Thread) : (s.updThreads bid l f).memBad = s.memBad := rfl
@[simp] theorem State.updThreads_memErr (s : State) (bid : Nat) (l : List Nat) (f : Nat → Thread → Thread) : (s.updThreads bid l f).memErr = s.memErr := rfl
@[simp] theorem State.updThreads_merges (s : State) (bid : Nat) (l : List Nat) (f : Nat → Thread → Thread) : (s.updThreads bid l f).merges = s.merges := rfl
@[simp] theorem State.updThreads_queued (s : State) (bid : Nat) (l : List Nat) (f : Nat → Thread → Thread) : (s.updThreads bid l f).queued = s.queued := rfl
@[simp] theorem State.updThreads_atoms (s : State) (bid : Nat) (l : List Nat) (f : Nat → Thread → Thread) : (s.updThreads bid l f).atoms = s.atoms := rfl
@[simp] theorem State.updThreads_far (s : State) (bid : Nat) (l : List Nat) (f : Nat → Thread → Thread) : (s.updThreads bid l f).far = s.far := rfl
@[simp] theorem State.updThreads_boosts (s : State) (bid : Nat) (l : List Nat) (f : Nat → Thread → Thread) : (s.updThreads bid l f).boosts = s.boosts := rfl
@[simp] theorem State.updThreads_mons (s : State) (bid : Nat) (l : List Nat) (f : Nat → Thread → Thread) : (s.updThreads bid l f).mons = s.mons := rfl
@[simp] theorem State.updThreads_cores (s : State) (bid : Nat) (l : List Nat) (f : Nat → Thread → Thread) : (s.updThreads bid l f).cores = s.cores := rfl
@[simp] theorem State.updThreads_launches (s : State) (bid : Nat) (l : List Nat) (f : Nat → Thread → Thread) : (s.updThreads bid l f).launches = s.launches := rfl
@[simp] theorem State.updThreads_ctxs (s : State) (bid : Nat) (l : List Nat) (f : Nat → Thread → Thread) : (s.updThreads bid l f).ctxs = s.ctxs := rfl
@[simp] theorem State.updThreads_fab (s : State) (bid : Nat) (l : List Nat) (f : Nat → Thread → Thread) : (s.updThreads bid l f).fab = s.fab := rfl
@[simp] theorem State.updThreads_sys (s : State) (bid : Nat) (l : List Nat) (f : Nat → Thread → Thread) : (s.updThreads bid l f).sys = s.sys := rfl
@[simp] theorem State.updThreads_agenda (s : State) (bid : Nat) (l : List Nat) (f : Nat → Thread → Thread) : (s.updThreads bid l f).agenda = s.agenda := rfl
@[simp] theorem State.updThreads_focus (s : State) (bid : Nat) (l : List Nat) (f : Nat → Thread → Thread) : (s.updThreads bid l f).focus = s.focus := rfl
@[simp] theorem State.updThreads_free (s : State) (bid : Nat) (l : List Nat) (f : Nat → Thread → Thread) : (s.updThreads bid l f).free = s.free := rfl
@[simp] theorem State.updThreads_seq (s : State) (bid : Nat) (l : List Nat) (f : Nat → Thread → Thread) : (s.updThreads bid l f).seq = s.seq := rfl

@[simp] theorem State.updFrond_part (s : State) (bid slot : Nat) (f : Frond → Frond) : (s.updFrond bid slot f).part = s.part := rfl
@[simp] theorem State.updFrond_gtime (s : State) (bid slot : Nat) (f : Frond → Frond) : (s.updFrond bid slot f).gtime = s.gtime := rfl
@[simp] theorem State.updFrond_mem (s : State) (bid slot : Nat) (f : Frond → Frond) : (s.updFrond bid slot f).mem = s.mem := rfl
@[simp] theorem State.updFrond_memBad (s : State) (bid slot : Nat) (f : Frond → Frond) : (s.updFrond bid slot f).memBad = s.memBad := rfl
@[simp] theorem State.updFrond_memErr (s : State) (bid slot : Nat) (f : Frond → Frond) : (s.updFrond bid slot f).memErr = s.memErr := rfl
@[simp] theorem State.updFrond_merges (s : State) (bid slot : Nat) (f : Frond → Frond) : (s.updFrond bid slot f).merges = s.merges := rfl
@[simp] theorem State.updFrond_queued (s : State) (bid slot : Nat) (f : Frond → Frond) : (s.updFrond bid slot f).queued = s.queued := rfl
@[simp] theorem State.updFrond_atoms (s : State) (bid slot : Nat) (f : Frond → Frond) : (s.updFrond bid slot f).atoms = s.atoms := rfl
@[simp] theorem State.updFrond_far (s : State) (bid slot : Nat) (f : Frond → Frond) : (s.updFrond bid slot f).far = s.far := rfl
@[simp] theorem State.updFrond_boosts (s : State) (bid slot : Nat) (f : Frond → Frond) : (s.updFrond bid slot f).boosts = s.boosts := rfl
@[simp] theorem State.updFrond_mons (s : State) (bid slot : Nat) (f : Frond → Frond) : (s.updFrond bid slot f).mons = s.mons := rfl
@[simp] theorem State.updFrond_cores (s : State) (bid slot : Nat) (f : Frond → Frond) : (s.updFrond bid slot f).cores = s.cores := rfl
@[simp] theorem State.updFrond_launches (s : State) (bid slot : Nat) (f : Frond → Frond) : (s.updFrond bid slot f).launches = s.launches := rfl
@[simp] theorem State.updFrond_ctxs (s : State) (bid slot : Nat) (f : Frond → Frond) : (s.updFrond bid slot f).ctxs = s.ctxs := rfl
@[simp] theorem State.updFrond_fab (s : State) (bid slot : Nat) (f : Frond → Frond) : (s.updFrond bid slot f).fab = s.fab := rfl
@[simp] theorem State.updFrond_sys (s : State) (bid slot : Nat) (f : Frond → Frond) : (s.updFrond bid slot f).sys = s.sys := rfl
@[simp] theorem State.updFrond_agenda (s : State) (bid slot : Nat) (f : Frond → Frond) : (s.updFrond bid slot f).agenda = s.agenda := rfl
@[simp] theorem State.updFrond_focus (s : State) (bid slot : Nat) (f : Frond → Frond) : (s.updFrond bid slot f).focus = s.focus := rfl
@[simp] theorem State.updFrond_free (s : State) (bid slot : Nat) (f : Frond → Frond) : (s.updFrond bid slot f).free = s.free := rfl
@[simp] theorem State.updFrond_seq (s : State) (bid slot : Nat) (f : Frond → Frond) : (s.updFrond bid slot f).seq = s.seq := rfl

@[simp] theorem State.updCore_part (s : State) (k : Nat) (f : Core → Core) : (s.updCore k f).part = s.part := rfl
@[simp] theorem State.updCore_gtime (s : State) (k : Nat) (f : Core → Core) : (s.updCore k f).gtime = s.gtime := rfl
@[simp] theorem State.updCore_mem (s : State) (k : Nat) (f : Core → Core) : (s.updCore k f).mem = s.mem := rfl
@[simp] theorem State.updCore_memBad (s : State) (k : Nat) (f : Core → Core) : (s.updCore k f).memBad = s.memBad := rfl
@[simp] theorem State.updCore_memErr (s : State) (k : Nat) (f : Core → Core) : (s.updCore k f).memErr = s.memErr := rfl
@[simp] theorem State.updCore_merges (s : State) (k : Nat) (f : Core → Core) : (s.updCore k f).merges = s.merges := rfl
@[simp] theorem State.updCore_queued (s : State) (k : Nat) (f : Core → Core) : (s.updCore k f).queued = s.queued := rfl
@[simp] theorem State.updCore_atoms (s : State) (k : Nat) (f : Core → Core) : (s.updCore k f).atoms = s.atoms := rfl
@[simp] theorem State.updCore_far (s : State) (k : Nat) (f : Core → Core) : (s.updCore k f).far = s.far := rfl
@[simp] theorem State.updCore_boosts (s : State) (k : Nat) (f : Core → Core) : (s.updCore k f).boosts = s.boosts := rfl
@[simp] theorem State.updCore_mons (s : State) (k : Nat) (f : Core → Core) : (s.updCore k f).mons = s.mons := rfl
@[simp] theorem State.updCore_blocks (s : State) (k : Nat) (f : Core → Core) : (s.updCore k f).blocks = s.blocks := rfl
@[simp] theorem State.updCore_launches (s : State) (k : Nat) (f : Core → Core) : (s.updCore k f).launches = s.launches := rfl
@[simp] theorem State.updCore_ctxs (s : State) (k : Nat) (f : Core → Core) : (s.updCore k f).ctxs = s.ctxs := rfl
@[simp] theorem State.updCore_fab (s : State) (k : Nat) (f : Core → Core) : (s.updCore k f).fab = s.fab := rfl
@[simp] theorem State.updCore_sys (s : State) (k : Nat) (f : Core → Core) : (s.updCore k f).sys = s.sys := rfl
@[simp] theorem State.updCore_agenda (s : State) (k : Nat) (f : Core → Core) : (s.updCore k f).agenda = s.agenda := rfl
@[simp] theorem State.updCore_focus (s : State) (k : Nat) (f : Core → Core) : (s.updCore k f).focus = s.focus := rfl
@[simp] theorem State.updCore_free (s : State) (k : Nat) (f : Core → Core) : (s.updCore k f).free = s.free := rfl
@[simp] theorem State.updCore_seq (s : State) (k : Nat) (f : Core → Core) : (s.updCore k f).seq = s.seq := rfl

@[simp] theorem State.updCtx_part (s : State) (k : Nat) (f : Ctx → Ctx) : (s.updCtx k f).part = s.part := rfl
@[simp] theorem State.updCtx_gtime (s : State) (k : Nat) (f : Ctx → Ctx) : (s.updCtx k f).gtime = s.gtime := rfl
@[simp] theorem State.updCtx_mem (s : State) (k : Nat) (f : Ctx → Ctx) : (s.updCtx k f).mem = s.mem := rfl
@[simp] theorem State.updCtx_memBad (s : State) (k : Nat) (f : Ctx → Ctx) : (s.updCtx k f).memBad = s.memBad := rfl
@[simp] theorem State.updCtx_memErr (s : State) (k : Nat) (f : Ctx → Ctx) : (s.updCtx k f).memErr = s.memErr := rfl
@[simp] theorem State.updCtx_merges (s : State) (k : Nat) (f : Ctx → Ctx) : (s.updCtx k f).merges = s.merges := rfl
@[simp] theorem State.updCtx_queued (s : State) (k : Nat) (f : Ctx → Ctx) : (s.updCtx k f).queued = s.queued := rfl
@[simp] theorem State.updCtx_atoms (s : State) (k : Nat) (f : Ctx → Ctx) : (s.updCtx k f).atoms = s.atoms := rfl
@[simp] theorem State.updCtx_far (s : State) (k : Nat) (f : Ctx → Ctx) : (s.updCtx k f).far = s.far := rfl
@[simp] theorem State.updCtx_boosts (s : State) (k : Nat) (f : Ctx → Ctx) : (s.updCtx k f).boosts = s.boosts := rfl
@[simp] theorem State.updCtx_mons (s : State) (k : Nat) (f : Ctx → Ctx) : (s.updCtx k f).mons = s.mons := rfl
@[simp] theorem State.updCtx_cores (s : State) (k : Nat) (f : Ctx → Ctx) : (s.updCtx k f).cores = s.cores := rfl
@[simp] theorem State.updCtx_blocks (s : State) (k : Nat) (f : Ctx → Ctx) : (s.updCtx k f).blocks = s.blocks := rfl
@[simp] theorem State.updCtx_launches (s : State) (k : Nat) (f : Ctx → Ctx) : (s.updCtx k f).launches = s.launches := rfl
@[simp] theorem State.updCtx_fab (s : State) (k : Nat) (f : Ctx → Ctx) : (s.updCtx k f).fab = s.fab := rfl
@[simp] theorem State.updCtx_sys (s : State) (k : Nat) (f : Ctx → Ctx) : (s.updCtx k f).sys = s.sys := rfl
@[simp] theorem State.updCtx_agenda (s : State) (k : Nat) (f : Ctx → Ctx) : (s.updCtx k f).agenda = s.agenda := rfl
@[simp] theorem State.updCtx_focus (s : State) (k : Nat) (f : Ctx → Ctx) : (s.updCtx k f).focus = s.focus := rfl
@[simp] theorem State.updCtx_free (s : State) (k : Nat) (f : Ctx → Ctx) : (s.updCtx k f).free = s.free := rfl
@[simp] theorem State.updCtx_seq (s : State) (k : Nat) (f : Ctx → Ctx) : (s.updCtx k f).seq = s.seq := rfl

@[simp] theorem State.updLaunch_part (s : State) (k : Nat) (f : Launch → Launch) : (s.updLaunch k f).part = s.part := rfl
@[simp] theorem State.updLaunch_gtime (s : State) (k : Nat) (f : Launch → Launch) : (s.updLaunch k f).gtime = s.gtime := rfl
@[simp] theorem State.updLaunch_mem (s : State) (k : Nat) (f : Launch → Launch) : (s.updLaunch k f).mem = s.mem := rfl
@[simp] theorem State.updLaunch_memBad (s : State) (k : Nat) (f : Launch → Launch) : (s.updLaunch k f).memBad = s.memBad := rfl
@[simp] theorem State.updLaunch_memErr (s : State) (k : Nat) (f : Launch → Launch) : (s.updLaunch k f).memErr = s.memErr := rfl
@[simp] theorem State.updLaunch_merges (s : State) (k : Nat) (f : Launch → Launch) : (s.updLaunch k f).merges = s.merges := rfl
@[simp] theorem State.updLaunch_queued (s : State) (k : Nat) (f : Launch → Launch) : (s.updLaunch k f).queued = s.queued := rfl
@[simp] theorem State.updLaunch_atoms (s : State) (k : Nat) (f : Launch → Launch) : (s.updLaunch k f).atoms = s.atoms := rfl
@[simp] theorem State.updLaunch_far (s : State) (k : Nat) (f : Launch → Launch) : (s.updLaunch k f).far = s.far := rfl
@[simp] theorem State.updLaunch_boosts (s : State) (k : Nat) (f : Launch → Launch) : (s.updLaunch k f).boosts = s.boosts := rfl
@[simp] theorem State.updLaunch_mons (s : State) (k : Nat) (f : Launch → Launch) : (s.updLaunch k f).mons = s.mons := rfl
@[simp] theorem State.updLaunch_cores (s : State) (k : Nat) (f : Launch → Launch) : (s.updLaunch k f).cores = s.cores := rfl
@[simp] theorem State.updLaunch_blocks (s : State) (k : Nat) (f : Launch → Launch) : (s.updLaunch k f).blocks = s.blocks := rfl
@[simp] theorem State.updLaunch_ctxs (s : State) (k : Nat) (f : Launch → Launch) : (s.updLaunch k f).ctxs = s.ctxs := rfl
@[simp] theorem State.updLaunch_fab (s : State) (k : Nat) (f : Launch → Launch) : (s.updLaunch k f).fab = s.fab := rfl
@[simp] theorem State.updLaunch_sys (s : State) (k : Nat) (f : Launch → Launch) : (s.updLaunch k f).sys = s.sys := rfl
@[simp] theorem State.updLaunch_agenda (s : State) (k : Nat) (f : Launch → Launch) : (s.updLaunch k f).agenda = s.agenda := rfl
@[simp] theorem State.updLaunch_focus (s : State) (k : Nat) (f : Launch → Launch) : (s.updLaunch k f).focus = s.focus := rfl
@[simp] theorem State.updLaunch_free (s : State) (k : Nat) (f : Launch → Launch) : (s.updLaunch k f).free = s.free := rfl
@[simp] theorem State.updLaunch_seq (s : State) (k : Nat) (f : Launch → Launch) : (s.updLaunch k f).seq = s.seq := rfl

/-! ## Blocks, threads and fronds after an update -/

@[simp] theorem State.block_updBlock_self (s : State) (bid : Nat) (f : Block → Block) :
    (s.updBlock bid f).block bid = (s.block bid).map f := Map.get?_modify_self s.blocks bid f
theorem State.block_updBlock_ne (s : State) {i bid : Nat} (h : i ≠ bid) (f : Block → Block) :
    (s.updBlock bid f).block i = s.block i := Map.get?_modify_ne s.blocks h f
@[simp] theorem State.block_updThreads_self (s : State) (bid : Nat) (l : List Nat) (f : Nat → Thread → Thread) :
    (s.updThreads bid l f).block bid = (s.block bid).map (fun b => b.updThreads l f) := s.block_updBlock_self bid _
@[simp] theorem State.block_updThread_self (s : State) (bid tid : Nat) (f : Thread → Thread) :
    (s.updThread bid tid f).block bid = (s.block bid).map (fun b => b.updThread tid f) := s.block_updBlock_self bid _
@[simp] theorem State.block_updFrond_self (s : State) (bid slot : Nat) (f : Frond → Frond) :
    (s.updFrond bid slot f).block bid = (s.block bid).map (fun b => b.updFrond slot f) := s.block_updBlock_self bid _
@[simp] theorem State.core_updCore_self (s : State) (k : Nat) (f : Core → Core) :
    (s.updCore k f).core k = f (s.core k) := by simp [State.updCore, State.core]
@[simp] theorem Block.thread_updThreads (b : Block) (l : List Nat) (f : Nat → Thread → Thread) (t : Nat) :
    (b.updThreads l f).thread t = (b.thread t).map (fun x => if l.contains t then f t x else x) := by
  simp [Block.updThreads, Block.thread]
@[simp] theorem Block.thread_updThread_self (b : Block) (t : Nat) (f : Thread → Thread) :
    (b.updThread t f).thread t = (b.thread t).map f := by simp [Block.updThread, Block.thread]
theorem Block.thread_updThread_ne (b : Block) {i t : Nat} (h : i ≠ t) (f : Thread → Thread) :
    (b.updThread t f).thread i = b.thread i := by simp [Block.updThread, Block.thread, Map.get?_modify_ne _ h]
@[simp] theorem Block.thread_updFrond (b : Block) (slot : Nat) (f : Frond → Frond) (t : Nat) :
    (b.updFrond slot f).thread t = b.thread t := rfl
@[simp] theorem Block.fronds_updThreads (b : Block) (l : List Nat) (f : Nat → Thread → Thread) :
    (b.updThreads l f).fronds = b.fronds := rfl
@[simp] theorem Block.fronds_updThread (b : Block) (t : Nat) (f : Thread → Thread) :
    (b.updThread t f).fronds = b.fronds := rfl
@[simp] theorem Block.frond_updFrond_self (b : Block) (slot : Nat) (f : Frond → Frond) :
    (b.updFrond slot f).fronds.get? slot = (b.fronds.get? slot).map f := Map.get?_modify_self b.fronds slot f
theorem State.thread_updThreads (s : State) (bid : Nat) (l : List Nat) (f : Nat → Thread → Thread) (t : Nat) :
    (s.updThreads bid l f).thread bid t = (s.thread bid t).map (fun x => if l.contains t then f t x else x) := by
  simp [State.thread]; cases s.block bid <;> simp

/-! ## Registers -/

@[simp] theorem Thread.getV_putV_self (t : Thread) (n : Nat) (x : Word) (bad : Bool) : (t.putV n x bad).getV n = x :=
  Map.getD_set_self t.v 0 n x
theorem Thread.getV_putV_ne (t : Thread) {n m : Nat} (h : m ≠ n) (x : Word) (bad : Bool) :
    (t.putV n x bad).getV m = t.getV m := Map.getD_set_ne t.v 0 h x
@[simp] theorem Frond.getS_putS_self (f : Frond) (n : Nat) (x : Dword) (bad : Bool) : (f.putS n x bad).getS n = x :=
  Map.getD_set_self f.s 0 n x
theorem Frond.getS_putS_ne (f : Frond) {n m : Nat} (h : m ≠ n) (x : Dword) (bad : Bool) :
    (f.putS n x bad).getS m = f.getS m := Map.getD_set_ne f.s 0 h x
/-- p15 reads true, and a write to it is discarded (R15, R63). -/
@[simp] theorem Thread.getP_15 (t : Thread) : t.getP 15 = true := rfl
@[simp] theorem Thread.putP_15 (t : Thread) (b bad : Bool) : t.putP 15 b bad = t := rfl
@[simp] theorem Thread.getTok_setTok_self (t : Thread) (k n : Nat) : (t.setTok k n).getTok k = n :=
  Map.getD_set_self t.tok 0 k n
theorem Thread.getTok_setTok_ne (t : Thread) {k j : Nat} (h : j ≠ k) (n : Nat) : (t.setTok k n).getTok j = t.getTok j :=
  Map.getD_set_ne t.tok 0 h n
@[simp] theorem Thread.wake_status (t : Thread) : t.wake.status = .eligible := rfl
@[simp] theorem Thread.exit_status (t : Thread) : t.exit.status = .exited := rfl

end Sys2Proof.Machine
end

