-- ==== Sys2Proof/Laws/Issue.lean ====
section
/-! SUPPORT. What the start and the end of a word do: a ready word reads the registers as they stand and executes in its
active lanes; the end of a word changes nothing that the bare state holds. -/

namespace Sys2Proof.Machine

/-! ## The start (R61, R67, R69) -/

theorem find?_settled {now : Nat} {rs : List Reg} {l : List Pend} (h : settled now rs l) {r : Reg} (hr : r ∈ rs) :
    l.find? (fun p => decide (p.reg = r) && p.out now) = none := by
  rw [List.find?_eq_none]
  intro p hp
  by_cases hpr : p.reg = r
  · simp [hpr, h p hp (hpr ▸ hr)]
  · simp [hpr]
theorem pendOn_settled {now : Nat} {rs : List Reg} {f : Frond} {t : Thread} (hf : settled now rs f.pend)
    (ht : settled now rs t.pend) {r : Reg} (hr : r ∈ rs) : pendOn f t now r = none := by
  cases r <;> simp [pendOn, find?_settled hf hr, find?_settled ht hr]
theorem any_tracked_settled {now : Nat} {rs : List Reg} {l : List Pend} (h : settled now rs l) {r : Reg} (hr : r ∈ rs) :
    l.any (fun p => decide (p.reg = r) && p.tracked) = false := by
  rw [List.any_eq_false]
  intro p hp
  by_cases hpr : p.reg = r
  · have := h p hp (hpr ▸ hr)
    cases hd : p.due <;> simp_all [Pend.out, Pend.tracked]
  · simp [hpr]
theorem tokenPend_settled {now : Nat} {rs : List Reg} {f : Frond} {t : Thread} (hf : settled now rs f.pend)
    (ht : settled now rs t.pend) {r : Reg} (hr : r ∈ rs) : tokenPend f t r = false := by
  cases r <;> simp [tokenPend, any_tracked_settled hf hr, any_tracked_settled ht hr]
theorem settled_mono {now : Nat} {rs qs : List Reg} {l : List Pend} (h : settled now rs l) (hs : ∀ r ∈ qs, r ∈ rs) :
    settled now qs l := fun p hp hq => h p hp (hs _ hq)

theorem foldl_const {α β : Type} (l : List α) (f : β → α → β) (b : β) (h : ∀ x ∈ l, f b x = b) : l.foldl f b = b := by
  induction l with
  | nil => rfl
  | cons x t ih =>
    rw [List.foldl_cons, h x (by simp)]
    exact ih (fun y hy => h y (by simp [hy]))
theorem taken_fresh {f : Frond} (h : f.took = []) (tid : Nat) (r : Reg) : f.taken tid r = none := by simp [Frond.taken, h]
theorem viewThread_settled {now n tid base : Nat} {rs qs : List Reg} {f : Frond} {t : Thread} (h0 : f.took = [])
    (hf : settled now rs f.pend) (ht : settled now rs t.pend) (hs : ∀ r ∈ qs, r ∈ rs) : viewThread f now n tid base qs t = t := by
  apply foldl_const
  intro k _
  cases hk : qs[k]? with
  | none => rfl
  | some r => simp [taken_fresh h0, pendOn_settled hf ht (hs r (List.mem_of_getElem? hk))]
theorem viewFrond_settled {n : Nat} {rs qs : List Reg} {f : Frond} (h0 : f.took = []) (hf : settled f.cyc rs f.pend)
    (hs : ∀ r ∈ qs, r ∈ rs) : viewFrond n qs f = f := by
  apply foldl_const
  intro k _
  cases hk : qs[k]? with
  | none => rfl
  | some r =>
    cases r with
    | s j => simp [taken_fresh h0, find?_settled hf (hs _ (List.mem_of_getElem? hk))]
    | v j => rfl
    | p j => rfl
theorem Block.updThreads_id {b : Block} {l : List Nat} {f : Nat → Thread → Thread}
    (h : ∀ e ∈ b.threads, e.1 ∈ l → f e.1 e.2 = e.2) : b.updThreads l f = b := by
  unfold Block.updThreads
  have : b.threads.mapVal (fun k t => if l.contains k then f k t else t) = b.threads := by
    rw [← Map.mapVal_id b.threads, Map.mapVal_congr (g := fun _ x => x)]
    · simp
    · intro e he
      simp only [Map.mapVal_id] at he
      by_cases hl : e.1 ∈ l
      · simp [hl, h e he hl]
      · simp [hl]
  rw [this]

section
variable {w : WordForm} {s : State} {i : Issue}

theorem WordForm.mem_tids (w : WordForm) (i : Issue) {t : Nat} (h : t ∈ w.tids i) : t ∈ i.run.tids := by
  unfold WordForm.tids at h
  split at h
  · exact List.mem_of_mem_take h
  · exact h
/-- A thread of the issue set of a ready word. -/
theorem Ready.thread (h : Ready w s i) {t : Nat} {x : Thread} (ht : t ∈ i.run.tids) (hx : i.thr t = some x) :
    settled i.fr.cyc w.regs x.pend ∧ (w.c.gp ≠ 15 → x.pbad.getLsbD w.c.gp.val = false)
      ∧ (w.c.set = true → x.getTok w.c.tok.toNat < 63) :=
  h.threads (t, x) (Map.get?_mem hx) ht
theorem Ready.not_early (h : Ready w s i) {t : Nat} {x : Thread} (ht : t ∈ i.run.tids) (hx : i.thr t = some x)
    (act : Bool) : earlyIn i.fr i.fr.cyc w.c w.rd w.wr act x = false := by
  have hs := (h.thread ht hx).1
  have hg := pendOn_settled h.frond hs (r := .p w.c.gp.val) (by simp [WordForm.regs])
  have hr : w.rd.any (fun r => (pendOn i.fr x i.fr.cyc r).isSome) = false := by
    rw [List.any_eq_false]; intro r hr
    simp [pendOn_settled h.frond hs (r := r) (by simp [WordForm.regs, hr])]
  have hw : w.wr.any (tokenPend i.fr x) = false := by
    rw [List.any_eq_false]; intro r hr
    simp [tokenPend_settled h.frond hs (r := r) (by simp [WordForm.regs, hr])]
  simp [earlyIn, hg, hr, hw]

/-- THE START OF A READY WORD: it goes on at once, reads the registers as they stand, and executes in its active lanes. -/
theorem startWord_ready (h : Ready w s i) : startWord w.c w.rd w.wr w.once i s = .go (w.issue i) s := by
  have hts : ∀ e ∈ (w.tids i).filterMap (fun t => (i.thr t).map (fun x => (t, x))), e.1 ∈ i.run.tids ∧ i.thr e.1 = some e.2 := by
    intro e he
    simp only [List.mem_filterMap, Option.map_eq_some_iff] at he
    obtain ⟨t, ht, x, hx, rfl⟩ := he
    exact ⟨w.mem_tids i ht, hx⟩
  have hearly : ((w.tids i).filterMap (fun t => (i.thr t).map (fun x => (t, x)))).filter
      (fun e => earlyIn i.fr i.fr.cyc w.c w.rd w.wr (guardOf w.c e.2) e.2) = [] := by
    rw [List.filter_eq_nil_iff]
    intro e he
    simp [h.not_early (hts e he).1 (hts e he).2]
  have hbad : ((w.tids i).filterMap (fun t => (i.thr t).map (fun x => (t, x)))).any
      (fun e => w.c.gp != 15 && e.2.pbad.getLsbD w.c.gp.val) = false := by
    rw [List.any_eq_false]
    intro e he
    have := (h.thread (hts e he).1 (hts e he).2).2.1
    by_cases hg : w.c.gp = 15
    · simp [hg]
    · simp only [this hg, Bool.and_false]; simp
  have hrs : ∀ r ∈ Reg.p w.c.gp.val :: w.rd, r ∈ w.regs := by
    intro r hr; simp only [WordForm.regs, List.cons_append, List.mem_cons, List.mem_append] at hr ⊢
    rcases hr with h | h <;> simp [h]
  have hview : i.blk.updThreads (w.tids i) (fun t x => viewThread i.fr i.fr.cyc s.free t 0 (Reg.p w.c.gp.val :: w.rd) x) = i.blk :=
    Block.updThreads_id (fun e he hl => viewThread_settled h.fresh h.frond (h.threads e he (w.mem_tids i hl)).1 hrs)
  have hfr : viewFrond s.free (Reg.p w.c.gp.val :: w.rd) i.fr = i.fr := viewFrond_settled h.fresh h.frond hrs
  have hnone : ∀ ts : List (Nat × Thread), (∀ e ∈ ts, e.1 ∈ i.run.tids ∧ i.thr e.1 = some e.2) →
      earlyReads i.fr i.fr.cyc 0 ts (Reg.p w.c.gp.val :: w.rd) = [] := by
    intro ts hall
    unfold earlyReads
    rw [List.flatMap_eq_nil_iff]
    intro e he
    rw [List.filterMap_eq_nil_iff]
    intro k _
    cases hk : (Reg.p w.c.gp.val :: w.rd)[k]? with
    | none => rfl
    | some r =>
      have := pendOn_settled h.frond (h.thread (hall e he).1 (hall e he).2).1 (hrs r (List.mem_of_getElem? hk))
      simp [this]
  have hroom : ∀ l : List Nat, (∀ t ∈ l, t ∈ i.run.tids) → w.c.set = true →
      l.any (fun t => ((i.thr t).map (fun x => decide (63 ≤ x.getTok w.c.tok.toNat))).getD false) = false := by
    intro l hl hset
    rw [List.any_eq_false]
    intro t ht
    cases hx : i.thr t with
    | none => simp
    | some x => have := (h.thread (hl t ht) hx).2.2 hset; simp; omega
  have hact : ∀ t ∈ w.active i, t ∈ i.run.tids := fun t ht => w.mem_tids i (List.mem_filter.1 ht).1
  unfold startWord
  change (if _ then _ else _) = _
  simp only [show (if w.once then i.run.tids.take 1 else i.run.tids) = w.tids i from rfl]
  rw [hearly, hbad, hview, hfr]
  simp only [List.isEmpty_nil, Bool.not_true, Bool.false_and, Bool.false_eq_true, if_false, if_true]
  have ha : (w.tids i).filter (fun t => ((i.blk.thread t).map (guardOf w.c)).getD false) = w.active i := rfl
  rw [ha, hnone _ (fun e he => hts e (List.mem_filter.1 he).1)]
  by_cases hset : w.c.set = true
  · rw [hset, hroom _ (by
        intro t ht
        split at ht
        · split at ht
          · simp at ht
          · exact ht
        · exact hact t ht) hset]
    simp [WordForm.issue]
  · simp [hset, WordForm.issue]

/-- A ready word loses no race: none of its results was pending. -/
theorem raceBack_ready (h : Ready w s i) (n : Nat) (t : State) : raceBack w.wr { i with act := w.active i } n t = t := by
  unfold raceBack
  have hp : ∀ l : List Pend, settled i.fr.cyc w.regs l →
      l.any (fun p => w.wr.contains p.reg && p.tracked && !p.waits) = false := by
    intro l hl
    rw [List.any_eq_false]
    intro p hp
    by_cases hr : p.reg ∈ w.wr
    · have := hl p hp (by simp [WordForm.regs, hr])
      cases hd : p.due <;> simp_all [Pend.out, Pend.tracked]
    · simp [hr]
  have hall : (w.active i).any (fun t => ((i.thr t).map (fun x =>
      x.pend.any (fun p => w.wr.contains p.reg && p.tracked && !p.waits))).getD false) = false := by
    rw [List.any_eq_false]
    intro t ht
    cases hx : i.thr t with
    | none => simp
    | some x =>
      have := (h.thread (w.mem_tids i (List.mem_filter.1 ht).1) hx).1
      rw [Option.map_some, Option.getD_some, hp _ this]; simp
  simp only [hp _ h.frond, Bool.false_or]
  rw [if_neg]
  rw [Bool.not_eq_true]
  exact hall

/-- A READY WORD: its body runs on the state as it stands, and the clause goes on. -/
theorem exWord_ready (h : Ready w s i) (body : Issue → State → Option (State × (Nat → Option Dword))) :
    exWord w.c w.rd w.wr w.once s body =
      match body (w.issue i) s with
      | none => .next s
      | some (s2, t) =>
        .next (endWord w.c i.bid i.slot t (markLanding w.c w.wr (w.issue i) (countWord w.c w.wr w.once (w.issue i) s2))) := by
  unfold exWord
  rw [h.issue]
  simp only [startWord_ready h]
  cases body (w.issue i) s with
  | none => rfl
  | some r =>
    obtain ⟨s2, t⟩ := r
    simp only [WordForm.issue]
    rw [raceBack_ready h]
end

/-! ## The bare state -/

theorem State.bare_updBlock {s : State} {bid : Nat} {f : Block → Block}
    (h : ∀ b, s.block bid = some b → (f b).bare = b.bare) : (s.updBlock bid f).bare = s.bare := by
  unfold State.bare State.updBlock
  rw [Map.mapVal_modify h]
theorem State.bare_updBlock_congr {s : State} {bid : Nat} {f g : Block → Block}
    (h : ∀ b, s.block bid = some b → (f b).bare = (g b).bare) : (s.updBlock bid f).bare = (s.updBlock bid g).bare := by
  unfold State.bare State.updBlock
  congr 1
  have : ∀ (m : Map Block), (∀ b, m.get? bid = some b → (f b).bare = (g b).bare) →
      (m.modify bid f).mapVal (fun _ b => b.bare) = (m.modify bid g).mapVal (fun _ b => b.bare) := by
    intro m hm
    induction m with
    | nil => rfl
    | cons e t ih =>
      obtain ⟨k, w⟩ := e
      by_cases hk : k = bid
      · simp [Map.modify, hk, Map.mapVal, hm w (by simp [Map.get?, hk])]
      · simp only [Map.modify, if_neg hk, Map.mapVal]
        rw [ih (fun v hv => hm v (by simp [Map.get?, hk, hv]))]
  exact this s.blocks h
theorem Block.bare_updThreads {b : Block} {l : List Nat} {f : Nat → Thread → Thread} (h : ∀ k t, (f k t).bare = t.bare) :
    (b.updThreads l f).bare = b.bare := by
  unfold Block.bare Block.updThreads
  simp only [Map.mapVal_mapVal]
  rw [Map.mapVal_congr (g := fun _ t => t.bare)]
  intro e _
  split <;> simp [h]
theorem Block.bare_updThreads_congr {b : Block} {l : List Nat} {f g : Nat → Thread → Thread}
    (h : ∀ k t, (f k t).bare = (g k t).bare) : (b.updThreads l f).bare = (b.updThreads l g).bare := by
  unfold Block.bare Block.updThreads
  simp only [Map.mapVal_mapVal]
  rw [Map.mapVal_congr]
  intro e _
  split <;> simp [h]
theorem Block.bare_updFrond {b : Block} {slot : Nat} {f : Frond → Frond} (h : ∀ x, (f x).bare = x.bare) :
    (b.updFrond slot f).bare = b.bare := by
  unfold Block.bare Block.updFrond
  simp only
  rw [Map.mapVal_modify (fun v _ => h v)]
theorem State.bare_updThreads {s : State} {bid : Nat} {l : List Nat} {f : Nat → Thread → Thread}
    (h : ∀ k t, (f k t).bare = t.bare) : (s.updThreads bid l f).bare = s.bare :=
  State.bare_updBlock (fun _ _ => Block.bare_updThreads h)
theorem State.bare_updThreads_congr {s : State} {bid : Nat} {l : List Nat} {f g : Nat → Thread → Thread}
    (h : ∀ k t, (f k t).bare = (g k t).bare) : (s.updThreads bid l f).bare = (s.updThreads bid l g).bare :=
  State.bare_updBlock_congr (fun _ _ => Block.bare_updThreads_congr h)
theorem State.bare_updFrond {s : State} {bid slot : Nat} {f : Frond → Frond} (h : ∀ x, (f x).bare = x.bare) :
    (s.updFrond bid slot f).bare = s.bare :=
  State.bare_updBlock (fun _ _ => Block.bare_updFrond h)

/-- The acceptance of a thread's word, and the move to another place in the code, are not seen. -/
theorem Thread.accepted_bare (t : Thread) {pc : Dword} {k : Nat} {b : Bool} :
    Thread.bare { t.accepted with pc := pc, rslot := k, last := b } = t.bare := by
  have h : (t.accepted.accepted).status = t.accepted.status := by
    unfold Thread.accepted
    by_cases h : t.status = .parked .issue <;> simp [h]
  unfold Thread.bare
  change ({ t with pc := 0, rslot := 0, last := false, pend := [], status := t.accepted.accepted.status, tok := t.owes, dues := [] } : Thread) = _
  rw [h]
/-- The acceptance of a thread's word is not seen. -/
theorem Thread.bare_accepted (t : Thread) : t.accepted.bare = t.bare := t.accepted_bare (pc := t.pc) (k := t.rslot) (b := t.last)
/-- The end of a word changes nothing that the bare state holds. -/
theorem endWord_bare (c : Ctl) (bid slot : Nat) (tg : Nat → Option Dword) (s : State) :
    (endWord c bid slot tg s).bare = s.bare := by
  unfold endWord
  split
  · rfl
  · next b hb =>
    split
    · rfl
    · split
      · rfl
      · split
        · refine State.bare_updBlock (fun b' hb' => ?_)
          rw [hb] at hb'; cases hb'
          refine (Block.bare_updFrond ?_).trans (Block.bare_updThreads ?_)
          · intro x; rfl
          · intro k x; exact (Thread.accepted_bare x)
        · refine State.bare_updBlock (fun b' hb' => ?_)
          rw [hb] at hb'; cases hb'
          refine (Block.bare_updFrond ?_).trans (Block.bare_updThreads (fun _ x => x.bare_accepted))
          intro x; rfl
theorem Thread.landing_bare (t old : Thread) (tok now : Nat) (wr : List Reg) : (t.landing old tok now wr).bare = t.bare := by
  unfold Thread.landing
  induction wr generalizing t with
  | nil => rfl
  | cons r l ih =>
    rw [List.foldl_cons, ih]
    split <;> rfl
theorem Frond.landing_bare (f old : Frond) (tok now : Nat) (wr : List Reg) : (f.landing old tok now wr).bare = f.bare := by
  unfold Frond.landing
  induction wr generalizing f with
  | nil => rfl
  | cons r l ih =>
    rw [List.foldl_cons, ih]
    cases r <;> rfl
/-- The marks of results that are to land change nothing that the bare state holds. -/
theorem markLanding_bare (c : Ctl) (wr : List Reg) (i : Issue) (s : State) : (markLanding c wr i s).bare = s.bare := by
  unfold markLanding
  split
  · rfl
  · simp only
    refine (State.bare_updFrond (fun _ => Frond.landing_bare _ _ _ _ _)).trans (State.bare_updThreads ?_)
    intro k t
    split
    · exact Thread.landing_bare _ _ _ _ _
    · rfl
/-- A count that comes down by itself is not owed. -/
theorem Thread.countDue_bare (t old : Thread) (k now : Nat) : (t.countDue old k now).bare = t.bare := by
  unfold Thread.countDue
  split
  · have : ∀ j, Thread.owed { t.incTok k with dues := t.dues ++ [(k, now)] } j = t.owed j := by
      intro j
      unfold Thread.owed
      by_cases h : k = j
      · subst h
        simp only [List.filter_append, List.length_append]
        change (t.setTok k (t.getTok k + 1)).getTok k - _ = _
        rw [Thread.getTok_setTok_self]
        simp only [List.filter_cons, BEq.rfl, if_true, List.filter_nil, List.length_cons, List.length_nil]
        omega
      · change (t.setTok k (t.getTok k + 1)).getTok j - _ = _
        rw [Thread.getTok_setTok_ne _ (Ne.symm h)]
        simp [List.filter_append, h]
    unfold Thread.bare Thread.owes
    simp only [this]
    rfl
  · rfl
/-- A word's own count changes nothing that the bare state holds. -/
theorem countWord_bare (c : Ctl) (wr : List Reg) (once : Bool) (i : Issue) (s : State) :
    (countWord c wr once i s).bare = s.bare := by
  unfold countWord
  refine State.bare_updThreads (fun k t => ?_)
  split
  · exact Thread.countDue_bare _ _ _ _
  · rfl
theorem Thread.resV_bare (t : Thread) (now lat n : Nat) (x : Word) (bad : Bool) :
    (t.resV now lat n x bad).bare = (t.putV n x bad).bare := rfl
theorem Thread.putV_bare (t : Thread) (n : Nat) (x : Word) (bad : Bool) : (t.putV n x bad).bare = t.bare.putV n x bad := rfl
theorem Thread.resVW_bare (t : Thread) (now lat n : Nat) (wide : Bool) (x : Dword) (bad : Bool) :
    (t.resVW now lat n wide x bad).bare = (t.putVW n wide x bad).bare := by
  cases wide <;> rfl
theorem Thread.resP_bare (t : Thread) (now lat n : Nat) (x bad : Bool) :
    (t.resP now lat n x bad).bare = (t.putP n x bad).bare := by
  unfold Thread.resP Thread.putP
  split <;> rfl

/-- A ready word that runs to its end: its bare state is that of its body. -/
theorem exWord_bare {w : WordForm} {s : State} {i : Issue} (h : Ready w s i)
    {body : Issue → State → Option (State × (Nat → Option Dword))} {s2 : State} {t : Nat → Option Dword}
    (hb : body (w.issue i) s = some (s2, t)) :
    Goes (exWord w.c w.rd w.wr w.once s body) (fun u => u.bare = s2.bare) := by
  rw [exWord_ready h, hb]
  exact ⟨_, rfl, (endWord_bare _ _ _ _ _).trans ((markLanding_bare _ _ _ _).trans (countWord_bare _ _ _ _ _))⟩
/-- A ready vector word. -/
theorem exVec_bare {w : WordForm} {s : State} {i : Issue} (h : Ready w s i) (ho : w.once = false)
    (body : Issue → State → State) :
    Goes (exVec w.c w.rd w.wr s body) (fun u => u.bare = (body (w.issue i) s).bare) := by
  unfold exVec
  rw [← ho]
  exact exWord_bare h rfl
/-- A ready uniform word. -/
theorem exUni_bare {w : WordForm} {s : State} {i : Issue} (h : Ready w s i) (ho : w.once = true)
    (body : Issue → State → State) :
    Goes (exUni w.c w.rd w.wr s body)
      (fun u => u.bare = (if (w.active i).isEmpty then s else body (w.issue i) s).bare) := by
  unfold exUni
  rw [← ho]
  exact exWord_bare h rfl

end Sys2Proof.Machine
end

