-- ==== Sys2Proof/Tests/Slice0.lean ====
section
/-! SUPPORT. Tests of the model: ill-formed terms that `Instr.wf` refuses; words of every instruction assembled from the
encoding tables of spec/04_encoding.md and the words that spec/ writes out; rejected encodings; single steps whose results
spec/ states; and, for each statement, states and operands that meet its hypotheses. -/

open Sys2Proof Sys2Proof.Machine

set_option Elab.async false
namespace Sys2Proof.Tests

/-! ## Terms that are not well formed -/

/-- No stall, no token, always executed; then the same with a token, and with the reserved guard (R60). -/
def c0 : Ctl := { stall := 0, set := false, tok := 0, gneg := false, gp := 15 }
def tk (k : BitVec 3) : Ctl := { c0 with set := true, tok := k }
def cbad : Ctl := { c0 with gneg := true }
def e0 : ECtl := { rel := false, rs := .none, be := false, bar := 0, cs := 0 }
def m0 : FMod := { rnd := .rne, sat := false, na := false, nb := false, aa := false, ab := false }
/-- Every term of a list is refused. -/
def refuses (l : List Instr) : Bool := l.all (fun i => !i.wf)

/-- R60: TOK is 0 when SET is 0; guard 1_1111 is reserved. -/
theorem test_wf_common : refuses [.nop { c0 with tok := 1 }, .nop cbad] = true ∧ (Instr.nop c0).wf = true := by decide
/-- R68: a word of fixed latency, and a C word, does not set a token. -/
theorem test_wf_no_token : refuses [.nop (tk 0), .bra (tk 0) 0, .brx (tk 0) (.s 0), .call (tk 0) 0, .callx (tk 0) (.s 0),
    .ret (tk 0), .reform (tk 0), .bjoin (tk 0), .exit (tk 0), .trap (tk 0) 0, .brk (tk 0), .tret (tk 0), .yield (tk 0),
    .sleep (tk 0) (.s 0), .swr (tk 0) (.s 0) false 0x013, .sadd (tk 0) 1 2 (.reg 3), .smov (tk 0) 1 2, .sli (tk 0) 1 0,
    .scmp (tk 0) .eq true 1 2 (.reg 3), .add (tk 0) .i32 false 1 (.v 2) (.v 3), .mad (tk 0) false false false 1 (.v 2) (.v 3) (.v 4),
    .movi (tk 0) 1 0, .cmp (tk 0) .eq .i32 1 (.v 2) (.v 3), .fadd (tk 0) .f32 m0 1 (.v 2) (.v 3),
    .fdot (tk 0) .f16 .rne false 1 (.v 2) (.v 3) (.v 4), .perm (tk 0) 1 (.v 2) (.v 3) (.v 4)] = true := by decide
/-- R158, R175 to R195, R197: the waits, and the engine words that take none. -/
theorem test_wf_no_token_more : refuses [.waitc (tk 0) .eq false .rlx .none (.s 0) (.v 1) (.v 2), .mwait (tk 0) .rlx .none (.v 1),
    .tkwait (tk 0) .rlx .none (.s 0) 0 (.v 1), .barr (tk 0) .none (.v 1), .bsync (tk 0) .none (.v 1), .bwait (tk 0) .none (.v 1) (.v 2),
    .cbar (tk 0) .none 0, .cvjoin (tk 0) 0 (.s 0) 0 (.v 1), .cvleave (tk 0), .stepn (tk 0), .mxownTake (tk 0), .mxownPass (tk 0) 1,
    .mxownRelease (tk 0), .lwait (tk 0) 1] = true := by decide
/-- R68: a word without a fixed latency that writes a register sets one. -/
theorem test_wf_token : refuses [.srd c0 1 false 0, .sld c0 .b32 1 2 0, .sldl c0 .b32 1 2 0, .frcp c0 .rne 1 (.v 2),
    .fdiv c0 .rne 1 (.v 2) (.v 3), .bal c0 1 2, .vany c0 1 2, .vall c0 1 2, .rdfirst c0 false 1 (.v 2), .rdlane c0 false 1 (.v 2) (.v 3),
    .shfl c0 false 1 (.v 2) (.v 3), .redx c0 .add .i32 1 (.v 2), .scanx c0 .i32 1 (.v 2), .lanes c0 1, .elect c0 1,
    .ld c0 .b32 .rlx .none 1 (.off (.s 0) 0), .ldNc c0 .b32 .none 1 (.off (.s 0) 0), .ldl c0 .b32 false .rlx .none 1 (.v 2) 0,
    .ldp c0 .b32 1 (.v 2) 0, .lda c0 1 (.v 2) 0, .atom c0 .addI32 .rlx .none 1 (.off (.s 0) 0), .atoml c0 .addI32 .rlx .none 1 (.v 2) 0,
    .ptest c0 1 (.v 2) 0, .tktake c0 1 (.s 0) 0, .cvld c0 1 false, .ldnb c0 1 (.v 2) (.v 3) 0] = true := by decide
/-- R15, R63: registers of 64-bit and 128-bit operands; R17, R111: addresses and targets. -/
theorem test_wf_registers : refuses [.add c0 .i64 false 1 (.v 2) (.v 4), .add c0 .i64 false 2 (.v 3) (.v 4),
    .add c0 .i64 false 2 (.v 4) (.v 3), .not c0 .i64 2 (.v 3), .mad c0 false true false 2 (.v 4) (.v 6) (.v 7),
    .madw c0 false 1 (.v 2) (.v 3) (.v 4), .madw c0 false 2 (.v 2) (.v 3) (.v 5), .cmp c0 .eq .n64 1 (.v 2) (.v 3),
    .cvt c0 .i64 .rne false 1 (.v 3) .f32, .cvt c0 .f32 .rne false 1 (.v 3) .i64, .srd (tk 0) 1 true 0,
    .swr c0 (.v 1) true 0x013, .brx c0 (.v 1), .callx c0 (.const 0), .ld (tk 0) .b64 .rlx .none 1 (.off (.s 0) 0),
    .ld (tk 0) .b128 .rlx .none 2 (.off (.s 0) 0), .ld (tk 0) .b32 .rlx .none 2 (.off .tid 0),
    .st c0 .b64 .rlx .none (.off (.s 0) 0) (.v 1), .st c0 .b64 .rlx .none (.off (.s 0) 0) .lane,
    .st c0 .b128 .rlx .none (.off (.s 0) 0) (.s 4), .st c0 .b128 .rlx .none (.off (.s 0) 0) (.v 2),
    .atom (tk 0) .addI64 .rlx .none 1 (.off (.s 0) 0), .atom (tk 0) .casB32 .rlx .none 639 (.off (.s 0) 0),
    .red c0 .addI64 .rlx .none (.off (.s 0) 0) (.const 1), .mon c0 (.v 1) 0] = true := by decide
/-- R64, R76: the types and modifiers each opcode accepts. -/
theorem test_wf_types : refuses [.add c0 .f32 false 1 (.v 2) (.v 3), .mul c0 .i8 false 1 (.v 2) (.v 3), .mulh c0 .i16 1 (.v 2) (.v 3),
    .and c0 .i16 1 (.v 2) (.v 3), .min c0 .f32 1 (.v 2) (.v 3), .abs c0 .n32 false 1 (.v 2), .neg c0 .n8 false 1 (.v 2),
    .mov c0 .f32 1 (.v 2), .cmp c0 .eq .i16 1 (.v 2) (.v 3), .fadd c0 .i32 m0 1 (.v 2) (.v 3), .ffma c0 .e4m3 .rne false 1 (.v 2) (.v 3) (.v 4),
    .fmin c0 .f32 { m0 with sat := true } 1 (.v 2) (.v 3), .fmax c0 .f32 { m0 with rnd := .rup } 1 (.v 2) (.v 3), .fclass c0 .i32 1 (.v 2),
    .fround c0 .e4m3 .rne 1 (.v 2), .fdot c0 .f32 .rne false 1 (.v 2) (.v 3) (.v 4), .fcmp c0 .eq { m0 with sat := true } 1 (.v 2) (.v 3),
    .pack c0 .f32 .rne false 1 (.v 2) (.v 3), .unpack c0 .e5m2 1 (.v 2) (.v 3), .redx (tk 0) .and .f32 1 (.v 2),
    .redx (tk 0) .add .i16 1 (.v 2), .scanx (tk 0) .i64 1 (.v 2), .scmp c0 .eq false 1 2 (.reg 3), .sbfe c0 true 1 2 0 65,
    .sld (tk 0) .b128 1 2 0, .sst c0 .b128 1 0 2, .sldl (tk 0) .b128 1 2 0] = true := by decide
/-- R65, R77, R78: orders, scopes and operations; R70: special registers. -/
theorem test_wf_orders : refuses [.ld (tk 0) .b32 .rel .dev 1 (.off (.s 0) 0), .ld (tk 0) .b32 .acq .none 1 (.off (.s 0) 0),
    .st c0 .b32 .acq .dev (.off (.s 0) 0) (.v 1), .st c0 .b32 .rel .none (.off (.s 0) 0) (.v 1),
    .ldl (tk 0) .b32 false .acq .dev 1 (.v 2) 0, .stl c0 .b32 false .rlx .core (.v 2) 0 (.v 1),
    .atom (tk 0) .addI32 .acqrel .none 1 (.off (.s 0) 0), .red c0 .xchgB32 .rlx .none (.off (.s 0) 0) (.v 1),
    .red c0 .addI32 .acq .dev (.off (.s 0) 0) (.v 1), .atoml (tk 0) .addI64 .rlx .none 2 (.v 2) 0,
    .atoml (tk 0) .addI32 .rlx .sys 1 (.v 2) 0, .fence c0 .rlx .dev, .fence c0 .acq .none, .efence c0 .none,
    .waitc c0 .eq true .rlx .none (.s 0) (.v 1) (.v 2), .waitc c0 .eq false .rel .dev (.s 0) (.v 1) (.v 2),
    .mwait c0 .acqrel .dev (.v 1), .tkwait c0 .rel .dev (.s 0) 0 (.v 1), .tkserve c0 .acq .dev (.s 0) 0, .cbar c0 .blk 0,
    .cinv cbad (.s 0) 0 (.v 1), .cwb cbad (.v 1) 0 (.v 2), .binit cbad (.v 1) (.v 2), .stp cbad .b32 (.v 1) 0 (.v 2),
    .sta cbad (.v 1) 0 (.v 2), .srd (tk 0) 1 false 0x00C, .swr c0 (.v 1) false 0x000, .swr c0 (.v 1) false 0x030] = true := by decide
/-- R197: the fields of [35:24] that an engine word accepts. -/
theorem test_wf_engine : refuses [.mxload c0 { e0 with cs := 1 } 1 0, .mxevict c0 { e0 with rel := true, rs := .dev } 0,
    .mxres c0 { e0 with bar := 1 } 1, .mma c0 { e0 with rel := true } 1, .mmal c0 { e0 with rs := .dev } 1, .mxgrad cbad e0 1,
    .mxzero c0 { e0 with rel := true, rs := .blk } 0 0, .cpy c0 { e0 with cs := 2 } 1 0, .cpyo c0 { e0 with cs := 6 } 1,
    .binsc c0 { e0 with cs := 7 } 1, .npost c0 { e0 with cs := 3 } 1 0 0, .ltrig c0 { e0 with rel := true, rs := .dev },
    .coll c0 { e0 with bar := 2 } 1, .cstat c0 { e0 with cs := 1 } 1 0] = true := by decide
/-- R2, R30, R42, R313, R319: an event names agents that exist. -/
theorem test_wf_agents : refuses [.clauseIssue 192 0, .clauseIssue 0 64, .mxownGrant 192, .bankEmptying 192, .mxloadExec 192,
    .mmaExec 192, .cpyExec 192 0, .npostExec 192 0, .operationComplete 192 0, .reformBinDue 0 128, .releaseWave 192,
    .convoyDetach 0 256, .ftimerFire 0 64, .nodeWake 64 0, .nodeWake 0 4096, .gangFlush 0 4096, .contextResume 64,
    .drainDeadline 64, .nodeUnfreeze 0 4096, .ctxdEnable 64 0, .ctxdDisable 64 0, .ctxdRst 64, .pageFaultResponse 64 0 1,
    .homeRead 192 0, .homeWrite 192 0, .homeAtomic 192 0, .fillReply 192 0, .l1LineAgeOut 192 0, .collStart 192 0 [],
    .collChunk 192 0 0 [] none, .collRecompute 192 0 [], .genHoldExpiry 192 0, .sratioWrite 192 0] = true := by decide
/-- R253, R350, R354, R393: accesses from outside, link widths, offsets, the host's atomics. -/
theorem test_wf_outside : refuses [.remoteRequest 1024 0 ⟨0, .read 0 8⟩, .remoteRequest 0 0 ⟨0, .read 60 8⟩,
    .remoteRequest 0 0 ⟨0, .write 63 [0, 0]⟩, .remoteRequest 0 0 ⟨0, .atomic 2 .addI32 0 0⟩, .remoteRequest 0 0 ⟨0, .serve 8⟩,
    .remoteRequest 0 0 ⟨0, .grant 8 0 0 0⟩, .remoteTagExpire 1024 0, .linkTrained 0 0 0 3, .linkWidthRetrain 0 3,
    .linkTableFlood 1024 0 ⟨0, []⟩, .hostDmaAccess (2 ^ 36) (.read 1), .hostDmaAccess 0 (.atomic .minI32 0 0),
    .hostDmaAccess 4 (.atomic .addI64 0 0), .registerWrite (2 ^ 20) 0, .registerWrite 2 0] = true := by decide

/-! ## Words written out from the encoding tables -/

/-- Each word of a list decodes in its class to its instruction, which is well formed and encodes as the word. -/
def decodes (l : List (Cls × Dword × Instr)) : Bool :=
  l.all (fun x => decodeInstr x.1 x.2.1 == some x.2.2 && encode x.2.2 == some (x.1, x.2.1) && x.2.2.wf)
/-- Each word of a list raises exactly the causes ILLOP and ILLOPD that stand beside it (R80, R81). -/
def rejects (l : List (Cls × Dword × Bool × Bool)) : Bool :=
  l.all (fun x => (decodeWord x.1 x.2.1).illop == x.2.2.1 && (decodeWord x.1 x.2.1).illopd == x.2.2.2)

/-- R60, R62, R74: class C. -/
theorem test_decode_control : decodes [
    (.c, 0x0030780000000000, .nop { stall := 3, set := false, tok := 0, gneg := false, gp := 15 }),
    (.c, 0x010017FFFFFFD800, .bra { stall := 0, set := false, tok := 0, gneg := false, gp := 2 } (-5)),
    (.c, 0x0200780144800000, .brx c0 (.s 9)),
    (.c, 0x0300780000003800, .call c0 7),
    (.c, 0x0400780003000000, .callx c0 (.v 6)),
    (.c, 0x0500780000000000, .ret c0),
    (.c, 0x0600980000000000, .reform { stall := 0, set := false, tok := 0, gneg := true, gp := 3 }),
    (.c, 0x0700780000000000, .bjoin c0),
    (.c, 0x0800780000000000, .exit c0),
    (.c, 0x09007800000000C8, .trap c0 200),
    (.c, 0x0A00780000000000, .brk c0),
    (.c, 0x0B00780000000000, .tret c0),
    (.c, 0x0C00780000000000, .yield c0),
    (.c, 0x0D00780163000000, .sleep c0 (.s 70)),
    (.c, 0x0E0D781000001040, .srd (tk 5) 8 true 0x040),
    (.c, 0x0F00780142000013, .swr c0 (.s 4) false 0x013)] = true := by decide +kernel
/-- R62, R75: class U. -/
theorem test_decode_uniform : decodes [
    (.u, 0x0000781040C00000, .sadd c0 1 2 (.reg 3)),
    (.u, 0x81007840A03FFFFF, .ssub c0 4 5 (.imm 0x3FFFFF)),
    (.u, 0x02007FFFDF400000, .smul c0 127 126 (.reg 125)),
    (.u, 0x0300781040C00000, .smulh c0 true 1 2 (.reg 3)),
    (.u, 0x8400781040000009, .smulh c0 false 1 2 (.imm 9)),
    (.u, 0x05007860E2000000, .smad c0 6 7 (.reg 8)),
    (.u, 0x06007860E2000000, .sand c0 6 7 (.reg 8)),
    (.u, 0x87007860E00000FF, .sor c0 6 7 (.imm 255)),
    (.u, 0x08007860E2000000, .sxor c0 6 7 (.reg 8)),
    (.u, 0x0900789140000000, .snot c0 9 10),
    (.u, 0x8A00789140000004, .sshl c0 9 10 (.imm 4)),
    (.u, 0x0B00789142C00000, .sshr c0 9 10 (.reg 11)),
    (.u, 0x0C00789142C00000, .ssar c0 9 10 (.reg 11))] = true := by decide +kernel
/-- R62, R75: class U, the rest. -/
theorem test_decode_uniform_more : decodes [
    (.u, 0x0E00781040C00000, .smin c0 false 1 2 (.reg 3)),
    (.u, 0x0F00781040C00000, .smax c0 true 1 2 (.reg 3)),
    (.u, 0x1100781040C00015, .ssel c0 1 2 3 5 true),
    (.u, 0x1200781040000000, .smov c0 1 2),
    (.u, 0x1300783080000000, .sclz c0 3 4),
    (.u, 0x1400783080000000, .spopc c0 3 4),
    (.u, 0x1600783080001005, .sbfe c0 true 3 4 5 64),
    (.u, 0x180078A000000040, .sli c0 10 64),
    (.u, 0x190078A160000041, .slih c0 10 11 65),
    (.u, 0x2100787020800000, .scmp c0 .ne true 7 1 (.reg 2)),
    (.u, 0xAB00787020000002, .scmp c0 .le false 7 1 (.imm 2)),
    (.u, 0x330A7942A03FFFF8, .sld (tk 2) .b64 20 21 0x3FFFF8),
    (.u, 0x36007802A5800010, .sst c0 .b32 21 16 22),
    (.u, 0x39097942A0000006, .sldl (tk 1) .b16 20 21 6)] = true := by decide +kernel
/-- R62 to R64, R76: class V, integer. -/
theorem test_decode_integer : decodes [
    (.v, 0x0000780201006040, .add c0 .i32 true 1 (.v 2) (.v 3)),
    (.v, 0x0100780803504600, .sub c0 .n64 false 4 (.v 6) (.s 2)),
    (.v, 0x0200780B9780F240, .mul c0 .n16 true 5 (.const 31) (.v 7)),
    (.v, 0x0300780A0300E200, .mulh c0 .n32 5 (.v 6) (.v 7)),
    (.v, 0x040078040200C047, .mad c0 true true true 2 (.v 4) (.v 6) (.v 8)),
    (.v, 0x050078040280E044, .madw c0 true 2 (.v 5) (.v 7) (.v 8)),
    (.v, 0x0600780201006000, .and c0 .i32 1 (.v 2) (.v 3)),
    (.v, 0x070078040200C400, .or c0 .i64 2 (.v 4) (.v 6)),
    (.v, 0x0800780380602000, .xor c0 .i32 1 .lane .tid),
    (.v, 0x0900780381000200, .not c0 .n32 1 .fslot),
    (.v, 0x0A0078038180A000, .shl c0 .i32 1 .blk (.v 5)),
    (.v, 0x0B007CFE01006200, .shr c0 .n32 639 (.v 2) (.v 3)),
    (.v, 0x0C00780201006000, .sar c0 .i32 1 (.v 2) (.v 3)),
    (.v, 0x0D00780201006000, .rot c0 .i32 1 (.v 2) (.v 3))] = true := by decide +kernel
/-- R62 to R64, R76: class V, integer, the rest. -/
theorem test_decode_integer_more : decodes [
    (.v, 0x0E00780201007000, .min c0 .i16 1 (.v 2) (.v 3)),
    (.v, 0x0F00780201007600, .max c0 .n8 1 (.v 2) (.v 3)),
    (.v, 0x1000780201001440, .abs c0 .i8 true 1 (.v 2)),
    (.v, 0x1100780402000400, .neg c0 .i64 false 2 (.v 4)),
    (.v, 0x120078040200C04A, .sel c0 true 2 (.v 4) (.v 6) 9),
    (.v, 0x130078037F800000, .mov c0 .i32 1 (.s 127)),
    (.v, 0x14007806007FFFFF, .movi c0 3 0x7FFFFF),
    (.v, 0x1500780201000000, .clz c0 .i32 1 (.v 2)),
    (.v, 0x1600780201000000, .popc c0 .i32 1 (.v 2)),
    (.v, 0x1700780201000000, .brev c0 .i32 1 (.v 2)),
    (.v, 0x180078020100602C, .bfe c0 true false 1 (.v 2) (.v 3) (.v 5)),
    (.v, 0x190078040200602A, .bfi c0 true 2 (.v 4) (.v 3) (.v 5)),
    (.v, 0x1A00780201006030, .addc c0 false 1 (.v 2) (.v 3) 6),
    (.v, 0x2500780801006200, .cmp c0 .ge .n32 4 (.v 2) (.v 3))] = true := by decide +kernel
/-- R64, R76: class V, floating point. -/
theorem test_decode_float : decodes [
    (.v, 0x40007802010068E4, .fadd c0 .f32 { rnd := .rtz, sat := true, na := true, nb := false, aa := false, ab := true } 1 (.v 2) (.v 3)),
    (.v, 0x4100780201006B18, .fsub c0 .f16 { rnd := .rup, sat := false, na := false, nb := true, aa := true, ab := false } 1 (.v 2) (.v 3)),
    (.v, 0x4200780201006D80, .fmul c0 .bf16 { m0 with rnd := .rdn } 1 (.v 2) (.v 3)),
    (.v, 0x4400780201006025, .ffma c0 .f16 .rup true 1 (.v 2) (.v 3) (.v 4)),
    (.v, 0x4600780201006820, .fmin c0 .f32 { m0 with na := true } 1 (.v 2) (.v 3)),
    (.v, 0x4700780201006810, .fmax c0 .f32 { m0 with nb := true } 1 (.v 2) (.v 3)),
    (.v, 0x4800780201000C00, .fclass c0 .bf16 1 (.v 2)),
    (.v, 0x4900780201000980, .fround c0 .f32 .rdn 1 (.v 2)),
    (.v, 0x4A08780201000880, .frcp (tk 0) .rtz 1 (.v 2)),
    (.v, 0x4B09780201000900, .fsqrt (tk 1) .rup 1 (.v 2)),
    (.v, 0x4C0A780201000800, .frsq (tk 2) .rne 1 (.v 2)),
    (.v, 0x4D0B780201000800, .fexp2 (tk 3) .rne 1 (.v 2)),
    (.v, 0x4E0C780201000800, .flog2 (tk 4) .rne 1 (.v 2))] = true := by decide +kernel
/-- R64, R76: class V, floating point and conversion. -/
theorem test_decode_float_more : decodes [
    (.v, 0x4F0F780201006880, .fdiv (tk 7) .rtz 1 (.v 2) (.v 3)),
    (.v, 0x5200780201006023, .fdot c0 .e4m3 .rtz true 1 (.v 2) (.v 3) (.v 4)),
    (.v, 0x5A00780600804804, .fcmp c0 .lt { m0 with ab := true } 3 (.v 1) (.v 2)),
    (.v, 0x80007804028048C0, .cvt c0 .f32 .rtz true 2 (.v 5) .i64),
    (.v, 0x8100780201006E40, .pack c0 .e4m3 .rne true 1 (.v 2) (.v 3)),
    (.v, 0x8200780201623400, .unpack c0 .i8 1 (.v 2) (.const 1)),
    (.v, 0x8300780201007428, .perm c0 1 (.v 2) (.v 3) (.s 5))] = true := by decide +kernel
/-- R63, R76: class V, lane operations. -/
theorem test_decode_lane : decodes [
    (.v, 0xC0097D1602000000, .bal (tk 1) 11 4),
    (.v, 0xC109780401800000, .vany (tk 1) 2 3),
    (.v, 0xC209780401800000, .vall (tk 1) 2 3),
    (.v, 0xC3097D0201000400, .rdfirst (tk 1) true 1 (.v 2)),
    (.v, 0xC4097D020180E000, .rdfirstChk (tk 1) false 1 (.v 3) 7),
    (.v, 0xC5097D020180A000, .rdlane (tk 1) false 1 (.v 3) (.v 5)),
    (.v, 0xC60978040200A400, .shfl (tk 1) true 2 (.v 4) (.v 5)),
    (.v, 0xC709780201622000, .shflx (tk 1) false 1 (.v 2) (.const 1)),
    (.v, 0xC809780201624000, .shflu (tk 1) false 1 (.v 2) (.const 2)),
    (.v, 0xC909780201626000, .shfld (tk 1) false 1 (.v 2) (.const 3)),
    (.v, 0xCB097D0201000800, .redx (tk 1) .min .f32 1 (.v 2)),
    (.v, 0xCE097D0201000600, .redx (tk 1) .or .n64 1 (.v 2)),
    (.v, 0xCF09780201000200, .scanx (tk 1) .n32 1 (.v 2)),
    (.v, 0xD009780200000000, .lanes (tk 1) 1),
    (.v, 0xD109780A00000000, .elect (tk 1) 5)] = true := by decide +kernel
/-- R62, R65, R77, R78: class M, accesses. -/
theorem test_decode_memory : decodes [
    (.m, 0x080F780941FFFE0D, .ld (tk 7) .b128 .acq .sys 4 (.off (.s 3) (-16))),
    (.m, 0x120F780C04000060, .ldNc (tk 7) .b16 .none 6 (.off (.v 8) 3)),
    (.m, 0x150F780C04D06000, .ldNc (tk 7) .b32 .none 6 (.idx 3 9)),
    (.m, 0x2700781002D08014, .st c0 .b64 .rel .dev (.idx 4 5) (.v 8)),
    (.m, 0x3A08780A01800000, .ldl (tk 0) .b32 true .rlx .none 5 (.v 3) 0),
    (.m, 0x3108780A01800189, .ldl (tk 0) .b16 false .acq .blk 5 (.v 3) 12),
    (.m, 0x43007D0C01800111, .stl c0 .b64 false .rel .blk (.v 3) 8 (.s 6)),
    (.m, 0x5308780C01800100, .ldp (tk 0) .b64 6 (.v 3) 8),
    (.m, 0x5C00780801800200, .stp c0 .b128 (.v 3) 16 (.v 4)),
    (.m, 0x5E08780D41801000, .lda (tk 0) 6 (.s 3) 128),
    (.m, 0x5F00780D41801000, .sta c0 (.s 3) 128 (.v 6)),
    (.m, 0xAE0B780C0200011D, .atom (tk 3) .casB32 .acqrel .sys 6 (.off (.v 4) 8)),
    (.m, 0xD100780E02504013, .red c0 .maxN32 .rel .die (.idx 2 4) (.v 7)),
    (.m, 0xFB0B780C02000119, .atoml (tk 3) .casB32 .acqrel .blk 6 (.v 4) 8)] = true := by decide +kernel
/-- R77, R170 to R182: class M, fences, waits and tickets. -/
theorem test_decode_waiting : decodes [
    (.m, 0x6009780A01800800, .ptest (tk 1) 5 (.v 3) 64),
    (.m, 0x610078000000001C, .fence c0 .acqrel .dev),
    (.m, 0x6200780000000002, .efence c0 .core),
    (.m, 0x6300780F41800800, .cinv c0 (.s 3) 64 (.v 7)),
    (.m, 0x6400780E01800800, .cwb c0 (.v 3) 64 (.v 7)),
    (.m, 0x6500780141800800, .mon c0 (.s 3) 64),
    (.m, 0x66007D120000000C, .mwait c0 .acq .dev (.s 9)),
    (.m, 0x6709780F41800200, .tktake (tk 1) 7 (.s 3) 16),
    (.m, 0x6800780F4180020C, .tkwait c0 .acq .dev (.s 3) 16 (.v 7)),
    (.m, 0x6900780141800214, .tkserve c0 .rel .dev (.s 3) 16),
    (.m, 0x7A00780544512000, .waitc c0 .gt false .rlx .none (.s 8) (.v 2) (.s 9)),
    (.m, 0x7700780544512000, .waitc c0 .ne false .rlx .none (.s 8) (.v 2) (.s 9))] = true := by decide +kernel
/-- R77, R186 to R196: class M, barriers, convoys, steps. -/
theorem test_decode_barriers : decodes [
    (.m, 0x6A00781189800000, .binit c0 (.const 3) (.v 8)),
    (.m, 0x6B00780189800004, .barr c0 .dev (.const 3)),
    (.m, 0x6C00781189800004, .bwait c0 .dev (.const 3) (.v 8)),
    (.m, 0x6D00780189800002, .bsync c0 .core (.const 3)),
    (.m, 0x6E00780000000045, .cbar c0 .sys 2),
    (.m, 0x7000781342000803, .cvjoin c0 3 (.s 4) 64 (.v 9)),
    (.m, 0x710A781000000040, .cvld (tk 2) 8 true),
    (.m, 0x7200780000000000, .cvleave c0),
    (.m, 0x7300780000000000, .stepn c0),
    (.m, 0x7409780A020049A0, .ldnb (tk 1) 5 (.v 4) (.v 2) 77)] = true := by decide +kernel
/-- R79, R197: class E. -/
theorem test_decode_engine : decodes [
    (.e, 0x0000780000000000, .mxownTake c0),
    (.e, 0x0000789000000001, .mxownPass c0 9),
    (.e, 0x0000780000000002, .mxownRelease c0),
    (.e, 0x010079ACC8000003, .mxload c0 { rel := true, rs := .dev, be := true, bar := 9, cs := 0 } 26 3),
    (.e, 0x0200780000000006, .mxevict c0 e0 6),
    (.e, 0x0300785000000000, .mxres c0 e0 5),
    (.e, 0x0409786098000000, .mma (tk 1) { e0 with be := true, bar := 3 } 6),
    (.e, 0x0500786000000000, .mmal c0 e0 6),
    (.e, 0x0600786900000000, .mxgrad c0 { e0 with rel := true, rs := .blk } 6),
    (.e, 0x0700780000063007, .mxzero c0 e0 7 99)] = true := by decide +kernel
/-- R79, R197: class E, the rest. -/
theorem test_decode_engine_more : decodes [
    (.e, 0x100078800000003F, .cpy c0 e0 8 63),
    (.e, 0x1100788005000000, .cpyo c0 { e0 with cs := 5 } 8),
    (.e, 0x1200788D04000000, .binsc c0 { e0 with rel := true, rs := .sys, cs := 4 } 8),
    (.e, 0x2008783000001005, .npost (tk 0) e0 3 5 1),
    (.e, 0x2100780000000000, .ltrig c0 e0),
    (.e, 0x2200787000000000, .lwait c0 7),
    (.e, 0x3000787000000000, .coll c0 e0 7),
    (.e, 0x3100787000001234, .cstat c0 e0 7 0x1234)] = true := by decide +kernel
/-- Words that spec/06, 07, 08, 09, 11 and 15 write out. -/
theorem test_decode_spec : decodes [
    (.u, 0x180078A000000040, .sli c0 10 64),
    (.m, 0x2300780C0250A000, .st c0 .b16 .rlx .none (.idx 5 4) (.v 6)),
    (.m, 0x710A781000000020, .cvld (tk 2) 8 false),
    (.e, 0x0409786098000000, .mma (tk 1) { e0 with be := true, bar := 3 } 6),
    (.e, 0x2008783000001005, .npost (tk 0) e0 3 5 1),
    (.m, 0x70007D0D42000000, .cvjoin c0 0 (.s 4) 0 (.s 6)),
    (.m, 0x7200780000000000, .cvleave c0),
    (.m, 0x3A08780A01800000, .ldl (tk 0) .b32 true .rlx .none 5 (.v 3) 0),
    (.m, 0x4000100C00826B00, .stl { c0 with gp := 2 } .b8 false .rlx .none (.v 1) 0x1358 (.v 6)),
    (.u, 0x3A0B79E280000090, .sldl (tk 3) .b32 30 20 0x90),
    (.e, 0x010079A000000003, .mxload c0 e0 26 3)] = true := by decide +kernel
/-- Words that spec/15, 17, 19 and 22 write out. -/
theorem test_decode_spec_more : decodes [
    (.e, 0x0000789000000001, .mxownPass c0 9),
    (.m, 0xEC0E100745800000, .atoml { tk 6 with gp := 2 } .addI32 .rlx .none 3 (.s 11) 0),
    (.m, 0x6B00780188000000, .barr c0 .none (.const 0)),
    (.u, 0x37007800C4800000, .sst c0 .b64 6 0 18),
    (.e, 0x2000793C00000001, .npost c0 { e0 with rel := true, rs := .dev } 19 1 0),
    (.m, 0x040A78034280000D, .ld (tk 2) .b32 .acq .sys 1 (.off (.s 5) 0)),
    (.c, 0x0900000000000001, .trap { c0 with gp := 0 } 1),
    (.m, 0x7409080A02004000, .ldnb { tk 1 with gp := 1 } 5 (.v 4) (.v 2) 0),
    (.m, 0x7300780000000000, .stepn c0),
    (.m, 0x76007E214252A00C, .waitc c0 .eq false .acq .dev (.s 4) (.const 0) (.s 21)),
    (.v, 0x0A00780801622000, .shl c0 .i32 4 (.v 2) (.const 1))] = true := by decide +kernel

/-- R57: CLASS 5, bits [46:0], T in a C clause, T with CNT 0. -/
theorem test_headers : [0x5000000000000000, 0x1100000000000001, 0x4100800000000000, 0x1000800000000000].all
    (fun w => (Header.decode w).isNone) = true ∧ Header.decode 0x3500000000000000 = some { cls := .e, cnt := 5, wait := 0, t := false }
    ∧ Header.decode 0x0020000000000000 = some { cls := .u, cnt := 0, wait := 0x20, t := false } := by decide +kernel
/-- R80: an unassigned opcode; guard 1_1111; TOK with SET 0; a reserved TYPE; an unaccepted RND; a missing order's scope;
a nonzero unused field; SET on a fixed latency; no SET on `srd`; `swr` of LANE; `srd` of 0x00C. -/
theorem test_illop : rejects [(.v, 0x1B00780000000000, true, false), (.c, 0x0000F80000000000, true, false),
    (.c, 0x0001780000000000, true, false), (.v, 0x0000780001001A00, true, false), (.v, 0x0000780001000080, true, false),
    (.m, 0x0408780140000008, true, false), (.c, 0x0000780000000001, true, false), (.v, 0x0008780001000000, true, false),
    (.c, 0x0E00780200000000, true, false), (.c, 0x0F00780000000000, true, false), (.c, 0x0E0878000000000C, true, false)] = true := by
  decide +kernel
/-- R80: reserved ids 772 and 816; an odd v-register of a 64-bit operand; a 128-bit operand not a multiple of 4; a destination
that is not a v-register; a predicate position above 15; then ILLOP and ILLOPD together. -/
theorem test_illopd : rejects [(.v, 0x0000780182000000, false, true), (.v, 0x0000780198000000, false, true),
    (.v, 0x0000780001800400, false, true), (.m, 0x0808780540000000, false, true), (.v, 0x00007D0001000000, false, true),
    (.v, 0x2000782001000000, false, true), (.v, 0x0008780182000000, true, true)] = true := by decide +kernel

/-! ## Small states

Block 1 on core 0 holds one thread, in lane 0 of slot 0, and issues the first word of its clause; its context maps the page of
its code object for every access. -/

/-- Its code object's header, and its thread, changed by `f`. -/
def hdr0 : CodeHdr := placedHdr State.reset.part
def th (f : Thread → Thread) : Thread := f (Thread.start hdr0 0x10000 0 0)
/-- Its clause of `cnt` + 1 words, and its frond with s-registers `ss`. -/
def run0 (cnt : BitVec 4) : Run := { tids := [0], clause := 0x10100, hdr := { cls := .v, cnt := cnt, wait := 0, t := false }, pos := 1 }
def fr0 (ss : Map Dword) (cnt : BitVec 4) : Frond := { Frond.fresh ss [] with run := some (run0 cnt) }
/-- The block, and the state that holds it alone. -/
def blk (t : Thread) (ss : Map Dword) (cnt : BitVec 4) : Block :=
  { placedBlock State.reset.part 0x1000000000000000 with threads := [(0, t)], fronds := [(0, fr0 ss cnt)] }
def st (b : Block) : State := { placeWord State.reset 0x1000000000000000 with blocks := [(1, b)], focus := some (1, 0), agenda := [] }
/-- Its issue. -/
def iss (b : Block) (ss : Map Dword) (cnt : BitVec 4) : Issue :=
  { bid := 1, slot := 0, core := 0, blk := b, fr := fr0 ss cnt, run := run0 cnt, act := [0], seq := State.reset.seq + 1 }
/-- The plain block: every register 0, a clause of one word. -/
def b0 : Block := blk (th id) [] 0
def i0 : Issue := iss b0 [] 0

/-- A word is ready wherever nothing is pending, poisoned or counted in the one thread. -/
theorem ready_of {s : State} {b : Block} {t : Thread} {ss : Map Dword} {cnt : BitVec 4} (hs : s.issue? = some (iss b ss cnt))
    (hb : b.threads = [(0, t)]) (hp : t.pend = []) (hq : t.pbad = 0) (ht : t.tok = []) (w : WordForm) : Ready w s (iss b ss cnt) := by
  refine ⟨hs, ?_, rfl, by simp [settled, iss, fr0, Frond.fresh], ?_⟩
  · simp [iss, run0, Issue.thr, Block.thread, hb, Map.get?]
  · intro e he _
    simp only [iss, hb, List.mem_singleton] at he
    subst he
    exact ⟨by simp [settled, hp], by simp [hq], fun _ => by unfold Thread.getTok; rw [ht]; exact Nat.lt_of_sub_eq_succ rfl⟩
/-- Every word is ready in the plain state. -/
theorem ready0 (w : WordForm) : Ready w (st b0) i0 := ready_of rfl rfl rfl rfl rfl w

/-- What a word leaves in a v-register, in an s-register, in the thread. -/
def tAfter (t : Thread) (ss : Map Dword) (x : Instr) : Option Thread :=
  match exec x (st (blk t ss 0)) with
  | .next s => s.thread 1 0
  | _ => none
def vAfter (l : Map Word) (x : Instr) (d : Nat) : Option Word := (tAfter (th (fun t => { t with v := l })) [] x).map (·.getV d)
def sAfter (ss : Map Dword) (x : Instr) (d : Nat) : Option Dword :=
  match exec x (st (blk (th id) ss 0)) with
  | .next s => (s.block 1).bind (fun b => (b.fronds.get? 0).map (·.getS d))
  | _ => none

/-! ## Single steps with results worked from the rules -/

theorem reset_inv : State.reset.Inv := by unfold State.Inv; decide +kernel
/-- R82, R131: a sum wraps; with `.sat` it clamps; packed elements do not carry into each other. -/
theorem test_add : vAfter [(2, 0x7FFFFFFF), (3, 1)] (.add c0 .i32 false 1 (.v 2) (.v 3)) 1 = some 0x80000000
    ∧ vAfter [(2, 0x7FFFFFFF), (3, 1)] (.add c0 .i32 true 1 (.v 2) (.v 3)) 1 = some 0x7FFFFFFF
    ∧ vAfter [(2, 0x00FF7F80), (3, 0x000101FF)] (.add c0 .n8 false 1 (.v 2) (.v 3)) 1 = some 0x0000807F := by decide +kernel
theorem test_sub : vAfter [(2, 1), (3, 2)] (.sub c0 .n32 true 1 (.v 2) (.v 3)) 1 = some 0
    ∧ vAfter [(2, 0x80007FFF), (3, 0x0001FFFF)] (.sub c0 .i16 true 1 (.v 2) (.v 3)) 1 = some 0x80007FFF := by decide +kernel
theorem test_mulh : vAfter [(2, 0xFFFFFFFF)] (.mulh c0 .n32 1 (.v 2) (.v 2)) 1 = some 0xFFFFFFFE
    ∧ vAfter [(2, 0xFFFFFFFF)] (.mulh c0 .i32 1 (.v 2) (.v 2)) 1 = some 0 := by decide +kernel
theorem test_madw : vAfter [(2, 0xFFFFFFFF), (4, 5), (5, 0)] (.madw c0 false 6 (.v 2) (.v 2) (.v 4)) 6 = some 6
    ∧ vAfter [(2, 0xFFFFFFFF)] (.madw c0 true 6 (.v 2) (.v 2) (.v 4)) 7 = some 0xFFFFFFFE := by decide +kernel
/-- R132: counts are taken modulo the width. -/
theorem test_shifts : vAfter [(2, 0x80000001), (3, 33)] (.shl c0 .i32 1 (.v 2) (.v 3)) 1 = some 2
    ∧ vAfter [(2, 0x80000001), (3, 33)] (.shr c0 .i32 1 (.v 2) (.v 3)) 1 = some 0x40000000
    ∧ vAfter [(2, 0x80000001), (3, 33)] (.sar c0 .i32 1 (.v 2) (.v 3)) 1 = some 0xC0000000
    ∧ vAfter [(2, 0x80000001), (3, 33)] (.rot c0 .i32 1 (.v 2) (.v 3)) 1 = some 3 := by decide +kernel
theorem test_abs_min : vAfter [(2, 0x80000000)] (.abs c0 .i32 false 1 (.v 2)) 1 = some 0x80000000
    ∧ vAfter [(2, 0x80000000)] (.abs c0 .i32 true 1 (.v 2)) 1 = some 0x7FFFFFFF
    ∧ vAfter [(2, 0x80FF017F), (3, 0x7F00FF80)] (.min c0 .i8 1 (.v 2) (.v 3)) 1 = some 0x80FFFF80 := by decide +kernel
/-- R134: a signed field extends; a field past the end is cut; R132: counts of zeros and ones. -/
theorem test_fields : vAfter [(2, 0x00000F00), (3, 8), (4, 4)] (.bfe c0 false false 1 (.v 2) (.v 3) (.v 4)) 1 = some 0xFFFFFFFF
    ∧ vAfter [(2, 0xF0000000), (3, 28), (4, 8)] (.bfe c0 true false 1 (.v 2) (.v 3) (.v 4)) 1 = some 0xF
    ∧ vAfter [(1, 0xFFFFFFFF), (2, 0x5), (3, 4), (4, 4)] (.bfi c0 false 1 (.v 2) (.v 3) (.v 4)) 1 = some 0xFFFFFF5F
    ∧ vAfter [] (.clz c0 .i32 1 (.v 2)) 1 = some 32 ∧ vAfter [(2, 0xF000000F)] (.popc c0 .i32 1 (.v 2)) 1 = some 8
    ∧ vAfter [(2, 1)] (.brev c0 .i32 1 (.v 2)) 1 = some 0x80000000 := by decide +kernel
theorem test_addc : (tAfter (th (fun t => { t with v := [(2, 0xFFFFFFFF)], p := 2 })) [] (.addc c0 false 1 (.v 2) (.const 0) 1)).map
    (fun t => (t.getV 1, t.getP 1)) = some (0, true) := by decide +kernel
theorem test_cmp : (tAfter (th (fun t => { t with v := [(2, 0xFFFFFFFF)] })) [] (.cmp c0 .lt .i32 1 (.v 2) (.const 0))).map (·.getP 1) = some true
    ∧ (tAfter (th (fun t => { t with v := [(2, 0xFFFFFFFF)] })) [] (.cmp c0 .lt .n32 1 (.v 2) (.const 0))).map (·.getP 1) = some false := by
  decide +kernel
theorem test_movi_perm : vAfter [] (.movi c0 1 0x7FFFFF) 1 = some 0xFFFFFFFF
    ∧ vAfter [(2, 0x33221100), (3, 0x77665544)] (.perm c0 1 (.v 2) (.v 3) (.v 4)) 1 = some 0
    ∧ vAfter [(2, 0x33221100), (3, 0x77665544), (4, 0x8407)] (.perm c0 1 (.v 2) (.v 3) (.v 4)) 1 = some 0x00440077 := by decide +kernel
/-- R61, R107: a word whose guard fails writes nothing. -/
theorem test_guard : vAfter [(1, 9), (2, 1)] (.mov { c0 with gp := 3 } .i32 1 (.v 2)) 1 = some 9
    ∧ vAfter [(1, 9), (2, 1)] (.mov { c0 with gp := 3, gneg := true } .i32 1 (.v 2)) 1 = some 1 := by decide +kernel
/-- R92, R93, R95, R98: 1 + 2; the larger of a NaN and 1; the root of 4; 1.5 to an integer, to even and to zero. -/
theorem test_floats : vAfter [(2, 0x3F800000), (3, 0x40000000)] (.fadd c0 .f32 m0 1 (.v 2) (.v 3)) 1 = some 0x40400000
    ∧ vAfter [(2, 0x7FC00000), (3, 0x3F800000)] (.fmax c0 .f32 m0 1 (.v 2) (.v 3)) 1 = some 0x3F800000
    ∧ vAfter [(2, 0x40800000)] (.fsqrt (tk 0) .rne 1 (.v 2)) 1 = some 0x40000000
    ∧ vAfter [(2, 0x3FC00000)] (.cvt c0 .f32 .rne false 1 (.v 2) .i32) 1 = some 2
    ∧ vAfter [(2, 0x3FC00000)] (.cvt c0 .f32 .rtz false 1 (.v 2) .i32) 1 = some 1 := by decide +kernel
/-- spec/06: 1,000.0 to E4M3 overflows to NaN with the overflow and inexact flags; with `.sat` it gives 0x7E. -/
theorem test_cvt_e4m3 : (tAfter (th (fun t => { t with v := [(2, 0x447A0000)] })) [] (.cvt c0 .f32 .rne false 1 (.v 2) .e4m3)).map
    (fun t => (t.getV 1, t.fpflags)) = some (0x7F, 0x14)
    ∧ vAfter [(2, 0x447A0000)] (.cvt c0 .f32 .rne true 1 (.v 2) .e4m3) 1 = some 0x7E := by decide +kernel
/-- spec/06: one aligned group, promoted, and opposite infinities (R101, R102). -/
theorem test_promotion :
    exactSum ([(0x7E, 0x7E), (1, 1), (0x7E, 0xFE)].map (fun x => (fe4m3.decode x.1, fe4m3.decode x.2))) = .fin false 1 (-18)
    ∧ promote 0x3F800000 (.fin false 1 (-18)) 0x40400000 0x3EAAAAAB = 0x3F800020
    ∧ rne32 (exactSum ([(0x7F80, 0x3F80), (0x4000, 0xFF80)].map (fun x => (bf16.decode x.1, bf16.decode x.2)))) = 0x7FC00000 := by
  decide +kernel
theorem test_pack : vAfter [(2, 0x01FFFFFF), (3, 0x00800001)] (.pack c0 .n8 .rne true 1 (.v 2) (.v 3)) 1 = some 0x8001FFFF
    ∧ vAfter [(2, 0x0000FF00)] (.unpack c0 .i8 1 (.v 2) (.const 1)) 1 = some 0xFFFFFFFF := by decide +kernel
/-- R146, R152, R153: one active lane. -/
theorem test_lanes : vAfter [] (.lanes (tk 0) 1) 1 = some 0x100 ∧ vAfter [(2, 7)] (.scanx (tk 0) .i32 1 (.v 2)) 1 = some 7
    ∧ sAfter [] (.bal (tk 0) 4 15) 4 = some 1 := by decide +kernel
/-- R124 to R127. -/
theorem test_uniform : sAfter [] (.sli c0 1 0x3FFFFF) 1 = some 0xFFFFFFFFFFFFFFFF ∧ sAfter [(2, 1)] (.slih c0 1 2 5) 1 = some 0x400005
    ∧ sAfter [(2, 0xFFFFFFFFFFFFFFFF)] (.smulh c0 false 1 2 (.reg 2)) 1 = some 0xFFFFFFFFFFFFFFFE
    ∧ sAfter [(2, 0xF00)] (.sbfe c0 true 1 2 8 4) 1 = some 0xFFFFFFFFFFFFFFFF
    ∧ sAfter [(2, 0x8000000000000000)] (.ssar c0 1 2 (.imm 63)) 1 = some 0xFFFFFFFFFFFFFFFF
    ∧ sAfter [(1, 3), (2, 4)] (.smad c0 1 2 (.imm 5)) 1 = some 23 := by decide +kernel
/-- R58, R110, R111: where a thread goes on. -/
theorem test_branches : (tAfter (th id) [] (.bra c0 (-2))).map (·.pc) = some 0x100F0
    ∧ (tAfter (th id) [] (.nop c0)).map (·.pc) = some 0x10110
    ∧ (tAfter (th id) [(8, 0x12340)] (.brx c0 (.s 8))).map (·.pc) = some 0x12340 := by decide +kernel
/-- R118, R366 to R369: `trap 5` saves the next clause and its number, and goes to OBASE + TVEC. -/
theorem test_trap : (tAfter (th (fun t => { t with tvec := 0x300 })) [] (.trap c0 5)).map (fun t =>
    [t.pc, t.epc, t.eslot, t.cause, t.eaddr, t.einfo]) = some [0x10300, 0x10110, 0, 0x2000, 0x10108, 5] := by decide +kernel
/-- R119: `tret` continues at EPC with ESLOT. -/
theorem test_tret : (tAfter (th (fun t => { t with handler := true, epc := 0x10200, eslot := 3 })) [] (.tret c0)).map (fun t =>
    (t.pc, t.rslot, t.handler)) = some (0x10200, 3, false) := by decide +kernel
/-- R123, R70: FCTL keeps its writable bits; CAUSE bits are cleared by 1. -/
theorem test_swr : (tAfter (th id) [(1, 0xFFFFFFFFFFFFFFFF)] (.swr c0 (.s 1) true 0x018)).map (·.fctl) = some 0x3F
    ∧ (tAfter (th (fun t => { t with cause := 0x6 })) [(1, 4)] (.swr c0 (.s 1) false 0x012)).map (·.cause) = some 2
    ∧ (tAfter (th id) [] (.srd (tk 0) 1 false 0x007)).map (·.getV 1) = some 0 := by decide +kernel
/-- R162: a store puts its bytes in the scratchpad little-endian; a misaligned offset raises MISAL. -/
theorem test_stl : (match exec (.stl c0 .b32 false .rlx .none (.const 8) 0 (.v 2)) (st (blk (th (fun t => { t with v := [(2, 0x01020304)] })) [] 0)) with
      | .next s => (s.block 1).map (fun b => (List.range 4).map (fun k => b.scrByte (8 + k)))
      | _ => none) = some [4, 3, 2, 1]
    ∧ (tAfter (th (fun t => { t with tvec := 0x300 })) [] (.stl c0 .b32 false .rlx .none (.const 6) 0 (.v 2))).map (fun t =>
      (t.cause, t.eaddr, t.epc, t.eslot)) = some (8, 6, 0x10100, 1) := by decide +kernel
/-- R163: with no skewed rows a `.skew` access is a plain one; R170: a line is present. -/
theorem test_ldl : (match exec (.ldl (tk 0) .b16 true .rlx .none 1 (.const 2) 0) (st { b0 with scr := [(2, 0xCD), (3, 0xAB)] }) with
      | .next s => (s.thread 1 0).map (·.getV 1)
      | _ => none) = some 0xABCD
    ∧ (tAfter (th id) [] (.ptest (tk 0) 3 (.const 0) 0)).map (·.getP 3) = some true := by decide +kernel
/-- R186: `binit`; R185, R187: one arrival of one live thread completes a phase. -/
theorem test_barrier : (match exec (.binit c0 (.const 3) (.const 5)) (st b0) with
      | .next s => (s.block 1).map (fun b => b.bar 3)
      | _ => none) = some { c := 5, a := 0, p := 0, ops := [] }
    ∧ (match exec (.barr c0 .none (.const 2)) (st b0) with
      | .next s => (s.block 1).map (fun b => (b.bar 2).p)
      | _ => none) = some 1 := by decide +kernel
/-- R165: `sta` then `lda` address one accumulator word per lane; here the store alone. -/
theorem test_sta : (match exec (.sta c0 (.const 0) 256 (.const 7)) (st b0) with
      | .next s => (s.block 1).map (fun b => b.accAt 1 0)
      | _ => none) = some 7 := by decide +kernel
/-- R116: the block's only thread exits. -/
theorem test_exit : (tAfter (th id) [] (.exit c0)).map (·.status) = some .exited := by decide +kernel
/-- R57, R58: a whole step fetches, decodes and executes `movi v1, 5`. -/
theorem test_step : (match step (State.reset.withFetchWord 128 0x14007802000000051000000000000000) with
      | .next s => (s.thread 1 0).map (fun t => (t.getV 1, t.pc))
      | _ => none) = some (5, 0x10110) := by decide +kernel

/-! ## Witnesses: states and operands that meet the hypotheses of the statements

Each theorem is named after its statement in Obligations.lean, with the number of the clause where there are several. -/

/-- The only thread of a block is the one that its issue shows. -/
theorem only {b : Block} {t y : Thread} {ss : Map Dword} {cnt : BitVec 4} {k : Nat} (hb : b.threads = [(0, t)])
    (h : (iss b ss cnt).thr k = some y) : y = t := by
  simp only [iss, Issue.thr, Block.thread, hb, Map.get?] at h
  split at h
  · exact (Option.some.inj h).symm
  · exact absurd h (by simp)
/-- The block with a changed thread, with s8 = 0x10100, and with two words in its clause. -/
def bt (f : Thread → Thread) : Block := blk (th f) [] 0
def bs : Block := blk (th id) [(8, 0x10100)] 0
def is : Issue := iss bs [(8, 0x10100)] 0
def b1 : Block := blk (th id) [] 1
def i1 : Issue := iss b1 [] 1
theorem readyS (w : WordForm) : Ready w (st bs) is := ready_of rfl rfl rfl rfl rfl w
theorem ready1 (w : WordForm) : Ready w (st b1) i1 := ready_of rfl rfl rfl rfl rfl w

/-- ArithmeticWords, BitWords, PredicateWords, FloatingTrap, LaneWords, UniformWords, and the other clauses whose only
hypothesis is a ready word: every word is ready in the plain state. -/
theorem wit_ready : (∀ w, Ready w (st b0) i0) ∧ (arithWord (.add c0 .i32 false 1 (.v 2) (.v 3))).isSome = true ∧
    (bitWord (.movi c0 1 0)).isSome = true ∧ (fpWord (.fadd c0 .f32 m0 1 (.v 2) (.v 3))).isSome = true ∧
    (uWord (.sli c0 1 0)).isSome = true ∧ VTy.i32.int = true := ⟨ready0, rfl, rfl, rfl, rfl, rfl⟩
/-- FloatingWords: no flag is enabled. -/
theorem wit_FloatingWords (w : WordForm) (f : Nat) : Ready w (st b0) i0 ∧ ∀ t ∈ w.active i0, ∀ y, i0.thr t = some y → y.enables f = false :=
  ⟨ready0 w, fun t _ y h => by rw [only rfl h]; simp [Thread.enables, th, Thread.start]⟩
theorem wit_LaneWords : Ready (vform c0 [.p 2] [.p 1]) (st b0) i0 ∧ noPend i0 [.p 1] := ⟨ready0 _, by decide +kernel⟩
theorem wit_SourceLaneWords : Ready (vform c0 (opndRegs (.v 2) false) [.v 1]) (st b0) i0 ∧ noPend i0 (opndRegs (.v 2) false) :=
  ⟨ready0 _, by decide +kernel⟩
theorem wit_ReductionWords : Ready (vform c0 (opndRegs (.v 2) false) [.s 1]) (st b0) i0 ∧
    (vform c0 (opndRegs (.v 2) false) [.s 1]).active i0 ≠ [] := ⟨ready0 _, by decide +kernel⟩
theorem wit_ClauseAdvances_1 : Ready (vform c0 [.v 2] [.v 1]) (st b0) i0 ∧ i0.run.tids ≠ [] ∧ i0.atEnd := ⟨ready0 _, by decide, by decide⟩
theorem wit_ClauseAdvances_2 : Ready (vform c0 [.v 2] [.v 1]) (st b1) i1 ∧ i1.run.tids ≠ [] ∧ ¬ i1.atEnd := ⟨ready1 _, by decide, by decide⟩
/-- v2 lands at cycle 5, and the word issues at cycle 0. -/
def early : Thread := th (fun t => { t with fctl := 1, pend := [{ reg := .v 2, due := .cyc 5, old := 0, bad := false }] })
theorem wit_ClauseAdvances_3 : let i := iss (blk early [] 0) [] 0
    let p : Pend := { reg := .v 2, due := .cyc 5, old := 0, bad := false }
    (st (blk early [] 0)).issue? = some i ∧ 0 ∈ i.run.tids ∧ i.thr 0 = some early ∧ early.fctl.getLsbD 0 = true ∧
    guardOf c0 early = true ∧ p ∈ early.pend ∧ p.reg = .v 2 ∧ p.out i.fr.cyc = true ∧
    p.reg ∈ (word1 c0 .i32 1 (.v 2) (fun _ _ => True)).form.rd := by decide +kernel
theorem wit_Branches_1 : Ready (vform c0 [] []) (st b0) i0 ∧ i0.atEnd := ⟨ready0 _, by decide⟩
theorem wit_Branches_2 : let w := vform c0 (opndRegs (.s 8) true) []
    Ready w (st bs) is ∧ is.atEnd ∧ (w.issue is).clean (opndRegs (.s 8) true) ∧ ∀ t ∈ w.active is, (is.opnd t (.s 8) true).toNat % 8 = 0 :=
  ⟨readyS _, by decide +kernel⟩
/-- Private offset 56 of the first thread lies at 0x40038. -/
def priv56 : List (Nat × Bool × Nat) := [(0x40038, false, 4), (0x4003C, false, 4)]
/-- What holds of the only lane holds of each, with those before it. -/
theorem one {P : List Nat → Nat → Prop} {l : List Nat} (hl : l = [0]) (h : P [] 0) : ∀ a t r, l = a ++ t :: r → P a t := by
  intro a t r e
  rw [hl] at e
  cases a with
  | nil => simp only [List.nil_append, List.cons.injEq] at e; rw [← e.1]; exact h
  | cons x a => simp at e
/-- An answer is there when what it says beside its state is. -/
theorem got {α β : Type} {x : Option (α × β)} {y : β} (h : x.map (·.2) = some y) : ∃ v, x = some (v, y) := by
  cases x with
  | none => simp at h
  | some e => exact ⟨e.1, by simp only [Option.map_some, Option.some.injEq] at h; rw [← h]⟩
/-- So is one that has a property. -/
theorem gotIf {α β : Type} [DecidableEq β] {P : α → Prop} [DecidablePred P] {x : Option (α × β)} {y : β}
    (h : x.any (fun e => decide (e.2 = y) && decide (P e.1)) = true) : ∃ v, x = some (v, y) ∧ P v := by
  cases x with
  | none => simp at h
  | some e => simp at h; exact ⟨e.1, by rw [← h.1], h.2⟩
/-- So is one without a second part. -/
theorem have_ {α : Type} {P : α → Prop} [DecidablePred P] {x : Option α} (h : x.any (fun a => decide (P a)) = true) :
    ∃ v, x = some v ∧ P v := by
  cases x with
  | none => simp at h
  | some e => exact ⟨e, rfl, by simpa using h⟩
theorem wit_Calls_1 : let w := vform c0 [] []
    Ready w (st b0) i0 ∧ i0.atEnd ∧ calm .rlx .none (st b0) (w.issue i0) ∧ ∀ l t r, w.active i0 = l ++ t :: r → l = [] ∧
      8 * (((i0.thr t).map (·.depth)).getD 0 + 1) ≤ i0.blk.hdr.priv ∧ ∃ v,
      stackFate (st b0) (w.issue i0) t (i0.blk.hdr.priv - 8 * (((i0.thr t).map (·.depth)).getD 0 + 1)) true = some (v, priv56, .go 0 false) :=
  ⟨ready0 _, by decide +kernel, by decide +kernel, one (by decide +kernel) ⟨rfl, by decide +kernel, got (by decide +kernel)⟩⟩
/-- A call-target table of one entry at code-object offset 0x180: the callee at offset 0x100 with 16 registers. -/
def tbl : Block := { bs with hdr := { hdr0 with ctoff := 0x180, ctn := 1 } }
def stTbl : State := { st tbl with mem := Memory.write (st tbl).mem 0x40180 (leBytes 8 (0x100 + 16 * 2 ^ 32)) }
theorem wit_Calls_2 : let i := iss tbl [(8, 0x10100)] 0
    let w := vform c0 (opndRegs (.s 8) true) []
    let look := lookupFrom stTbl (w.issue i) (i.opnd 0 (.s 8) true) i.blk.hdr.ctn 0
    Ready w stTbl i ∧ i.atEnd ∧ (w.issue i).clean (opndRegs (.s 8) true) ∧ calm .rlx .none stTbl (w.issue i) ∧
    (∀ t ∈ w.active i, (i.opnd t (.s 8) true).toNat % 8 = 0 ∧ 8 * (((i.thr t).map (·.depth)).getD 0 + 1) ≤ i.blk.hdr.priv) ∧
    w.active i = [0] ∧ look.2 = .found 16 ∧ 16 ≤ i.blk.hdr.regs ∧
      ∃ v, stackFate look.1 (w.issue i) 0 (i.blk.hdr.priv - 8 * (((i.thr 0).map (·.depth)).getD 0 + 1)) true = some (v, priv56, .go 0 false) :=
  ⟨ready_of rfl rfl rfl rfl rfl _, by decide +kernel, by decide +kernel, by decide +kernel, by decide +kernel, by decide +kernel,
    by decide +kernel, by decide +kernel, got (by decide +kernel)⟩
def deep : Block := bt (fun t => { t with depth := 1 })
theorem wit_Returns_1 : let i := iss deep [] 0
    let w := vform c0 [] []
    Ready w (st deep) i ∧ i.atEnd ∧ calm .rlx .none (st deep) (w.issue i) ∧ w.active i = [0] ∧
    i.thr 0 = some (th (fun t => { t with depth := 1 })) ∧
    ∃ v, stackFate (st deep) (w.issue i) 0 (i.blk.hdr.priv - 8 * 1) false = some (v, priv56, .go 0 false) ∧
      (privRead v i.core i.bid priv56).2.2 = false ∧ (d64 (leNat (privRead v i.core i.bid priv56).2.1)).toNat % 8 = 0 := by
  refine ⟨ready_of rfl rfl rfl rfl rfl _, by decide +kernel, by decide +kernel, by decide +kernel, by decide +kernel, ?_⟩
  exact gotIf (P := fun v => (privRead v 0 1 priv56).2.2 = false ∧ (d64 (leNat (privRead v 0 1 priv56).2.1)).toNat % 8 = 0)
    (by decide +kernel)
theorem wit_Returns_2 : let w := vform c0 [] []
    Ready w (st b0) i0 ∧ w.active i0 = [0] ∧ i0.thr 0 = some (th id) ∧ (th id).depth = 0 ∧ calm .rlx .none (st b0) (w.issue i0) :=
  ⟨ready0 _, by decide +kernel⟩
/-- A thread with a handler, and a trap in it. -/
def armed : Block := bt (fun t => { t with tvec := 0x300 })
def trap5 : Raise := { tid := 0, causes := [{ bit := 13, addr := 0x10108, info := 5 }], epc := 0x10110, eslot := 0 }
theorem wit_TakingATrap : (st armed).block 1 = some armed ∧ (st armed).isCopy armed.launch = false ∧ ([trap5].map (·.tid)).Nodup ∧
    [trap5] ≠ [] ∧ (∀ r ∈ [trap5], ∀ c ∈ r.causes, c.bit = 4 → c.info ≠ 9) ∧
    armed.thread 0 = some (th (fun t => { t with tvec := 0x300 })) ∧ (th (fun t => { t with tvec := 0x300 })).handler = false ∧
    (th (fun t => { t with tvec := 0x300 })).tvec ≠ 0 := by decide +kernel
/-- Threads that leave their handler, enter it again for a cause, and for one that they hold; then with no handler to go to. -/
def inHandler : Thread := th (fun t => { t with handler := true, eslot := 3, epc := 0x10200 })
def again : Thread := th (fun t => { t with handler := true, cause := 1, tvec := 0x300 })
def kept19 : Thread := th (fun t => { t with handler := true, async := [{ bit := 19, addr := 0, info := 0 }], tvec := 0x300 })
def lost : Thread := { again with tvec := 0 }
theorem wit_TrapWords_1 : (∀ y ∈ [inHandler, again, kept19], let i := iss (blk y [] 0) [] 0
    Ready (vform c0 [] []) (st (blk y [] 0)) i ∧ (vform c0 [] []).active i = [0] ∧ i.thr 0 = some y ∧
    y.handler = true ∧ (y.cause ≠ 0 ∨ y.async ≠ [] → y.tvec ≠ 0)) ∧ inHandler.cause = 0 ∧ inHandler.async = [] ∧ again.cause ≠ 0 ∧
    kept19.cause = 0 ∧ kept19.async ≠ [] := by
  refine ⟨?_, by decide⟩
  intro y hy
  simp only [List.mem_cons, List.not_mem_nil, or_false] at hy
  rcases hy with rfl | rfl | rfl <;> exact ⟨ready_of rfl rfl rfl rfl rfl _, by decide +kernel⟩
theorem wit_TrapWords_2 : let i := iss (blk lost [] 0) [] 0
    Ready (vform c0 [] []) (st (blk lost [] 0)) i ∧ (vform c0 [] []).active i = [0] ∧ i.thr 0 = some lost ∧
    lost.handler = true ∧ lost.cause ≠ 0 ∧ lost.tvec = 0 := ⟨ready_of rfl rfl rfl rfl rfl _, by decide +kernel⟩
theorem wit_TrapWords_3 : Ready (vform c0 [] []) (st b0) i0 ∧ (vform c0 [] []).active i0 = [0] ∧ i0.thr 0 = some (th id) ∧
    (th id).handler = false := ⟨ready0 _, by decide +kernel⟩
theorem wit_TrapKills : (st b0).block 1 = some b0 ∧ (st b0).isCopy b0.launch = false ∧ trap5 ∈ [trap5] ∧
    b0.thread trap5.tid = some (th id) ∧ (th id).tvec = 0 := by decide +kernel
/-- A poisoned predicate as the guard; poisoned s- registers as an address, and as the offset of parameters; a poisoned parameter. -/
def guardBad : Thread := th (fun t => { t with pbad := 2 })
def cp1 : Ctl := { c0 with gp := 1 }
theorem wit_TrapKills_guard : (arithWord (.add cp1 .i32 false 1 (.v 2) (.v 3))).isSome = true ∧ (bitWord (.movi cp1 1 0)).isSome = true ∧
    (uWord (.sli cp1 1 0)).isSome = true ∧ (st (blk guardBad [] 0)).issue? = some (iss (blk guardBad [] 0) [] 0) ∧
    (∀ w ∈ [vform cp1 [.v 2, .v 3] [.v 1], uform cp1 [] [.s 1]], 0 ∈ w.tids (iss (blk guardBad [] 0) [] 0)) ∧
    (iss (blk guardBad [] 0) [] 0).thr 0 = some guardBad ∧ cp1.gp ≠ 15 ∧ guardBad.pbad.getLsbD cp1.gp.val = true ∧ guardBad.pend = [] := by
  decide +kernel
def frBad : Frond := { fr0 [(8, 0x10100)] 0 with sbad := [8] }
def bBadS : Block := { bs with fronds := [(0, frBad)] }
def iBadS : Issue := { iss bBadS [(8, 0x10100)] 0 with fr := frBad }
theorem readyB (w : WordForm) : Ready w (st bBadS) iBadS :=
  ⟨by decide +kernel, by decide +kernel, rfl, fun p hp => absurd hp (by simp [iBadS, frBad, fr0, Frond.fresh]), fun e he _ => by
    simp only [iBadS, iss, bBadS, bs, blk, List.mem_singleton] at he
    subst he
    exact ⟨by simp [settled, th, Thread.start], by simp [th, Thread.start], fun _ => Nat.lt_of_sub_eq_succ rfl⟩⟩
theorem wit_TrapKills_address : ∃ w, gWord (.ld (tk 0) .b32 .rlx .none 4 (.off (.s 8) 0)) = some w ∧ Ready w.form (st bBadS) iBadS ∧
    0 ∈ w.form.active iBadS ∧ iBadS.bad 0 (addrRegs w.m) = true := ⟨_, rfl, readyB _, by decide +kernel, by decide +kernel⟩
theorem wit_TrapKills_offset : ∃ w, engineWord (.mxres c0 e0 8) = some w ∧ Ready w.form (st bBadS) iBadS ∧ iBadS.fr.ehold = none ∧
    w.form.active iBadS ≠ [] ∧ relsOf (st bBadS) 1 [0] = [] ∧ w.reg = some 8 ∧ iBadS.sBad [8] = true :=
  ⟨_, rfl, readyB _, by decide +kernel⟩
def bParm : Block := { b0 with scrBad := [0] }
theorem wit_TrapKills_parameter : ∃ w, engineWord (.mma c0 e0 8) = some w ∧ Ready w.form (st bParm) (iss bParm [] 0) ∧ w.reg = some 8 ∧
    auditStops (st bParm) (iss bParm [] 0) w.opc = false ∧ w.reads = true ∧ bParm.badArea 0 w.n = false ∧
    bParm.absentIn ((List.range w.n).map (· + 0)) = none ∧
    bParm.parmBad (w.off (iss bParm [] 0)) w.n (w.used (w.words (iss bParm [] 0))) = true :=
  ⟨_, rfl, ready_of rfl rfl rfl rfl rfl _, rfl, by decide +kernel⟩
theorem wit_SchedulingWords_sleep : Ready (vform c0 (opndRegs (.const 5) false) []) (st b0) i0 ∧
    ((vform c0 (opndRegs (.const 5) false) []).issue i0).clean (opndRegs (.const 5) false) := ⟨ready0 _, by decide +kernel⟩
theorem wit_SchedulingWords_exit : Ready (vform c0 [] []) (st b0) i0 ∧ ((vform c0 [] []).issue i0).act ≠ [] := ⟨ready0 _, by decide +kernel⟩
/-- A thread that waits. -/
def waiting (k : WaitKind) : Thread :=
  th (fun t => { t with status := .waiting { kind := k, clause := 0x10100, pos := 1, deadline := 0, poll := 0, scope := .none, wave := none, line := 0, got := false } })
def bw (k : WaitKind) : Block := { blk (waiting k) [] 0 with fronds := [(0, Frond.fresh [] [])] }
theorem wit_SchedulingWords_bjoin : (st (bw .bjoin)).block 1 = some (bw .bjoin) ∧ (bw .bjoin).liveMembers 0 = [(0, waiting .bjoin)] ∧
    (st b0).block 1 = some b0 ∧ b0.liveMembers 0 = [(0, th id)] ∧ (th id).status = .eligible := by decide +kernel
/-- A core with a bin, one without, and one whose bins are all taken by another block. -/
def bin (bid : Nat) (pc : Dword) : Bin := { bid := bid, pc := pc, filedAt := 0, full := false, tids := [], s := [], sbad := [] }
def stBins (l : Map Bin) : State := { st b0 with cores := [(0, { Core.init with bins := l })] }
theorem wit_ReformFiles_2 : openBin ((stBins [(4, bin 1 0x10110)]).core 0) 1 i0.next = some 4 ∧
    ((stBins [(4, bin 1 0x10110)]).core 0).bins.get? 4 = some (bin 1 0x10110) := by decide +kernel
theorem wit_ReformFiles_3 : openBin ((st b0).core 0) 1 i0.next = none ∧ freeBin ((st b0).core 0) = some 0 := by decide +kernel
def fullBins : Map Bin := (List.range 128).map (fun n => (n, bin 2 0))
theorem wit_ReformFiles_4 : openBin ((stBins fullBins).core 0) 1 i0.next = none ∧ freeBin ((stBins fullBins).core 0) = none := by
  decide +kernel
theorem wit_SpecialRegisters : let w := vform c0 (opndRegs (.s 8) true) []
    Ready w (st bs) is ∧ (w.issue is).act ≠ [] ∧ (w.issue is).clean (opndRegs (.s 8) true) := ⟨readyS _, by decide +kernel⟩

theorem wit_SpecialRegisters_values : ({ b0 with paced := true } : Block).paced = true ∧ b0.paced = false ∧ b0.coh[(0 : Nat)]? = none ∧
    ({ b0 with coh := [{ id := 3, idx := 1 }] } : Block).coh[(0 : Nat)]? = some { id := 3, idx := 1 } := by decide +kernel

theorem wit_ScratchpadLoads_ldl : let w := vform (tk 0) (opndRegs (.const 8) false) (szRegs 4 .b32)
    let i := w.issue i0
    Ready w (st b0) i0 ∧ i.clean (opndRegs (.const 8) false) ∧ calm .rlx .none (st b0) i ∧
    ∀ t ∈ i.act, scrOk i.blk true (i.offset t (.const 8) 0) 4 ∧
      i.blk.behindRel t (i.blk.scrAddrs true (i.offset t (.const 8) 0).toNat 4) = false := ⟨ready0 _, by decide +kernel⟩
theorem wit_ScratchpadLoads_sldl : let w := uform (tk 0) [.s 1] [.s 2]
    let i := w.issue i0
    Ready w (st b0) i0 ∧ i.act ≠ [] ∧ i.sBad [1] = false ∧ acquireOut (st b0) i.bid i.run.tids = false ∧
    scrOk i.blk false (((lo32 (i.s 1)).toNat : Int) + (8 : BitVec 22).toInt) 4 ∧
    ∀ t ∈ i.run.tids, i.blk.behindRel t ((List.range 4).map (fun k => 8 + k)) = false := ⟨ready0 _, by decide +kernel⟩
theorem wit_ScratchpadLoads_ptest : let w := vform (tk 0) (opndRegs (.const 8) false) [.p 1]
    let i := w.issue i0
    Ready w (st b0) i0 ∧ i.clean (opndRegs (.const 8) false) ∧ calm .rlx .none (st b0) i ∧
    ∀ t ∈ i.act, 0 ≤ i.offset t (.const 8) 0 ∧ i.offset t (.const 8) 0 + 1 ≤ (i.blk.alloc : Int) := ⟨ready0 _, by decide +kernel⟩
/-- An earlier store of the thread that its home has not taken: a release waits for it, and performs after it. -/
def reqOut : Req :=
  { seq := 0, time := 0, va := 0x10100, line := 0x1004, bid := 1, tid := 0, tids := [0], tok := none, acq := .none,
    rel := .none, who := .thread, kind := .write 0 [1] false }
def stOut : State := { st b0 with cores := [(0, { Core.init with reqs := [reqOut] })] }
theorem wit_ScratchpadStores : let w := vform c0 (opndRegs (.const 8) false ++ dataRegs (.v 2) .b32) []
    let i := w.issue i0
    (∀ s ∈ [st b0, stOut], Ready w s i0 ∧ i.clean (opndRegs (.const 8) false) ∧ calm .rlx .none s i ∧ i.fr.held = false ∧
      slotHeld s i.blk = false ∧ ∀ t ∈ i.act, scrOk i.blk false (i.offset t (.const 8) 0) 4 ∧
        i.blk.behindRel t (i.blk.scrAddrs false (i.offset t (.const 8) 0).toNat 4) = false) ∧
    i.held (st b0) i.act .rel .blk = false ∧ i.held stOut i.act .rel .dev = true ∧ calm .acqrel .blk (st b0) i := by
  refine ⟨?_, by decide +kernel⟩
  intro s hs
  simp only [List.mem_cons, List.not_mem_nil, or_false] at hs
  rcases hs with rfl | rfl <;> exact ⟨ready_of rfl rfl rfl rfl rfl _, by decide +kernel⟩
def rel0 : LocalRel := { seq := 3, tid := 0, tok := none, acq := .none, rel := .dev, addrs := [8], bytes := [5], bad := false, rmw := none }
def bRel : Block := { b0 with rels := [rel0] }
theorem wit_ScratchpadStores_release : (st bRel).block 1 = some bRel ∧ bRel.core?.isSome = true ∧
    bRel.rels.find? (fun x => x.seq == rel0.seq) = some rel0 ∧ rel0.rmw = none ∧ releaseReady (st bRel) bRel.core 1 [rel0.tid] rel0.rel rel0.seq = true ∧
    readsTiles ((st b0).core 0) 1 = false := by decide +kernel
/-- Offsets past the allocation and misaligned; a skewed word that the window maps past the allocation; an absent line, plain and under a
`cpy`. -/
def bSkew : Block := { b0 with hdr := { hdr0 with scratch := 20 }, skwrows := 1 }
def bAbs : Block := { b0 with absent := [0] }
theorem wit_ScratchpadChecks : ((i0.blk.alloc : Int) < 4093 + 4) ∧ (0 : Int) ≤ 4090 ∧ (4090 : Int) + 4 ≤ (i0.blk.alloc : Int) ∧
    (4090 : Int).toNat % 4 ≠ 0 ∧ bAbs.absentIn (bAbs.scrAddrs false 8 4) = some 0 ∧ (∀ a ∈ bAbs.scrAddrs false 8 4, a < bAbs.alloc) := by
  decide +kernel
theorem wit_ScratchpadChecks_words : let w := vform (tk 0) (opndRegs (.const 6) false) (szRegs 4 .b32)
    let i := w.issue i0
    Ready w (st b0) i0 ∧ i.clean (opndRegs (.const 6) false) ∧ calm .rlx .none (st b0) i ∧ i.fr.held = false ∧
    (∀ f ∈ [false, true], ∀ t ∈ i.act, scrFate (st b0) i false f (i.offset t (.const 6) 0) 4 = .trap { bit := 3, addr := 6, info := 0 }) ∧
    i.act ≠ [] ∧ i.sBad [1] = false ∧ acquireOut (st b0) i.bid i.run.tids = false ∧
    scrFate (st b0) i false false (((lo32 (i.s 1)).toNat : Int) + (6 : BitVec 22).toInt) 4 = .trap { bit := 3, addr := 6, info := 0 } :=
  ⟨ready0 _, by decide +kernel⟩
theorem wit_PrivateWords : let w := vform (tk 0) (opndRegs (.const 8) false) (szRegs 4 .b32)
    let i := w.issue i0
    let vas := i.privVas (fun t => i.offset t (.const 8) 48) 4
    Ready w (st b0) i0 ∧ i.clean (opndRegs (.const 8) false) ∧ calm .rlx .none (st b0) i ∧ i.mayWalk (st b0) vas .read ∧
    i.mayWalk (st b0) vas .write ∧ ∀ t ∈ i.act,
      0 ≤ i.offset t (.const 8) 48 ∧ i.offset t (.const 8) 48 + 4 ≤ (i.blk.hdr.priv : Int) ∧ (i.offset t (.const 8) 48).toNat % 4 = 0 ∧
      privReady (i.walk (st b0) vas .read) i.core false [(0x40038, false, 4)] = true ∧
      privReady (i.walk (st b0) vas .write) i.core true [(0x40038, false, 4)] = true ∧
      privFate (i.walk (st b0) vas .read) i t (i.offset t (.const 8) 48).toNat 4 false = ([(0x40038, false, 4)], .go 0 false) ∧
      privFate (i.walk (st b0) vas .write) i t (i.offset t (.const 8) 48).toNat 4 true = ([(0x40038, false, 4)], .go 0 false) :=
  ⟨ready0 _, by decide +kernel⟩
theorem wit_PrivateWords_outside : let w := vform (tk 0) (opndRegs (.const 8) false) (szRegs 4 .b32)
    let i := w.issue i0
    Ready w (st b0) i0 ∧ i.clean (opndRegs (.const 8) false) ∧ calm .rlx .none (st b0) i ∧
    (∀ t ∈ i.act, (i.blk.hdr.priv : Int) < i.offset t (.const 8) 56 + 4) ∧ (∀ t ∈ i.act, i.offset t (.const 8) 50 + 4 ≤ (i.blk.hdr.priv : Int) ∧
      (i.offset t (.const 8) 50).toNat % 4 ≠ 0) := ⟨ready0 _, by decide +kernel⟩
theorem wit_AccumulatorWords : let w := vform (tk 0) (opndRegs (.const 0) false) [.v 1]
    let i := w.issue i0
    Ready w (st b0) i0 ∧ i.act ≠ [] ∧ i.bad i.low (opndRegs (.const 0) false) = false ∧ calm .rlx .none (st b0) i ∧
    i.offset i.low (.const 0) 128 % 128 = 0 ∧ 0 ≤ i.offset i.low (.const 0) 128 ∧
    i.offset i.low (.const 0) 128 + 128 ≤ (256 * i.blk.hdr.accum : Int) ∧
    rowNamed ((st b0).core i.core) i.bid ((i.offset i.low (.const 0) 128).toNat / 256) = false := ⟨ready0 _, by decide +kernel⟩

/-- GlobalWords: s8 holds 0x10100, which maps to 0x40100. -/
theorem wit_GlobalWords_ld : let w := vform (tk 0) (addrRegs (.off (.s 8) 0)) (szRegs 4 .b32)
    let j := w.issue is
    let vas := j.walkVas (st bs) j.act (fun t => is.addr t (.off (.s 8) 0)) 4 .load
    let v := j.walk (st bs) vas .read
    Ready w (st bs) is ∧ j.clean (addrRegs (.off (.s 8) 0)) ∧ calm .rlx .none (st bs) j ∧ j.mayWalk (st bs) vas .read ∧
    (∀ t ∈ w.active is, globalFate v j (is.addr t (.off (.s 8) 0)) 4 4 .load = .go 0x40100 false ∧ is.behind v 0x40100 = false) ∧
    (∀ x ∈ [(false, acqScope .acq .dev), (true, .none)], ((w.active is).foldlM (fun s t => loadAt (j.cached s (is.addr t (.off (.s 8) 0)) false)
      j (tk 0) { tid := t, tids := [t] } (is.addr t (.off (.s 8) 0)) 0x40100 x.1 .b32 x.2 (.v 4)) v).isSome = true) :=
  ⟨readyS _, by decide +kernel⟩
theorem wit_GlobalWords_st : let w := vform c0 (addrRegs (.off (.s 8) 0) ++ dataRegs (.v 2) .b32) []
    let i := w.issue is
    let vas := i.walkVas (st bs) i.act (fun t => i.addr t (.off (.s 8) 0)) 4 .store
    let v := i.walk (st bs) vas .write
    Ready w (st bs) is ∧ i.clean (addrRegs (.off (.s 8) 0)) ∧ calm .rlx .none (st bs) i ∧ i.mayWalk (st bs) vas .write ∧ ∀ t ∈ i.act,
      globalFate v i (i.addr t (.off (.s 8) 0)) 4 4 .store = .go 0x40100 false ∧ i.behind v 0x40100 = false ∧ tgtDram v 0x40100 = true :=
  ⟨readyS _, by decide +kernel⟩
theorem wit_GlobalWords_atom : let w := vform (tk 0) (addrRegs (.off (.s 8) 0) ++ atomRegs .addI32 4) (szRegs 4 (aopSz .addI32))
    let i := w.issue is
    let vas := i.walkVas (st bs) i.act (fun t => i.addr t (.off (.s 8) 0)) (aopBytes .addI32) .atomic
    let v := i.walk (st bs) vas .write
    Ready w (st bs) is ∧ i.clean (addrRegs (.off (.s 8) 0)) ∧ calm .rlx .none (st bs) i ∧ i.mayWalk (st bs) vas .write ∧ ∀ t ∈ i.act,
      atomFate v i .addI32 (i.addr t (.off (.s 8) 0)) = .go 0x40100 false ∧ tgtControl v 0x40100 = false ∧ i.behind v 0x40100 = false ∧
      tgtDram v 0x40100 = true := ⟨readyS _, by decide +kernel⟩
/-- A misaligned address, and one whose page is not present. -/
theorem wit_GlobalWords_stops : ∃ w1 w2, gWord (.ld (tk 0) .b32 .rlx .none 4 (.off (.s 8) 1)) = some w1 ∧
    gWord (.st c0 .b32 .rlx .none (.off (.s 9) 0) (.v 2)) = some w2 ∧ Ready w1.form (st bs) is ∧ Ready w2.form (st bs) is ∧
    w1.checks (st bs) (w1.form.issue is) ∧ w2.checks (st bs) (w2.form.issue is) ∧
    (∀ t ∈ (w1.form.issue is).act, w1.fate (w1.walked (st bs) (w1.form.issue is)) (w1.form.issue is) (is.addr t w1.m) = .trap (misal 0x10101)) ∧
    (∀ t ∈ (w2.form.issue is).act, w2.fate (w2.walked (st bs) (w2.form.issue is)) (w2.form.issue is) (is.addr t w2.m) = .park) :=
  ⟨_, _, rfl, rfl, readyS _, readyS _, by decide +kernel⟩
theorem wit_UniformMemoryWords_sld : let w := uform (tk 0) [.s 8] [.s 9]
    let j := w.issue is
    let vas := j.walkVas (st bs) [j.low] (fun _ => is.s 8) 8 .load
    let v := j.walk (st bs) vas .read
    Ready w (st bs) is ∧ w.active is ≠ [] ∧ is.sBad [8] = false ∧ acquireOut (st bs) is.bid is.run.tids = false ∧ j.mayWalk (st bs) vas .read ∧
    globalFate v j (is.s 8) 8 8 .load = .go 0x40100 false ∧ is.behind v 0x40100 = false ∧
    (loadAt (j.cached v (is.s 8) false) j (tk 0) { tid := j.low, tids := is.run.tids } (is.s 8) 0x40100 false .b64 .none (.s 0 9)).isSome = true :=
  ⟨readyS _, by decide +kernel⟩
theorem wit_UniformMemoryWords_sst : let w := uform c0 [.s 8, .s 9] []
    let i := w.issue is
    let vas := i.walkVas (st bs) [i.low] (fun _ => i.s 8) 8 .store
    let v := i.walk (st bs) vas .write
    Ready w (st bs) is ∧ i.act ≠ [] ∧ i.sBad [8] = false ∧ acquireOut (st bs) i.bid i.run.tids = false ∧ i.mayWalk (st bs) vas .write ∧
    globalFate v i (i.s 8) 8 8 .store = .go 0x40100 false ∧ i.behind v 0x40100 = false ∧ tgtDram v 0x40100 = true := ⟨readyS _, by decide +kernel⟩
theorem wit_UniformMemoryWords_stops : let i := (uform c0 [.s 8, .s 9] []).issue is
    let v (va : Dword) (u : Use) := i.walk (st bs) (i.walkVas (st bs) [i.low] (fun _ => va) 4 u) u.acc
    ∀ u ∈ [Use.load, .store], globalFate (v 0x10101 u) i 0x10101 4 4 u = .trap (misal 0x10101) ∧ globalFate (v 0 u) i 0 4 4 u = .park ∧
      i.mayWalk (st bs) (i.walkVas (st bs) [i.low] (fun _ => (0 : Dword)) 4 u) u.acc := by decide +kernel
/-- A line in the L1; AccessPaths' second clause takes the load that follows it. -/
def stLine : State := { st bs with cores := [(0, { Core.init with
  l1 := [(0x40100 / 64, { data := List.replicate 64 7, bad := false, time := 0, priv := none, vline := 0, dirty := false })] })] }
/-- Without it, the fill tracker has room, holds a fill of the line, or is full of others. -/
def fillB (line : Nat) : Fill := { line := line, install := true, nc := false, joins := [], laid := [], reply := none, seq := 0 }
def stFill (l : List Fill) : State := { st bs with cores := [(0, { Core.init with fills := l })] }
theorem wit_AccessPaths : tgtDram stLine 0x40100 = true ∧ ((stLine.core 0).l1.get? (0x40100 / 64)).isSome = true ∧
    stLine.gtime < 0 + 100000 ∧
    (loadAt stLine is (tk 0) { tid := 0, tids := [0] } 0x10100 0x40100 false .b32 .none (.v 4)).isSome = true := by decide +kernel
theorem wit_AccessPaths_fills : (∀ l ∈ [[], [fillB (0x40100 / 64)], List.replicate 32768 (fillB 1)], l1Hit (stFill l) 0 (0x40100 / 64) false .none = none) ∧
    mayJoin (stFill [fillB (0x40100 / 64)]) ((stFill [fillB (0x40100 / 64)]).core 0) (fillB (0x40100 / 64)) 1 [0] = true ∧
    Config.fillEntries = 32768 := by decide +kernel
theorem wit_AccessPaths_full : (∀ f ∈ ((stFill (List.replicate 32768 (fillB 1))).core 0).fills, f.line ≠ 0x40100 / 64) ∧
    ((stFill (List.replicate 32768 (fillB 1))).core 0).fills.length = 32768 :=
  ⟨fun f hf => by rw [List.eq_of_mem_replicate hf]; decide, List.length_replicate⟩
theorem wit_FenceWords_fence : let i := (vform c0 [] []).issue i0
    Ready (vform c0 [] []) (st b0) i0 ∧ i.act ≠ [] ∧ calm .acqrel .dev (st b0) i ∧ loadOut (st b0) i.bid i.act (st b0).seq = false :=
  ⟨ready0 _, by decide +kernel⟩
theorem wit_FenceWords_cinv : let rd := opndRegs (.s 8) true ++ opndRegs (.const 8) false
    let i := (vform c0 rd []).issue is
    Ready (vform c0 rd []) (st bs) is ∧ i.clean rd ∧ calm .rlx .none (st bs) i ∧
    ∀ t ∈ i.act, pagesRoom (st bs) i.blk.ctx (i.opnd t (.s 8) true + (0 : BitVec 18).signExtend 64) 8 = true := ⟨readyS _, by decide +kernel⟩
theorem wit_FenceWords_cwb : let rd := opndRegs (.const 8) false ++ opndRegs (.const 8) false
    let i := (vform c0 rd []).issue i0
    Ready (vform c0 rd []) (st b0) i0 ∧ i.clean rd ∧ calm .rlx .none (st b0) i ∧
    ∀ t ∈ i.act, ∀ l ∈ ((st b0).core i.core).privOf i.bid (privLines i t 8 8), canWriteBack (st b0) i.core l = true := ⟨ready0 _, by decide +kernel⟩
theorem wit_FenceWords_inval : let k : Core := { Core.init with
      l1 := [(1, { data := [], bad := false, time := 0, priv := some 1, vline := 0, dirty := true })] }
    (k.invalGlobal.l1.get? 1).isSome = true := by decide +kernel
theorem wit_WatchWords_waitc : let rd := opndRegs (.s 8) true ++ opndRegs (.v 2) false ++ opndRegs (.const 0) false
    let j := (vform c0 rd []).issue is
    let vas := j.walkVas (st bs) j.act (fun l => is.opnd l (.s 8) true) 4 .load
    let v := j.walk (st bs) vas .read
    Ready (vform c0 rd []) (st bs) is ∧ j.clean rd ∧ calm .rlx .none (st bs) j ∧ j.mayWalk (st bs) vas .read ∧
    (∀ l ∈ j.act, globalFate v j (is.opnd l (.s 8) true) 4 4 .load = .go 0x40100 false ∧ is.behind v 0x40100 = false) ∧
    (j.act.foldlM (fun s l =>
      let s0 := armMon (j.cached s (is.opnd l (.s 8) true) false) is.bid l (is.opnd l (.s 8) true) 0x40100
      sendEval (is.startWait s0 [l] (fun _ =>
        { is.waitRec (.watch (is.opnd l (.s 8) true) 0x40100 .eq false (is.o32 l (.v 2)) .rlx) (deadlineOf s 0) .none with
            poll := pollOf s0 is.bid l })) is.core is.bid l (is.opnd l (.s 8) true) 0x40100) v).isSome = true := ⟨readyS _, by decide +kernel⟩
theorem wit_WatchWords_mon : let rd := opndRegs (.s 8) true
    let i := (vform c0 rd []).issue is
    let va (l : Nat) : Dword := i.opnd l (.s 8) true + (4 : BitVec 18).signExtend 64
    let vas := i.walkVas (st bs) i.act va 1 .load
    let v := i.walk (st bs) vas .read
    Ready (vform c0 rd []) (st bs) is ∧ i.clean rd ∧ calm .rlx .none (st bs) i ∧ i.mayWalk (st bs) vas .read ∧
    ∀ l ∈ i.act, monFate v i (va l) = .go 0x40104 false ∧ i.behind v 0x40104 = false := ⟨readyS _, by decide +kernel⟩
theorem wit_WatchWords_mwait : let rd := opndRegs (.const 5) false
    let i := (vform c0 rd []).issue i0
    Ready (vform c0 rd []) (st b0) i0 ∧ i.clean rd ∧ calm .rlx .none (st b0) i ∧
    loadOut (st b0) i.bid (i.act.filter (fun l => !((monOf (st b0) i.bid l).map (fun m => !m.hit)).getD false)) (st b0).seq = false :=
  ⟨ready0 _, by decide +kernel⟩
theorem wit_TicketWords : ∀ rd ∈ [opndRegs (.s 8) true, opndRegs (.s 8) true ++ opndRegs (.v 2) false], ∀ w ∈ [vform c0 rd [], vform (tk 0) rd [.v 1]],
    let i := w.issue is
    let va (l : Nat) : Dword := i.opnd l (.s 8) true + (16 : BitVec 18).signExtend 64
    let vas := i.walkVas (st bs) i.act va 16 .atomic
    let v := i.walk (st bs) vas .write
    Ready w (st bs) is ∧ i.clean rd ∧ calm .rlx .none (st bs) i ∧ i.mayWalk (st bs) vas .write ∧ ∀ l ∈ i.act,
      globalFate v i (va l) 16 16 .atomic = .go 0x40110 false ∧ tgtControl v 0x40110 = false ∧ i.behind v 0x40110 = false := by
  intro rd hr w hw
  simp only [List.mem_cons, List.not_mem_nil, or_false] at hr hw
  rcases hr with rfl | rfl <;> rcases hw with rfl | rfl <;> exact ⟨readyS _, by decide +kernel⟩

theorem wit_BarrierWords_binit : let rd := opndRegs (.const 3) false ++ opndRegs (.const 4) false
    let i := (vform c0 rd []).issue i0
    Ready (vform c0 rd []) (st b0) i0 ∧ i.act ≠ [] ∧ calm .rlx .none (st b0) i ∧
    barBusy (st b0) i.core i.bid ((i.o32 i.low (.const 3)).toNat % 16) = false := ⟨ready0 _, by decide +kernel⟩
theorem wit_BarrierWords_barr : let i := (vform c0 (opndRegs (.const 3) false) []).issue i0
    Ready (vform c0 (opndRegs (.const 3) false) []) (st b0) i0 ∧ i.act ≠ [] ∧ calm .acqrel .none (st b0) i ∧ calm .acqrel .dev (st b0) i :=
  ⟨ready0 _, by decide +kernel⟩
theorem wit_BarrierWords_bwait : let rd := opndRegs (.const 3) false ++ opndRegs (.const 4) false
    let i := (vform c0 rd []).issue i0
    Ready (vform c0 rd []) (st b0) i0 ∧ i.act ≠ [] ∧ calm .rlx .none (st b0) i := ⟨ready0 _, by decide +kernel⟩
/-- A launch with one block, and with one cohort of blocks 0 and 1. -/
def lau0 : Launch :=
  { ctx := 0, node := 0, recAddr := 0, recs := [], rawRecs := [], hdr := hdr0, count := 1, next := 1, retired := [],
    killed := [], counted := 0, cohorts := [], seen := 0, ready := 0, hold := false, acts := none, copyOf := none,
    copyBad := false, places := [], linkSince := none }
def mem0 (pos : Nat) : Member := { base := 0x10100, count := 4, pos := pos, active := true, detached := false, adv := 0, parked := [] }
def coh0 (conv : Map Member) : Cohort :=
  { members := [0, 1], convoy := true, slip := 1, rel := 100, arrived := [], conv := conv }
def inCoh : Block := { bs with coh := [{ id := 0, idx := 0 }], convoy := some 0 }
def stC (conv : Map Member) : State := { st inCoh with launches := [(0, { lau0 with count := 2, cohorts := [coh0 conv] })] }
def iC : Issue := iss inCoh [(8, 0x10100)] 0
theorem readyC (conv : Map Member) (w : WordForm) : Ready w (stC conv) iC := ready_of rfl rfl rfl rfl rfl w
theorem wit_BarrierWords_cbar : let i := (vform c0 [] []).issue iC
    Ready (vform c0 [] []) (stC []) iC ∧ i.act ≠ [] ∧ (0 : BitVec 2).toNat < i.blk.coh.length ∧ calm .acqrel .dev (stC []) i :=
  ⟨readyC _ _, by decide +kernel⟩
/-- The last arrival of barrier 2, with the block's thread waiting for its phase; then one of two arrivals. -/
def bBar (c : Nat) : Block := { bw (.barr 2 0) with bars := [(2, { c := c, a := 0, p := 0, ops := [] })] }
theorem wit_BarrierWords_phase : (st (bBar 1)).block 1 = some (bBar 1) ∧ ((bBar 1).bar 2).ops = [] ∧ ((bBar 1).bar 2).c ≠ 0 ∧
    ((bBar 1).bar 2).c ≤ ((bBar 1).bar 2).a + 1 ∧ (bBar 1).thread 0 = some (waiting (.barr 2 0)) ∧ ((bBar 1).bar 2).p.toNat = 0 := by
  decide +kernel
theorem wit_BarrierWords_early : (st (bBar 2)).block 1 = some (bBar 2) ∧ ((bBar 2).bar 2).c ≠ 0 ∧
    ¬ ((bBar 2).bar 2).c ≤ ((bBar 2).bar 2).a + 1 := by decide +kernel

theorem wit_ConvoyWords_join : let rd := opndRegs (.s 8) true ++ opndRegs (.const 4) false
    let i := (vform c0 rd []).issue iC
    Ready (vform c0 rd []) (stC []) iC ∧ i.act ≠ [] ∧ i.bad i.low rd = false ∧ calm .rlx .none (stC []) i ∧
    convoySlot (stC []) i.blk 0 = some 0 ∧ (i.opnd i.low (.s 8) true + (64 : BitVec 18).signExtend 64).toNat % 64 = 0 ∧
    i.o32 i.low (.const 4) ≠ 0 := ⟨readyC _ _, by decide +kernel⟩
/-- Member 0 at position 0, member 1 at 0: one line is inside the slip. -/
theorem wit_ConvoyWords_cvld : let w := vform (tk 0) [] [.v 1]
    let s := stC [(0, mem0 0), (1, mem0 0)]
    let j := w.issue iC
    let reads := j.act.filter (fun t => (cvLine j (mem0 0) false t).isSome)
    let vas := j.walkVas s reads (fun t => (cvLine j (mem0 0) false t).getD 0) 64 .load
    let v := j.walk s vas .read
    Ready w s iC ∧ j.act ≠ [] ∧ calm .rlx .none s j ∧ convoyOf s iC.blk = some (coh0 [(0, mem0 0), (1, mem0 0)], mem0 0) ∧
    iC.blk.convoy = some 0 ∧ convoyHeld (coh0 [(0, mem0 0), (1, mem0 0)]) iC.blk.idx (mem0 0) (cvCount false) = false ∧
    (∀ e ∈ iC.blk.threads, e.2.cvline = none) ∧ j.mayWalk s vas .read ∧
    (∀ t ∈ j.act, cvLine j (mem0 0) false t = some 0x10100 ∧ globalFate v j 0x10100 64 64 .load = .go 0x40100 false ∧
      iC.behind v 0x40100 = false) ∧
    (reads.foldlM (fun s t =>
      loadAt (j.cached s ((cvLine j (mem0 0) false t).getD 0) false) j (tk 0) { tid := t, tids := [t] }
        ((cvLine j (mem0 0) false t).getD 0) (0x40100 + 4 * (iC.lane t % 16)) true .b32 .none (.v 1))
      (v.updThreads 1 (j.act.filter (fun t => (cvLine j (mem0 0) false t).isNone)) (fun _ y => y.putV 1 0 false))).isSome = true :=
  ⟨readyC _ _, by decide +kernel⟩
/-- Member 0 two lines ahead of member 1, with a slip of 1. -/
theorem wit_ConvoyWords_held : let w := vform (tk 0) [] [.v 1]
    let l := [(0, mem0 2), (1, mem0 0)]
    Ready w (stC l) iC ∧ w.active iC ≠ [] ∧ (∀ e ∈ iC.blk.threads, e.2.cvline = none) ∧
    convoyOf (stC l) iC.blk = some (coh0 l, mem0 2) ∧ (mem0 2).active = true ∧ lowestOther (coh0 l) iC.blk.idx = some (0, true) ∧
    0 + (coh0 l).slip < (mem0 2).pos + cvCount false := ⟨readyC _ _, by decide +kernel⟩
/-- A paced block with one step slot of 64 bytes, and the block upstream of it. -/
def pacedHdr : CodeHdr := { hdr0 with pslot := 64, pskew := 0 }
def bP : Block := { bs with paced := true, hdr := pacedHdr, coh := [{ id := 0, idx := 0 }] }
def upB : Block := { bP with idx := 1, coh := [{ id := 0, idx := 1 }], step := 1, fronds := [] }
def stP : State := { st bP with blocks := [(1, bP), (2, upB)], launches := [(0, { lau0 with count := 2, cohorts := [coh0 []] })] }
def iP : Issue := iss bP [(8, 0x10100)] 0
theorem wit_PacedWords_stepn : let i := (vform c0 [] []).issue iP
    Ready (vform c0 [] []) stP iP ∧ i.act ≠ [] ∧ i.blk.paced = true ∧ i.blk.step ≠ 0xFFFFFFFF#32 ∧
    calm .acqrel (paceScope stP i.blk) stP i := ⟨ready_of rfl rfl rfl rfl rfl _, by decide +kernel⟩
theorem wit_PacedWords_ldnb : let rd := opndRegs (.const 4) false ++ opndRegs (.const 0) false
    let i := (vform (tk 0) rd [.v 1]).issue iP
    Ready (vform (tk 0) rd [.v 1]) stP iP ∧ i.act ≠ [] ∧ i.clean rd ∧ calm .rlx .none stP i ∧ i.blk.paced = true ∧
    (coh0Members stP i.blk)[(1 : BitVec 8).toNat]? = some 1 ∧ (i.blk.coh[0]?).map (·.idx) ≠ some (1 : BitVec 8).toNat ∧
    stP.goneIn i.blk.launch 1 = false ∧ stP.blockOf i.blk.launch 1 = some (2, upB) ∧ ∀ l ∈ i.act,
      (i.o32 l (.const 4)).toNat % 4 = 0 ∧ (i.o32 l (.const 4)).toNat + 4 ≤ i.blk.hdr.pslot ∧
      (i.o32 l (.const 0)).toNat + 1 ≤ upB.step.toNat ∧ upB.step.toNat ≤ (i.o32 l (.const 0)).toNat + i.blk.hdr.pskew + 1 :=
  ⟨ready_of rfl rfl rfl rfl rfl _, by decide +kernel⟩
theorem wit_PacedWords_step : (st (bw .stepn)).block 1 = some (bw .stepn) ∧ (bw .stepn).live = [(0, waiting .stepn)] ∧
    (bw .stepn).published = false ∧
    releaseReady (st (bw .stepn)) (bw .stepn).core 1 (bw .stepn).threads.keys (paceScope (st (bw .stepn)) (bw .stepn)) (st (bw .stepn)).seq = true := by
  decide +kernel

/-- The block owns the matrix array; a core whose queue holds operations. -/
def stOwn (o : Option Nat) : State := { st b0 with cores := [(0, { Core.init with owner := o })] }
theorem readyO (o : Option Nat) (w : WordForm) : Ready w (stOwn o) i0 := ready_of rfl rfl rfl rfl rfl w
theorem wit_EngineWords_go : ∃ p, let w := eLate c0 e0 0x01 1 64 (fun i => judge [(barAll i e0, 6)] { Plan.of (.mxload 2) [] with owned := true })
    let i := w.form.issue i0
    engineWord (.mxload c0 e0 1 2) = some w ∧ Ready w.form (stOwn (some 1)) i0 ∧ i.act ≠ [] ∧ auditStops (stOwn (some 1)) i w.opc = false ∧
    w.sound i ∧ w.verdict i (w.off i) (w.words i) = .go p ∧ i.fr.ehold = none ∧ relsOf (stOwn (some 1)) 1 [0] = [] ∧
    i.takes (stOwn (some 1)) p = true ∧ i.takes (stOwn (some 2)) p = false :=
  ⟨{ Plan.of (.mxload 2) [] with owned := true }, rfl, readyO _ _, by decide +kernel, by decide +kernel,
    ⟨by decide +kernel, by decide +kernel, fun h => absurd h (by decide)⟩, by decide +kernel, by decide +kernel⟩
/-- The block has 64 accumulator rows, so 65 are too many. -/
theorem wit_EngineWords_fault : ∃ w, engineWord (.mxzero c0 e0 0 64) = some w ∧ Ready w.form (st b0) i0 ∧ (w.form.issue i0).act ≠ [] ∧
    auditStops (st b0) (w.form.issue i0) w.opc = false ∧ w.sound (w.form.issue i0) ∧
    w.verdict (w.form.issue i0) (w.off (w.form.issue i0)) (w.words (w.form.issue i0)) = .fault 4 :=
  ⟨_, rfl, ready0 _, by decide +kernel, by decide +kernel, trivial, by decide +kernel⟩
/-- A release of the issue set has still to perform. -/
theorem wit_EngineWords_release : ∃ w, engineWord (.mxzero c0 e0 0 64) = some w ∧ Ready w.form (st bRel) (iss bRel [] 0) ∧
    w.form.active (iss bRel [] 0) ≠ [] ∧ relsOf (st bRel) 1 [0] ≠ [] := ⟨_, rfl, ready_of rfl rfl rfl rfl rfl _, by decide +kernel⟩
/-- A word holds what it has captured, with and without room. -/
def hold0 : EHold := { parm := 64, plan := { Plan.of (.mxload 2) [] with owned := true } }
def frH : Frond := { fr0 [] 0 with ehold := some hold0 }
def stHeld (o : Option Nat) : State := { stOwn o with blocks := [(1, { b0 with fronds := [(0, frH)] })] }
theorem wit_EngineWords_held : (∀ o ∈ [some 1, some 2], ((stHeld o).issue?.map (fun i => (i.fr.ehold, i.bid))) = some (some hold0, 1)) ∧
    i0.takes (stHeld (some 1)) hold0.plan = true ∧ i0.takes (stHeld (some 2)) hold0.plan = false ∧
    (engineWord (.mxload c0 e0 1 2)).isSome = true := by decide +kernel
theorem wit_Acceptance : (st b0).block i0.bid = some b0 ∧ (Plan.of (.mxload 2) []).init = [] := by decide +kernel
theorem wit_Ownership_take : let i := (uform c0 [] []).issue i0
    Ready (uform c0 [] []) (stOwn none) i0 ∧ i.act ≠ [] ∧ ((stOwn none).core i.core).owner = none ∧ ((stOwn none).core i.core).takes = [] :=
  ⟨readyO _ _, by decide +kernel⟩
theorem wit_Ownership_again : Ready (uform c0 [] []) (stOwn (some 1)) i0 ∧ ((stOwn (some 1)).core i0.core).owner = some i0.bid :=
  ⟨readyO _ _, by decide +kernel⟩
theorem wit_Ownership_wait : Ready (uform c0 [] []) (stOwn (some 2)) i0 ∧ (uform c0 [] []).active i0 ≠ [] ∧
    ((stOwn (some 2)).core i0.core).owner = some 2 ∧ 2 ≠ i0.bid ∧
    ((stOwn (some 2)).core i0.core).takes.any (fun t => t.1 == i0.bid && t.2 == i0.slot) = false := ⟨readyO _ _, by decide +kernel⟩
theorem wit_Ownership_pass : let i := (uform c0 [.s 1] []).issue i0
    Ready (uform c0 [.s 1] []) (stOwn (some 1)) i0 ∧ i.act ≠ [] ∧ i.sBad [1] = false ∧
    ((stOwn (some 1)).core i.core).owner = some i.bid ∧ (stOwn (some 1)).blockOf i.blk.launch (lo32 (i.s 1)).toNat = some (1, b0) :=
  ⟨readyO _ _, by decide +kernel⟩
theorem wit_Ownership_lwait : let i := (uform c0 [.s 8] []).issue is
    let v := i.walk (st bs) (i.walkVas (st bs) [i.low] (fun _ => is.s 8) 4 .load) .read
    let s0 := armMon v is.bid i.low (is.s 8) 0x40100
    Ready (uform c0 [.s 8] []) (st bs) is ∧ i.act ≠ [] ∧ is.sBad [8] = false ∧ auditStops (st bs) is 0x22 = false ∧
    acquireOut (st bs) is.bid is.run.tids = false ∧ i.mayWalk (st bs) (i.walkVas (st bs) [i.low] (fun _ => is.s 8) 4 .load) .read ∧
    globalFate v i (is.s 8) 4 4 .load = .go 0x40100 false ∧
    (sendEval (is.startWait s0 is.run.tids (fun _ =>
      { is.waitRec (.lwait (is.s 8) 0x40100) 0 .dev with poll := pollOf s0 is.bid i.low })) is.core is.bid i.low (is.s 8) 0x40100).isSome = true :=
  ⟨readyS _, by decide +kernel⟩
/-- The parameters of an all-reduce of one element in chunks of 64 bytes, in a domain of one device. -/
def collWords : List Nat := [0, 0, 1, 0, 0x10400, 0, 0x10500, 0, 64, 0, 0x10600, 0, 0x10608, 0, 0, 0]
theorem wit_Ownership_coll_ask : let i := (uform c0 [.s 8] []).issue is
    let v := i.walk (st bs) [is.s 8] .read
    Ready (uform c0 [.s 8] []) (st bs) is ∧ is.fr.ehold = none ∧ is.fr.eblk = none ∧ i.act ≠ [] ∧ relsOf (st bs) 1 [0] = [] ∧ is.sBad [8] = false ∧
    auditStops (st bs) is 0x30 = false ∧ (is.s 8).toNat % 64 = 0 ∧ acquireOut (st bs) is.bid [i.low] = false ∧ i.mayWalk (st bs) [is.s 8] .read ∧
    globalFate v i (is.s 8) 64 64 .load = .go 0x40100 false ∧ is.behind v 0x40100 = false ∧
    (askBlock (tlbFill v 0 0 (is.s 8).toNat) i (is.s 8) 0x40100 false).isSome = true := ⟨readyS _, by decide +kernel⟩
/-- The frond's parameter block has come. -/
def gotBlock : Got := { va := 0x10100, data := (collWords.map (leBytes 4)).flatten, bad := false }
def frC : Frond := { fr0 [(8, 0x10100)] 0 with eblk := some (some gotBlock) }
def bColl : Block := { bs with fronds := [(0, frC)] }
def iColl : Issue := { iss bColl [(8, 0x10100)] 0 with fr := frC }
def stColl : State := { st bColl with fab := { Fabric.init with domctl := 0x8000000000000000, devs := [0], dstate := 1 } }
theorem wit_Ownership_coll : ∃ p, let w := uform c0 [.s 8] []
    Ready w stColl iColl ∧ iColl.fr.ehold = none ∧ iColl.fr.eblk = some (some gotBlock) ∧ w.active iColl ≠ [] ∧ relsOf stColl 1 [0] = [] ∧
    gotBlock.data ≠ [] ∧ gotBlock.bad = false ∧ collVerdict stColl e0 iColl (wordsOf gotBlock.data) = .go p ∧ iColl.takes stColl p = true :=
  ⟨{ Plan.of .coll (collWords.map (BitVec.ofNat 32)) with ranges := [(0x10400, 0x10404, false), (0x10500, 0x10504, true)] },
    ⟨by decide +kernel, by decide +kernel, rfl, by decide +kernel, fun e he _ => by
      simp only [iColl, iss, bColl, bs, blk, List.mem_singleton] at he
      subst he
      exact ⟨by simp [settled, th, Thread.start], by decide, by decide⟩⟩, by decide +kernel⟩

/-- An operation of the block, and the state whose core 0 holds it. -/
def op (k : OpKind) (ws : List Word) : Op :=
  { id := 9, kind := k, opc := 0, bid := 1, tid := 0, tids := [0], slot := 0, tok := none, ctl := e0, parm := 0, words := ws,
    seq := 9, rows := (0, 0), lines := [], next := 0, stage := 0, keep := 0, inbox := [], begun := false, done := false, cause := none,
    waits := none, denied := [], link := none, frozen := false, stale := [] }
def stOp (b : Block) (o : Op) : State := { st b with cores := [(0, { Core.init with queue := [o] })] }
/-- 32 parameter words of 0. -/
def zeros32 : List Word := List.replicate 32 0
/-- A block with 64 KiB of scratchpad: its zeros are the header of a weight tile of class 0, and at 0x8000 stands an
activation tile of one row. -/
def bBig : Block := { b0 with hdr := { hdr0 with scratch := 65536 } }
def bCat : Block := { bBig with scr := [(0x8002, 1), (0x8004, 128), (0x8009, 1), (0x800C, 0x40), (0x800D, 1)] }
def bank0 : Bank := { st := 2, cls := 0, zp := 0, pair := false, tile := 0, scale := 0x3F800000, elems := [], bad := false }
def zeroCwt : Cwt := { off := 0, cls := 0, zp := 0, tile := 0, scale := 0 }
theorem wit_MatrixSteps_load : let o := op (.mxload 0) []
    let o2 : Op := { o with stage := 2 }
    matrixHead (stOp bBig o) 0 = some o ∧ (stOp bBig o).block o.bid = some bBig ∧ bBig.rangeAbsent o.parm.toNat 64 = false ∧
    (bBig.scrAs o (stOp bBig o).free).cwt o.parm.toNat = some zeroCwt ∧ ¬ (zeroCwt.cls = 1 ∧ 0 % 2 = 1) ∧
    (targetBanks 0 zeroCwt.cls).any (fun k => (((stOp bBig o).core 0).banks.get? k).any (fun b => b.cls == 1)) = false ∧
    matrixHead (stOp bBig o2) 0 = some o2 ∧ bBig.rangeAbsent o2.parm.toNat (cwtSize (cwtOf 0 0).cls) = false := by decide +kernel
theorem wit_MatrixSteps_others : (∀ k ∈ [OpKind.mxevict 2, .mxevict 8, .mxres, .mxzero 3 5],
      matrixHead (stOp b0 (op k [])) 0 = some (op k [])) ∧ (2 < 8) ∧ (8 ≤ 8) ∧ ((stOp b0 (op (.mxevict 2) [])).core 0).banks.get? 2 = none ∧
    ((stOp b0 (op (.mxevict 8) [])).core 0).banks = [] := by decide +kernel
/-- Bank 2 is resident. -/
def stBank (o : Op) : State := { st b0 with cores := [(0, { Core.init with queue := [o], banks := [(2, bank0)] })] }
theorem wit_MatrixSteps_evict : (∀ k ∈ [OpKind.mxevict 2, .mxevict 8], matrixHead (stBank (op k [])) 0 = some (op k []) ∧
      (op k []).stage = 0) ∧ (((stBank (op .mxres [])).core 0).banks.get? 2).isSome = true ∧
    ((stBank (op .mxres [])).core 0).banks ≠ [] := by decide +kernel
theorem wit_MatrixSteps_take : let s : State := { st b0 with cores := [(0, { Core.init with takes := [(1, 0)] })] }
    (s.core 0).owner = none ∧ (s.core 0).takes = (1, 0) :: [] ∧ (st b0).block 1 = some b0 := by decide +kernel
theorem wit_MatrixSteps_fill : zeroCwt.cls ≠ 1 ∧ (63 : Nat) < 64 ∧ Map.get? ([(0, bank0)] : Map Bank) 0 = some bank0 := by decide
/-- The parameters name the tile at 0x8000, one row, class 0, window 1. -/
def mmaWords : List Word := [0x8000, 1] ++ List.replicate 30 0
theorem wit_MatrixProducts_ends : (∀ k ∈ [OpKind.mma, .mmal, .mxgrad], let o := op k mmaWords
      matrixHead (stOp bCat o) 0 = some o ∧ (stOp bCat o).block o.bid = some bCat) ∧
    ({ op .mma mmaWords with stage := 1 } : Op).stage ≠ 0 ∧ (op .mma mmaWords).next + 1 < 2 ∧ 1 ≤ (op .mma mmaWords).next + 1 := by decide +kernel
/-- Row 0 carries tag 0 and finds bank 0; with tag 0x80 it is skipped; without a bank it misses. -/
def cat1 : Cat := { off := 0x8000, cls := 0, rows := 1, pitch := 128, sc := 0x100, tag := 0x140 }
def bSkip : Block := { bCat with scr := bCat.scr ++ [(0x8140, 0x80)] }
theorem wit_MatrixProducts_rows : bCat.rangeAbsent (cat1.tagAt 0) 1 = false ∧ bCat.scrNum (cat1.tagAt 0) 1 < 128 ∧
    tagBank [(0, bank0)] false cat1.cls zeros32 (bCat.scrNum (cat1.tagAt 0) 1) = some bank0 ∧ bCat.catAbsent cat1 0 = false ∧
    bCat.rangeAbsent (cat1.scale 0) 4 = false ∧ (63 : Nat) < 64 ∧ 128 ≤ bSkip.scrNum (cat1.tagAt 0) 1 ∧
    tagBank [] false cat1.cls zeros32 (bCat.scrNum (cat1.tagAt 0) 1) = none ∧
    gradSel bSkip cat1 [0] 0 = [] := by decide +kernel
/-- A copy of one row of 8 bytes from 0x10100, its slice 0 of 1. -/
def cpyWords : List Word := [0x10100, 0, 0, 0, 0x00080001, 0x100] ++ List.replicate 10 0
theorem wit_CopySteps_cpy : let o := op (.cpy 0) cpyWords
    let o1 : Op := { o with stage := 1, inbox := [{ va := 0x10100, data := List.replicate 64 0, bad := false }] }
    let lines := sourceLines (pf64 cpyWords 0) (pf cpyWords 2 0 32) (pf cpyWords 4 16 16 * fmtBytes (pf cpyWords 3 0 8)) [0]
    copyOp (stOp b0 o) 0 9 = some o ∧ (stOp b0 o).block o.bid = some b0 ∧ sliceRows cpyWords 0 = (0, 1) ∧
    lines[o.stage]? = some 0x404 ∧ copyOp (stOp b0 o1) 0 9 = some o1 ∧ o1.stage = lines.length ∧ lines.length ≤ o1.inbox.length ∧
    ∃ v, engWalk (startOp (stOp b0 o) 0 9) 0 b0 [d64 (0x404 * 64)] .read = some v ∧
      engAcc v 0 b0 o (d64 (0x404 * 64)) .read = .go 0x40100 ∧ (engAsk v 0 o (d64 (0x404 * 64)) 0x40100 64).isSome = true :=
  ⟨by decide +kernel, by decide +kernel, by decide +kernel, by decide +kernel, by decide +kernel, by decide +kernel, by decide +kernel,
    have_ (by decide +kernel)⟩
theorem wit_CopySteps_rows : copyOp (stOp b0 (op .cpyo zeros32)) 0 9 = some (op .cpyo zeros32) ∧
    (stOp b0 (op .cpyo zeros32)).block 1 = some b0 ∧ rowsBusy ((stOp b0 (op .cpyo zeros32)).core 0) (op .cpyo zeros32) = false ∧
    copyOp (stOp b0 (op .binsc zeros32)) 0 9 = some (op .binsc zeros32) ∧ auditOf (stOp b0 (op .binsc zeros32)) b0 = none := by
  decide +kernel
def opDone : Op := { op .mxres [] with done := true }
theorem wit_CopySteps_complete : ((stOp b0 opDone).core 0).queue.find? (fun o => o.id == 9) = some opDone ∧ opDone.done = true ∧
    opDone.frozen = false ∧ opOut (stOp b0 opDone) 0 opDone = false ∧ (op .mxres []).done = false ∧
    ((stOp b0 (op .mxres [])).core 0).queue.find? (fun o => o.id == 9) = some (op .mxres []) ∧ (stOp b0 opDone).block opDone.bid = some b0 ∧
    opDone.lines = [] ∧ opDone.ctl.be = false ∧ opDone.cause = none ∧ b0.bars = [] ∧ opDone.tok = none := by decide +kernel
/-- It names barrier 2, which has one arrival to come, and has a cause; its thread has not exited. -/
def opBar : Op := { opDone with ctl := { e0 with be := true, bar := 2 }, cause := some { bit := 6, addr := 0, info := 1 } }
def bOpBar : Block := { b0 with bars := [(2, { c := 1, a := 0, p := 0, ops := [] })] }
theorem wit_CopySteps_barrier : (stOp bOpBar opBar).block opBar.bid = some bOpBar ∧ opBar.lines = [] ∧ opBar.ctl.be = true ∧
    opBar.ctl.bar.toNat = 2 ∧ bOpBar.bars = [(2, { c := 1, a := 0, p := 0, ops := [] })] ∧ opBar.cause.isSome = true ∧
    ({ opBar with cause := none } : Op).cause = none ∧ bOpBar.thread 0 = some (th id) ∧ (th id).status ≠ .exited := by decide +kernel
/-- A load whose line an incomplete `cpy` writes parks (R162, R384). -/
def stCpy : State := stOp bAbs { op (.cpy 0) cpyWords with lines := [0] }
theorem wit_ScratchpadChecks_park : let w := vform (tk 0) (opndRegs (.const 8) false) (szRegs 4 .b32)
    let i := w.issue (iss bAbs [] 0)
    Ready w stCpy (iss bAbs [] 0) ∧ i.clean (opndRegs (.const 8) false) ∧ calm .rlx .none stCpy i ∧
    ∀ t ∈ i.act, scrFate stCpy i false false (i.offset t (.const 8) 0) 4 = .park 0 8 := ⟨ready_of rfl rfl rfl rfl rfl _, by decide +kernel⟩
/-- The next index of `binsc` is 0xFFFF, which names no bin. -/
def bSkipIdx : Block := { b0 with scr := [(0, 0xFF), (1, 0xFF)] }
theorem wit_CopySteps_skip : (op .binsc zeros32).stage = 0 ∧ bSkipIdx.rangeAbsent (pf zeros32 2 0 32) 2 = false ∧
    bSkipIdx.rangeBad (pf zeros32 2 0 32) 2 = false ∧ bSkipIdx.scrNum (pf zeros32 2 0 32) 2 = 0xFFFF ∧
    copyOp (stOp bSkipIdx (op .binsc zeros32)) 0 9 = some (op .binsc zeros32) := by decide +kernel
/-- A thread holds a cause, and no clause is in flight. -/
def held : Thread := th (fun t => { t with async := [{ bit := 19, addr := 0, info := 0 }] })
def bHeld : Block := { blk held [] 0 with fronds := [(0, Frond.fresh [] [])] }
theorem wit_CopySteps_cause : (st bHeld).block 1 = some bHeld ∧ bHeld.thread 0 = some held ∧ deliverable bHeld 0 = true ∧
    bHeld.core?.isSome = true := by decide +kernel

/-- A wait with a deadline and an instant of its next evaluation, 10 ns after reset, with a monitor on line 0x40100. -/
def waitingAt (k : WaitKind) (deadline poll : Nat) : Thread :=
  th (fun t => { t with status := .waiting { kind := k, clause := 0x10100, pos := 1, deadline := deadline, poll := poll, scope := .none, wave := none, line := 0, got := false } })
def bwAt (k : WaitKind) (deadline poll : Nat) : Block := { blk (waitingAt k deadline poll) [] 0 with fronds := [(0, Frond.fresh [] [])] }
def mon0 : Mon := { bid := 1, tid := 0, va := 0x10100, line := 0x40100 / 64, seq := 1, time := 0, armed := true, hit := true, due := 0 }
def stW (k : WaitKind) (deadline poll : Nat) : State := { st (bwAt k deadline poll) with gtime := 10, mons := [mon0] }
def watch0 : WaitKind := .watch 0x10100 0x40100 .eq false 0 .rlx
theorem wit_WaitEnds_sleep : ((waitOf (stW (.sleep 10) 0 0) 1 0).map (·.2.2.kind)) = some (.sleep 10) ∧ 10 ≤ (stW (.sleep 10) 0 0).gtime ∧
    ((waitOf (stW (.sleep 11) 0 0) 1 0).map (·.2.2.kind)) = some (.sleep 11) ∧ (stW (.sleep 11) 0 0).gtime < 11 := by decide +kernel
theorem wit_WaitEnds_hit : ((waitOf (stW (.mwait .rlx) 0 0) 1 0).map (·.2.2.kind)) = some (.mwait .rlx) ∧
    monOf (stW (.mwait .rlx) 0 0) 1 0 = some mon0 ∧ mon0.hit = true ∧ ordAcq .acq = true ∧ loadOut (stW (.mwait .acq) 0 0) 1 [0] (st b0).seq = false ∧
    ((waitOf (stW watch0 0 0) 1 0).map (·.2.2.kind)) = some watch0 ∧ monOf (stW watch0 0 0) 1 0 = some mon0 ∧
    evalOut (stW watch0 0 0) 0 1 0 = false ∧ (bwAt watch0 0 0).home = 0 ∧ watchHolds .eq false 0 0 = true ∧
    watchHolds .eq false 1 0 = false ∧ ((waitOf (stW (.lwait 0x10100 0x40100) 0 0) 1 0).map (·.2.2.kind)) = some (.lwait 0x10100 0x40100) := by
  decide +kernel
/-- The place of the watched word is still that of its address, for a signalled wait and for one whose instant has come. -/
theorem wit_WaitEnds_place : ∀ q ∈ [0, 5],
    (waitOf (stW watch0 0 q) 1 0).map (·.2.2.poll) = some q ∧ auditOf (stW watch0 0 q) (bwAt watch0 0 q) = none ∧
    (waitTgt (stW watch0 0 q) 1 0 (bwAt watch0 0 q) 0x10100 0x40100 4 .read).2 = some 0x40100 ∧
    (sendEval (takeHit (waitTgt (stW watch0 0 q) 1 0 (bwAt watch0 0 q) 0x10100 0x40100 4 .read).1 1 0) 0 1 0 0x10100 0x40100).isSome = true ∧
    (walkAll (stW watch0 0 q) 0 0 [(0x10100 : Dword)] .read).any (fun v => accessChk v 0 0 0x10100 4 .read == .ok 0x40100 false) = true := by
  decide +kernel
theorem wit_WaitEnds_poll : ((waitOf (stW (.mwait .rlx) 0 5) 1 0).map (fun x => (x.2.2.kind, x.2.2.poll))) = some (.mwait .rlx, 5) ∧
    5 ≠ 0 ∧ 5 ≤ (stW (.mwait .rlx) 0 5).gtime ∧ ((waitOf (stW watch0 0 11) 1 0).map (·.2.2.poll)) = some 11 ∧
    (stW watch0 0 11).gtime < 11 ∧
    ((waitOf (stW (.ticket 0x10110 0x40110 0 .rlx) 0 5) 1 0).map (fun x => (x.2.2.poll, x.2.2.got))) = some (5, false) := by decide +kernel
theorem wit_WaitEnds_timeout : ((waitOf (stW watch0 10 0) 1 0).bind (fun x => watchedVa (stW watch0 10 0) 1 0 x.2.2)) = some 0x10100 ∧
    ((waitOf (stW watch0 10 0) 1 0).map (·.2.2.deadline)) = some 10 ∧ 10 ≤ (stW watch0 10 0).gtime ∧ (bwAt watch0 10 0).core?.isSome = true := by
  decide +kernel
theorem wit_WaitEnds_finish : (stW watch0 0 0).block 1 = some (bwAt watch0 0 0) ∧ 0 ∈ [0] ∧
    (bwAt watch0 0 0).thread 0 = some (waitingAt watch0 0 0) := by decide +kernel
def ticket0 : WaitKind := .ticket 0x10110 0x40110 0 .rlx
/-- HOLDER of the ticket word at 0x40110 is valid and names device 0. -/
def stT : State := { stW ticket0 0 0 with mem := Memory.write (stW ticket0 0 0).mem 0x40118 [0, 0, 0, 0x80] }
theorem wit_TicketSteps : ((waitOf stT 1 0).map (·.2.2.kind)) = some ticket0 ∧
    (waitTgt stT 1 0 (bwAt ticket0 0 0) 0x10110 0x40110 16 .write).2 = some 0x40110 ∧
    (∀ v ∈ [(waitTgt stT 1 0 (bwAt ticket0 0 0) 0x10110 0x40110 16 .write).1],
      tgtDram v 0x40110 = true ∧ lineOut v 0 0x40110 = false ∧ atomFree v (0x40110 / 64) = true ∧ coreRoom v (0x40110 / 64) = true ∧
      (v.core 0).fills.length < Config.fillEntries ∧ (lineNow (seeLine v (0x40110 / 64)) (0x40110 / 64)).bad = false) ∧
    tgtDram stT 0x40110 = true ∧ (lineNow (seeLine stT (0x40110 / 64)) (0x40110 / 64)).bad = false ∧
    2 ^ 31 ≤ stT.num 0x40118 4 ∧ stT.num 0x40118 4 / 2 ^ 14 % 1024 = stT.sys.devid ∧ (stT.block 1).isSome = true := by decide +kernel

/-- A full bin with the block's thread; then with a second thread that stays in the only slot. -/
def filedT : Thread := th (fun t => { t with status := .filed 4 })
def bFiled : Block := { blk filedT [] 0 with fronds := [(0, Frond.fresh [] [])] }
def bFiled2 : Block := { bFiled with threads := [(0, filedT), (1, th (fun t => { t with lane := 1 }))] }
def binF : Bin := { bin 1 0x10110 with full := true, tids := [0] }
def stFiled (b : Block) : State := { st b with cores := [(0, { Core.init with bins := [(4, binF)] })] }
theorem wit_ReleaseSteps_bin : ((stFiled bFiled).core 0).bins.get? 4 = some binF ∧ ((stFiled bFiled).updThreads 1 [0] (fun _ y => y.land 0)).block binF.bid = some bFiled ∧
    binDue (stFiled bFiled) 0 binF = true ∧ binF.tids = [0] ∧ bFiled.thread 0 = some filedT ∧ filedT.tok = [] ∧
    bFiled.fronds.keys.find? (emptyFor bFiled binF.tids) = some 0 := by decide +kernel
theorem wit_ReleaseSteps_stay : ((stFiled bFiled2).core 0).bins.get? 4 = some binF ∧ ((stFiled bFiled2).updThreads 1 [0] (fun _ y => y.land 0)).block binF.bid = some bFiled2 ∧
    binDue (stFiled bFiled2) 0 binF = true ∧ bFiled2.thread 0 = some filedT ∧ filedT.tok = [] ∧
    bFiled2.fronds.keys.find? (emptyFor bFiled2 binF.tids) = none := by decide +kernel
theorem wit_ReleaseSteps_wave : (st b0).block 1 = some b0 ∧ b0.core? = some 0 ∧ b0.thread 0 = some (th id) ∧ slotHeld (st b0) b0 = false ∧
    b0.fronds.get? 0 = some (fr0 [] 0) := by decide +kernel
def stDet : State :=
  { st b0 with gtime := 1000, launches := [(0, { lau0 with count := 2, cohorts := [coh0 [(0, { mem0 2 with parked := [(0, 5, 1)] }), (1, mem0 0)]] })] }
theorem wit_ReleaseSteps_detach : ∃ x c, stDet.launch 0 = some x ∧ x.cohorts[0]? = some c ∧ c.heldAt = some 5 ∧ lowestActive c = some 0 ∧
    ∃ e ∈ c.conv, e.2.active = true ∧ e.2.pos = 0 ∧ e.2.pos < e.2.count ∧ Nat.max e.2.adv 5 + c.rel < stDet.gtime :=
  ⟨_, _, rfl, rfl, by decide, by decide, (1, mem0 0), by decide, rfl, rfl, by decide, by decide⟩
def fTimer : Frond := { Frond.fresh [] [] with ftimer := 7 }
def bTimer : Block := { b0 with fronds := [(0, fTimer)] }
theorem wit_ReleaseSteps_timer : (st bTimer).block 1 = some bTimer ∧ bTimer.fronds.get? 0 = some fTimer ∧ bTimer.core?.isSome = true ∧
    fTimer.ftimer ≠ 0 ∧ fTimer.ftimer.toNat ≤ ({ st bTimer with gtime := 10 } : State).gtime := by decide +kernel

/-- A launch of one block whose record names the code object at 0x10000, in a running context. -/
def rec0 : TaskRec :=
  { code := 0x10000, arg := 0, tile := (0, 0, 0), count := 1, succ := 0, siga := 0, sigv := 0, flags := 0, cohoff := 0 }
def lauW (next : Nat) : Launch := { lau0 with recs := [rec0], count := 2, next := next }
def stL (x : Launch) : State := { st b0 with blocks := [], launches := [(0, x)], gtime := 200000 }
theorem wit_Placement_place : (∀ n ∈ [0, 1], (stL (lauW n)).launch 0 = some (lauW n) ∧ waitsRoom (stL (lauW n)) (lauW n) = true ∧
      mayPlace (stL (lauW n)) 0 (lauW n) = true ∧ (tryPlace (stL (lauW n)) 0 (lauW n)).isSome = true) ∧
    (lauW 0).copyOf = none ∧ (lauW 0).next = 0 ∧ (lauW 1).next ≠ 0 := by decide +kernel
/-- A launch whose code object needs more accumulator rows than a core has waits for room that it lacks. -/
def lauBig : Launch := { lauW 0 with hdr := { hdr0 with accum := 100000 } }
theorem wit_Placement_hold : (stL lauBig).launch 0 = some lauBig ∧ waitsRoom (stL lauBig) lauBig = true ∧
    lauBig.ready + 100000 ≤ (stL lauBig).gtime ∧ tryPlace (stL lauBig) 0 lauBig = none := by decide +kernel
theorem wit_Placement_where : (lauW 0).first.paced = false ∧
    bestCore (stL (lauW 0)) (lauW 0).hdr (coreOk (stL (lauW 0)) (lauW 0) (lauW 0).next) = some (0, [0]) ∧
    freeRegion (stL (lauW 0)) (lauW 0).ctx (privSize (lauW 0).hdr) = some 0 ∧ 0 < (lauW 0).hdr.threads ∧
    nodeAt (stL (lauW 0)) 0 0 = none ∧ (lauW 0).first.count = 1 := by decide +kernel

/-- A waiting block of a draining context with a dormancy area; then a woken one of a running context. -/
def ctxDorm (n : Nat) : Ctx := { placedCtx with st := n, dorm := 0x10000, dormsz := 0x1000000 }
def bSmall : Block := { bwAt (.phase 2 0) 0 0 with hdr := { hdr0 with regs := 16, scratch := 0, accum := 0 } }
def stDorm : State := { st bSmall with ctxs := [(0, ctxDorm 2)] }
theorem wit_Dormancy_leave : stDorm.block 1 = some bSmall ∧ bSmall.core? = some 0 ∧ mayDorm stDorm 1 bSmall 0 = true ∧
    saveReady stDorm 0 1 bSmall = true ∧ freeSave stDorm bSmall.ctx (saveSize bSmall) = some 0 ∧
    (saveBlock stDorm 0 1 bSmall ((stDorm.ctx bSmall.ctx).dorm + d64 0) (saveSize bSmall)).2.1 = .ok := by decide +kernel
/-- The host has refused the page of the area; the block's context runs, or its save has been tried. -/
def stDormBad : State :=
  { stDorm with ctxs := [(0, { ctxDorm 2 with dorm := 0x7000000000000, denied := [(0x700000000, (Agent.ofBlock 0 1).who)] })] }
theorem wit_Dormancy_fail : mayDorm stDormBad 1 bSmall 0 = true ∧ freeSave stDormBad bSmall.ctx (saveSize bSmall) = some 0 ∧
    saveReady stDormBad 0 1 bSmall = true ∧ bSmall.saveFailed = false ∧
    (saveBlock stDormBad 0 1 bSmall ((stDormBad.ctx bSmall.ctx).dorm + d64 0) (saveSize bSmall)).2.1 = .fail := by decide +kernel
theorem wit_Dormancy_stay : mayDorm (st bSmall) 1 bSmall 0 = false ∧ ({ bSmall with saveTried := true } : Block).saveTried = true ∧
    ({ bSmall with saveTried := true } : Block).core? = some 0 := by decide +kernel
def bAsleep : Block := { bSmall with place := .dormant 0 65536 [4] true }
theorem wit_Dormancy_revive : (st bAsleep).block 1 = some bAsleep ∧ bAsleep.place = .dormant 0 65536 [4] true ∧
    ((st bAsleep).ctx bAsleep.ctx).st = 1 ∧ bestCore (st bAsleep) bAsleep.hdr (reviveOk (st bAsleep) bAsleep) = some (0, [0]) ∧
    bAsleep.thread 0 = some (waitingAt (.phase 2 0) 0 0) := by decide +kernel

/-- Context 1 holds a launch of a node of priority 1 that waits; context 0 runs a block of priority 0. -/
def node0 (prio : Nat) : Node :=
  { ok := true, wait := false, qbase := 0x12000, htl := 0x13000, pred := 0, size := 64, prio := prio, gang := 1, flush := 0, st := 1, head := 0,
    tail := 1, gate := 0, seen := [] }
def lauHigh : Launch := { lauBig with ctx := 1 }
def stDrain : State :=
  { st b0 with gtime := 200000, launches := [(0, { lau0 with recs := [rec0] }), (1, lauHigh)],
               ctxs := [(0, placedCtx), (1, { placedCtx with nodes := [(0, node0 1)] })] }
theorem wit_ContextSteps_drain : stDrain.launch 1 = some lauHigh ∧ waitsRoom stDrain lauHigh = true ∧ lauHigh.ready + 100000 ≤ stDrain.gtime ∧
    stDrain.ctxs.any (fun e => e.2.st == 2) = false ∧ drainVictim stDrain lauHigh.ctx (launchPrio stDrain lauHigh) = some 0 ∧
    residentOf stDrain 0 ≠ 0 ∧ tryPlace stDrain 1 lauHigh = none := by decide +kernel
def stCtx (n : Nat) : State := { st b0 with gtime := 10, ctxs := [(0, { placedCtx with st := n, deadline := some 10 })], sys := { (st b0).sys with stage := 4 } }
theorem wit_ContextSteps_states : ((stCtx 3).ctx 0).st = 3 ∧ ((stCtx 3).launches.any (fun e => e.2.ctx != 0 && waitsRoom (stCtx 3) e.2 &&
      decide (resumePrio (stCtx 3) 0 < launchPrio (stCtx 3) e.2))) = false ∧ ((stCtx 2).ctx 0).st = 2 ∧
    ((stCtx 2).ctx 0).deadline = some 10 ∧ 10 ≤ (stCtx 2).gtime ∧ (0 : Nat) < 64 ∧ (1 : Dword).getLsbD 0 = true ∧ (1 : Dword).getLsbD 1 = false ∧
    4 ≤ (stCtx 0).sys.stage ∧ ((stCtx 0).ctx 0).st = 0 ∧ (0 : Dword).getLsbD 0 = false ∧ ((stCtx 1).ctx 0).st = 1 ∧
    ((stCtx 4).ctx 0).st = 4 ∧ (∀ n ∈ [0, 1, 4], (stCtx n).sys.halted = false) := by decide +kernel

/-- A block whose thread has exited; it retires, is flushed and counted; its launch is closed or goes on. -/
def bOver : Block := bt (fun t => { t with status := .exited })
theorem wit_CompletionSteps_retire : (st bOver).block 1 = some bOver ∧ bOver.core? = some 0 ∧ bOver.live = [] ∧ ((st bOver).core 0).queue = [] ∧
    (st b0).block 1 = some b0 ∧ b0.core? = some 0 ∧ b0.live ≠ [] := by decide +kernel
def bRet : Block := { bOver with place := .retired 0 false }
theorem wit_CompletionSteps_count : (st bRet).block 1 = some bRet ∧ bRet.place = .retired 0 false ∧ flushing (st bRet) 1 = false ∧
    (trigCells (st bRet) 1 bRet).2 = true := by decide +kernel
theorem wit_CompletionSteps_after : (stL (lauW 0)).launch 0 = some (lauW 0) ∧ (lauW 0).counted ≠ (lauW 0).count ∧
    (stL { lauW 0 with counted := 2 }).launch 0 = some { lauW 0 with counted := 2 } ∧ ({ lauW 0 with counted := 2 } : Launch).counted = (lauW 0).count ∧
    (lauW 0).copyOf = none ∧ (lauW 0).acts = none ∧ (lauW 0).first.auditable = false ∧ (lauW 0).recs = [rec0] ∧ (lauW 0).count ≠ 0 := by
  decide +kernel
/-- An audit whose copy has finished and whose shadow has no bytes. -/
def audit0 : Audit := { orig := 0, copy := 1, crc := 0, outs := [], shadow := 0x10000 }
def lauCopy : Launch := { lauW 2 with copyOf := some 0, counted := 2 }
def stAud : State := { stL (lauW 2) with launches := [(0, lauW 2), (1, lauCopy)], sys := { (st b0).sys with audits := [audit0] } }
theorem wit_CompletionSteps_audit : stAud.sys.audits.find? (fun a => a.copy == 1) = some audit0 ∧ stAud.launch 1 = some lauCopy ∧
    (stAud.ctx lauCopy.ctx).st = 1 ∧ lauCopy.copyBad = false ∧ lauCopy.killed = [] ∧ lauCopy.counted = lauCopy.count ∧
    (compareShadow stAud lauCopy audit0).2 = true := by decide +kernel
def fault0 : PageFault := { page := 3, va := 0x30000, time := 0, recNo := some 2, info := 0, n := 1, source := 0, obj := 0, blk := 0, node := 0 }
theorem wit_CompletionSteps_fault : faultOf { st b0 with ctxs := [(0, { placedCtx with faults := [fault0] })] } 0 2 = some fault0 := by
  decide +kernel

/-- Node 0 of the running context: one record published in its queue at 0x12000, whose line at 0x13000 reads TAIL `tail`. -/
def codeHdr : List Byte := [0x45, 0x4D, 0x58, 0x4F, 0, 1, 0, 0] ++ List.replicate 16 0 ++ leBytes 4 0x100 ++ leBytes 4 0 ++ leBytes 4 16
  ++ leBytes 4 1024 ++ leBytes 4 0 ++ leBytes 4 0 ++ [1, 0, 1, 0, 1, 0, 0, 0] ++ leBytes 12 0 ++ leBytes 4 16
def recBytes (count : Nat) : List Byte := leBytes 8 0x10000 ++ leBytes 20 0 ++ leBytes 4 count ++ leBytes 32 0
def stNode (nodeSt tail count : Nat) : State :=
  { st b0 with
    mem := Memory.write (Memory.write (Memory.write (st b0).mem 0x40000 codeHdr) 0x42000 (recBytes count)) 0x43000
      (leBytes 4 0 ++ leBytes 4 tail ++ leBytes 4 tail ++ leBytes 4 0),
    ctxs := [(0, { placedCtx with nodes := [(0, { node0 0 with st := nodeSt })] })], gtime := 100 }
def nodeX : Node := node0 0
theorem wit_SequencerSteps_line : watching (stNode 1 1 1) 0 = true ∧ nodeAt (stNode 1 1 1) 0 0 = some nodeX ∧ nodeX.ok = true ∧ nodeX.wait = false ∧ nodeX.st ≠ 3 ∧
    (match readHtl (stNode 1 1 1) 0 0 nodeX with | (_, .data l false) => fld l 4 4 | _ => 99) = 1 ∧
    ((BitVec.ofNat 32 1 : Word) - nodeX.head).toNat ≤ nodeX.size ∧
    (match readHtl (stNode 1 65 1) 0 0 nodeX with | (_, .data l false) => fld l 4 4 | _ => 99) = 65 ∧
    nodeX.size < ((BitVec.ofNat 32 65 : Word) - nodeX.head).toNat := by decide +kernel
theorem wit_SequencerSteps_head : skipLaunch (stNode 1 1 1) 0 0 = none ∧ nodeX.gate = 0 ∧ nodeX.st = 1 ∧ ((stNode 1 1 1).ctx 0).st = 1 ∧ nodeX.head ≠ nodeX.tail ∧
    prevPlaced (stNode 1 1 1) 0 0 = true ∧ nodeX.gang ≤ 1 ∧
    (match seqRead (stNode 1 1 1) 0 (.ofNode 0) (slotVa nodeX 0) 64 with
      | (s1, .data bs bad) => (recOf bs).count == 1 && !bad && prevPlaced s1 0 0
      | _ => false) = true ∧
    (match seqRead (stNode 1 1 1) 0 (.ofNode 0) (slotVa nodeX 0) 64 with
      | (s1, .data bs bad) => (match launchCheck s1 0 0 (recOf bs) bad 1 with | (_, .ok h _) => h.entry == 0x100 | _ => false)
      | _ => false) = true ∧
    (match seqRead (stNode 1 1 0) 0 (.ofNode 0) (slotVa nodeX 0) 64 with
      | (s1, .data bs bad) => (match launchCheck s1 0 0 (recOf bs) bad 1 with | (_, .refuse k) => k == 10 | _ => false)
      | _ => false) = true := by decide +kernel
/-- A skip node has begun to consume its head record; its actions go on, or wait for a page of a join cell. -/
def stSkip (succ : Dword) : State :=
  { stNode 2 1 0 with launches := [(5, { lau0 with recs := [{ rec0 with count := 0, succ := succ }], count := 0 })] }
theorem wit_SequencerSteps_skip : skipLaunch (stSkip 0) 0 0 = some 5 ∧ ((stSkip 0).ctx 0).st = 1 ∧ (finishLaunch (stSkip 0) 5).2 = true := by
  decide +kernel
theorem wit_SequencerSteps_skip_waits : skipLaunch (stSkip 0x900000) 0 0 = some 5 ∧ ((stSkip 0x900000).ctx 0).st = 1 := by decide +kernel
theorem wit_SequencerSteps_skip_page : (finishLaunch (stSkip 0x900000) 5).2 = false := by decide +kernel
theorem wit_SequencerSteps_checks : (rec0.count ≠ 0) ∧ rec0.flags.toNat < 128 ∧ rec0.siga.toNat % 8 = 0 ∧
    ({ rec0 with code := 1 } : TaskRec).code.toNat % 256 ≠ 0 ∧ ({ rec0 with count := 0 } : TaskRec).count = 0 := by decide
theorem wit_SequencerSteps_flush : headSeen (stNode 1 1 1) nodeX + nodeX.flush ≤ (stNode 1 1 1).gtime ∧ seqRoom (stNode 1 1 1) 0 nodeX.htl 64 = true ∧
    nodeAt (stNode 3 1 1) 0 0 = some { nodeX with st := 3 } ∧ watching (stNode 3 1 1) 0 = true ∧
    (match readHtl (stNode 3 1 1) 0 0 { nodeX with st := 3 } with | (_, .data _ false) => true | _ => false) = true := by decide +kernel
/-- `npost` of one record into node 0, whose queue has room; `ltrig` of a block whose launch has a join cell, or none. -/
def stPost : State := { stNode 1 1 1 with blocks := [(1, b0)], cores := [(0, { Core.init with queue := [op (.npost 0 1) []] })] }
theorem wit_SequencerSteps_npost : let o := op (.npost 0 1) []
    hubOp stPost 0 9 = some (o, b0) ∧ o.stage = 0 ∧ nodeAt stPost b0.ctx 0 = some nodeX ∧ nodeX.ok = true ∧
    nodeX.wait = false ∧
    (match reserveSlots stPost b0.ctx 0 (Agent.ofOp 0 9).who 1 with | (_, .first k) => k == 1 | _ => false) = true ∧ nodeAt stPost b0.ctx 7 = none ∧
    b0.rangeAbsent o.parm.toNat (64 * 1) = false := by decide +kernel
/-- Its slot is reserved. -/
def stPost1 : State := (reserveSlots stPost 0 0 (Agent.ofOp 0 9).who 1).1
theorem wit_SequencerSteps_publish : ({ op (.npost 0 1) [] with stage := 1, keep := 1 } : Op).stage ≠ 0 ∧
    (match publish stPost1 b0.ctx 0 (Agent.ofOp 0 9).who 1 [(b0.scrBytes 0 64, b0.rangeBad 0 64)] with | (_, .done l) => l.isEmpty | _ => false) = true := by
  decide +kernel
def bTrig : Block := { b0 with trigged := true }
def stTrig (b : Block) (succ : Dword) : State :=
  { stOp b (op .ltrig []) with launches := [(0, { lau0 with recs := [{ rec0 with succ := succ }] })] }
theorem wit_SequencerSteps_ltrig : let o := op .ltrig []
    hubOp (stTrig b0 0) 0 9 = some (o, b0) ∧ hubOp (stTrig bTrig 0) 0 9 = some (o, bTrig) ∧ o.stage = 0 ∧ o.next = 0 ∧
    bTrig.trigged = true ∧ b0.trigged = false ∧ releaseReady (stTrig b0 0) 0 o.bid o.tids .dev o.seq = true ∧
    blockCells (stTrig b0 0) b0 = [] ∧ hubOp (stTrig b0 0x14000) 0 9 = some (o, b0) ∧ blockCells (stTrig b0 0x14000) b0 = [0x14000] ∧
    (trigWord ((stTrig b0 0x14000).updBlock 1 (fun b => { b with trigged := true })) 0 (.ofOp 0 9) 0x14000 1).2 = true := by decide +kernel
/-- A gang of two whose second record is not there: with FLUSH run out the head goes alone. -/
def nodeG : Node := { nodeX with gang := 2 }
def stGang : State := { stNode 1 1 1 with ctxs := [(0, { placedCtx with nodes := [(0, nodeG)] })] }
theorem wit_SequencerSteps_gang : nodeG.head ≠ nodeG.tail ∧ 1 < nodeG.gang ∧
    (match seqRead stGang 0 (.ofNode 0) (slotVa nodeG 0) 64 with
      | (s1, .data bs bad) => !bad && (recOf bs).count == 1 &&
        (match launchCheck (gangFrom 0 0 nodeG (recOf bs) 1 1 s1).1 0 0 (recOf bs) false 2 with
          | (s3, .ok h _) => (gangChecked 0 0 h s3 (gangFrom 0 0 nodeG (recOf bs) 1 1 s1).2.raws).2 == some []
          | _ => false)
      | _ => false) = true := by decide +kernel

/-- A request of core 0 for the line of 0x40100, and its line's merge entry and fill. -/
def req (k : ReqKind) : Req :=
  { seq := 7, time := 0, va := 0x10100, line := 0x40100 / 64, bid := 1, tid := 0, tids := [0], tok := none, acq := .none,
    rel := .none, who := .thread, kind := k }
def stReq (k : ReqKind) : State := { st b0 with cores := [(0, { Core.init with reqs := [req k] })] }
theorem wit_HomeSteps_requests : (∀ k ∈ [ReqKind.write 0 [1] false, .atomic 0 .addI32 1 0 false (some 4), .atomic 0 .addI32 1 0 false none,
      .take 0 4, .serve 0 false, .read], headReq (stReq k) 0 (0x40100 / 64) = some (req k) ∧ homeOpen (stReq k) (0x40100 / 64) = true ∧
      (req k).ready (stReq k) 0 = true ∧ (k = .write 0 [1] false ∨ k = .read ∨ k.rmw = true)) ∧
    tgtHost (st b0) (0x40100 / 64 * 64) = false ∧ (st b0).merges = [] ∧ heldLine (st b0) (0x40100 / 64) = false ∧
    atomRoom (st b0) (0x40100 / 64) = true ∧ entriesAt (st b0) (0x40100 / 64) < Config.mergeEntries ∧ (Sys2Proof.Machine.waitingAt (st b0) (homeSlice (st b0).part 0x40100)).head? = none ∧
    (st b0).memErr.get? (0x40100 / 64) = none ∧ lineBad (st b0) (0x40100 / 64) = false := by decide +kernel
/-- A `tkwait` and an `mwait` whose monitors are not yet signalled; a read that waits at the home slice, behind another or first. -/
def mon1 : Mon := { mon0 with hit := false }
def stMon (k : WaitKind) : State := { stW k 0 0 with mons := [mon1] }
theorem wit_HomeSteps_monitors : mon1 ∈ (stMon ticket0).mons ∧ mon1.line = 0x40100 / 64 ∧ mon1.armed = true ∧ mon1.hit = false ∧
    (waitOf (stMon ticket0) 1 0).map (·.2.2.kind) = some ticket0 ∧
    (waitOf (stMon (.mwait .rlx)) 1 0).map (·.2.2.kind) = some (.mwait .rlx) ∧ (stMon ticket0).memErr.get? (0x40100 / 64) = none := by
  decide +kernel
def stQueue (l : List (Nat × Nat)) : State := { stReq .read with queued := l.map (fun e => (homeSlice (st b0).part 0x40100, e)) }
theorem wit_HomeSteps_queue : (Sys2Proof.Machine.waitingAt (stQueue [(5, 1), (0, 7)]) (homeSlice (st b0).part 0x40100)).head? = some (5, 1) ∧
    (Sys2Proof.Machine.waitingAt (stQueue [(0, 7)]) (homeSlice (st b0).part 0x40100)).head? = some (0, 7) ∧
    openMerge (stQueue [(0, 7)]) (0x40100 / 64) = none ∧ heldLine (stQueue [(0, 7)]) (0x40100 / 64) = false ∧
    (∀ k ∈ [ReqKind.write 0 [1] false, .read], k.rmw = false) := by decide +kernel
/-- A result that an atomic unit holds; 256 lines held, more than which no slice takes. -/
def out0 : AtomOut := { core := 0, req := req (.atomic 0 .addI32 1 0 false (some 4)), val := 0, bad := false }
def stAtom : State := { st b0 with atoms := [{ line := 0x40100 / 64, queue := [out0] }] }
theorem wit_HomeSteps_units : stAtom.atoms = [{ line := 0x40100 / 64, queue := out0 :: [] }] ∧ out0.req.who = .thread ∧
    out0.req.kind.dst = some (4, .b32) ∧ heldLine stAtom (0x40100 / 64) = true := by decide +kernel
def fullUnit : List AtomLine := (List.range 256).map (fun n => { line := 0x40900 / 64, queue := [{ out0 with core := n }] })
theorem wit_HomeSteps_full : atomRoom { st b0 with atoms := fullUnit } (0x40100 / 64) = false := by decide +kernel
def hostLine : Nat := 0x8_0000_0000_0000 / 64
def stHost (k : ReqKind) (l0 : Bool) : State :=
  { st b0 with cores := [(0, { Core.init with reqs := [{ req k with line := hostLine }] })],
               sys := { (st b0).sys with hostL0 := l0, stage := 4 }, gtime := 20000000 }
theorem wit_HomeSteps_host : (∀ k ∈ [ReqKind.read, .serve 0 false, .serve 0 true, .take 0 4],
      headReq (stHost k true) 0 hostLine = some { req k with line := hostLine } ∧
      homeOpen (stHost k true) hostLine = true ∧ tgtHost (stHost k true) (hostLine * 64) = true) := by decide +kernel
def rep0 : LineRep := { data := List.replicate 64 0, bad := false, time := 0 }
def merge0 : Merge := { line := 0x40100 / 64, rep := rep0, joins := [(0, 7)], others := [], opened := true }
theorem wit_HomeSteps_merge : let s : State := { stReq .read with merges := [merge0] }
    (∃ m ∈ s.merges, m.line = 0x40100 / 64 ∧ m.opened = true) ∧ s.merges.find? (fun m => m.line == 0x40100 / 64) = some merge0 :=
  ⟨⟨merge0, List.mem_singleton.2 rfl, rfl, rfl⟩, by decide +kernel⟩
def fill0 : Fill :=
  { line := 0x40100 / 64, install := true, nc := false, joins := [], laid := [], reply := some rep0, seq := 7 }
def line0 : L1Line := { data := List.replicate 64 0, bad := false, time := 0, priv := none, vline := 0, dirty := false }
theorem wit_HomeSteps_caches : let s : State := { st b0 with cores := [(0, { Core.init with fills := [fill0], l1 := [(0x40100 / 64, line0)] })], gtime := 100000 }
    (s.core 0).fills.find? (fun f => f.line == 0x40100 / 64 && f.reply.isSome) = some fill0 ∧ (s.core 0).l1.get? (0x40100 / 64) = some line0 ∧
    line0.priv = none ∧ line0.time + 100000 ≤ s.gtime ∧ 99999 < line0.time + 100000 ∧ tgtDram s (0x40100 / 64 * 64) = true := by decide +kernel
theorem wit_HomeSteps_xinv : (st b0).sys.xinv.getLsbD 63 = false ∧ (0x8000000000000000 : Dword).getLsbD 63 = true ∧
    (0x8000000000000000 : Dword).getLsbD 55 = false ∧ (st b0).sys.halted = false := by decide +kernel

/-- An open export window of context 0, without and with writes; a kept tag; a request of this device. -/
def stExp (v : Dword) : State := { st b0 with fab := { Fabric.init with expctl := v } }
theorem wit_RemoteSteps_serve : (st b0).part.full = true ∧ tagKnown (st b0) 5 1 = false ∧ 5 ≠ (st b0).sys.devid ∧ (st b0).gtime ≤ 0 + 100000 ∧
    (∀ a ∈ (st b0).fab.arrived, ¬ (a.1 = 5 ∧ a.2.1 = 1)) ∧
    (arrivedUnder (arrive (st b0) 5 1) 5 1).getLsbD 63 = false ∧
    (0xC000000000000000 : Dword).getLsbD 62 = true ∧ (0x8000000000000000 : Dword).getLsbD 62 = false ∧
    (spanOf (.write 0x10100 [1])).2.2 = true ∧ (spanOf (.read 0x10100 8)).2.2 = false := by decide +kernel
/-- The same window open, with writes and without. -/
def stOpen : State := arrive (stExp 0xC000000000000000) 5 1
def stReads : State := arrive (stExp 0x8000000000000000) 5 1
theorem wit_RemoteSteps_open : (arrivedUnder stOpen 5 1).getLsbD 63 = true ∧ expCtx (arrivedUnder stOpen 5 1) = 0 ∧
    (stOpen.ctx 0).waits.contains (0x10100 / 65536, (Agent.ofFar 5 1).who) = false ∧ walkRoom stOpen 0 0x10100 = true ∧
    freshChk (touchVa stOpen 0 0x10100) 0 0x10100 .read = .ok 0x40100 false ∧
    freshChk (touchVa stOpen 0 0x10100) 0 0x10100 .write = .ok 0x40100 false := by decide +kernel
theorem wit_RemoteSteps_open_at : tgtHost (touchVa stOpen 0 0x10100) 0x40100 = false ∧ tgtDram (touchVa stOpen 0 0x10100) 0x40100 = true ∧
    controlHit (touchVa stOpen 0 0x10100) 0x40100 1 = false ∧ sliceTakes (touchVa stOpen 0 0x10100) 0x40100 (.write 0x10100 [1]) = true := by
  decide +kernel
theorem wit_RemoteSteps_reads : (arrivedUnder stReads 5 1).getLsbD 63 = true ∧ expCtx (arrivedUnder stReads 5 1) = 0 ∧
    (stReads.ctx 0).waits.contains (0x10100 / 65536, (Agent.ofFar 5 1).who) = false ∧ walkRoom stReads 0 0x10100 = true ∧
    freshChk (touchVa stReads 0 0x10100) 0 0x10100 .read = .ok 0x40100 false ∧
    freshChk (touchVa stReads 0 0x10100) 0 0x10100 .write = .ok 0x40100 false := by decide +kernel
theorem wit_RemoteSteps_reads_at : tgtHost (touchVa stReads 0 0x10100) 0x40100 = false ∧ tgtDram (touchVa stReads 0 0x10100) 0x40100 = true ∧
    controlHit (touchVa stReads 0 0x10100) 0x40100 1 = false ∧ sliceTakes (touchVa stReads 0 0x10100) 0x40100 (.write 0x10100 [1]) = true := by
  decide +kernel
/-- An access that arrived while the window was closed, and waits; one sent too long ago. -/
theorem wit_RemoteSteps_arrived : ({ Fabric.init with arrived := [(5, 1, 0)] } : Fabric).arrived.find? (fun a => a.1 == 5 && a.2.1 == 1) = some (5, 1, 0) ∧
    0 + 100000 < ({ st b0 with gtime := 100001 } : State).gtime := by decide +kernel
def kept0 : KeptTag := { src := 5, tag := 1, rep := .data [] false, time := 0 }
def rq0 : RemoteReq :=
  { tag := 3, dev := 5, off := 0x100, sent := 0, path := some [], sends := 1, accepted := false, core := 0, req := req (.write 0 [1] false), joins := [] }
def stRem : State := { st b0 with fab := { Fabric.init with kept := [kept0], remote := [rq0] }, gtime := 100000 }
theorem wit_RemoteSteps_replies : tagKnown stRem 5 1 = true ∧ stRem.fab.remote.find? (fun q => q.tag == 3) = some rq0 ∧
    rq0.dev ≠ stRem.sys.devid ∧ rq0.gone stRem = true ∧ rq0.req.ready stRem rq0.core = true ∧ rq0.sends ≠ 0 ∧ stRem.gtime ≤ 0 + 100000 ∧
    0 + 100000 < ({ stRem with gtime := 100001 } : State).gtime ∧
    rq0.sent + 100000 ≤ stRem.gtime ∧ 99999 < rq0.sent + 100000 ∧ pathOf stRem rq0.dev = none := by decide +kernel
/-- A request of this device to its own window, alone and behind an earlier one to its line. -/
def rqOwn (tag : Nat) : RemoteReq := { rq0 with tag := tag, dev := 0, path := none }
def stOwnW (l : List RemoteReq) : State := { st b0 with fab := { Fabric.init with remote := l } }
theorem wit_RemoteSteps_own : (stOwnW [rqOwn 4]).part.full = true ∧ (stOwnW [rqOwn 4]).sys.devid = 0 ∧ tagKnown (stOwnW [rqOwn 4]) 0 4 = false ∧
    (stOwnW [rqOwn 4]).fab.remote.find? (fun q => q.tag == 4 && q.dev == 0) = some (rqOwn 4) ∧ (rqOwn 4).accepted = false ∧
    behindRemote (stOwnW [rqOwn 4]) (rqOwn 4) = false ∧ (rqOwn 4).req.ready (stOwnW [rqOwn 4]) 0 = true ∧
    behindRemote (stOwnW [rqOwn 3, rqOwn 4]) (rqOwn 4) = true := by decide +kernel
/-- Its reply: kept as data, kept as a refusal, not there while its page is serviced, and not there at all. -/
def stOwnK (l : List KeptTag) (w : List (Nat × Nat)) : State :=
  { st b0 with fab := { Fabric.init with remote := [rqOwn 4], kept := l }, ctxs := [(0, { placedCtx with waits := w })] }
def keptOwn (rep : RemoteRep) : KeptTag := { src := 0, tag := 4, rep := rep, time := 0 }
theorem wit_RemoteSteps_own_reply : (∀ r ∈ [RemoteRep.data [] false, .refused 0x21],
      keptOf (stOwnK [keptOwn r] []) (rqOwn 4).dev 4 = some (keptOwn r) ∧ (rqOwn 4).gone (stOwnK [keptOwn r] []) = true) ∧
    keptOf (stOwnK [] []) 0 4 = none ∧ servicing (stOwnK [] []) (rqOwn 4) = false ∧
    servicing (stOwnK [] [(0, (Agent.ofFar 0 4).who)]) (rqOwn 4) = true := by decide +kernel

/-- Ports, domain control and tables. -/
def stPort (n : Nat) : State := { st b0 with fab := { Fabric.init with ports := [(0, { Port.init with st := n })] }, gtime := 100000 }
theorem wit_FabricSteps_ports : (stPort 1).part.full = true ∧ ((stPort 1).port 0).st = 1 ∧ ((stPort 3).port 0).st = 3 ∧
    ((stPort 3).port 0).time + 100000 ≤ (stPort 3).gtime ∧ 99999 < ((stPort 3).port 0).time + 100000 ∧ (2 : BitVec 2).toNat < 3 ∧
    ((stPort 2).port 0).st = 2 ∧ ((stPort 2).port 0).width < (2 : BitVec 2).toNat := by decide +kernel
def dom (f : Fabric) : State := { st b0 with fab := { f with domctl := 0x8000000000000000 }, gtime := 20000 }
/-- Port 0 reaches port 0 of device 5, whose table says the same; then the port has failed. -/
def fab5 (n : Nat) : Fabric :=
  { Fabric.init with ports := [(0, { Port.init with st := n, ndev := 5 })], tables := [(5, (1, [{ a := 5, p := 0, b := 0, q := 0 }]))] }
theorem wit_FabricSteps_break : (st b0).fab.domctl.getLsbD 63 = false ∧ (dom (fab5 3)).part.full = true ∧
    (dom (fab5 3)).fab.domctl.getLsbD 63 = true ∧ (candidate (dom (fab5 2))).2.length = 2 ∧ (candidate (dom (fab5 3))).2 = [] := by
  decide +kernel
theorem wit_FabricSteps_tables : 0 = (dom (fab5 2)).sys.devid ∧ 6 ≠ (dom (fab5 2)).sys.devid ∧ (dom (fab5 2)).fab.tables.get? 6 = none ∧
    (∃ x, (dom (fab5 2)).fab.tables.get? 5 = some x ∧ 0 < x.1) ∧ (0x8000000000000000 : Dword).getLsbD 63 = true ∧
    (0 : Dword).getLsbD 63 = false ∧ (dom (fab5 2)).sys.halted = false ∧ (dom (fab5 2)).gtime ≤ 0 + 100000 ∧
    (∃ l, (dom (fab5 2)).fab.tables.get? 5 = some (1, l) ∧ l ≠ []) :=
  ⟨by decide +kernel, by decide +kernel, by decide +kernel, ⟨_, rfl, by decide⟩, by decide, by decide, by decide +kernel, by decide +kernel,
    ⟨_, rfl, by decide⟩⟩
/-- The two ends of a link that the port's failure takes away. -/
theorem wit_FabricSteps_links : (∃ l k, l ∈ (candidate (dom (fab5 2))).2 ∧ k ∈ (candidate (dom (fab5 2))).2 ∧ l ≠ k ∧
    l ∉ (candidate (dom (fab5 3))).2 ∧ k ∉ (candidate (dom (fab5 3))).2) ∧ ((dom (fab5 2)).port 0).st = 2 :=
  ⟨⟨{ a := 0, p := 0, b := 5, q := 0 }, { a := 5, p := 0, b := 0, q := 0 }, by decide +kernel⟩, by decide +kernel⟩
theorem wit_FabricSteps_formed : let s := dom { Fabric.init with forming := true }
    s.part.full = true ∧ s.fab.domctl.getLsbD 63 = true ∧ s.fab.forming = true ∧ s.fab.changed + 20000 ≤ s.gtime ∧
    (candidate s).1.length ≤ 1024 ∧ (stPort 2).port 0 = { Port.init with st := 2 } := by decide +kernel

/-- An all-reduce whose run has devices `devs` of the map, in the states that its steps ask for. -/
def opColl : Op := op .coll (collWords.map (BitVec.ofNat 32))
def run1 (equal started paused : Bool) (hold : Nat) : CollRun :=
  { core := 0, op := 9, dom := 0, gen := 0, devs := [0], equal := equal, started := started, holdTo := hold, recomp := 0, todo := [0],
    marked := [], own := [], sentUp := [], paused := paused, final := none, since := 0, got := [], along := [] }
def stRun (devs : List Nat) (rs : List CollRun) : State :=
  { stOp b0 opColl with fab := { Fabric.init with domctl := 0x8000000000000000, devs := devs, dstate := 1, runs := rs,
                                                  trees := [{ root := 0, par := [] }] }, gtime := 10 }
def peer5 (count : Nat) : Peer :=
  { dev := 5, dom := 0, gen := 0, op := 0, ty := 0, red := 0, root := 0, count := BitVec.ofNat 64 count, chunk := 64, marks := [] }
theorem wit_CollectiveSteps_start : let s0 := pruneRuns (stRun [0, 5] [run1 false false false 0])
    let e := pruneRuns (stRun [0, 5] [])
    collOp s0 0 9 = some (opColl, b0) ∧ runOf s0 0 9 = some (run1 false false false 0) ∧ collOp e 0 9 = some (opColl, b0) ∧
    runOf e 0 9 = none ∧ ((runOf (collEnter e 0 b0 opColl) 0 9).map (fun r => (r.final, r.equal))) = some (none, false) := by decide +kernel
/-- Runs of other operations, of seven other generations and of this one. -/
def other (gen : Nat) : CollRun := { run1 true true false 0 with op := 20 + gen, gen := gen }
theorem wit_CollectiveSteps_enter : pf opColl.words 1 0 16 = 0 ∧ pf opColl.words 1 16 12 = 0 ∧ (other 0).gen = 0 ∧
    (∀ r ∈ (List.range 8).map (fun n => other (n + 1)), r.gen ≠ 0 ∧ r.dom = 0) ∧ 8 ≤ ((List.range 8).map (fun n => other (n + 1))).length ∧
    runOf (stRun [0] [other 1]) 0 9 = none ∧ [other 1].length < 8 := by decide +kernel
theorem wit_CollectiveSteps_compare : let s := stRun [0, 5] [run1 false false false 0]
    s.fab.devs.filter (fun d => d != s.sys.devid) = [5] ∧ s.fab.forming = false ∧ domState s 0 ≠ 0 ∧
    [peer5 1].find? (fun p => p.dev == 5 && p.dom.toNat == 0 && p.gen.toNat == 0) = some (peer5 1) ∧ peerEqual opColl (peer5 1) = true ∧
    pf opColl.words 0 0 4 ≠ 3 ∧ [peer5 2].find? (fun p => p.dev == 5 && p.dom.toNat == 0 && p.gen.toNat == 0) = some (peer5 2) ∧
    peerEqual opColl (peer5 2) = false := by decide +kernel
theorem wit_CollectiveSteps_hold : let s := stRun [0] [run1 true false false 10]
    collOp s 0 9 = some (opColl, b0) ∧ runOf s 0 9 = some (run1 true false false 10) ∧ s.fab.forming = false ∧ s.fab.devs ≠ [] ∧
    (10 ≤ s.gtime) ∧ runOf (stRun [0] [run1 true false false 11]) 0 9 = some (run1 true false false 11) ∧
    (stRun [0] [run1 true false false 11]).gtime < 11 := by decide +kernel
theorem wit_CollectiveSteps_chunk : let s := stRun [0] [run1 true true false 0]
    takePackets s 0 9 0 [] none = s ∧ collOp s 0 9 = some (opColl, b0) ∧ runOf s 0 9 = some (run1 true true false 0) ∧
    0 ∈ (run1 true true false 0).todo ∧ (run1 true true false 0).treeOf s 0 = some { root := 0, par := [] } := by decide +kernel
/-- Chunk 0 at the root of a tree of devices 0 and 5, and at its leaf; a packet of the child, and one too old. -/
def tree05 : Tree := { root := 0, par := [(5, 0)] }
def pass0 (me : Nat) : Pass := { op := opColl, run := run1 true true false 0, tree := tree05, me := me, c := 0, lo := 0, hi := 1 }
def pkt (time : Nat) : Packet := { dev := 5, gen := 0, epoch := 0, time := time, bytes := [1, 0, 0, 0] }
theorem wit_CollectiveSteps_passes : let s := stRun [0, 5] []
    let r := run1 true true false 0
    ((pass0 0).up [pkt 5] [2]).isSome = true ∧ parentOf tree05 0 = none ∧ ((pass0 5).up [] [2]).isSome = true ∧
    parentOf tree05 5 = some 0 ∧ (pass0 5).sends 5 = true ∧ (pkt 0).time + 100000 < ({ s with gtime := 100001 } : State).gtime ∧
    s.gtime ≤ (pkt 5).time + 100000 ∧ (pkt 5).gen = r.gen ∧ r.since ≤ (pkt 5).epoch ∧ (pkt 5).dev ≠ 6 ∧
    ({ r with along := [(0, tree05)] } : CollRun).along.find? (fun e => e.1 == 0) = some (0, tree05) ∧
    r.along.find? (fun e => e.1 == 0) = none ∧ s.fab.trees ≠ [] := by
  decide +kernel
/-- The run began with devices 0 and 5; the map has both, or only device 0. -/
def run2 : CollRun := { run1 true true true 0 with devs := [0, 5] }
theorem wit_CollectiveSteps_again : let s0 := takeMark (stRun [0, 5] [run2]) 0 9
    collOp s0 0 9 = some (opColl, b0) ∧ runOf s0 0 9 = some run2 ∧ s0.fab.forming = false ∧ s0.fab.devs ≠ [] ∧ opColl.next % 2 = 0 ∧
    opColl.stage ≤ opColl.inbox.length ∧ (∀ d ∈ run2.devs, d ∈ s0.fab.devs) ∧
    ((List.range (chunkCount opColl 2)).filter (fun c => !(run2.own.contains c && ([] : List Nat).contains c))) ≠ [] ∧ 5 ∈ run2.devs ∧
    5 ∉ (stRun [0] [run2]).fab.devs := by decide +kernel
theorem wit_CollectiveSteps_cstat : let o := op (.cstat 0) []
    hubOp (stOp b0 o) 0 9 = some (o, b0) ∧ opSlotHeld (stOp b0 o) o = false := by decide +kernel

/-- The host link in L0, with the host's window at 0 and past the device's memory. -/
def stBar (base : Nat) : State := { st b0 with sys := { (st b0).sys with hostL0 := true, hwbase := base } }
theorem wit_HostSteps_dma : (stBar 0).sys.hostL0 = true ∧ (stBar 0).sys.frozenDma = false ∧ 0x40100 < 2 ^ 36 ∧
    dmaIllegal (stBar 0) ((stBar 0).sys.hwbase * 2 ^ 36 + 0x40100) 8 = false ∧
    dmaIllegal (stBar 8) ((stBar 8).sys.hwbase * 2 ^ 36 + 0x40100) 8 = true ∧ (linesOf 0x40100 8).any (heldLine (stBar 0)) = false ∧
    atomFree (stBar 0) (0x40100 / 64) = true := by decide +kernel
/-- The line of the access is held by an atomic; the channel is frozen. -/
def stBarHeld : State := { stBar 0 with atoms := [{ line := 0x40100 / 64, queue := [out0] }], sys := { (stBar 0).sys with frozenDma := true } }
theorem wit_HostSteps_dma_waits : (linesOf 0x40100 8).any (heldLine stBarHeld) = true ∧ atomFree stBarHeld (0x40100 / 64) = false ∧
    stBarHeld.sys.frozenDma = true ∧ stBarHeld.sys.hostL0 = true := by decide +kernel
def opLink : Op := { op (.cpy 0) cpyWords with link := some (0, 0x10100) }
/-- An operation's request that has waited for the link. -/
def stHostOp : State :=
  { st b0 with cores := [(0, { Core.init with queue := [op (.cpy 0) cpyWords], reqs := [{ req .read with line := hostLine, who := .engine 9 }] })],
               gtime := 20000000 }
theorem wit_HostSteps_late : (hostReq (stHost (.write 0 [1] false) false) 1 0).isSome = true ∧
    ((stOp b0 opLink).core 0).queue.find? (fun o => o.id == 9) = some opLink ∧ opLink.link = some (0, 0x10100) ∧ opLink.frozen = false ∧
    (hostOp (stHostOp) 0 9).isSome = true ∧ linkLate { stOp b0 opLink with gtime := 10000000 } 0 = true ∧
    linkLate { stOp b0 opLink with gtime := 9999999 } 0 = false ∧
    (stL { lauW 2 with linkSince := some 0 }).launch 0 = some { lauW 2 with linkSince := some 0 } ∧ signalOut (stL (lauW 2)) 0 = false := by
  decide +kernel
theorem wit_HostSteps_link : (stBar 0).sys.hostL0 = true ∧ (stCtx 1).sys.hostL0 = false ∧ 2 ≤ (stCtx 1).sys.stage ∧ 0 < (st b0).part.cores ∧
    (0 : Fin 4).val < (st b0).part.dies ∧ 25 < (st b0).sys.mhz.getD (0 : Fin 4).val 4000 ∧
    (∀ c ∈ (stCtx 1).ctxs.keys, logsWait (stCtx 1) c = false) ∧ (st b0).sys.halted = false ∧
    ({ (st b0).sys with halted := true } : Sys).halted = true := by decide +kernel
def stBoot (stage : Nat) : State := { State.reset with sys := { State.reset.sys with stage := stage } }
theorem wit_BootSteps_stages : (∀ n ∈ [0, 1, 2, 3], (stBoot n).sys.stage = n ∧ (stBoot n).sys.halted = false ∧ (stBoot n).sys.retryAt ≤ (stBoot n).gtime) ∧ 4 ≤ (stBoot 4).sys.stage ∧
    (stBoot 0).gtime < { (stBoot 0).sys with retryAt := 10000000000 }.retryAt := by decide +kernel
/-- R392, R402: BOOTST and the top half of ETAIL's dword may be written to no effect; a write that reaches DEVIDR or EHEAD is
protected. -/
theorem test_control_writable : controlHit State.reset Config.csBase 8 = false ∧ controlHit State.reset Config.csBase 16 = true ∧
    controlHit State.reset (Config.csBase + 0xC) 4 = true ∧ controlHit State.reset (Config.csBase + 0x70004) 4 = false ∧
    controlHit State.reset (Config.csBase + 0x70000) 8 = true := by decide +kernel
/-- Every measured offset of the last second has been within 20 ns; an image has failed; a reset before stage 4. -/
def stNear : State := { stBoot 4 with gtime := 2000000000, sys := { (stBoot 4).sys with nearAt := some 0 } }
theorem wit_BootSteps_time : 3 ≤ stNear.sys.stage ∧ 4 ≤ stNear.sys.stage ∧ stNear.sys.nearAt = some 0 ∧ 0 + 1000000000 ≤ stNear.gtime ∧
    (-20 ≤ (5 : Word).toInt ∧ (5 : Word).toInt ≤ 20) ∧ ¬ (-20 ≤ (21 : Word).toInt ∧ (21 : Word).toInt ≤ 20) ∧ (stBoot 1).sys.stage < 2 ∧
    (0 : Nat) < 2 * (st b0).part.dies ∧ (stBoot 2).sys.stage < 3 := by decide +kernel
def stStop : State := { st b0 with sys := { (st b0).sys with stopped := true } }
theorem wit_BootSteps_stopped : stStop.sys.stopped = true ∧ (takeTurn stStop).1.move ≠ .event .deviceReset := by decide +kernel
/-- A latched snapshot of 8 bytes; ARM with the timer at instant 10. -/
def stSnap : State := { st b0 with sys := { (st b0).sys with snap := [{ bytes := List.replicate 8 0, frozen := [], mgmt := [] }], snapctl := 5, snaptime := 10, snapbuf := 0x50000 } }
theorem wit_BootSteps_snapshots : (0x8000000000000001 : Dword).getLsbD 63 = true ∧ (0x8000000000000001 : Dword).getLsbD 0 = true ∧
    stSnap.sys.snapctl.getLsbD 2 = true ∧ stSnap.sys.snapctl.getLsbD 0 = true ∧ stSnap.sys.snaptime ≠ 0 ∧
    stSnap.sys.snaptime.toNat ≤ 10 ∧ stSnap.gtime < stSnap.sys.snaptime.toNat ∧
    stSnap.sys.snap = { bytes := List.replicate 8 0, frozen := [], mgmt := [] } :: [] ∧ stSnap.sys.halted = false ∧
    tgtHost stSnap stSnap.sys.snapbuf.toNat = false ∧ dmaIllegal stSnap stSnap.sys.snapbuf.toNat 8 = false ∧
    (linesOf stSnap.sys.snapbuf.toNat 8).any (heldLine stSnap) = false ∧
    snapNext stSnap = some (0, 0, { bytes := List.replicate 8 0, frozen := [], mgmt := [] }) ∧ stSnap.sys.haltedMgmt = [] := by decide +kernel
/-- One latched at this instant; one whose buffer lies past the device's memory, and one with the error log's core among its masters. -/
def stSnapNow : State := { stSnap with gtime := 10, sys := { stSnap.sys with snapat := 10, stage := 4 } }
def stSnapFar : State := { stSnap with sys := { stSnap.sys with snapbuf := 0x8000000000 } }
theorem wit_BootSteps_snapshots_more : stSnapNow.sys.snapat = stSnapNow.gtime ∧ stSnapNow.sys.snap ≠ [] ∧ 4 ≤ stSnapNow.sys.stage ∧
    (stBoot 4).sys.snap = [] ∧ (stBoot 4).sys.snapseq = 0 ∧ stSnapNow.sys.snaptime.toNat ≤ stSnapNow.gtime ∧
    tgtHost stSnapFar stSnapFar.sys.snapbuf.toNat = false ∧ dmaIllegal stSnapFar stSnapFar.sys.snapbuf.toNat 8 = true ∧
    (snapNext stSnapFar).isSome = true ∧ ({ bytes := [], frozen := [0], mgmt := [1] } : Snap).mgmt ≠ [] := by decide +kernel

/-- The frond without a clause in flight, at a header `h` in memory. -/
def bIdle (t : Thread) : Block := { blk t [] 0 with fronds := [(0, Frond.fresh [] [])] }
def stIdle (t : Thread) (h : Nat) : State := { st (bIdle t) with mem := Memory.write (st b0).mem 0x40100 (leBytes 8 h), focus := none }
theorem wit_ClauseIssue : (stIdle (th id) 0x1000000000000000).blockAt 0 0 = some (1, bIdle (th id)) ∧
    (stIdle (th id) 0x1000000000000000).block 1 = some (bIdle (th id)) ∧ (bIdle (th id)).fronds.get? 0 = some (Frond.fresh [] []) ∧
    (Frond.fresh [] []).run = none ∧ (Frond.fresh [] []).subs = [] ∧ deliverables (bIdle (th id)) 0 = [] ∧
    issueSet (bIdle (th id)) (Frond.fresh [] []).own (eligibleOf (bIdle (th id)) 0 (Frond.fresh [] []) 0) = [0] ∧
    (bIdle (th id)).thread 0 = some (th id) ∧
    (match fetchWord (stIdle (th id) 0x1000000000000000) 0 0 (th id).pc with | .word _ x => x | _ => 0) = 0x1000000000000000 ∧
    (match fetchWord (stIdle (th id) 0x5000000000000000) 0 0 (th id).pc with | .word _ x => x | _ => 0) = 0x5000000000000000 ∧
    Header.decode 0x5000000000000000 = none ∧ (Header.decode 0x1000000000000000).isSome = true ∧ (th id).getTok 0 = 0 := by decide +kernel
/-- Fronds 0 and 4 are ready for one slice: the lower slot is selected. -/
def b2 : Block := { bIdle (th id) with threads := [(0, th id), (1, th (fun t => { t with slot := 4 }))],
                                       fronds := [(0, Frond.fresh [] []), (4, Frond.fresh [] [])] }
def st2 : State := { stIdle (th id) 0x1000000000000000 with blocks := [(1, b2)] }
theorem wit_ClauseIssue_select : selects st2 0 (readyOn st2 0) { bid := 1, slot := 0, slice := 0 } = true ∧
    selects st2 0 (readyOn st2 0) { bid := 1, slot := 4, slice := 0 } = false ∧ st2.blockAt 0 4 = some (1, b2) ∧
    issueSet b2 (Frond.fresh [] []).own (eligibleOf b2 4 (Frond.fresh [] []) 0) = [1] ∧ b2.thread 1 = some (th (fun t => { t with slot := 4 })) ∧
    (match fetchWord st2 0 0 (th id).pc with | .word _ x => x | _ => 0) = 0x1000000000000000 := by decide +kernel
/-- The header waits for token 2, which the thread holds; a clause in flight. -/
def tokT : Thread := th (fun t => { t with tok := [(2, 1)] })
theorem wit_ClauseIssue_waits :
    (match fetchWord (stIdle tokT 0x1004000000000000) 0 0 tokT.pc with | .word _ x => x.getLsbD (48 + 2) | _ => false) = true ∧
    issueSet (bIdle tokT) (Frond.fresh [] []).own (eligibleOf (bIdle tokT) 0 (Frond.fresh [] []) 0) = [0] ∧
    tokT.getTok 2 ≠ 0 ∧ (st b0).blockAt 0 0 = some (1, b0) ∧ (fr0 [] 0).run.isSome = true := by decide +kernel
theorem wit_ClauseIssue_set : (Frond.fresh [] []).own.skip = [] ∧ (Frond.fresh [] []).own.rep < 256 ∧
    (th id).last = false ∧ (th (fun t => { t with last := true })).last = true := by decide +kernel

/-- A turn of the frond on the agenda; its next word is `x`. -/
def stTurn (b : Block) (x : Nat) : State :=
  { st b with mem := Memory.write (st b).mem 0x40108 (leBytes 8 x), focus := none, agenda := [{ dt := 3, gap := 1, move := .run 0 0 }] }
def focused (b : Block) (x : Nat) : State := focusOn (passTime (noteReady { stTurn b x with agenda := [] }) 3) 0 0 1
theorem wit_StepRunsDecoded_word : (stTurn b0 0x0000780201018000).sys.stopped = false ∧
    ((focused b0 0x0000780201018000).issue?.map (fun i => (i.run.tids, i.core, i.blk.ctx, i.word, i.waiting))) = some ([0], 0, 0, 0x10108, false) ∧
    (match fetchWord (focused b0 0x0000780201018000) 0 0 0x10108 with | .word _ x => x | _ => 0) = 0x0000780201018000 ∧
    decodeInstr .v 0x0000780201018000 = some (.add c0 .i32 false 1 (.v 2) (.v 12)) ∧
    (decodeWord .v 0x0000780201018000).need &&& hdr0.features = (decodeWord .v 0x0000780201018000).need ∧
    (decodeWord .v 0x0000780201018000).top ≤ hdr0.regs ∧ mustBeLast .v 0x0000780201018000 = false ∧
    (run0 0).hdr.classOf (run0 0).pos = .v := by decide +kernel
theorem wit_StepRunsDecoded_reject :
    ((focused b0 0xFF00780000000000).issue?.map (fun i => (i.run.tids, i.word))) = some ([0], 0x10108) ∧
    wordOf b0 (run0 0) 0xFF00780000000000 = .reject [{ bit := 0, addr := 0x10108, info := 0 }] := by decide +kernel
/-- The thread of the clause in flight waits at `lwait`. -/
theorem wit_StepRunsDecoded_waits : ((focused (blk (waiting (.lwait 0x10100 0x40100)) [] 1) 0).issue?.map
    (fun i => (i.run.tids, i.waiting))) = some ([0], true) := by decide +kernel
theorem wit_StepRunsDecoded_clause : (stTurn (bIdle (th id)) 0).sys.stopped = false ∧ (focused (bIdle (th id)) 0).issue? = none := by
  decide +kernel
theorem wit_RoundTrip : (Instr.cmp c0 .lt .i32 0 (.v 2) (.s 6)).wf = true ∧
    encode (.cmp c0 .lt .i32 0 (.v 2) (.s 6)) = some (.v, 0x220078000150C000) ∧
    (({ cls := .v, cnt := 1, wait := 0, t := true } : Header).t = true → Cls.v ≠ .c ∧ (1 : BitVec 4) ≠ 0) := by decide +kernel
theorem wit_StepKeepsInvariant : (stTurn b0 0x0000780201018000).Inv ∧
    (match step (stTurn b0 0x0000780201018000) with | .next _ => true | _ => false) = true := by
  unfold State.Inv; decide +kernel
theorem wit_Frames : arithWord (.add c0 .i32 false 1 (.v 2) (.v 3)) ≠ none ∧ (∀ w, Ready w (st b0) i0) ∧
    (match exec (.add c0 .i32 false 1 (.v 2) (.v 3)) (st b0) with | .next _ => true | _ => false) = true ∧
    (match exec (.sli c0 1 5) (st b0) with | .next _ => true | _ => false) = true :=
  ⟨by simp [arithWord], ready0, by decide +kernel, by decide +kernel⟩

end Sys2Proof.Tests
end

section
/-! PROOFS. The vector words of fixed latency on the bare state, and the integer words that read or write a predicate
(R133, R135, R136). -/

namespace Sys2Proof.Machine

/-! ## Vector words of fixed latency -/

theorem Thread.putP_bare (t : Thread) (n : Nat) (x bad : Bool) : (t.putP n x bad).bare = t.bare.putP n x bad := by
  unfold Thread.putP
  split <;> rfl
/-- `putP` itself discards a write to p15 (R15, R63): the case need not be told apart around it. -/
theorem Thread.ite_putP (t : Thread) (n : Nat) (x bad : Bool) :
    (if n = 15 then t else t.putP n x bad) = t.putP n x bad := by
  unfold Thread.putP
  split <;> rfl
/-- A predicate written beside a vector result: the latencies of both are marks that the bare thread does not hold. -/
theorem Thread.resP_resVW_bare (t : Thread) (now lat n m : Nat) (wide : Bool) (x : Dword) (e bad : Bool) :
    ((t.resVW now lat n wide x bad).resP now lat m e bad).bare = ((t.putVW n wide x bad).putP m e bad).bare := by
  rw [Thread.resP_bare, Thread.putP_bare, Thread.resVW_bare, Thread.putP_bare]

/-- A ready vector word that writes each of its active lanes by itself. -/
theorem exVec_lanes_bare {w : WordForm} {s : State} {i : Issue} (h : Ready w s i) (ho : w.once = false)
    {f : Issue → Nat → Thread → Thread} {g : Nat → Thread → Thread}
    (hfg : ∀ t y, (f (w.issue i) t y).bare = (g t y).bare) :
    Goes (exVec w.c w.rd w.wr s (fun j u => j.lanes u (f j)))
      (fun u => u.bare = (s.updThreads i.bid (w.active i) g).bare) := by
  obtain ⟨u, hu, hbare⟩ := exVec_bare h ho (fun j u => j.lanes u (f j))
  exact ⟨u, hu, hbare.trans (State.bare_updThreads_congr hfg)⟩
/-- What a ready word with a vector destination of fixed latency does: it writes `f` of its sources, whatever its latency. -/
theorem vop_bare {c : Ctl} {lat : Nat} {d : VReg} {dw : Bool} {srcs : List (Opnd × Bool)} {more rd : List Reg}
    {f : Issue → Nat → List Dword → Dword} {s : State} {i : Issue}
    (hrd : (srcs.map (fun x => opndRegs x.1 x.2)).flatten ++ more = rd)
    (h : Ready (vform c rd (vregs d.val (wN dw))) s i) :
    Goes (vop c lat d dw srcs more f s) (fun u => u.bare =
      (s.updThreads i.bid ((vform c rd (vregs d.val (wN dw))).active i) (fun t y =>
        y.putVW d.val dw (f ((vform c rd (vregs d.val (wN dw))).issue i) t (srcs.map (fun x => i.opnd t x.1 x.2)))
          (i.bad t rd))).bare) := by
  subst hrd
  exact exVec_lanes_bare h rfl (fun _ y => y.resVW_bare _ _ _ _ _ _)
/-- What a ready word with a predicate destination of fixed latency does. -/
theorem vpred_bare {c : Ctl} {lat : Nat} {d : Pred} {srcs : List (Opnd × Bool)} {rd : List Reg}
    {f : List Dword → Bool} {s : State} {i : Issue}
    (hrd : (srcs.map (fun x => opndRegs x.1 x.2)).flatten = rd) (h : Ready (vform c rd [.p d.val]) s i) :
    Goes (vpred c lat d srcs f s) (fun u => u.bare =
      (s.updThreads i.bid ((vform c rd [.p d.val]).active i) (fun t y =>
        y.putP d.val (f (srcs.map (fun x => i.opnd t x.1 x.2))) (i.bad t rd))).bare) := by
  subst hrd
  exact exVec_lanes_bare h rfl (fun _ y => y.resP_bare _ _ _ _ _)

/-! ## Values at the width of an operation -/

theorem toNat_lowW (w64 : Bool) (x : Dword) : (lowW w64 x).toNat = (opW w64 x).toNat := by
  cases w64 with
  | false => simp [lowW, opW, lo32, widthOf]; omega
  | true => simp [lowW, opW, widthOf]
theorem lowW_ofNat (w64 : Bool) (n : Nat) :
    lowW w64 (BitVec.ofNat 64 n) = (BitVec.ofNat (widthOf w64) n).setWidth 64 := by
  cases w64 with
  | false => simp [lowW, lo32, widthOf]
  | true => simp [lowW, widthOf]
/-- The model's reading of a natural number as an integer of a width is the library's, where the number has that width. -/
theorem intOf_toNat {w : Nat} (sg : Bool) (x : BitVec w) : intOf w sg x.toNat = if sg then x.toInt else (x.toNat : Int) := by
  cases sg with
  | false => simp [intOf]
  | true => simp [intOf, BitVec.toInt_eq_msb_cond, BitVec.msb_eq_getLsbD_last, BitVec.testBit_toNat]
/-- The types of `cmp` have the width of their operands (R76, R136). -/
theorem tyW_of_int {ty : VTy} (h : ty.int = true) : tyW ty = widthOf (tyWide ty) := by
  cases ty <;> simp_all [VTy.int, tyW, tyWide, widthOf]
theorem intOf_lowW {ty : VTy} (h : ty.int = true) (x : Dword) :
    intOf (tyW ty) (tySigned ty) (lowW (tyWide ty) x).toNat = valueOf ty (whole ty x) := by
  have hx : (lowW (tyWide ty) x).toNat = (whole ty x).toNat := by
    rw [toNat_lowW, opW, whole, BitVec.toNat_setWidth, BitVec.toNat_setWidth, tyW_of_int h]
  rw [hx, intOf_toNat, valueOf]

/-! ## `sel`, `addc`, `cmp` -/

theorem exec_sel (c : Ctl) (w64 : Bool) (d : VReg) (a b : Opnd) (p : Pred) (s : State) :
    exec (.sel c w64 d a b p) s = execSel c w64 d a b p s := rfl
theorem exec_addc (c : Ctl) (w64 : Bool) (d : VReg) (a b : Opnd) (p : Pred) (s : State) :
    exec (.addc c w64 d a b p) s = execAddc c w64 d a b p s := rfl
theorem exec_cmp (c : Ctl) (cc : Cc) (ty : VTy) (d : Pred) (a b : Opnd) (s : State) :
    exec (.cmp c cc ty d a b) s = execCmp c cc ty d a b s := rfl

/-- A lane's own predicate picks the source (R133). -/
theorem sel_does (c : Ctl) (w64 : Bool) (d : VReg) (a b : Opnd) (p : Pred) : does (.sel c w64 d a b p)
    (vform c (opndRegs a w64 ++ opndRegs b w64 ++ [.p p.val]) (vregs d.val (wN w64)))
    (fun i s => s.updThreads i.bid i.act (fun t y =>
      y.putVW d.val w64 (if i.p t p.val then i.opnd t a w64 else i.opnd t b w64)
        (i.bad t (opndRegs a w64 ++ opndRegs b w64 ++ [.p p.val])))) := by
  intro s i h
  rw [exec_sel]
  exact vop_bare (i := i) (by simp) h
/-- The model's sum is the statement's, and its low bits are what is delivered (R135). -/
theorem addcSum_eq (w64 cin : Bool) (x y : Dword) :
    addcSum w64 cin x y = (opW w64 x).toNat + (opW w64 y).toNat + (if cin then 1 else 0) := by
  rw [addcSum, toNat_lowW, toNat_lowW]
/-- The sum goes to the vector register and the carry to the predicate that was the carry in (R135). -/
theorem addc_does (c : Ctl) (w64 : Bool) (d : VReg) (a b : Opnd) (p : Pred) : does (.addc c w64 d a b p)
    (vform c (opndRegs a w64 ++ opndRegs b w64 ++ [.p p.val]) (.p p.val :: vregs d.val (wN w64)))
    (fun i s => s.updThreads i.bid i.act (fun t y =>
      let n := (opW w64 (i.opnd t a w64)).toNat + (opW w64 (i.opnd t b w64)).toNat + (if i.p t p.val then 1 else 0)
      let bad := i.bad t (opndRegs a w64 ++ opndRegs b w64 ++ [.p p.val])
      let z := y.putVW d.val w64 ((BitVec.ofNat (widthOf w64) n).setWidth 64) bad
      if p.val = 15 then z else z.putP p.val (decide (2 ^ widthOf w64 ≤ n)) bad)) := by
  intro s i h
  rw [exec_addc]
  refine exVec_lanes_bare h rfl (fun t y => ?_)
  simp only [Thread.resP_resVW_bare, addcSum_eq, lowW_ofNat, Thread.ite_putP]
/-- The comparison is of the numbers that the operands stand for (R136). -/
theorem cmp_does (c : Ctl) (cc : Cc) {ty : VTy} (d : Pred) (a b : Opnd) (hty : ty.int = true) :
    does (.cmp c cc ty d a b) (vform c (opndRegs a (tyWide ty) ++ opndRegs b (tyWide ty)) [.p d.val])
    (fun i s => s.updThreads i.bid i.act (fun t y =>
      let x := valueOf ty (whole ty (i.opnd t a (tyWide ty)))
      let z := valueOf ty (whole ty (i.opnd t b (tyWide ty)))
      if d.val = 15 then y
      else y.putP d.val (ccInt cc x z) (i.bad t (opndRegs a (tyWide ty) ++ opndRegs b (tyWide ty))))) := by
  intro s i h
  rw [exec_cmp]
  simp only [execCmp, intOf_lowW hty, Thread.ite_putP]
  exact vpred_bare (i := i) (by simp) h

/-- Settles O3: a ready word of each kind writes lane by lane, and `putP` drops what goes to p15 (R15). -/
theorem predicateWords : Obligations.PredicateWords :=
  ⟨sel_does, addc_does, fun c cc _ d a b hty => cmp_does c cc d a b hty⟩

end Sys2Proof.Machine
end

section
/-! PROOFS. The arithmetic words on integers (R82, R83, R130, R131). -/

namespace Sys2Proof.Machine

/-! ## A register put together from elements (R83) -/

theorem joinElems_lt (w : Nat) (es : List Nat) : joinElems w es < 2 ^ (w * es.length) := by
  induction es with
  | nil => simp [joinElems]
  | cons e t ih =>
    have he : e % 2 ^ w < 2 ^ w := Nat.mod_lt _ (Nat.two_pow_pos w)
    calc joinElems w (e :: t) = e % 2 ^ w + 2 ^ w * joinElems w t := rfl
      _ < 2 ^ w * (joinElems w t + 1) := by rw [Nat.mul_add]; omega
      _ ≤ 2 ^ w * 2 ^ (w * t.length) := Nat.mul_le_mul_left _ ih
      _ = 2 ^ (w * (e :: t).length) := by rw [← Nat.pow_add, List.length_cons, Nat.mul_add, Nat.mul_one, Nat.add_comm]
/-- Element `k` of what was put together is what was put there, at its width. -/
theorem joinElems_div_mod (w : Nat) (es : List Nat) {k : Nat} (hk : k < es.length) :
    joinElems w es / 2 ^ (w * k) % 2 ^ w = es[k] % 2 ^ w := by
  induction es generalizing k with
  | nil => simp at hk
  | cons e t ih =>
    cases k with
    | zero => simp [joinElems]
    | succ k =>
      have htail : joinElems w (e :: t) / 2 ^ w = joinElems w t := by
        rw [joinElems, Nat.add_mul_div_left _ _ (Nat.two_pow_pos w), Nat.div_eq_of_lt (Nat.mod_lt _ (Nat.two_pow_pos w)),
          Nat.zero_add]
      rw [Nat.mul_succ, Nat.add_comm, Nat.pow_add, ← Nat.div_div_eq_div_mul, htail, ih (Nat.lt_of_succ_lt_succ hk)]
      rfl
/-- The elements of a type fit in a register. -/
theorem tyW_mul_tyCount_le (ty : VTy) : tyW ty * tyCount ty ≤ 64 := by
  cases ty <;> decide
theorem toNat_ofElems {ty : VTy} {es : List Nat} (h : es.length = tyCount ty) : (ofElems ty es).toNat = joinElems (tyW ty) es := by
  rw [ofElems, BitVec.toNat_ofNat, Nat.mod_eq_of_lt]
  exact Nat.lt_of_lt_of_le (joinElems_lt _ _) (Nat.pow_le_pow_right (by decide) (h ▸ tyW_mul_tyCount_le ty))
theorem ofElems_lt {ty : VTy} {es : List Nat} (h : es.length = tyCount ty) :
    (ofElems ty es).toNat < 2 ^ (tyW ty * tyCount ty) := by
  rw [toNat_ofElems h, ← h]
  exact joinElems_lt _ _
theorem toNat_part (ty : VTy) (k : Nat) (x : Dword) : (part ty k x).toNat = elem (tyW ty) k x := by
  rw [part, BitVec.extractLsb'_toNat, Nat.shiftRight_eq_div_pow, elem]
theorem part_ofElems {ty : VTy} {es : List Nat} (h : es.length = tyCount ty) {k : Nat} (hk : k < es.length) :
    part ty k (ofElems ty es) = BitVec.ofNat (tyW ty) es[k] := by
  apply BitVec.eq_of_toNat_eq
  rw [toNat_part, elem, toNat_ofElems h, joinElems_div_mod _ _ hk, BitVec.toNat_ofNat]
@[simp] theorem length_elems (ty : VTy) (x : Dword) : (elems ty x).length = tyCount ty := by simp [elems]
theorem getElem_elems (ty : VTy) (x : Dword) {k : Nat} (hk : k < (elems ty x).length) :
    (elems ty x)[k] = (part ty k x).toNat := by
  simp [elems, toNat_part]

/-! ## Integer delivery (R82) -/

theorem intTo_eq_deliverInt (ty : VTy) (sat : Bool) (x : Int) :
    intTo (tyW ty) (tySigned ty) sat x = (deliverInt ty sat x).toNat := by
  simp [intTo, deliverInt]
/-- The value of an element, delivered without clamping, is the element. -/
theorem deliverInt_valueOf (ty : VTy) (x : BitVec (tyW ty)) : deliverInt ty false (valueOf ty x) = x := by
  unfold deliverInt valueOf
  cases tySigned ty <;> simp

/-- An operation on one operand acts on each element by itself (R83). -/
theorem each1_intMap1 {ty : VTy} {sat : Bool} {f : Int → Int} {g : BitVec (tyW ty) → BitVec (tyW ty)}
    (hg : ∀ x, deliverInt ty sat (f (valueOf ty x)) = g x) (a : Dword) : Each1 ty g a (intMap1 ty sat f a) := by
  refine ⟨fun k hk => ?_, ofElems_lt (by simp)⟩
  rw [intMap1, part_ofElems (by simp) (by simpa using hk), List.getElem_map, getElem_elems, intOf_toNat, intTo_eq_deliverInt,
    BitVec.ofNat_toNat, BitVec.setWidth_eq]
  exact hg _
/-- An operation on two operands acts on each pair of elements by itself (R83). -/
theorem each2_intMap2 {ty : VTy} {sat : Bool} {f : Int → Int → Int} {g : BitVec (tyW ty) → BitVec (tyW ty) → BitVec (tyW ty)}
    (hg : ∀ x y, deliverInt ty sat (f (valueOf ty x) (valueOf ty y)) = g x y) (a b : Dword) :
    Each2 ty g a b (intMap2 ty sat f a b) := by
  refine ⟨fun k hk => ?_, ofElems_lt (by simp)⟩
  rw [intMap2, part_ofElems (by simp) (by simpa using hk), List.getElem_zipWith, getElem_elems, getElem_elems, intOf_toNat,
    intOf_toNat, intTo_eq_deliverInt, BitVec.ofNat_toNat, BitVec.setWidth_eq]
  exact hg _ _
/-- The smaller of two elements as delivered (R130). -/
theorem deliverInt_min (ty : VTy) (x y : BitVec (tyW ty)) :
    deliverInt ty false (min (valueOf ty x) (valueOf ty y)) = if valueOf ty x ≤ valueOf ty y then x else y := by
  rw [Int.min_def, apply_ite (deliverInt ty false), deliverInt_valueOf, deliverInt_valueOf]
/-- The larger of two elements as delivered (R130). -/
theorem deliverInt_max (ty : VTy) (x y : BitVec (tyW ty)) :
    deliverInt ty false (max (valueOf ty x) (valueOf ty y)) = if valueOf ty x ≤ valueOf ty y then y else x := by
  rw [Int.max_def, apply_ite (deliverInt ty false), deliverInt_valueOf, deliverInt_valueOf]

/-! ## `mad` and `madw` (R131) -/

theorem tyW_v4Ty (uns w64 : Bool) : tyW (v4Ty uns w64) = widthOf w64 := by
  cases uns <;> cases w64 <;> rfl
theorem tySigned_v4Ty (uns w64 : Bool) : tySigned (v4Ty uns w64) = !uns := by
  cases uns <;> cases w64 <;> rfl
/-- A source read at the width of a type stands for the value that its low bits have in the type. -/
theorem intOf_whole (ty : VTy) (x : Dword) :
    intOf (tyW ty) (tySigned ty) (x.toNat % 2 ^ tyW ty) = valueOf ty (whole ty x) := by
  rw [← BitVec.toNat_setWidth, intOf_toNat]
  rfl
theorem madVal_eq (uns w64 sat : Bool) (a b e : Dword) : madVal uns w64 sat a b e =
    (deliverInt (v4Ty uns w64) sat (valueOf _ (whole (v4Ty uns w64) a) * valueOf _ (whole (v4Ty uns w64) b)
      + valueOf _ (whole (v4Ty uns w64) e))).setWidth 64 := by
  simp only [madVal, ← tyW_v4Ty uns w64, ← tySigned_v4Ty uns w64, intOf_whole, intTo_eq_deliverInt, BitVec.ofNat_toNat]
/-- A 32-bit source of `madw` at the width of its result. -/
theorem ofInt_intOf_lo32 (uns : Bool) (x : Dword) :
    BitVec.ofInt 64 (intOf 32 (!uns) (x.toNat % 2 ^ 32)) = if uns then (lo32 x).setWidth 64 else (lo32 x).signExtend 64 := by
  rw [show x.toNat % 2 ^ 32 = (lo32 x).toNat by simp [lo32], intOf_toNat]
  cases uns with
  | false => simp [BitVec.signExtend]
  | true => simp [BitVec.ofInt_natCast]
theorem madwVal_eq (uns : Bool) (a b e : Dword) : madwVal uns a b e =
    (if uns then (lo32 a).setWidth 64 else (lo32 a).signExtend 64) *
      (if uns then (lo32 b).setWidth 64 else (lo32 b).signExtend 64) + e := by
  simp only [← ofInt_intOf_lo32]
  rw [madwVal, BitVec.ofInt_add, BitVec.ofInt_mul, BitVec.ofInt_natCast, BitVec.ofNat_toNat, BitVec.setWidth_eq]

/-! ## The words -/

/-- A word that runs as one of fixed latency writes the function `f` of its sources; it is enough that `f` is what the word's
relation allows. -/
theorem laneWord_does {x : Instr} {c : Ctl} {lat : Nat} {d : VReg} {wide : Bool} {srcs : List (Opnd × Bool)}
    {ok : List Dword → Dword → Prop} {f : List Dword → Dword} (hx : ∀ s, exec x s = vop c lat d wide srcs [] (fun _ _ l => f l) s)
    (hf : ∀ l, ok l (f l)) : (laneWord c d wide srcs ok).does x := by
  intro s i h
  refine ⟨fun t => f ((laneWord c d wide srcs ok).vals i t), fun t _ => hf _, ?_⟩
  rw [hx]
  exact vop_bare (List.append_nil _) h
/-- A word with one source of an integer type, element by element. -/
theorem word1_does {x : Instr} {c : Ctl} {ty : VTy} {sat : Bool} {d : VReg} {a : Opnd} {f : Int → Int}
    {g : BitVec (tyW ty) → BitVec (tyW ty)} (hx : ∀ s, exec x s = iop1 c (tyWide ty) d a (intMap1 ty sat f) s)
    (hg : ∀ u, deliverInt ty sat (f (valueOf ty u)) = g u) : (word1 c ty d a (Each1 ty g)).does x :=
  laneWord_does hx (fun _ => each1_intMap1 hg _)
/-- A word with two sources of an integer type, element by element. -/
theorem word2_does {x : Instr} {c : Ctl} {ty : VTy} {sat : Bool} {d : VReg} {a b : Opnd} {f : Int → Int → Int}
    {g : BitVec (tyW ty) → BitVec (tyW ty) → BitVec (tyW ty)}
    (hx : ∀ s, exec x s = iop2 c (tyWide ty) d a b (intMap2 ty sat f) s)
    (hg : ∀ u v, deliverInt ty sat (f (valueOf ty u) (valueOf ty v)) = g u v) : (word2 c ty d a b (Each2 ty g)).does x :=
  laneWord_does hx (fun _ => each2_intMap2 hg _ _)

/-- Settles O1, word by word: each is a word of fixed latency whose value delivers the exact result of every element. -/
theorem arithmeticWords : Obligations.ArithmeticWords := by
  intro x w hw
  unfold arithWord at hw
  split at hw <;> cases hw
  next c ty sat d a b => exact word2_does (x := .add c ty sat d a b) (fun _ => rfl) (fun _ _ => rfl)
  next c ty sat d a b => exact word2_does (x := .sub c ty sat d a b) (fun _ => rfl) (fun _ _ => rfl)
  next c ty sat d a b => exact word2_does (x := .mul c ty sat d a b) (fun _ => rfl) (fun _ _ => rfl)
  next c ty d a b => exact word2_does (x := .mulh c ty d a b) (fun _ => rfl) (fun _ _ => rfl)
  next c ty d a b => exact word2_does (x := .min c ty d a b) (fun _ => rfl) (deliverInt_min ty)
  next c ty d a b => exact word2_does (x := .max c ty d a b) (fun _ => rfl) (deliverInt_max ty)
  next c ty sat d a => exact word1_does (x := .abs c ty sat d a) (fun _ => rfl) (fun _ => rfl)
  next c ty sat d a => exact word1_does (x := .neg c ty sat d a) (fun _ => rfl) (fun _ => rfl)
  next c uns w64 sat d a b e =>
    exact laneWord_does (f := fun l => madVal uns w64 sat (src l 0) (src l 1) (src l 2)) (fun _ => rfl)
      (fun _ => madVal_eq uns w64 sat _ _ _)
  next c uns d a b e =>
    exact laneWord_does (f := fun l => madwVal uns (src l 0) (src l 1) (src l 2)) (fun _ => rfl)
      (fun _ => madwVal_eq uns _ _ _)

end Sys2Proof.Machine
end

section
/-! PROOFS. The steps of `mma`, `mmal` and `mxgrad` (R99 to R102, R213 to R218, R302, R305). -/

namespace Sys2Proof.Machine

/-! ## Accumulators -/

/-- A row has 64 columns: a write of one accumulator is read there and leaves every other one alone. -/
theorem Block.accAt_accPut (b : Block) {row n r c : Nat} (hn : n < 64) (hc : c < 64) (x : Word) (bad : Bool) :
    (b.accPut row n x bad).accAt r c = if r = row ∧ c = n then x else b.accAt r c := by
  have hkey : 64 * r + c = 64 * row + n ↔ r = row ∧ c = n := by omega
  simp only [Block.accAt, Block.accPut, Map.getD_set, hkey]
/-- Writes of several columns of one row. -/
theorem Block.accAt_foldl_accPut (x : Nat → Word) (bad : Nat → Bool) (row : Nat) {l : List Nat} (hl : ∀ n ∈ l, n < 64) {r c : Nat}
    (hc : c < 64) (b : Block) : (l.foldl (fun b n => b.accPut row n (x n) (bad n)) b).accAt r c =
      if r = row ∧ c ∈ l then x c else b.accAt r c := by
  induction l generalizing b with
  | nil => simp
  | cons n t ih =>
    rw [List.foldl_cons, ih (fun m hm => hl m (List.mem_cons_of_mem _ hm)), b.accAt_accPut (hl n List.mem_cons_self) hc]
    by_cases hr : r = row
    · by_cases hcn : c = n <;> simp [hr, hcn]
    · simp [hr]
/-- A group is promoted into each of the 64 accumulators of its row and into no other (R102). -/
theorem accAt_promoteRow (v : Block) (row : Nat) (zero bad : Bool) (group : Nat → Val) (sa sw : Nat) (b : Block) {r c : Nat}
    (hc : c < 64) : (promoteRow v row zero bad group sa sw b).accAt r c =
      if r = row then BitVec.ofNat 32 (promote (if zero then 0 else (v.accAt row c).toNat) (group c) sa sw) else b.accAt r c := by
  unfold promoteRow
  rw [Block.accAt_foldl_accPut (fun n => BitVec.ofNat 32 (promote (if zero then 0 else (v.accAt row n).toNat) (group n) sa sw))
    _ row (fun n hn => List.mem_range.1 hn) hc]
  simp [hc]

/-! ## The steps of the matrix stream -/

theorem exec_mmaExec {core : Nat} {s : State} {o : Op} {b : Block} (ho : matrixHead s core = some o) (hb : s.block o.bid = some b)
    (hk : o.kind = .mma) : exec (.mmaExec core) s = .next (mmaStep s core false o b) := by
  change execMmaExec core s = _
  simp only [execMmaExec, ho, hb, hk]
theorem exec_mmalExec {core : Nat} {s : State} {o : Op} {b : Block} (ho : matrixHead s core = some o) (hb : s.block o.bid = some b)
    (hk : o.kind = .mmal) : exec (.mmalExec core) s = .next (mmaStep s core true o b) := by
  change execMmalExec core s = _
  simp only [execMmalExec, ho, hb, hk]
theorem exec_mxgradExec {core : Nat} {s : State} {o : Op} {b : Block} (ho : matrixHead s core = some o)
    (hb : s.block o.bid = some b) (hk : o.kind = .mxgrad) : exec (.mxgradExec core) s = .next (gradStep s core o b) := by
  change execMxgradExec core s = _
  simp only [execMxgradExec, ho, hb, hk]
/-- Once the header is read, each step takes one row (R214). -/
theorem mmaStep_row (s : State) (core : Nat) (lut : Bool) (o : Op) (b : Block) (h : o.stage ≠ 0) :
    mmaStep s core lut o b = rowStep { s with free := s.free + 1 } core o
      (pf o.words 1 0 11 - pf o.words 1 16 11) (mmaRow (s.core core).banks lut o.header.1 o.words o.header.2 (viewOf s o b) b
        (pf o.words 1 16 11 + o.next)) :=
  if_neg h
theorem rowStep_skip_more (s : State) (core : Nat) (o : Op) {n : Nat} (h : o.next + 1 < n) :
    rowStep s core o n .skip = updOp s core o.id (fun o => { o with next := o.next + 1 }) :=
  if_neg (Nat.not_le.2 h)
theorem rowStep_skip_last (s : State) (core : Nat) (o : Op) {n : Nat} (h : n ≤ o.next + 1) :
    rowStep s core o n .skip = endStatus s core o 1 0 0 none :=
  if_pos h
theorem rowStep_miss (s : State) (core : Nat) (o : Op) (n m : Nat) :
    rowStep s core o n (.stop m 0 2) = endStatus s core o 2 m 0 (some { bit := 6, addr := o.parm, info := d64 m }) := rfl

/-! ## One row of `mma` or `mmal` (R302, R305) -/

section
variable {banks : Map Bank} {lut : Bool} {h : Cat} {ws : List Word} {bad : Bool} {v b : Block} {m : Nat}

theorem mmaRow_skip (ha : b.rangeAbsent (h.tagAt m) 1 = false) (ht : 128 ≤ v.scrNum (h.tagAt m) 1) :
    mmaRow banks lut h ws bad v b m = .skip := by
  simp [mmaRow, ha, ht]
theorem mmaRow_miss (ha : b.rangeAbsent (h.tagAt m) 1 = false) (ht : v.scrNum (h.tagAt m) 1 < 128)
    (hm : tagBank banks lut h.cls ws (v.scrNum (h.tagAt m) 1) = none) : mmaRow banks lut h ws bad v b m = .stop m 0 2 := by
  simp [mmaRow, ha, Nat.not_le.2 ht, hm]
/-- A hit promotes the row's groups, with the exact sum of the row against each column of the bank (R101). -/
theorem mmaRow_hit (ha : b.rangeAbsent (h.tagAt m) 1 = false) (ht : v.scrNum (h.tagAt m) 1 < 128) {k : Bank}
    (hk : tagBank banks lut h.cls ws (v.scrNum (h.tagAt m) 1) = some k) (he : b.catAbsent h m = false)
    (hs : b.rangeAbsent (h.scale m) 4 = false) : mmaRow banks lut h ws bad v b m =
      .wrote (promoteRow v (pf ws 2 0 32 + m) (pf ws 3 6 1 == 1)
        (bad || v.catBad h m || v.rangeBad (h.scale m) 4 || k.bad)
        (fun n => exactSum ((v.catRow h m).zip ((List.range 128).map (fun j => k.weight (64 * j + n)))))
        (v.scrNum (h.scale m) 4) k.scale.toNat b) [(pf ws 2 0 32 + m, 1)] := by
  simp [mmaRow, ha, Nat.not_le.2 ht, hk, he, hs]
end

/-- A window index that no row of the group selects leaves its region alone (R218). -/
theorem gradRegion_of_unselected {v : Block} {h : Cat} {rows : List Nat} {i : Nat} (hsel : gradSel v h rows i = []) (t : Cwt)
    (ws : List Word) (bad : Bool) (b : Block) : gradRegion v h t ws bad rows b i = b := by
  simp [gradRegion, hsel]

/-- Settles O38: a hit is `promoteRow`, which writes the accumulators of its own row alone; the other clauses are the branches
of a step. -/
theorem matrixProducts : Obligations.MatrixProducts := by
  refine ⟨fun _ _ _ _ ho hb => ⟨exec_mmaExec ho hb, exec_mmalExec ho hb, exec_mxgradExec ho hb⟩,
    fun s core lut o b h => mmaStep_row s core lut o b h,
    fun s core o n => ⟨rowStep_skip_more s core o, rowStep_skip_last s core o, rowStep_miss s core o n⟩,
    ?hit, fun _ _ _ _ _ _ _ _ => mmaRow_skip, fun _ _ _ _ _ _ _ _ => mmaRow_miss,
    fun _ _ t ws bad _ b _ hsel => gradRegion_of_unselected hsel t ws bad b⟩
  intro banks lut h ws bad v b m k n ha ht hk he hs hn
  refine ⟨_, mmaRow_hit ha ht hk he hs, ?_, fun r hr => ?_⟩
  · simp only [accAt_promoteRow _ _ _ _ _ _ _ _ hn, if_true, beq_iff_eq, promote]
  · rw [accAt_promoteRow _ _ _ _ _ _ _ _ hn, if_neg hr]

end Sys2Proof.Machine
end

section
/-! PROOFS. Where memory stands in its canonical form (R241), of each kind of result that a function of the model gives back.

The lemma of a function `f` of the model is named `f_wf` and says that memory stands in its canonical form after `f` when it did
before: one rule for each function that a step can reach, with a case split along the function's own branches and the rules of the
functions that it calls. Where `f` updates other fields alone, its memory is the one that it was given by definition, so the
hypothesis itself is the proof. -/

namespace Sys2Proof.Machine

/-- Wherever the outcome goes on. -/
def Out.Wf (o : Out) : Prop := ∀ t, o = .next t → Memory.wf t.mem
/-- In the state, where there is one. -/
def OptWf (o : Option State) : Prop := ∀ t, o = some t → Memory.wf t.mem
/-- In the state of the pair, where there is one: what the body of a word gives back. -/
def BodyWf {α : Type} (o : Option (State × α)) : Prop := ∀ x, o = some x → Memory.wf x.1.mem
/-- In the state with which a word starts, waits or stops. -/
def Start.Wf : Start → Prop
  | .pass => True
  | .wait s | .stop s | .go _ s => Memory.wf s.mem
/-- In the state in which a word of class E has been taken. -/
def Taken.Wf : Taken → Prop
  | .ends s | .waits s | .starts s _ _ => Memory.wf s.mem
/-- In the state in which a frond's next word is found. -/
def Next.Wf : Next → Prop
  | .exec s _ | .done s => Memory.wf s.mem
/-- In the state after a fetch. -/
def Fetch.Wf : Fetch → Prop
  | .wait => True
  | .word s _ | .absent s | .fault s _ | .poison s => Memory.wf s.mem
/-- In the state that an engine's access leaves when it does not answer at once. -/
def EngWf : EngAcc ⊕ State → Prop
  | .inl _ => True
  | .inr s => Memory.wf s.mem

/-! ## States and pairs -/

section
variable {α β : Type} {s t : State} {x y : State × α} {p : Prop} {_ : Decidable p}

theorem ite_wf (hs : Memory.wf s.mem) (ht : Memory.wf t.mem) : Memory.wf (if p then s else t).mem := by
  split
  · exact hs
  · exact ht
theorem fst_ite_wf (hx : Memory.wf x.1.mem) (hy : Memory.wf y.1.mem) : Memory.wf (if p then x else y).1.mem := by
  split
  · exact hx
  · exact hy
theorem fst_wf {a : α} (h : Memory.wf x.1.mem) (e : x = (t, a)) : Memory.wf t.mem := by subst e; exact h
theorem foldl_wf {f : State → α → State} {l : List α} (hf : ∀ t a, Memory.wf t.mem → Memory.wf (f t a).mem)
    (h : Memory.wf s.mem) : Memory.wf (l.foldl f s).mem := by
  induction l generalizing s with
  | nil => exact h
  | cons a l ih => exact ih (hf s a h)
theorem foldl_fst_wf {f : State × β → α → State × β} {l : List α} {z : State × β}
    (hf : ∀ t a, Memory.wf t.1.mem → Memory.wf (f t a).1.mem) (h : Memory.wf z.1.mem) : Memory.wf (l.foldl f z).1.mem := by
  induction l generalizing z with
  | nil => exact h
  | cons a l ih => exact ih (hf z a h)

/-! ## States that may be there -/

theorem OptWf.none : OptWf none := fun _ h => nomatch h
theorem OptWf.some (h : Memory.wf s.mem) : OptWf (some s) := by rintro _ ⟨⟩; exact h
theorem OptWf.get {o : Option State} (h : OptWf o) (e : o = Option.some s) : Memory.wf s.mem := h s e
theorem OptWf.getD {o : Option State} (h : OptWf o) (hs : Memory.wf s.mem) : Memory.wf (o.getD s).mem := by
  cases o with
  | none => exact hs
  | some t => exact h t rfl
theorem OptWf.ite {o q : Option State} (ho : OptWf o) (hq : OptWf q) : OptWf (if p then o else q) := by
  split
  · exact ho
  · exact hq
theorem OptWf.map {o : Option State} {f : State → State} (h : OptWf o) (hf : ∀ t, Memory.wf t.mem → Memory.wf (f t).mem) :
    OptWf (o.map f) := by
  cases o with
  | none => exact OptWf.none
  | some t => exact OptWf.some (hf t (h t rfl))
theorem OptWf.foldl {f : Option State → α → Option State} {l : List α} {o : Option State}
    (hf : ∀ o a, OptWf o → OptWf (f o a)) (h : OptWf o) : OptWf (l.foldl f o) := by
  induction l generalizing o with
  | nil => exact h
  | cons a l ih => exact ih (hf o a h)
theorem OptWf.bind {o : Option State} {f : State → Option State} (h : OptWf o) (hf : ∀ t, Memory.wf t.mem → OptWf (f t)) :
    OptWf (o.bind f) := by
  cases o with
  | none => exact OptWf.none
  | some t => exact hf t (h t rfl)
theorem OptWf.of_ite {o : Option State} (h : OptWf o)
    (e : (if p then Option.none else Option.some o) = Option.some (Option.some s)) : Memory.wf s.mem := by
  split at e
  · cases e
  · exact h s (Option.some.inj e)

/-! ## Bodies of words -/

theorem BodyWf.none : BodyWf (α := α) none := fun _ h => nomatch h
theorem BodyWf.some (h : Memory.wf x.1.mem) : BodyWf (some x) := by rintro _ ⟨⟩; exact h
theorem BodyWf.get {o : Option (State × α)} {a : α} (h : BodyWf o) (e : o = Option.some (s, a)) : Memory.wf s.mem := h _ e
theorem BodyWf.ite {o q : Option (State × α)} (ho : BodyWf o) (hq : BodyWf q) : BodyWf (if p then o else q) := by
  split
  · exact ho
  · exact hq
theorem BodyWf.bind {o : Option State} {f : State → Option (State × α)} (h : OptWf o)
    (hf : ∀ t, Memory.wf t.mem → BodyWf (f t)) : BodyWf (o.bind f) := by
  cases o with
  | none => exact BodyWf.none
  | some t => exact hf t (h t rfl)
theorem BodyWf.map {o : Option State} {f : State → State × α} (h : OptWf o)
    (hf : ∀ t, Memory.wf t.mem → Memory.wf (f t).1.mem) : BodyWf (o.map f) := by
  cases o with
  | none => exact BodyWf.none
  | some t => exact BodyWf.some (hf t (h t rfl))

/-! ## Outcomes -/

theorem Out.Wf.next (h : Memory.wf s.mem) : Out.Wf (.next s) := by rintro _ ⟨⟩; exact h
theorem Out.Wf.fault {r : Fault} : Out.Wf (.fault r) := fun _ h => nomatch h
theorem Out.Wf.refused {r : Refusal} : Out.Wf (.refused r) := fun _ h => nomatch h
theorem Out.Wf.ite {o q : Out} (ho : Out.Wf o) (hq : Out.Wf q) : Out.Wf (if p then o else q) := by
  split
  · exact ho
  · exact hq

/-! ## What a match of the model finds -/

theorem EngWf.of_eq {x y : EngAcc ⊕ State} (h : EngWf x) (e : x = y) : EngWf y := e ▸ h
theorem Start.Wf.of_eq {x y : Start} (h : x.Wf) (e : x = y) : y.Wf := e ▸ h
theorem Taken.Wf.of_eq {x y : Taken} (h : x.Wf) (e : x = y) : y.Wf := e ▸ h
theorem Next.Wf.of_eq {x y : Next} (h : x.Wf) (e : x = y) : y.Wf := e ▸ h
theorem Fetch.Wf.of_eq {x y : Fetch} (h : x.Wf) (e : x = y) : y.Wf := e ▸ h
end

end Sys2Proof.Machine
end

section
/-! PROOFS. What the agents share keeps memory canonical: the writes of home slices, translation, the logs, the ends of threads, barriers
and traps (R34, R155, R185 to R194, R241 to R264, R366 to R373, R388, R402). Memory itself changes in two places alone, the
write that a home slice accepts and the line whose errors it resolves: `Memory.wf_write` is used there and nowhere else. -/

namespace Sys2Proof.Machine

variable {s : State} {i : Issue} {b : Block} {o : Op} {c : Ctl} {core bid tid slot line pa n l ctx node tgt tag : Nat}
  {tids : List Nat} {va : Dword} {bytes : List Byte} {bad : Bool} {ag : Agent}

/-! ## Writes at a home slice (R241, R243, R246, R263) -/

theorem signalLine_wf (h : Memory.wf s.mem) : Memory.wf (signalLine s line).mem := h
theorem closeMerge_wf (h : Memory.wf s.mem) : Memory.wf (closeMerge s line).mem := h
/-- The write that a home slice accepts (R241, R243): the one place where an agent's bytes enter memory. -/
theorem acceptWrite_wf (h : Memory.wf s.mem) :
    Memory.wf (acceptWrite s pa bytes bad).mem := signalLine_wf (closeMerge_wf (Memory.wf_write h _ _))

/-! ## Snapshots (R401) -/

theorem snapFire_wf (h : Memory.wf s.mem) : Memory.wf (snapFire s).mem := ite_wf h (ite_wf h h)

/-! ## The device error log (R388, R402) -/

/-- The errors of a line that is read (R262): those that go undetected leave other bytes in it. -/
theorem resolveLine_wf (h : Memory.wf s.mem) : Memory.wf (resolveLine s line).1.mem := by
  unfold resolveLine
  dsimp only
  split
  · exact h
  · exact fst_ite_wf h (fst_ite_wf h (fst_ite_wf h (fst_ite_wf h (Memory.wf_write h _ _))))
theorem devRecord_wf {e : ErrRec} (h : Memory.wf s.mem) : Memory.wf (devRecord s e).1.mem := by
  unfold devRecord
  extract_lets n opened slot _ halt pa r s1 q x
  have hx : Memory.wf x.1.mem := fst_ite_wf (acceptWrite_wf (resolveLine_wf h)) h
  split
  · exact h
  split
  · exact h
  split
  · exact h
  · exact hx
theorem devErrorN_wf : ∀ {n : Nat} {s : State} {e : ErrRec}, Memory.wf s.mem → Memory.wf (devErrorN n s e).mem
  | 0, _, _, h => h
  | n + 1, s, e, h => by
    have h1 := devRecord_wf (e := e) h
    have h2 : Memory.wf (if (devRecord s e).1.sys.snapctl.getLsbD 1 then snapFire (devRecord s e).1
        else (devRecord s e).1).mem := ite_wf (snapFire_wf h1) h1
    unfold devErrorN
    exact ite_wf (devErrorN_wf h2) h2
theorem devError_wf {code : Nat} {loc detail : Option Nat} (h : Memory.wf s.mem) :
    Memory.wf (devError s code loc detail).mem := devErrorN_wf h
theorem flushErrs_wf (h : Memory.wf s.mem) : Memory.wf (flushErrs s).mem := foldl_wf (fun _ _ ht => devErrorN_wf ht) h

/-! ## Reads at a home slice -/

theorem touchLine_wf (h : Memory.wf s.mem) :
    Memory.wf (touchLine s line).mem := ite_wf (devError_wf (resolveLine_wf h)) (resolveLine_wf h)
theorem homeWrite_wf (h : Memory.wf s.mem) :
    Memory.wf (homeWrite s pa bytes bad).mem := acceptWrite_wf (ite_wf h (touchLine_wf h))

/-! ## Room for a read (R242, R245) -/

theorem seenWord_wf {v : Nat} (h : Memory.wf s.mem) : Memory.wf (seenWord s bad v).1.mem := fst_ite_wf h h
theorem seeLine_wf (h : Memory.wf s.mem) : Memory.wf (seeLine s line).mem := ite_wf h (touchLine_wf h)
theorem seeRange_wf (h : Memory.wf s.mem) : Memory.wf (seeRange s pa n).mem := foldl_wf (fun _ _ ht => seeLine_wf ht) h
theorem msix_wf {vector : Nat} (h : Memory.wf s.mem) : Memory.wf (msix s vector).mem := h
theorem State.updCtx_wf {c : Nat} {f : Ctx → Ctx} (h : Memory.wf s.mem) : Memory.wf (State.updCtx s c f).mem := h
theorem State.updCore_wf {c : Nat} {f : Core → Core} (h : Memory.wf s.mem) : Memory.wf (State.updCore s c f).mem := h

/-! ## Translation -/

theorem pteAt_wf {x : List Nat × State} {table i : Nat} (hx : Memory.wf x.2.mem) : Memory.wf (pteAt x table i).1.2.mem := by
  unfold pteAt
  cases pteLine x.2 table i with
  | none => exact hx
  | some l => exact seeLine_wf hx
/-- A level of a walk, from the entry that it reads. -/
theorem pteAt_eq_wf {x y : List Nat × State} {table k : Nat} {r : Option Dword} (h : Memory.wf x.2.mem)
    (e : pteAt x table k = (y, r)) : Memory.wf y.2.mem := by
  have h1 := pteAt_wf (table := table) (i := k) h
  rwa [e] at h1
theorem walkRead_wf {root va : Nat} (h : Memory.wf s.mem) : Memory.wf (walkRead s root va).1.2.mem := by
  unfold walkRead
  split
  · next e => exact pteAt_eq_wf h e
  · next e =>
    have h1 := pteAt_eq_wf h e
    split
    · exact h1
    split
    · exact h1
    split
    · next e => exact pteAt_eq_wf h1 e
    · next e =>
      have h2 := pteAt_eq_wf h1 e
      split
      · exact h2
      split
      · exact h2
      split
      · exact h2
      split
      · next e => exact pteAt_eq_wf h2 e
      · next e =>
        have h3 := pteAt_eq_wf h2 e
        split
        · exact h3
        split <;> exact h3
theorem touchWalk_wf {root va : Nat} (h : Memory.wf s.mem) : Memory.wf (touchWalk s root va).mem := walkRead_wf h
theorem touchVa_wf {va : Nat} (h : Memory.wf s.mem) : Memory.wf (touchVa s ctx va).mem := touchWalk_wf h
theorem walkAll_wf {vas : List Dword} {a : Acc} (h : Memory.wf s.mem) : OptWf (walkAll s core ctx vas a) :=
    .foldl (fun _ _ ht => .bind ht (fun _ hu => .ite (.some hu) (.ite (.some (touchVa_wf hu)) .none))) (.some h)
theorem tlbFill_wf {s0 : State} {va : Nat} (h : Memory.wf s0.mem) : Memory.wf (tlbFill s0 core ctx va).mem := by
  unfold tlbFill
  dsimp only
  split
  · exact h
  split
  · exact State.updCore_wf (touchVa_wf h)
  · exact touchVa_wf h

/-! ## Reads and writes under a context's translation -/

theorem touchPages_wf (h : Memory.wf s.mem) : Memory.wf (touchPages s ctx va n).mem :=
  foldl_wf (fun _ _ ht => touchVa_wf ht) h
theorem vtouch_wf (h : Memory.wf s.mem) : Memory.wf (vtouch s ctx va n).mem := by
  unfold vtouch
  dsimp only
  refine foldl_wf (fun t _ ht => ?_) h
  split
  · exact ite_wf (seeLine_wf (touchVa_wf ht)) (touchVa_wf ht)
  · exact touchVa_wf ht
theorem vwriteLines_wf : ∀ {n : Nat} {s : State} {ctx : Nat} {va : Dword} {bytes : List Byte} {bad : Bool},
    Memory.wf s.mem → Memory.wf (vwriteLines n s ctx va bytes bad).mem
  | 0, _, _, _, _, _, h => h
  | n + 1, s, ctx, va, bytes, bad, h => by
    unfold vwriteLines
    split
    · exact h
    · refine vwriteLines_wf ?_
      split
      · exact ite_wf h (homeWrite_wf h)
      · exact h
theorem vwrite_wf (h : Memory.wf s.mem) : OptWf (vwrite s ctx va bytes) := by
  unfold vwrite
  split
  · exact .some (vwriteLines_wf h)
  · exact .none

/-! ## The context fault log (R381, R382) -/

theorem logRecord_wf {s0 : State} {c : Nat} {r : List Byte} (h : Memory.wf s0.mem) : Memory.wf (logRecord s0 c r).1.mem := by
  unfold logRecord
  dsimp only
  have h1 : Memory.wf (vtouch s0 c (s0.ctx c).flog 64).mem := vtouch_wf h
  split
  · exact h
  split
  · split
    · exact devError_wf h1
    split
    · exact h1
    split
    · exact h1
    · exact devError_wf h1
    · next e =>
      have h2 := (vwrite_wf h1).of_ite e
      split
      · exact devError_wf h2
      · next e =>
        have h3 := (vwrite_wf h2).get e
        exact h3
  · exact devError_wf h1
theorem logEvent_wf {c : Nat} {r : List Byte} (h : Memory.wf s.mem) : Memory.wf (logEvent s c r).mem := by
  unfold logEvent
  dsimp only
  split
  · exact State.updCtx_wf h
  split
  · next e => exact State.updCtx_wf (fst_wf (logRecord_wf h) e)
  · next e =>
    have h1 := fst_wf (logRecord_wf h) e
    split
    · exact OptWf.getD (vwrite_wf h1) h1
    · exact h1
  · next e => exact fst_wf (logRecord_wf h) e
theorem flushLogs_wf {c : Nat} (h : Memory.wf s.mem) :
    Memory.wf (flushLogs s c).mem := foldl_wf (fun _ _ ht => logEvent_wf ht) (ite_wf h (State.updCtx_wf h))
theorem flushFaults_wf {c : Nat} (h : Memory.wf s.mem) : Memory.wf (flushFaults s c).1.mem := by
  unfold flushFaults
  refine foldl_fst_wf (fun t _ ht => ?_) h
  split
  · exact ht
  split
  · next e => exact State.updCtx_wf (fst_wf (logRecord_wf ht) e)
  · next e => exact fst_wf (logRecord_wf ht) e
  · next e => exact fst_wf (logRecord_wf ht) e
  · next e => exact State.updCtx_wf (fst_wf (logRecord_wf ht) e)
theorem pageFault_wf {c info : Nat} {source : Word} {obj : Dword} {blk : Word} (h : Memory.wf s.mem) :
    Memory.wf (pageFault s c va info n source obj blk node).1.mem := by
  unfold pageFault
  dsimp only
  split
  · exact fst_ite_wf h (State.updCtx_wf h)
  · exact flushFaults_wf (State.updCtx_wf h)

/-! ## Blocks, threads and fronds of the state -/

theorem State.updBlock_wf {f : Block → Block} (h : Memory.wf s.mem) : Memory.wf (State.updBlock s bid f).mem := h
theorem State.updThread_wf {f : Thread → Thread} (h : Memory.wf s.mem) :
    Memory.wf (State.updThread s bid tid f).mem := State.updBlock_wf h
theorem State.updThreads_wf {f : Nat → Thread → Thread} (h : Memory.wf s.mem) :
    Memory.wf (State.updThreads s bid tids f).mem := State.updBlock_wf h
theorem State.updFrond_wf {f : Frond → Frond} (h : Memory.wf s.mem) :
    Memory.wf (State.updFrond s bid slot f).mem := State.updBlock_wf h
theorem State.updLaunch_wf {f : Launch → Launch} (h : Memory.wf s.mem) : Memory.wf (State.updLaunch s l f).mem := h
theorem acquireAt_wf {sc : Scope} (h : Memory.wf s.mem) : Memory.wf (acquireAt s core sc).mem := ite_wf (State.updCore_wf h) h

/-! ## What threads know of accumulator writes (R273, R274, R307) -/

theorem learnAt_wf {at_ : Nat → Bool} (h : Memory.wf s.mem) : Memory.wf (learnAt s bid tids at_).mem := State.updBlock_wf h

/-! ## Release of waiters (R400) -/

theorem releaseAs_wf {due : Thread → Nat} (h : Memory.wf s.mem) : Memory.wf (releaseAs s bid tids due).mem := by
  unfold releaseAs
  dsimp only
  split <;> exact h
theorem wakeBlock_wf (h : Memory.wf s.mem) : Memory.wf (wakeBlock s bid).mem := State.updBlock_wf h
theorem releaseWaiters_wf (h : Memory.wf s.mem) : Memory.wf (releaseWaiters s bid tids).mem := by
  unfold releaseWaiters
  split
  · exact h
  · exact releaseAs_wf h
theorem acquireFor_wf (h : Memory.wf s.mem) : Memory.wf (acquireFor s bid b tids).mem := by
  unfold acquireFor
  dsimp only
  refine learnAt_wf ?_
  split
  · exact ite_wf (State.updCore_wf h) h
  · exact h
theorem releaseWhere_wf {p : WaitRec → Bool} (h : Memory.wf s.mem) : Memory.wf (releaseWhere s bid p).mem := by
  unfold releaseWhere
  split
  · exact h
  · exact releaseWaiters_wf (acquireFor_wf h)
theorem releaseMany_wf {l : Waiters} (h : Memory.wf s.mem) : Memory.wf (releaseMany s l).mem := by
  unfold releaseMany
  refine foldl_wf (fun t _ ht => ?_) h
  split
  · exact ht
  · exact releaseAs_wf (acquireFor_wf ht)
theorem bjoinCheck_wf (h : Memory.wf s.mem) : Memory.wf (bjoinCheck s bid slot).mem := by
  unfold bjoinCheck
  dsimp only
  split
  · exact h
  · exact ite_wf (State.updThreads_wf h) h

/-! ## Named barriers (R185 to R188) -/

theorem barCheck_wf {i : Nat} (h : Memory.wf s.mem) : Memory.wf (barCheck s bid i).mem := by
  unfold barCheck
  dsimp only
  split
  · exact h
  · exact ite_wf (releaseWhere_wf (State.updBlock_wf h)) h
theorem barArrive_wf {i : Nat} (h : Memory.wf s.mem) : Memory.wf (barArrive s bid i).mem := barCheck_wf (State.updBlock_wf h)
theorem barsRecheck_wf (h : Memory.wf s.mem) : Memory.wf (barsRecheck s bid).mem := foldl_wf (fun _ _ ht => barCheck_wf ht) h

/-! ## Cohorts (R190) and convoys (R194) -/

theorem cbarCheck_wf {id : Nat} (h : Memory.wf s.mem) : Memory.wf (cbarCheck s l id).mem := by
  unfold cbarCheck
  dsimp only
  split
  · exact h
  split
  · exact h
  · exact ite_wf (releaseMany_wf (State.updLaunch_wf h)) h
theorem cbarRecheck_wf (h : Memory.wf s.mem) : Memory.wf (cbarRecheck s l).mem := by
  unfold cbarRecheck
  split
  · exact h
  · exact foldl_wf (fun _ _ ht => cbarCheck_wf ht) h
theorem cbarArrive_wf (h : Memory.wf s.mem) : Memory.wf (cbarArrive s bid).mem := by
  unfold cbarArrive
  dsimp only
  split
  · exact h
  refine foldl_wf (fun t _ ht => ?_) h
  split
  · exact ite_wf (cbarCheck_wf (State.updLaunch_wf ht)) ht
  · exact ht
theorem updMember_wf {id idx : Nat} {f : Member → Member} (h : Memory.wf s.mem) :
    Memory.wf (updMember s l id idx f).mem := State.updLaunch_wf h
theorem convoyLeave_wf (h : Memory.wf s.mem) : Memory.wf (convoyLeave s bid).mem := by
  unfold convoyLeave
  split
  · exact h
  split
  · exact h
  · exact State.updBlock_wf (updMember_wf h)

/-! ## Killing a block (R34, R205, R335, R373, R387) -/

theorem dropRuns_wf (h : Memory.wf s.mem) : Memory.wf (dropRuns s bid).mem := h
theorem removeBlock_wf (h : Memory.wf s.mem) : Memory.wf (removeBlock s bid b).mem := by
  unfold removeBlock
  dsimp only
  refine State.updCtx_wf ?_
  split
  · exact State.updCore_wf (convoyLeave_wf (dropRuns_wf h))
  · exact State.updCore_wf (convoyLeave_wf (dropRuns_wf h))
  · exact convoyLeave_wf (dropRuns_wf h)
theorem drainCheck_wf {c : Nat} (h : Memory.wf s.mem) : Memory.wf (drainCheck s c).mem := ite_wf (State.updCtx_wf h) h
theorem killQuiet_wf (h : Memory.wf s.mem) : Memory.wf (killQuiet s bid).mem := by
  unfold killQuiet
  dsimp only
  split
  · exact h
  · exact drainCheck_wf (cbarRecheck_wf (State.updLaunch_wf (removeBlock_wf h)))
theorem killBlock_wf {reason : Nat} {source : Word} {addr info2 : Dword} (h : Memory.wf s.mem) :
    Memory.wf (killBlock s bid reason source addr info2).mem := by
  unfold killBlock
  dsimp only
  split
  · exact h
  · exact logEvent_wf (killQuiet_wf h)
theorem killPoison_wf {addr : Dword} (h : Memory.wf s.mem) : Memory.wf (killPoison s bid slot addr).mem := killBlock_wf h
theorem endAudit_wf {copy : Nat} {addr : Dword} (h : Memory.wf s.mem) : Memory.wf (endAudit s copy addr).mem := by
  unfold endAudit
  dsimp only
  split
  · exact h
  · exact State.updLaunch_wf (foldl_wf (fun _ _ ht => killQuiet_wf ht) (logEvent_wf h))

/-! ## Taking a trap (R366 to R373) -/

theorem takeTrap_wf {rs : List Raise} (h : Memory.wf s.mem) : Memory.wf (takeTrap s bid slot rs).mem := by
  unfold takeTrap
  dsimp only
  split
  · exact h
  split
  · exact h
  split
  · exact endAudit_wf h
  split
  · exact killBlock_wf h
  split
  · exact killBlock_wf h
  · exact h
theorem sendCause_wf {c : Cause} (h : Memory.wf s.mem) : Memory.wf (sendCause s bid tid c).mem := by
  unfold sendCause
  dsimp only
  split
  · exact h
  split
  · exact State.updThread_wf h
  · exact killBlock_wf h

end Sys2Proof.Machine
end

section
/-! PROOFS. The words of a thread keep memory canonical: operands, accesses, calls, waits, barriers, convoys and paced steps (R60 to
R196). -/

namespace Sys2Proof.Machine

variable {s : State} {i : Issue} {b : Block} {o : Op} {c : Ctl} {core bid tid slot line pa n l ctx node tgt tag : Nat}
  {tids : List Nat} {va : Dword} {bytes : List Byte} {bad : Bool} {ag : Agent}

/-! ## Early reads and writes (R69) -/

theorem keepReads_wf {rs : List EarlyRead} (h : Memory.wf s.mem) : Memory.wf (keepReads s bid slot rs).mem := h

/-! ## The start of a word -/

theorem Issue.raise_wf {c : Cause} (h : Memory.wf s.mem) : Memory.wf (Issue.raise i s tids c).mem := takeTrap_wf h
theorem startWord_wf {rd wr : List Reg} {once : Bool} (h : Memory.wf s.mem) : Start.Wf (startWord c rd wr once i s) := by
  unfold startWord
  extract_lets now tids regs ts early checks view fr act i1 counted
  split
  · exact Issue.raise_wf h
  split
  · exact killPoison_wf h
  split
  · exact trivial
  split
  · exact keepReads_wf h
  · exact ite_wf h h

/-! ## The end of a word (R36, R58, R66) -/

theorem endWord_wf {target : Nat → Option Dword} (h : Memory.wf s.mem) : Memory.wf (endWord c bid slot target s).mem := by
  unfold endWord
  dsimp only
  split
  · exact h
  split
  · exact h
  split
  · exact h
  · exact ite_wf (State.updBlock_wf h) (State.updBlock_wf h)

/-! ## Token-tracked results that no reply brings (R67 to R69) -/

theorem countWord_wf {wr : List Reg} {once : Bool} (h : Memory.wf s.mem) :
    Memory.wf (countWord c wr once i s).mem := State.updThreads_wf h
theorem markLanding_wf {wr : List Reg} (h : Memory.wf s.mem) :
    Memory.wf (markLanding c wr i s).mem := ite_wf h (State.updFrond_wf (State.updThreads_wf h))
theorem raceBack_wf {wr : List Reg} (h : Memory.wf s.mem) :
    Memory.wf (raceBack wr i n s).mem := ite_wf (State.updFrond_wf (State.updThreads_wf h)) h
/-- The frame of every word of a thread: what holds after the word's body holds after the word. -/
theorem exWord_wf {rd wr : List Reg} {once : Bool} {body : Issue → State → Option (State × (Nat → Option Dword))}
    (h : Memory.wf s.mem) (hbody : ∀ j t, Memory.wf t.mem → BodyWf (body j t)) : Out.Wf (exWord c rd wr once s body) := by
  unfold exWord
  dsimp only
  split
  · exact .refused
  split
  · exact .next h
  · next e => exact .next ((startWord_wf h).of_eq e)
  · next e => exact .next (endWord_wf ((startWord_wf h).of_eq e))
  · next e =>
    have h1 := (startWord_wf h).of_eq e
    split
    · exact .next h
    · next e => exact .next (endWord_wf (markLanding_wf (countWord_wf (raceBack_wf ((hbody _ _ h1).get e)))))
theorem exVec_wf {rd wr : List Reg} {body : Issue → State → State} (h : Memory.wf s.mem)
    (hbody : ∀ j t, Memory.wf t.mem → Memory.wf (body j t).mem) :
    Out.Wf (exVec c rd wr s body) := exWord_wf h (fun _ _ ht => .some (hbody _ _ ht))
theorem exUni_wf {rd wr : List Reg} {body : Issue → State → State} (h : Memory.wf s.mem)
    (hbody : ∀ j t, Memory.wf t.mem → Memory.wf (body j t).mem) :
    Out.Wf (exUni c rd wr s body) := exWord_wf h (fun _ _ ht => .some (ite_wf ht (hbody _ _ ht)))

/-! ## Results -/

theorem Issue.lanes_wf {f : Nat → Thread → Thread} (h : Memory.wf s.mem) :
    Memory.wf (Issue.lanes i s f).mem := State.updThreads_wf h
theorem Issue.putS_wf {d : Nat} {x : Dword} (h : Memory.wf s.mem) :
    Memory.wf (Issue.putS i s d x bad).mem := State.updFrond_wf h
theorem Issue.putAll_wf {lat d : Nat} {x : Bool} (h : Memory.wf s.mem) : Memory.wf (Issue.putAll i s c lat d x bad).mem :=
    ite_wf (State.updThreads_wf (raceBack_wf (State.updThreads_wf h))) (State.updThreads_wf h)
theorem exAll_wf {rd wr : List Reg} {d : Pred} {once : Bool} {body : Issue → State → State} (h : Memory.wf s.mem)
    (hbody : ∀ j t, Memory.wf t.mem → Memory.wf (body j t).mem) : Out.Wf (exAll c rd wr d once s body) :=
    exWord_wf h (fun _ _ ht => .some (ite_wf ht (ite_wf (Issue.raise_wf ht) (ite_wf (hbody _ _ ht) (hbody _ _ ht)))))
theorem vop_wf {lat : Nat} {d : VReg} {dw : Bool} {srcs : List (Opnd × Bool)} {more : List Reg}
    {f : Issue → Nat → List Dword → Dword} (h : Memory.wf s.mem) :
    Out.Wf (vop c lat d dw srcs more f s) := exVec_wf h (fun _ _ ht => Issue.lanes_wf ht)
theorem vpred_wf {lat : Nat} {d : Pred} {srcs : List (Opnd × Bool)} {f : List Dword → Bool} (h : Memory.wf s.mem) :
    Out.Wf (vpred c lat d srcs f s) := exVec_wf h (fun _ _ ht => Issue.lanes_wf ht)
theorem uop_wf {d a : SReg} {b : USrc} {f : Dword → Dword → Dword} (h : Memory.wf s.mem) :
    Out.Wf (uop c d a b f s) := exUni_wf h (fun _ _ ht => Issue.putS_wf ht)

/-! ## Flags in a lane (R72, R90, R91) -/

theorem Issue.fpDone_wf {fl : Nat → Nat} {put : Nat → Thread → Thread} (h : Memory.wf s.mem) :
    Memory.wf (Issue.fpDone i s fl put).mem := takeTrap_wf (Issue.lanes_wf h)
theorem fvop_wf {lat : Nat} {d : VReg} {dw : Bool} {srcs : List (Opnd × Bool)} {f : List Dword → Dword × Nat}
    (h : Memory.wf s.mem) : Out.Wf (fvop c lat d dw srcs f s) := exVec_wf h (fun _ _ ht => Issue.fpDone_wf ht)

/-! ## Slice clocks (R375, R399) -/

theorem settleClock_wf (h : Memory.wf s.mem) : Memory.wf (settleClock s core).mem := State.updCore_wf h
theorem newRatio_wf {slice : Nat} (h : Memory.wf s.mem) :
    Memory.wf (newRatio s core slice).mem := ite_wf (State.updCore_wf (settleClock_wf h)) h

/-! ## Answers to page faults (R380, R381) -/

theorem retryPage_wf {page : Nat} (h : Memory.wf s.mem) : Memory.wf (retryPage s ctx page).mem := h
theorem denyOps_wf {page : Nat} (h : Memory.wf s.mem) : Memory.wf (denyOps s ctx page).mem := h
theorem failPage_wf {page : Nat} (h : Memory.wf s.mem) : Memory.wf (failPage s ctx page).mem := by
  unfold failPage
  dsimp only
  refine foldl_wf (fun t _ ht => ?_) (denyOps_wf (State.updCtx_wf h))
  split
  · exact ht
  · exact ite_wf ht (foldl_wf (fun _ _ ht => takeTrap_wf ht) ht)
theorem pageAbsent_wf {info : Nat} {source : Word} {obj : Dword} {blk : Word} (h : Memory.wf s.mem) :
    Memory.wf (pageAbsent s ctx va info n source obj blk node).mem := foldl_wf (fun _ _ ht => failPage_wf ht) (pageFault_wf h)
theorem Issue.parkPage_wf {va : Nat → Dword} {info : Nat} {whole : Bool} (h : Memory.wf s.mem) :
    Memory.wf (Issue.parkPage i s tids va info whole).mem :=
    ite_wf h (foldl_wf (fun _ _ ht => pageAbsent_wf ht) (State.updFrond_wf (State.updThreads_wf h)))
theorem Issue.parkLine_wf {line off : Nat → Nat} (h : Memory.wf s.mem) :
    Memory.wf (Issue.parkLine i s tids line off).mem := ite_wf h (State.updFrond_wf (State.updThreads_wf h))
theorem Issue.raiseEach_wf {rs : List (Nat × Cause)} (h : Memory.wf s.mem) :
    Memory.wf (Issue.raiseEach i s rs).mem := takeTrap_wf h

/-! ## Outstanding accesses and holds (R157) -/

theorem acquireBy_wf {sc : Scope} (h : Memory.wf s.mem) :
    Memory.wf (acquireBy s core bid tids sc).mem := ite_wf h (learnAt_wf (acquireAt_wf h))

/-! ## Tokens and results (R67, R69, R158) -/

theorem countUp_wf (h : Memory.wf s.mem) : Memory.wf (countUp s c bid tids).mem := ite_wf (State.updThreads_wf h) h
theorem countDown_wf {tok : Option Nat} (h : Memory.wf s.mem) : Memory.wf (countDown s bid tids tok).mem := by
  unfold countDown
  split
  · exact State.updThreads_wf h
  · exact h
theorem landLoad_wf {d : Dst} {sz : Sz} (h : Memory.wf s.mem) : Memory.wf (landLoad s bid tid tids d sz bytes bad).mem := by
  unfold landLoad
  dsimp only
  split
  · exact State.updThread_wf h
  · exact State.updFrond_wf h
  · exact h
theorem landGot_wf {id : Nat} {g : Got} (h : Memory.wf s.mem) : Memory.wf (landGot s id g).mem := h
theorem awaitDst_wf {d : Dst} {sz : Sz} (h : Memory.wf s.mem) : Memory.wf (awaitDst s bid tid d sz).mem := by
  unfold awaitDst
  split
  · exact State.updThread_wf h
  · exact State.updFrond_wf h
  · exact h
theorem dropLoad_wf {d : Dst} {sz : Sz} (h : Memory.wf s.mem) : Memory.wf (dropLoad s bid tid d sz).mem := by
  unfold dropLoad
  split
  · exact State.updThread_wf h
  · exact State.updFrond_wf h
  · exact h
theorem Join.land_wf {j : Join} (h : Memory.wf s.mem) : Memory.wf (Join.land j s bytes bad).mem := by
  unfold Join.land
  split
  · exact landGot_wf h
  · exact State.updFrond_wf h
  · exact countDown_wf (landLoad_wf h)

/-! ## Sending (R156, R241, R248, R251, R351) -/

theorem sendRemote_wf {r : Req} {js : List Join} (h : Memory.wf s.mem) : Memory.wf (sendRemote s core tgt r js).mem := h
theorem readRemote_wf {word : Nat} {r : Req} {j : Join} (h : Memory.wf s.mem) :
    Memory.wf (readRemote s core tgt word r j).mem := ite_wf h (sendRemote_wf h)
theorem sendRead_wf {nc : Bool} {who : Asker} {lanes : List Nat} {j : Join} (h : Memory.wf s.mem) :
    OptWf (sendRead s core line nc who lanes j) := .ite (.some (State.updCore_wf h)) (.ite .none (.some (State.updCore_wf h)))
theorem sendReq_wf {r : Req} (h : Memory.wf s.mem) : Memory.wf (sendReq s core r).mem := State.updCore_wf h
theorem loadAt_wf {p : Party} {nc : Bool} {sz : Sz} {acq : Scope} {d : Dst} (h : Memory.wf s.mem) :
    OptWf (loadAt s i c p va tgt nc sz acq d) := by
  unfold loadAt
  dsimp only
  split
  · exact .some (awaitDst_wf (countUp_wf (readRemote_wf h)))
  split
  · exact .some (landLoad_wf (acquireBy_wf h))
  split
  · exact .some (landLoad_wf (acquireBy_wf h))
  · exact .map (sendRead_wf h) (fun _ ht => awaitDst_wf (countUp_wf ht))
theorem storeAt_wf {p : Party} {rel : Scope} (h : Memory.wf s.mem) : Memory.wf (storeAt s i c p va tgt rel bytes bad).mem :=
    ite_wf (countUp_wf (sendRemote_wf h)) (ite_wf h (countUp_wf (sendReq_wf (ite_wf (State.updCore_wf h) h))))
theorem atomicAt_wf {p : Party} {acq rel : Scope} {k : ReqKind} (h : Memory.wf s.mem) :
    Memory.wf (atomicAt s i c p va tgt acq rel k).mem :=
    ite_wf (countUp_wf (sendRemote_wf h)) (countUp_wf (sendReq_wf (State.updCore_wf h)))

/-! ## A word's accesses, lane by lane -/

theorem Issue.accesses_wf {lanes : List Nat} {fate : Nat → Fate} {va : Nat → Dword} {info : Nat}
    {perform : State → Nat → Nat → Bool → Option State} (h : Memory.wf s.mem)
    (hperform : ∀ t a1 a2 a3, Memory.wf t.mem → OptWf (perform t a1 a2 a3)) :
    OptWf (Issue.accesses i s lanes fate va info perform) := by
  unfold Issue.accesses
  dsimp only
  refine .map (.foldl (fun t _ ht => ?_) (.some h)) (fun _ ht => Issue.raiseEach_wf (Issue.parkPage_wf ht))
  split
  · exact .ite .none (hperform _ _ _ _ (tlbFill_wf (ht.get rfl)))
  · exact ht
theorem Issue.walked_wf {lanes : List Nat} {va : Nat → Dword} {u : Use} {go : State → Option (State × (Nat → Option Dword))}
    (h : Memory.wf s.mem) (hgo : ∀ t, Memory.wf t.mem → BodyWf (go t)) :
    BodyWf (Issue.walked i s lanes va n u go) := .bind (walkAll_wf h) (fun _ ht => hgo _ ht)
theorem Issue.accessOnce_wf {fate : Fate} {info : Nat} {perform : State → Nat → Bool → Option State} (h : Memory.wf s.mem)
    (hperform : ∀ t a1 a2, Memory.wf t.mem → OptWf (perform t a1 a2)) : OptWf (Issue.accessOnce i s fate va info perform) := by
  unfold Issue.accessOnce
  split
  · exact .ite .none (hperform _ _ _ (tlbFill_wf h))
  · exact .some h
  · exact .some (Issue.parkPage_wf h)
  · exact .some (Issue.raiseEach_wf h)
theorem Issue.poisoned_wf {addr : Dword} (h : Memory.wf s.mem) : BodyWf (Issue.poisoned i s addr) := .some (killPoison_wf h)
theorem plain_wf {s : Option State} (hs : OptWf s) : BodyWf (plain s) := .map hs (fun _ ht => ht)

/-! ## Scratchpad -/

theorem Issue.scrAccesses_wf {lanes : List Nat} {fate : Nat → ScrFate} {perform : State → Nat → List Nat → State}
    (h : Memory.wf s.mem) (hperform : ∀ t a1 a2, Memory.wf t.mem → Memory.wf (perform t a1 a2).mem) :
    Memory.wf (Issue.scrAccesses i s lanes fate perform).mem := by
  unfold Issue.scrAccesses
  dsimp only
  refine Issue.raiseEach_wf (Issue.parkLine_wf (foldl_wf (fun t _ ht => ?_) h))
  split
  · exact hperform _ _ _ ht
  · exact ht
theorem setPresent_wf {lines : List Nat} (h : Memory.wf s.mem) : Memory.wf (setPresent s bid lines).mem := State.updBlock_wf h
theorem raiseAbsent_wf (h : Memory.wf s.mem) : Memory.wf (raiseAbsent s bid line).mem := by
  unfold raiseAbsent
  split
  · exact h
  · exact foldl_wf (fun _ _ ht => takeTrap_wf ht) h

/-! ## Private memory -/

theorem writeBack_wf (h : Memory.wf s.mem) : Memory.wf (writeBack s core line).mem := by
  unfold writeBack
  split
  · refine ite_wf ?_ h
    rw [State.updCore_mem]
    exact homeWrite_wf h
  · exact h
theorem replaceLine_wf (h : Memory.wf s.mem) :
    Memory.wf (replaceLine s core line).mem := ite_wf (State.updCore_wf (writeBack_wf h)) h
theorem l1Room_wf (h : Memory.wf s.mem) : Memory.wf (l1Room s core line).mem := ite_wf h (replaceLine_wf h)
theorem privFetch_wf (h : Memory.wf s.mem) :
    Memory.wf (privFetch s core bid line).mem := ite_wf h (State.updCore_wf (l1Room_wf (seeLine_wf h)))
theorem privRead_wf : ∀ {ps : List (Nat × Bool × Nat)} {s : State} {core bid : Nat},
    Memory.wf s.mem → Memory.wf (privRead s core bid ps).1.mem
  | [], _, _, _, h => h
  | _ :: t, _, _, _, h => privRead_wf (ps := t) (ite_wf (seeLine_wf h) (privFetch_wf h))
theorem privWrite_wf : ∀ {ps : List (Nat × Bool × Nat)} {s : State} {core bid : Nat} {bytes : List Byte} {bad : Bool},
    Memory.wf s.mem → Memory.wf (privWrite s core bid ps bytes bad).mem
  | [], _, _, _, _, _, h => h
  | _ :: t, _, _, _, _, _, h => privWrite_wf (ps := t) (ite_wf (homeWrite_wf h) (privFetch_wf h))

/-! ## Accumulator store -/

theorem scrStore_wf {as : List Nat} (h : Memory.wf s.mem) :
    Memory.wf (scrStore s core bid tid as bytes bad).mem := State.updBlock_wf h
theorem accStore_wf {row col : Nat} {x : Word} (h : Memory.wf s.mem) :
    Memory.wf (accStore s bid tid row col x bad).mem := State.updBlock_wf h
theorem publishStas_wf {places : List Nat} (h : Memory.wf s.mem) :
    Memory.wf (publishStas s bid tids places).mem := State.updBlock_wf h
theorem fenceStas_wf (h : Memory.wf s.mem) : Memory.wf (fenceStas s bid slot tids).mem := State.updBlock_wf h
theorem exCtl_wf {rd wr : List Reg} {body : Issue → State → Option (State × (Nat → Option Dword))} (h : Memory.wf s.mem)
    (hbody : ∀ j t, Memory.wf t.mem → BodyWf (body j t)) :
    Out.Wf (exCtl c rd wr s body) := exWord_wf h (fun _ _ ht => hbody _ _ ht)
theorem execBra_wf {off : BitVec 32} (h : Memory.wf s.mem) : Out.Wf (execBra c off s) := exCtl_wf h (fun _ _ ht => .some ht)
theorem execBrx_wf {a : Opnd} (h : Memory.wf s.mem) :
    Out.Wf (execBrx c a s) := exCtl_wf h (fun _ _ ht => .ite (Issue.poisoned_wf ht) (.some (Issue.raiseEach_wf ht)))

/-! ## Calls (R112 to R114) -/

theorem entryLoad_wf {nc : Bool} (h : Memory.wf s.mem) : BodyWf (entryLoad s core pa nc) := by
  unfold entryLoad
  dsimp only
  split
  · exact .some h
  split
  · exact .some h
  · exact .ite .none (.some (seeLine_wf h))
theorem lookupFrom_wf : ∀ {n k : Nat} {s : State} {i : Issue} {t : Dword}, Memory.wf s.mem → Memory.wf (lookupFrom s i t n k).1.mem
  | 0, _, _, _, _, h => h
  | n + 1, k, s, i, t, h => by
    unfold lookupFrom
    dsimp only
    split
    · exact h
    · next e =>
      have h1 := (walkAll_wf h).get e
      split
      · split
        · exact h
        · next e =>
          have h2 := (entryLoad_wf (tlbFill_wf h1)).get e
          exact fst_ite_wf h2 (fst_ite_wf h2 (lookupFrom_wf h2))
      all_goals exact h1
theorem stackFate_wf {p : Nat} {write : Bool} (h : Memory.wf s.mem) :
    BodyWf (stackFate s i tid p write) := .bind (walkAll_wf h) (fun _ ht => .ite (.some ht) .none)
theorem callEnd_wf {t : Dword} {look : Bool} (h : Memory.wf s.mem) : Memory.wf (callEnd s i tid t look).1.mem := by
  unfold callEnd
  dsimp only
  split
  · split
    · exact h
    split
    · next e =>
      have h1 := fst_wf (lookupFrom_wf h) e
      split
      · exact h1
      split
      · exact h1
      split
      · exact h1
      all_goals next e => exact (stackFate_wf h1).get e
    all_goals next e => exact fst_wf (lookupFrom_wf h) e
  split
  · exact h
  split
  · exact h
  all_goals next e => exact (stackFate_wf h).get e
theorem callBody_wf {target : Nat → Dword} {look : Bool} (h : Memory.wf s.mem) : BodyWf (callBody i s target look) := by
  unfold callBody
  dsimp only
  split
  · exact .none
  split
  · exact .none
  split
  · exact Issue.poisoned_wf h
  refine .some (Issue.raiseEach_wf (Issue.parkPage_wf
      (foldl_wf (fun t _ ht => ?_) (foldl_fst_wf (fun _ _ ht => callEnd_wf ht) h))))
  split
  · exact State.updThread_wf (privWrite_wf ht)
  · exact ht
theorem retEnd_wf (h : Memory.wf s.mem) : Memory.wf (retEnd s i tid).1.mem := by
  unfold retEnd
  dsimp only
  split
  · exact h
  split
  · exact h
  · next e => exact privRead_wf ((stackFate_wf h).get e)
  all_goals next e => exact (stackFate_wf h).get e
theorem execRet_wf (h : Memory.wf s.mem) : Out.Wf (execRet c s) := by
  unfold execRet
  dsimp only
  refine exCtl_wf h (fun _ t ht => ?_)
  split
  · exact .none
  split
  · exact .none
  split
  · exact Issue.poisoned_wf ht
  · exact .some (Issue.raiseEach_wf (Issue.parkPage_wf
        (State.updThreads_wf (foldl_fst_wf (fun _ _ ht => retEnd_wf ht) ht))))

/-! ## Waits (R25) -/

theorem Issue.startWait_wf {w : Nat → WaitRec} (h : Memory.wf s.mem) :
    Memory.wf (Issue.startWait i s tids w).mem := ite_wf h (State.updBlock_wf (State.updThreads_wf h))
theorem execSleep_wf {a : Opnd} (h : Memory.wf s.mem) : Out.Wf (execSleep c a s) :=
    exCtl_wf h (fun _ _ ht => .ite (Issue.poisoned_wf ht) (plain_wf (.some (Issue.startWait_wf ht))))

/-! ## Reform (R42, R115) -/

theorem fileThread_wf (h : Memory.wf s.mem) : Memory.wf (fileThread i s tid).mem := by
  unfold fileThread
  dsimp only
  split
  · split
    · exact State.updThread_wf (State.updCore_wf h)
    · exact h
  split
  · exact State.updThread_wf (State.updCore_wf h)
  · exact h

/-! ## Exit (R117) -/

theorem afterExit_wf (h : Memory.wf s.mem) :
    Memory.wf (afterExit s bid slot).mem := cbarArrive_wf (barsRecheck_wf (bjoinCheck_wf (State.updBlock_wf h)))
theorem execExit_wf (h : Memory.wf s.mem) :
    Out.Wf (execExit c s) := exVec_wf h (fun _ _ ht => ite_wf ht (afterExit_wf (foldl_wf (fun _ _ hu => sendCause_wf hu) ht)))

/-! ## Traps (R118, R119) -/

theorem Issue.softTrap_wf {bit info : Nat} (h : Memory.wf s.mem) : Memory.wf (Issue.softTrap i s bit info).mem := takeTrap_wf h
theorem Issue.illop_wf {rs : List (Nat × Nat)} (h : Memory.wf s.mem) :
    Memory.wf (Issue.illop i s rs).mem := Issue.raiseEach_wf h
theorem illFirst_wf {ill : Issue → List (Nat × Nat)} {rest : Out} (h : Memory.wf s.mem) (hrest : Out.Wf (rest)) :
    Out.Wf (illFirst c ill s rest) := by
  unfold illFirst
  dsimp only
  split
  · exact hrest
  · exact .ite hrest (.next (endWord_wf (Issue.illop_wf h)))
theorem execTret_wf (h : Memory.wf s.mem) : Out.Wf (execTret c s) := by
  unfold execTret
  dsimp only
  refine illFirst_wf h (exVec_wf h (fun _ t ht => ?_))
  split
  · exact killBlock_wf ht
  · exact Issue.illop_wf (State.updBlock_wf (State.updFrond_wf (State.updThreads_wf (State.updThreads_wf ht))))

/-! ## Special registers (R122, R123) -/

theorem execSwr_wf {a : Opnd} {wide : Bool} {num : BitVec 12} (h : Memory.wf s.mem) : Out.Wf (execSwr c a wide num s) :=
    exCtl_wf h (fun _ _ ht => .ite (plain_wf (.some ht))
      (.ite (Issue.poisoned_wf ht) (plain_wf (.some (State.updBlock_wf (State.updFrond_wf (Issue.lanes_wf ht)))))))

/-! ## Global loads and stores -/

theorem ldBody_wf {sz : Sz} {nc : Bool} {ord : Ord} {sc : Scope} {d : VReg} {m : MAddr} (h : Memory.wf s.mem) :
    BodyWf (ldBody c sz nc ord sc d m i s) :=
    .ite (Issue.poisoned_wf h) (.ite .none (Issue.walked_wf h
      (fun _ ht => plain_wf (Issue.accesses_wf ht (fun _ _ _ _ hu => loadAt_wf hu)))))
theorem Issue.publish_wf {ord : Ord} {lanes : List Nat} (h : Memory.wf s.mem) :
    Memory.wf (Issue.publish i s ord lanes).mem := ite_wf (publishStas_wf h) h
theorem execSt_wf {sz : Sz} {ord : Ord} {sc : Scope} {m : MAddr} {a : Opnd} (h : Memory.wf s.mem) :
    Out.Wf (execSt c sz ord sc m a s) := by
  unfold execSt
  dsimp only
  refine exWord_wf h (fun _ t ht => ?_)
  split
  · exact Issue.poisoned_wf ht
  split
  · exact .none
  refine Issue.walked_wf ht (fun t ht => ?_)
  split
  · exact Issue.poisoned_wf ht
  · exact plain_wf (Issue.accesses_wf (Issue.publish_wf ht) (fun _ _ _ _ ht => .some (storeAt_wf ht)))

/-! ## The uniform memory words (R129) -/

theorem execSld_wf {sz : Sz} {d a : SReg} {imm : BitVec 22} (h : Memory.wf s.mem) : Out.Wf (execSld c sz d a imm s) :=
    exWord_wf h (fun _ _ ht => .ite (plain_wf (.some ht))
      (.ite (Issue.poisoned_wf ht) (.ite .none
      (Issue.walked_wf ht (fun _ hu => plain_wf (Issue.accessOnce_wf hu (fun _ _ _ hw => loadAt_wf hw)))))))
theorem execSst_wf {sz : Sz} {a : SReg} {imm : BitVec 22} {b : SReg} (h : Memory.wf s.mem) : Out.Wf (execSst c sz a imm b s) :=
    exWord_wf h (fun _ _ ht => .ite (plain_wf (.some ht))
      (.ite (Issue.poisoned_wf ht) (.ite .none
      (Issue.walked_wf ht (fun _ hu =>
      .ite (Issue.poisoned_wf hu) (plain_wf (Issue.accessOnce_wf hu (fun _ _ _ hw => .some (storeAt_wf hw)))))))))
theorem execSldl_wf {sz : Sz} {d a : SReg} {imm : BitVec 22} (h : Memory.wf s.mem) : Out.Wf (execSldl c sz d a imm s) := by
  unfold execSldl
  dsimp only
  refine exWord_wf h (fun _ t ht => ?_)
  split
  · exact plain_wf (.some ht)
  split
  · exact Issue.poisoned_wf ht
  split
  · exact .none
  split
  · exact .ite .none (plain_wf (.some (Issue.putS_wf ht)))
  · exact plain_wf (.some (Issue.parkLine_wf ht))
  · exact plain_wf (.some (Issue.raiseEach_wf ht))

/-! ## Scratchpad (R162) -/

theorem scrAcquire_wf {ord : Ord} {sc : Scope} {fate : Nat → ScrFate} {s0 : State} (h : Memory.wf s0.mem) :
    Memory.wf (scrAcquire i ord sc fate s0).mem := by
  unfold scrAcquire
  dsimp only
  split
  · refine foldl_wf (fun t _ ht => ?_) (ite_wf (acquireAt_wf h) h)
    split
    · exact learnAt_wf ht
    · exact ht
  · exact ite_wf (acquireAt_wf h) h
theorem scrPublish_wf {ord : Ord} {fate : Nat → ScrFate} (h : Memory.wf s.mem) : Memory.wf (scrPublish i ord fate s).mem := by
  unfold scrPublish
  split
  · refine foldl_wf (fun t _ ht => ?_) h
    split
    · exact publishStas_wf ht
    · exact ht
  · exact h
theorem pushRel_wf {r : LocalRel} (h : Memory.wf s.mem) : Memory.wf (pushRel s bid r).mem := h
theorem execLdl_wf {sz : Sz} {skew : Bool} {ord : Ord} {sc : Scope} {d : VReg} {x : Opnd} {imm : BitVec 18}
    (h : Memory.wf s.mem) : Out.Wf (execLdl c sz skew ord sc d x imm s) :=
    exWord_wf h (fun _ _ ht => .ite (Issue.poisoned_wf ht)
      (.ite .none (plain_wf (.some (scrAcquire_wf (Issue.scrAccesses_wf ht (fun _ _ _ hu => State.updThread_wf hu)))))))
theorem slotHold_wf {rd wr : List Reg} {fate : State → Issue → Nat → ScrFate} {go : Out} (h : Memory.wf s.mem)
    (hgo : Out.Wf (go)) : Out.Wf (slotHold c rd wr fate s go) := by
  unfold slotHold
  split
  · exact .refused
  split
  · exact .ite (.next h) (.ite (.next (State.updFrond_wf h)) hgo)
  · exact hgo
theorem execStl_wf {sz : Sz} {skew : Bool} {ord : Ord} {sc : Scope} {x : Opnd} {imm : BitVec 18} {a : Opnd}
    (h : Memory.wf s.mem) : Out.Wf (execStl c sz skew ord sc x imm a s) := by
  unfold execStl
  exact slotHold_wf h (exWord_wf h (fun _ _ ht =>
      .ite (Issue.poisoned_wf ht)
      (.ite .none (.ite
      (plain_wf (.some (Issue.scrAccesses_wf (scrPublish_wf ht) (fun _ _ _ hu => countUp_wf (pushRel_wf hu)))))
      (plain_wf (.some (Issue.scrAccesses_wf (scrPublish_wf ht) (fun _ _ _ hu => scrStore_wf hu))))))))
theorem scrAtomic_wf {as : List Nat} {k : AOp} {a b : Dword} (h : Memory.wf s.mem) :
    Memory.wf (scrAtomic s core bid tid as k a b bad).1.mem := by
  unfold scrAtomic
  dsimp only
  split
  · exact h
  · exact scrStore_wf h
theorem localRelease_wf {seq : Nat} (h : Memory.wf s.mem) : Memory.wf (localRelease s bid seq).mem := by
  unfold localRelease
  dsimp only
  split
  · exact h
  split
  · exact h
  split
  · exact h
  split
  · exact countDown_wf (scrStore_wf (State.updBlock_wf h))
  · exact countDown_wf (landLoad_wf (acquireBy_wf (scrAtomic_wf (State.updBlock_wf h))))
theorem execAtoml_wf {k : AOp} {ord : Ord} {sc : Scope} {d : VReg} {x : Opnd} {imm : BitVec 18} (h : Memory.wf s.mem) :
    Out.Wf (execAtoml c k ord sc d x imm s) := by
  unfold execAtoml
  exact slotHold_wf h (exWord_wf h (fun _ _ ht =>
      .ite (Issue.poisoned_wf ht)
      (.ite .none (.ite
      (plain_wf (.some (Issue.scrAccesses_wf (scrPublish_wf ht)
      (fun _ _ _ hu => awaitDst_wf (countUp_wf (pushRel_wf hu))))))
      (plain_wf (.some (scrAcquire_wf
      (Issue.scrAccesses_wf (scrPublish_wf ht) (fun _ _ _ hu => State.updThread_wf (scrAtomic_wf hu))))))))))
theorem execPtest_wf {p : Pred} {x : Opnd} {imm : BitVec 18} (h : Memory.wf s.mem) : Out.Wf (execPtest c p x imm s) :=
    exWord_wf h (fun _ _ ht => .ite (Issue.poisoned_wf ht)
      (.ite .none (plain_wf (.some (Issue.raiseEach_wf (State.updThreads_wf ht))))))

/-! ## Private memory (R164) -/

theorem privWord_wf {x : Opnd} {imm : BitVec 18} {sz : Sz} {write : Bool}
    {perform : Issue → State → Nat → List (Nat × Bool × Nat) → State}
    (hperform : ∀ j t a2 a3, Memory.wf t.mem → Memory.wf (perform j t a2 a3).mem) (h : Memory.wf s.mem) :
    BodyWf (privWord x imm sz write perform i s) := by
  unfold privWord
  dsimp only
  split
  · exact Issue.poisoned_wf h
  split
  · exact .none
  refine .bind (walkAll_wf h) (fun t ht => ?_)
  split
  · exact .none
  refine plain_wf (.some (Issue.raiseEach_wf (Issue.parkPage_wf (foldl_wf (fun t _ ht => ?_) ht))))
  split
  · exact hperform _ _ _ _ ht
  · exact ht
theorem execLdp_wf {sz : Sz} {d : VReg} {x : Opnd} {imm : BitVec 18} (h : Memory.wf s.mem) : Out.Wf (execLdp c sz d x imm s) :=
    exWord_wf h (fun _ _ ht => privWord_wf (fun _ _ _ _ hu => State.updThread_wf (privRead_wf hu)) ht)
theorem execStp_wf {sz : Sz} {x : Opnd} {imm : BitVec 18} {a : Opnd} (h : Memory.wf s.mem) :
    Out.Wf (execStp c sz x imm a s) := exWord_wf h (fun _ _ ht => privWord_wf (fun _ _ _ _ hu => privWrite_wf hu) ht)

/-! ## Accumulator store (R165) -/

theorem execLda_wf {d : VReg} {x : Opnd} {imm : BitVec 18} (h : Memory.wf s.mem) : Out.Wf (execLda c d x imm s) := by
  unfold execLda
  dsimp only
  refine exWord_wf h (fun _ t ht => ?_)
  split
  · exact plain_wf (.some ht)
  split
  · exact Issue.poisoned_wf ht
  split
  · exact .none
  split
  · exact plain_wf (.some (Issue.raiseEach_wf ht))
  · exact plain_wf (.some (Issue.lanes_wf ht))
theorem execSta_wf {x : Opnd} {imm : BitVec 18} {a : Opnd} (h : Memory.wf s.mem) : Out.Wf (execSta c x imm a s) := by
  unfold execSta
  dsimp only
  refine exWord_wf h (fun _ t ht => ?_)
  split
  · exact plain_wf (.some ht)
  split
  · exact Issue.poisoned_wf ht
  split
  · exact .none
  split
  · exact plain_wf (.some (Issue.raiseEach_wf ht))
  · exact plain_wf (.some (foldl_wf (fun _ _ ht => accStore_wf ht) ht))

/-! ## Atomics and reductions (R166, R168) -/

theorem controlAtomic_wf {k : AOp} {d : Option Nat} (h : Memory.wf s.mem) : Memory.wf (controlAtomic s i tid tgt k d).mem := by
  unfold controlAtomic
  split
  · exact landLoad_wf h
  · exact h
theorem atomBody_wf {k : AOp} {ord : Ord} {sc : Scope} {m : MAddr} {regs : List Reg} {d : Option Nat}
    {ops : Issue → Nat → Dword × Dword} (h : Memory.wf s.mem) : BodyWf (atomBody c k ord sc m regs d ops i s) := by
  unfold atomBody
  dsimp only
  split
  · exact Issue.poisoned_wf h
  split
  · exact .none
  refine Issue.walked_wf h (fun t ht => ?_)
  split
  · exact Issue.poisoned_wf ht
  refine plain_wf (Issue.accesses_wf (Issue.publish_wf ht) (fun t _ _ _ ht => ?_))
  split
  · exact .some (controlAtomic_wf ht)
  refine .some ?_
  split
  · exact awaitDst_wf (atomicAt_wf ht)
  · exact atomicAt_wf ht

/-! ## Fences and maintenance of the L1 (R171 to R174) -/

theorem execFence_wf {ord : Ord} {sc : Scope} (h : Memory.wf s.mem) : Out.Wf (execFence c ord sc s) :=
    exWord_wf h (fun _ _ ht => .ite (plain_wf (.some ht))
      (.ite .none (plain_wf (.some (ite_wf (learnAt_wf (acquireAt_wf (ite_wf (publishStas_wf ht) ht)))
      (ite_wf (publishStas_wf ht) ht))))))
theorem execEfence_wf {sc : Scope} (h : Memory.wf s.mem) : Out.Wf (execEfence c sc s) :=
    exWord_wf h (fun _ _ ht => .ite (plain_wf (.some ht)) (.ite .none (plain_wf (.some (acquireAt_wf (fenceStas_wf ht))))))
theorem cinvRange_wf {va : Nat} (h : Memory.wf s.mem) :
    Memory.wf (cinvRange s core ctx va n).mem := ite_wf (State.updCore_wf h) (State.updCore_wf h)
theorem execCinv_wf {x : Opnd} {imm : BitVec 18} {b : Opnd} (h : Memory.wf s.mem) : Out.Wf (execCinv c x imm b s) :=
    exWord_wf h (fun _ _ ht => .ite (Issue.poisoned_wf ht)
      (.ite .none (.ite .none (plain_wf (.some (foldl_wf (fun _ _ hu => cinvRange_wf (touchPages_wf hu)) ht))))))
theorem execCwb_wf {x : Opnd} {imm : BitVec 18} {b : Opnd} (h : Memory.wf s.mem) : Out.Wf (execCwb c x imm b s) :=
    exWord_wf h (fun _ _ ht => .ite (Issue.poisoned_wf ht)
      (.ite .none (.ite .none (plain_wf (.some (foldl_wf (fun _ _ hu => foldl_wf (fun _ _ hw => writeBack_wf hw) hu) ht))))))

/-! ## Monitors (R176, R246) -/

theorem disarm_wf (h : Memory.wf s.mem) : Memory.wf (disarm s bid tid).mem := h
theorem armMon_wf (h : Memory.wf s.mem) : Memory.wf (armMon s bid tid va tgt).mem := by
  unfold armMon
  dsimp only
  split <;> exact h

/-! ## Evaluations of a wait (R175, R232, R251) -/

theorem finishWait_wf {sc : Scope} (h : Memory.wf s.mem) : Memory.wf (finishWait s bid tid b tids sc).mem := by
  unfold finishWait
  dsimp only
  refine releaseAs_wf ?_
  split
  · split
    · exact acquireAt_wf h
    · exact h
  split
  · exact acquireAt_wf h
  · exact h
theorem rearm_wf (h : Memory.wf s.mem) : Memory.wf (rearm s bid tid va tgt).mem := State.updThread_wf (armMon_wf h)
theorem evalWatch_wf {v : Nat} (h : Memory.wf s.mem) : Memory.wf (evalWatch s bid tid v).mem := by
  unfold evalWatch
  dsimp only
  split
  · split
    · exact ite_wf (finishWait_wf h) (ite_wf h (rearm_wf h))
    · exact ite_wf (finishWait_wf h) (ite_wf h (rearm_wf h))
    · exact ite_wf (State.updThread_wf h) h
    · exact h
  · exact h
theorem sendEval_wf (h : Memory.wf s.mem) : OptWf (sendEval s core bid tid va tgt) :=
    .ite (.some h) (.ite (.some (sendRemote_wf h)) (.ite (.some (evalWatch_wf h)) (sendRead_wf h)))
theorem disarmAll_wf (h : Memory.wf s.mem) : Memory.wf (disarmAll s bid tids).mem := h
theorem failWait_wf {code : Nat} (h : Memory.wf s.mem) : Memory.wf (failWait s bid tid va code).mem := by
  unfold failWait
  dsimp only
  split
  · exact h
  · exact wakeBlock_wf (takeTrap_wf (disarmAll_wf h))
theorem parkWait_wf {info : Nat} (h : Memory.wf s.mem) : Memory.wf (parkWait s bid tid va info).mem := by
  unfold parkWait
  dsimp only
  split
  · exact h
  · exact wakeBlock_wf (pageAbsent_wf (State.updThreads_wf (disarmAll_wf h)))
theorem moveWait_wf {old new : Nat} (h : Memory.wf s.mem) :
    Memory.wf (moveWait s bid tid va old new).mem := State.updThread_wf (armMon_wf h)
theorem waitTgt_wf {align : Nat} {a : Acc} (h : Memory.wf s.mem) : Memory.wf (waitTgt s bid tid b va tgt align a).1.mem := by
  unfold waitTgt
  split
  · exact h
  · split
    · exact h
    · next e =>
      have h1 := (walkAll_wf h).get e
      dsimp only
      split
      · split
        · exact h1
        · exact moveWait_wf h1
      · split
        · exact h1
        · exact moveWait_wf h1
      · exact parkWait_wf h1
      · exact failWait_wf h1
      · exact h1
theorem takeHit_wf (h : Memory.wf s.mem) : Memory.wf (takeHit s bid tid).mem := h
theorem reevaluate_wf (h : Memory.wf s.mem) : Memory.wf (reevaluate s bid tid b va tgt).mem := by
  unfold reevaluate
  split
  · exact h
  split
  · next e =>
    have h1 := fst_wf (waitTgt_wf h) e
    exact OptWf.getD (sendEval_wf (takeHit_wf h1)) h1
  · next e => exact fst_wf (waitTgt_wf h) e
theorem execWaitc_wf {cc : Cc} {uns : Bool} {ord : Ord} {sc : Scope} {x cmp t : Opnd} (h : Memory.wf s.mem) :
    Out.Wf (execWaitc c cc uns ord sc x cmp t s) :=
    exWord_wf h (fun _ _ ht => .ite (Issue.poisoned_wf ht)
      (.ite .none (Issue.walked_wf ht
      (fun _ hu => plain_wf (Issue.accesses_wf hu (fun _ _ _ _ hw => sendEval_wf (Issue.startWait_wf (armMon_wf hw))))))))
theorem execMon_wf {x : Opnd} {imm : BitVec 18} (h : Memory.wf s.mem) : Out.Wf (execMon c x imm s) :=
    exWord_wf h (fun _ _ ht => .ite (Issue.poisoned_wf ht)
      (.ite .none (Issue.walked_wf ht (fun _ hu => plain_wf (Issue.accesses_wf hu (fun _ _ _ _ hw => .some (armMon_wf hw)))))))
theorem execMwait_wf {ord : Ord} {sc : Scope} {t : Opnd} (h : Memory.wf s.mem) : Out.Wf (execMwait c ord sc t s) :=
    exWord_wf h (fun _ _ ht => .ite (Issue.poisoned_wf ht)
      (.ite .none (.ite .none (plain_wf
      (.some (Issue.startWait_wf (ite_wf (foldl_wf (fun _ _ hu => disarm_wf hu) ht)
      (acquireBy_wf (foldl_wf (fun _ _ hu => disarm_wf hu) ht)))))))))

/-! ## Tickets (R179 to R184) -/

theorem execTktake_wf {d : VReg} {x : Opnd} {imm : BitVec 18} (h : Memory.wf s.mem) : Out.Wf (execTktake c d x imm s) :=
    exWord_wf h (fun _ _ ht => .ite (Issue.poisoned_wf ht)
      (.ite .none (Issue.walked_wf ht
      (fun _ hu => plain_wf (Issue.accesses_wf hu
      (fun _ _ _ _ hw => .ite (.some (controlAtomic_wf hw)) (.some (awaitDst_wf (atomicAt_wf hw)))))))))
theorem execTkwait_wf {ord : Ord} {sc : Scope} {x : Opnd} {imm : BitVec 18} {t : Opnd} (h : Memory.wf s.mem) :
    Out.Wf (execTkwait c ord sc x imm t s) :=
    exWord_wf h (fun _ _ ht => .ite (Issue.poisoned_wf ht)
      (.ite .none (Issue.walked_wf ht
      (fun _ hu => plain_wf (Issue.accesses_wf hu
      (fun _ _ _ _ hw => .some (Issue.startWait_wf (armMon_wf (State.updCore_wf hw)))))))))
theorem endBoost_wf {word : Nat} (h : Memory.wf s.mem) : Memory.wf (endBoost s bid word).mem := State.updBlock_wf h
theorem execTkserve_wf {ord : Ord} {sc : Scope} {x : Opnd} {imm : BitVec 18} (h : Memory.wf s.mem) :
    Out.Wf (execTkserve c ord sc x imm s) :=
    exWord_wf h (fun _ _ ht => .ite (Issue.poisoned_wf ht)
      (.ite .none (Issue.walked_wf ht
      (fun _ hu => plain_wf (Issue.accesses_wf (Issue.publish_wf hu)
      (fun _ _ _ _ hw => .ite (.some (endBoost_wf hw)) (.some (atomicAt_wf (endBoost_wf hw)))))))))

/-! ## Named barriers (R185 to R188) -/

theorem execBinit_wf {n k : Opnd} (h : Memory.wf s.mem) : Out.Wf (execBinit c n k s) :=
    exWord_wf h (fun _ _ ht => .ite (plain_wf (.some ht))
      (.ite .none (.ite (plain_wf (.some (Issue.raiseEach_wf ht))) (plain_wf (.some (State.updBlock_wf ht))))))
theorem arriveLane_wf {sc : Scope} {t : Nat} (h : Memory.wf s.mem) : Memory.wf (arriveLane i sc n s t).mem := by
  unfold arriveLane
  split
  · exact h
  · exact barArrive_wf (Issue.startWait_wf h)
theorem arriveBody_wf {ops : Bool} {sc : Scope} {n : Opnd} (h : Memory.wf s.mem) : BodyWf (arriveBody ops sc n i s) :=
    .ite (plain_wf (.some h)) (.ite .none (plain_wf
      (.some (foldl_wf (fun _ _ ht => arriveLane_wf ht) (ite_wf (State.updBlock_wf (publishStas_wf h)) (publishStas_wf h))))))
theorem execBwait_wf {sc : Scope} {n k : Opnd} (h : Memory.wf s.mem) : Out.Wf (execBwait c sc n k s) :=
    exWord_wf h (fun _ _ ht => .ite (plain_wf (.some ht))
      (.ite (Issue.poisoned_wf ht) (.ite .none
      (.ite (plain_wf (.some (learnAt_wf (acquireAt_wf ht)))) (plain_wf (.some (Issue.startWait_wf ht)))))))

/-! ## Cohort barriers (R190) -/

theorem execCbar_wf {sc : Scope} {slot : BitVec 2} (h : Memory.wf s.mem) : Out.Wf (execCbar c sc slot s) :=
    illFirst_wf h (exWord_wf h (fun _ _ ht =>
      .ite (plain_wf (.some ht)) (.ite (plain_wf (.some (Issue.illop_wf ht)))
      (.ite .none (plain_wf (.some (cbarArrive_wf (Issue.startWait_wf (publishStas_wf ht)))))))))

/-! ## Convoys (R191 to R194) -/

theorem convoyJoin_wf {id : Nat} {base : Dword} (h : Memory.wf s.mem) : Memory.wf (convoyJoin s bid id base n).mem := by
  unfold convoyJoin
  dsimp only
  split
  · exact h
  · exact State.updBlock_wf (State.updLaunch_wf (ite_wf h (convoyLeave_wf h)))
theorem execCvjoin_wf {slot : BitVec 2} {x : Opnd} {imm : BitVec 18} {n : Opnd} (h : Memory.wf s.mem) :
    Out.Wf (execCvjoin c slot x imm n s) := by
  unfold execCvjoin
  dsimp only
  refine illFirst_wf h (exWord_wf h (fun _ t ht => ?_))
  split
  · exact plain_wf (.some ht)
  split
  · exact Issue.poisoned_wf ht
  split
  · exact .none
  split
  · exact plain_wf (.some (Issue.illop_wf ht))
  · exact .ite (plain_wf (.some (Issue.raiseEach_wf ht))) (plain_wf (.some (convoyJoin_wf ht)))
theorem holdCvld_wf {two : Bool} (h : Memory.wf s.mem) : Memory.wf (holdCvld s i two).mem := by
  unfold holdCvld
  dsimp only
  split
  · exact State.updThreads_wf h
  · exact updMember_wf (State.updThreads_wf h)
theorem cvldBody_wf {d : VReg} {two : Bool} (h : Memory.wf s.mem) : BodyWf (cvldBody c d two i s) := by
  unfold cvldBody
  dsimp only
  split
  · exact plain_wf (.some h)
  split
  · exact .none
  split
  · exact Issue.walked_wf h (fun _ ht => plain_wf
        (.map (Issue.accesses_wf (State.updThreads_wf (State.updThreads_wf ht)) (fun _ _ _ _ hu => loadAt_wf hu))
        (fun _ hu => ite_wf hu (updMember_wf hu))))
  · exact plain_wf (.some (Issue.illop_wf h))
theorem execCvld_wf {d : VReg} {two : Bool} (h : Memory.wf s.mem) : Out.Wf (execCvld c d two s) := by
  unfold execCvld
  refine illFirst_wf h ?_
  split
  · exact .refused
  split
  · exact .ite (.next (holdCvld_wf h)) (exWord_wf h (fun _ _ ht => cvldBody_wf ht))
  · exact exWord_wf h (fun _ _ ht => cvldBody_wf ht)

/-! ## Paced steps (R195, R196, R344 to R349) -/

theorem stepnCheck_wf (h : Memory.wf s.mem) : Memory.wf (stepnCheck s bid).mem := by
  unfold stepnCheck
  split
  · exact h
  extract_lets all ready s1
  have h1 : Memory.wf s1.mem := ite_wf (State.updBlock_wf (publishStas_wf h)) h
  split
  · exact h1
  · exact ite_wf (releaseWhere_wf (State.updBlock_wf h1)) h1
theorem execStepn_wf (h : Memory.wf s.mem) : Out.Wf (execStepn c s) :=
    illFirst_wf h (exWord_wf h (fun _ _ ht =>
      .ite (plain_wf (.some ht)) (.ite (plain_wf (.some (Issue.illop_wf ht)))
      (.ite .none (plain_wf (.some (stepnCheck_wf (Issue.startWait_wf ht))))))))
theorem execLdnb_wf {d : VReg} {o t : Opnd} {u : BitVec 8} (h : Memory.wf s.mem) : Out.Wf (execLdnb c d o t u s) :=
    illFirst_wf h (exWord_wf h (fun _ _ ht =>
      .ite (plain_wf (.some ht)) (.ite (plain_wf (.some (Issue.illop_wf ht)))
      (.ite (Issue.poisoned_wf ht) (.ite .none (plain_wf (.some (Issue.raiseEach_wf (Issue.lanes_wf (acquireBy_wf ht))))))))))

end Sys2Proof.Machine
end

section
/-! PROOFS. The engines keep memory canonical: acceptance, the matrix array, copies, bins and completion (R197 to R232). -/

namespace Sys2Proof.Machine

variable {s : State} {i : Issue} {b : Block} {o : Op} {c : Ctl} {core bid tid slot line pa n l ctx node tgt tag : Nat}
  {tids : List Nat} {va : Dword} {bytes : List Byte} {bad : Bool} {ag : Agent}

/-! ## Acceptance (R198, R199) -/

theorem Issue.accept_wf {e : ECtl} {opc : Nat} {parm : Dword} {p : Plan} (h : Memory.wf s.mem) :
    Memory.wf (Issue.accept i s c e opc parm p).mem := countUp_wf (State.updBlock_wf (State.updCore_wf h))
theorem Issue.elected_wf {k : Cause} (h : Memory.wf s.mem) : Memory.wf (Issue.elected i s k).mem := Issue.raiseEach_wf h
theorem Issue.take_wf {opc : Nat} {parm : Dword} {x : Verdict} (h : Memory.wf s.mem) :
    Taken.Wf (Issue.take i s opc parm x) := by
  unfold Issue.take
  split
  · exact Issue.elected_wf h
  · exact h
theorem Issue.hold_wf {parm : Dword} {p : Plan} (h : Memory.wf s.mem) :
    Memory.wf (Issue.hold i s parm p).mem := State.updFrond_wf (State.updThreads_wf h)
/-- The frame of every word of class E (R198): `take` says what becomes of the elected lane's operation. -/
theorem eWord_wf {e : ECtl} {opc : Nat} {rd : List Reg} {take : Issue → State → Taken}
    (htake : ∀ j t, Memory.wf t.mem → Taken.Wf (take j t)) (h : Memory.wf s.mem) : Out.Wf (eWord c e opc rd take s) := by
  unfold eWord
  extract_lets go
  have hgo : Out.Wf go := by
    refine exWord_wf h (fun _ t ht => ?_)
    split
    · exact plain_wf (.some ht)
    split
    · exact .none
    split
    · next e => exact plain_wf (.some ((htake _ _ ht).of_eq e))
    · exact .none
    · next e => exact plain_wf (.some (Issue.accept_wf ((htake _ _ ht).of_eq e)))
  split
  · exact .refused
  split
  · exact .ite (.next (endWord_wf (Issue.accept_wf h))) (.next h)
  split
  · next e =>
    have h1 := (startWord_wf h).of_eq e
    split
    · exact hgo
    split
    · exact hgo
    · next e => exact .next ((htake _ _ h1).of_eq e)
    · next e => exact .ite hgo (.next (Issue.hold_wf ((htake _ _ h1).of_eq e)))
  · exact hgo
theorem scrWord_wf {e : ECtl} {opc : Nat} {r : SReg} {reads : Bool} {used : List Word → Nat → Bool}
    {verdict : Issue → Nat → List Word → Verdict} (h : Memory.wf s.mem) :
    Out.Wf (scrWord c e opc r n reads used verdict s) := by
  unfold scrWord
  dsimp only
  refine eWord_wf (fun _ t ht => ?_) h
  split
  · exact killPoison_wf ht
  split
  · exact Issue.elected_wf ht
  split
  · exact Issue.elected_wf ht
  split
  · exact Issue.take_wf ht
  split
  · exact Issue.parkLine_wf ht
  split
  · exact killPoison_wf ht
  · exact Issue.take_wf ht
theorem bareWord_wf {e : ECtl} {opc : Nat} {verdict : Issue → Verdict} (h : Memory.wf s.mem) :
    Out.Wf (bareWord c e opc verdict s) := by
  unfold bareWord
  refine eWord_wf (fun _ t ht => ?_) h
  split
  · exact Issue.elected_wf ht
  · exact Issue.take_wf ht

/-! ## Ownership of the matrix array (R207, R295, R296) -/

theorem grantArray_wf (h : Memory.wf s.mem) : Memory.wf (grantArray s core bid).mem := by
  unfold grantArray
  dsimp only
  split
  · exact h
  · exact ite_wf h h
theorem freeArray_wf (h : Memory.wf s.mem) : Memory.wf (freeArray s core).mem := State.updCore_wf h
theorem execMxownTake_wf (h : Memory.wf s.mem) : Out.Wf (execMxownTake c s) := by
  unfold execMxownTake
  dsimp only
  split
  · exact .refused
  split
  · exact .ite (.next (ite_wf (State.updThreads_wf h) (State.updCore_wf (State.updThreads_wf h))))
        (exWord_wf h (fun _ _ ht => .ite (plain_wf (.some ht)) (plain_wf (.some (grantArray_wf ht)))))
  · exact exWord_wf h (fun _ _ ht => plain_wf (.some ht))
theorem execMxownPass_wf {r : SReg} (h : Memory.wf s.mem) : Out.Wf (execMxownPass c r s) := by
  unfold execMxownPass
  dsimp only
  refine exWord_wf h (fun _ t ht => ?_)
  split
  · exact plain_wf (.some ht)
  split
  · exact Issue.poisoned_wf ht
  split
  · exact plain_wf (.some (Issue.elected_wf ht))
  split
  · exact .ite (plain_wf (.some (grantArray_wf ht))) (plain_wf (.some (freeArray_wf ht)))
  · exact plain_wf (.some (freeArray_wf ht))
theorem execMxownRelease_wf (h : Memory.wf s.mem) :
    Out.Wf (execMxownRelease c s) := exWord_wf h (fun _ _ ht => .ite (plain_wf (.some ht)) (plain_wf (.some (freeArray_wf ht))))

/-! ## Task words (R230 to R232) -/

theorem execLwait_wf {r : SReg} (h : Memory.wf s.mem) : Out.Wf (execLwait c r s) := by
  unfold execLwait
  dsimp only
  refine exWord_wf h (fun _ t ht => ?_)
  split
  · exact plain_wf (.some ht)
  split
  · exact Issue.poisoned_wf ht
  split
  · exact plain_wf (.some (Issue.elected_wf ht))
  split
  · exact .none
  refine Issue.walked_wf ht (fun t ht => ?_)
  split
  · exact plain_wf (.some ht)
  · exact plain_wf (.some (Issue.parkPage_wf ht))
  · exact plain_wf (.some (Issue.elected_wf ht))
  · exact plain_wf (sendEval_wf (Issue.startWait_wf (armMon_wf ht)))

/-! ## Collective words (R233, R235) -/

theorem askBlock_wf {nc : Bool} (h : Memory.wf s.mem) : OptWf (askBlock s i va tgt nc) := by
  unfold askBlock
  dsimp only
  split
  · exact .some (sendRemote_wf (State.updFrond_wf h))
  split
  · exact .some (Join.land_wf (State.updFrond_wf h))
  split
  · exact .some (Join.land_wf (State.updFrond_wf h))
  · exact sendRead_wf (State.updFrond_wf h)
theorem collTake_wf {e : ECtl} {r : SReg} (h : Memory.wf s.mem) : Taken.Wf (collTake e r i s) := by
  unfold collTake
  dsimp only
  split
  · exact h
  · split
    · exact Issue.elected_wf h
    split
    · exact killPoison_wf h
    · exact Issue.take_wf h
  split
  · exact killPoison_wf h
  split
  · exact Issue.elected_wf h
  split
  · exact Issue.elected_wf h
  split
  · exact h
  split
  · exact h
  · next e =>
    have h1 := (walkAll_wf h).get e
    split
    · exact h1
    · exact Issue.parkPage_wf h1
    · exact Issue.elected_wf h1
    split
    · exact h1
    · exact OptWf.getD (askBlock_wf (tlbFill_wf h1)) h1

/-! ## Operations of a core -/

theorem updOp_wf {id : Nat} {f : Op → Op} (h : Memory.wf s.mem) : Memory.wf (updOp s core id f).mem := State.updCore_wf h
theorem startOp_wf {id : Nat} (h : Memory.wf s.mem) : Memory.wf (startOp s core id).mem := updOp_wf h
theorem endOp_wf {id : Nat} {cause : Option Cause} (h : Memory.wf s.mem) : Memory.wf (endOp s core id cause).mem := updOp_wf h
theorem settle_wf {first : Nat} (h : Memory.wf s.mem) :
    Memory.wf (settle s core bid first n).mem := State.updCore_wf (State.updBlock_wf h)

/-! ## Banks (R209 to R212, R303, R304) -/

theorem updBanks_wf {f : Map Bank → Map Bank} (h : Memory.wf s.mem) : Memory.wf (updBanks s core f).mem := State.updCore_wf h
theorem toStage_wf {id : Nat} (h : Memory.wf s.mem) : Memory.wf (toStage s core id n).mem := updOp_wf h
theorem loadStep_wf (h : Memory.wf s.mem) : Memory.wf (loadStep s core o n b).mem := by
  have fill : ∀ (t : State) (k : Cwt) (bad : Bool), Memory.wf t.mem →
      Memory.wf (toStage (updBanks t core (fun m => beginFill (endEvict m) n k bad)) core o.id 2).mem :=
    fun _ _ _ ht => toStage_wf (updBanks_wf ht)
  unfold loadStep
  dsimp only
  split
  · split
    · exact startOp_wf h
    · split
      · exact endOp_wf h
      · split
        · exact endOp_wf h
        · split
          · exact toStage_wf (updBanks_wf (updOp_wf h))
          · exact fill _ _ _ (updOp_wf h)
  · split
    · exact fill _ _ _ h
    · split
      · exact h
      · exact endOp_wf (updBanks_wf h)
theorem execMxloadExec_wf (h : Memory.wf s.mem) : Out.Wf (execMxloadExec core s) := by
  unfold execMxloadExec
  split
  · split
    · exact .next (loadStep_wf h)
    · exact .next h
  · exact .next h
theorem execMxevictExec_wf (h : Memory.wf s.mem) : Out.Wf (execMxevictExec core s) := by
  unfold execMxevictExec
  split
  · split
    · exact .ite (.next h) (.ite (.next (toStage_wf (updBanks_wf h)))
          (.next (endOp_wf (updBanks_wf h))))
    · exact .next h
  · exact .next h
theorem execBankEmptying_wf (h : Memory.wf s.mem) : Out.Wf (execBankEmptying core s) := by
  unfold execBankEmptying
  split
  · split
    · exact .ite (.next h) (.ite (.next (toStage_wf (updBanks_wf h)))
          (.next (State.updCore_wf h)))
    · exact .next h
  · exact .next h
theorem execMxresExec_wf (h : Memory.wf s.mem) : Out.Wf (execMxresExec core s) := by
  unfold execMxresExec
  split
  · split
    · exact .next (endOp_wf (State.updBlock_wf h))
    · exact .next h
  · exact .next h

/-! ## mma and mmal (R214, R215) -/

theorem endStatus_wf {st row code : Nat} {cause : Option Cause} (h : Memory.wf s.mem) :
    Memory.wf (endStatus s core o st row code cause).mem := endOp_wf (State.updBlock_wf h)
theorem stopRows_wf {row code st : Nat} (h : Memory.wf s.mem) : Memory.wf (stopRows s core o row code st).mem := endStatus_wf h
theorem rowStep_wf {x : RowEnd} (h : Memory.wf s.mem) : Memory.wf (rowStep s core o n x).mem := by
  unfold rowStep
  dsimp only
  split
  · exact h
  · exact stopRows_wf h
  · exact ite_wf (endStatus_wf h) (updOp_wf h)
  · exact ite_wf (endStatus_wf (foldl_wf (fun _ _ ht => settle_wf ht) (State.updBlock_wf h)))
        (updOp_wf (foldl_wf (fun _ _ ht => settle_wf ht) (State.updBlock_wf h)))
theorem headerStep_wf {cls : Nat} {v : Block} {first : State → State} (h : Memory.wf s.mem)
    (hfirst : ∀ t, Memory.wf t.mem → Memory.wf (first t).mem) : Memory.wf (headerStep s core o cls n b v first).mem := by
  unfold headerStep
  dsimp only
  split
  · exact startOp_wf h
  · split
    · exact stopRows_wf h
    · split
      · exact stopRows_wf h
      · exact ite_wf (endStatus_wf (hfirst _ (updOp_wf h))) (hfirst _ (updOp_wf h))
theorem mmaStep_wf {lut : Bool} (h : Memory.wf s.mem) :
    Memory.wf (mmaStep s core lut o b).mem := ite_wf (headerStep_wf h (fun _ ht => ht)) (rowStep_wf h)
theorem execMmaExec_wf (h : Memory.wf s.mem) : Out.Wf (execMmaExec core s) := by
  unfold execMmaExec
  split
  · split
    · exact .next (mmaStep_wf h)
    · exact .next h
  · exact .next h
theorem execMmalExec_wf (h : Memory.wf s.mem) : Out.Wf (execMmalExec core s) := by
  unfold execMmalExec
  split
  · split
    · exact .next (mmaStep_wf h)
    · exact .next h
  · exact .next h

/-! ## mxgrad (R218) -/

theorem zeroStep_wf {first : Nat} (h : Memory.wf s.mem) :
    Memory.wf (zeroStep s core bid first n).mem := settle_wf (State.updBlock_wf h)
theorem gradStep_wf (h : Memory.wf s.mem) :
    Memory.wf (gradStep s core o b).mem := ite_wf (headerStep_wf h (fun _ ht => ite_wf (zeroStep_wf ht) ht)) (rowStep_wf h)
theorem execMxgradExec_wf (h : Memory.wf s.mem) : Out.Wf (execMxgradExec core s) := by
  unfold execMxgradExec
  split
  · split
    · exact .next (gradStep_wf h)
    · exact .next h
  · exact .next h
theorem execMxzeroExec_wf (h : Memory.wf s.mem) : Out.Wf (execMxzeroExec core s) := by
  unfold execMxzeroExec
  split
  · split
    · exact .next (endOp_wf (zeroStep_wf h))
    · exact .next h
  · exact .next h
theorem execMxownGrant_wf (h : Memory.wf s.mem) : Out.Wf (execMxownGrant core s) := by
  unfold execMxownGrant
  dsimp only
  split
  · exact .next (grantArray_wf h)
  · exact .next h

/-! ## Accesses of an engine (R204) -/

theorem engWalk_wf {vas : List Dword} {a : Acc} (h : Memory.wf s.mem) : OptWf (engWalk s core b vas a) := walkAll_wf h
theorem engAsk_wf (h : Memory.wf s.mem) : OptWf (engAsk s core o va tgt n) :=
    .ite (.some (sendRemote_wf h)) (.ite (.some (Join.land_wf h))
      (.ite (.ite (.some (Join.land_wf (seeLine_wf h))) .none) (sendRead_wf h)))
theorem engStore_wf (h : Memory.wf s.mem) : Memory.wf (engStore s core o va tgt bytes bad).mem := by
  unfold engStore
  refine ite_wf h (ite_wf h (ite_wf ?_ h))
  rw [State.updCore_mem]
  exact homeWrite_wf h
theorem engWriteAll_wf : ∀ {ps : List (Dword × Nat)} {core : Nat} {b : Block} {o : Op} {s : State} {bs : List (Byte × Bool)},
    Memory.wf s.mem → Memory.wf (engWriteAll core b o s ps bs).1.mem
  | [], _, _, _, _, _, h => h
  | p :: t, core, b, o, s, bs, h => by
    unfold engWriteAll
    dsimp only
    split
    · exact fst_ite_wf h (engWriteAll_wf (engStore_wf h))
    · exact engWriteAll_wf h
    · exact h
theorem engWrite_wf {va : Nat} {bs : List (Byte × Bool)} (h : Memory.wf s.mem) :
    Memory.wf (engWrite s core b o va bs).1.mem := engWriteAll_wf h
theorem freezeOp_wf (h : Memory.wf s.mem) : Memory.wf (freezeOp s core o va).mem := killBlock_wf (devError_wf (updOp_wf h))
theorem engStop_wf {write : Bool} {x : EngAcc} (h : Memory.wf s.mem) : Memory.wf (engStop s core b o write x).mem := by
  unfold engStop
  dsimp only
  split
  · exact pageAbsent_wf (updOp_wf h)
  · exact freezeOp_wf h
  · exact endAudit_wf h
  · exact killBlock_wf h
  · exact updOp_wf h
  · exact updOp_wf h
theorem engTry_wf {va : Nat} {bs : List (Byte × Bool)} (h : Memory.wf s.mem) : Memory.wf (engTry s core b o va bs).1.mem := by
  unfold engTry
  split
  · exact h
  · next e =>
    have h1 := (engWalk_wf h).get e
    split
    · exact engStop_wf (engWrite_wf h1)
    · exact engStop_wf h1
    split
    · next e => exact engStop_wf (fst_wf (engWrite_wf h1) e)
    · next e => exact fst_wf (engWrite_wf h1) e
theorem engPut_wf {va : Nat} {bs : List (Byte × Bool)} {go : State → State} (h : Memory.wf s.mem)
    (hgo : ∀ t, Memory.wf t.mem → Memory.wf (go t).mem) : Memory.wf (engPut s core b o va bs go).mem := by
  unfold engPut
  split
  · next e => exact hgo _ (fst_wf (engTry_wf h) e)
  · next e => exact fst_wf (engTry_wf h) e
theorem engGet_wf {lines : List Nat} {go : State → State} (h : Memory.wf s.mem)
    (hgo : ∀ t, Memory.wf t.mem → Memory.wf (go t).mem) : Memory.wf (engGet s core b o lines go).mem := by
  unfold engGet
  split
  · split
    · exact h
    · next e =>
      have h1 := (engWalk_wf h).get e
      split
      · split
        · next e => exact updOp_wf ((engAsk_wf h1).get e)
        · exact h1
      · exact engStop_wf h1
  · exact ite_wf h (hgo _ h)

/-! ## Conversions of a copy (R100, R223) -/

theorem execCpyExec_wf {op : Nat} (h : Memory.wf s.mem) : Out.Wf (execCpyExec core op s) := by
  unfold execCpyExec
  dsimp only
  split
  · split
    · exact .next (engGet_wf (startOp_wf h) (fun _ ht => endOp_wf (setPresent_wf (State.updBlock_wf ht))))
    · exact .next h
  · exact .next h

/-! ## Copies out (R226) -/

theorem cpyoStep_wf (h : Memory.wf s.mem) :
    Memory.wf (cpyoStep s core b o).mem := ite_wf h (engPut_wf h (fun _ ht => ite_wf (endOp_wf ht) (updOp_wf ht)))
theorem execCpyoExec_wf {op : Nat} (h : Memory.wf s.mem) : Out.Wf (execCpyoExec core op s) := by
  unfold execCpyoExec
  split
  · split
    · exact .ite (.next (startOp_wf h)) (.next (cpyoStep_wf (startOp_wf h)))
    · exact .next h
  · exact .next h

/-! ## Bins (R228, R229) -/

theorem atomicHere_wf {k : AOp} {a b : Dword} (h : Memory.wf s.mem) :
    Memory.wf (atomicHere s pa k a b bad).1.mem := homeWrite_wf (touchLine_wf h)
theorem engAtomic_wf {va : Nat} {k : AOp} {a : Dword} (h : Memory.wf s.mem) : EngWf (engAtomic s core b o va k a) := by
  unfold engAtomic
  dsimp only
  split
  · split
    · exact sendRemote_wf h
    split
    · exact trivial
    split
    · exact landGot_wf h
    split
    · split
      · exact landGot_wf (State.updCore_wf (atomicHere_wf h))
      · exact trivial
    · exact sendReq_wf (State.updCore_wf h)
  · exact trivial
  · exact trivial
theorem bumpStatus_wf {off : Nat} (h : Memory.wf s.mem) : Memory.wf (bumpStatus s o off).mem := State.updBlock_wf h
theorem binStage_wf {stage e x : Nat} (h : Memory.wf s.mem) : Memory.wf (binStage s core o stage e x).mem := updOp_wf h
theorem binNext_wf (h : Memory.wf s.mem) : Memory.wf (binNext s core o).mem := ite_wf (endOp_wf h) (updOp_wf h)
theorem binSend_wf {va : Nat} {k : AOp} {a : Dword} {stage e x : Nat} (h : Memory.wf s.mem) :
    Memory.wf (binSend s core b o va k a stage e x).mem := by
  unfold binSend
  split
  · exact h
  · next e =>
    have h1 := (engWalk_wf h).get e
    split
    · exact engStop_wf h1
    · next e => exact (engAtomic_wf (binStage_wf h1)).of_eq e
theorem binOverflow_wf {e why : Nat} (h : Memory.wf s.mem) : Memory.wf (binOverflow s core b o e why).mem := binSend_wf h
theorem binFirst_wf (h : Memory.wf s.mem) : Memory.wf (binFirst s core b o).mem :=
    ite_wf h (ite_wf (engStop_wf h) (ite_wf (binNext_wf h) (ite_wf (binOverflow_wf h) (binSend_wf h))))
theorem binValue_wf {v : Nat} (h : Memory.wf s.mem) : Memory.wf (binValue s core b o v).mem :=
    ite_wf (ite_wf (binOverflow_wf h) (binSend_wf h))
      (ite_wf (ite_wf (binSend_wf h) (binStage_wf h))
      (ite_wf (binOverflow_wf h) (ite_wf (engPut_wf h (fun _ ht => binNext_wf (bumpStatus_wf ht)))
      (binNext_wf (bumpStatus_wf h)))))
theorem binStep_wf (h : Memory.wf s.mem) : Memory.wf (binStep s core b o).mem := by
  unfold binStep
  dsimp only
  split
  · exact binFirst_wf h
  split
  · exact ite_wf h (engPut_wf h (fun _ ht => binStage_wf ht))
  split
  · exact ite_wf (binNext_wf (bumpStatus_wf h)) (ite_wf h (engPut_wf h (fun _ ht => binNext_wf (bumpStatus_wf ht))))
  split
  · exact ite_wf (engStop_wf h) (binValue_wf h)
  · exact h
theorem execBinscExec_wf {op : Nat} (h : Memory.wf s.mem) : Out.Wf (execBinscExec core op s) := by
  unfold execBinscExec
  split
  · split
    · exact .ite (.next (endAudit_wf h)) (.next (binStep_wf (startOp_wf h)))
    · exact .next h
  · exact .next h

/-! ## Completion and asynchronous causes (R202, R203) -/

theorem completeOp_wf (h : Memory.wf s.mem) : Memory.wf (completeOp s core o).mem := by
  unfold completeOp
  extract_lets s1 s2 s3 s4 s5 left s6
  have h2 : Memory.wf s2.mem := State.updBlock_wf (countDown_wf (State.updCore_wf h))
  have h3 : Memory.wf s3.mem := ite_wf (barArrive_wf h2) h2
  have h6 : Memory.wf s6.mem := foldl_wf (fun _ _ ht => raiseAbsent_wf ht) (barsRecheck_wf (State.updBlock_wf h3))
  split
  · exact sendCause_wf h6
  · exact h6
theorem execOperationComplete_wf {op : Nat} (h : Memory.wf s.mem) : Out.Wf (execOperationComplete core op s) := by
  unfold execOperationComplete
  split
  · exact .ite (.next h) (.next (completeOp_wf h))
  · exact .next h
theorem deliverCauses_wf (h : Memory.wf s.mem) :
    Memory.wf (deliverCauses s bid slot b).mem := takeTrap_wf (State.updThreads_wf h)
theorem execAsyncCauseDelivery_wf (h : Memory.wf s.mem) : Out.Wf (execAsyncCauseDelivery bid tid s) := by
  unfold execAsyncCauseDelivery
  split
  · split
    · exact .ite (.next (deliverCauses_wf h)) (.next h)
    · exact .next h
  · exact .next h

end Sys2Proof.Machine
end

section
/-! PROOFS. Timers, waits, tickets, the sequencer and the contexts keep memory canonical (R42 to R50, R121, R175 to R184, R318 to R341,
R380, R385, R389). -/

namespace Sys2Proof.Machine

variable {s : State} {i : Issue} {b : Block} {o : Op} {c : Ctl} {core bid tid slot line pa n l ctx node tgt tag : Nat}
  {tids : List Nat} {va : Dword} {bytes : List Byte} {bad : Bool} {ag : Agent}

/-! ## Reform bins (R42 to R44) -/

theorem execReformBinDue_wf {bin : Nat} (h : Memory.wf s.mem) : Out.Wf (execReformBinDue core bin s) := by
  unfold execReformBinDue
  dsimp only
  split
  · exact .next h
  split
  · exact .next h
  split
  · exact .next h
  split
  · exact .next (foldl_wf (fun _ _ ht => bjoinCheck_wf ht) h)
  · exact .next h

/-! ## Waits on time and on memory (R121, R175, R177, R246) -/

theorem execSleepWake_wf (h : Memory.wf s.mem) : Out.Wf (execSleepWake bid tid s) := by
  unfold execSleepWake
  split
  · split
    · exact .ite (.next (State.updThread_wf h)) (.next h)
    · exact .next h
  · exact .next h
theorem finishMwait_wf {w : WaitRec} {ord : Ord} (h : Memory.wf s.mem) :
    Memory.wf (finishMwait s bid tid b w ord).mem := ite_wf h (finishWait_wf h)
theorem execMonitorWake_wf (h : Memory.wf s.mem) : Out.Wf (execMonitorWake bid tid s) := by
  unfold execMonitorWake
  split
  · split
    · exact .next h
    split
    · exact .next (reevaluate_wf h)
    · exact .next (reevaluate_wf h)
    · exact .next (finishMwait_wf h)
    · exact .next h
  · exact .next h
theorem execMonitorFallback_wf (h : Memory.wf s.mem) : Out.Wf (execMonitorFallback bid tid s) := by
  unfold execMonitorFallback
  split
  · split
    · exact .next h
    extract_lets s1
    have h1 : Memory.wf s1.mem := State.updThread_wf h
    split
    · exact .next (reevaluate_wf h1)
    · exact .next (reevaluate_wf h1)
    · exact .next (finishMwait_wf h1)
    · exact .next (ite_wf (reevaluate_wf h1) h1)
    · exact .next h1
  · exact .next h
theorem execWaitTimeout_wf (h : Memory.wf s.mem) : Out.Wf (execWaitTimeout bid tid s) := by
  unfold execWaitTimeout
  split
  · split
    · exact .ite (.next h) (.next (wakeBlock_wf (takeTrap_wf (disarm_wf h))))
    · exact .next h
  · exact .next h

/-! ## Tickets and boosts (R181 to R184, R337) -/

theorem setHolder_wf {key holder : Nat} (h : Memory.wf s.mem) : Memory.wf (setHolder s bid key holder).mem := h
theorem grantTicket_wf {t : Thread} {w : WaitRec} (h : Memory.wf s.mem) :
    Memory.wf (grantTicket s bid tid b t w pa).mem := finishWait_wf (setHolder_wf (State.updCore_wf (homeWrite_wf h)))
theorem execTkwaitGrant_wf (h : Memory.wf s.mem) : Out.Wf (execTkwaitGrant bid tid s) := by
  unfold execTkwaitGrant
  split
  · split
    · split
      · next e => exact .next (fst_wf (waitTgt_wf h) e)
      · next e =>
        have h1 := fst_wf (waitTgt_wf h) e
        split
        · exact .next (OptWf.getD (sendEval_wf h1) h1)
        split
        · exact .next h1
        split
        · exact .next (ite_wf (grantTicket_wf h1) h1)
        split
        · exact .next h1
        extract_lets s1 x
        have h2 : Memory.wf x.1.mem := seenWord_wf (seeLine_wf h1)
        exact .next (ite_wf (grantTicket_wf h2) h2)
    · exact .next h
  · exact .next h
theorem boostHolders_wf {key : Option Nat} {holder prio : Nat} (h : Memory.wf s.mem) :
    Memory.wf (boostHolders s key holder prio).mem := h
theorem sendBoost_wf {key holder prio : Nat} (h : Memory.wf s.mem) :
    Memory.wf (sendBoost s key holder prio).mem := ite_wf h (ite_wf (boostHolders_wf h) (ite_wf h h))
theorem boostWord_wf (h : Memory.wf s.mem) : Memory.wf (boostWord s pa).mem := sendBoost_wf (seenWord_wf (seeLine_wf h))
theorem boostFar_wf {src holder : Nat} (h : Memory.wf s.mem) : Memory.wf (boostFar s src holder).mem := by
  unfold boostFar
  split
  · exact boostWord_wf h
  · exact h
theorem execTicketBoost_wf (h : Memory.wf s.mem) : Out.Wf (execTicketBoost bid tid s) := by
  unfold execTicketBoost
  split
  · split
    · split
      · exact .ite (.next h) (.ite (.next (ite_wf (sendBoost_wf h) h)) (.next (boostWord_wf h)))
      · exact .next h
    · exact .next h
  · exact .next (boostFar_wf h)

/-! ## Releases (R195, R347, R400) -/

theorem retime_wf (h : Memory.wf s.mem) : Memory.wf (retime s).mem := h
theorem execSlotWriteRelease_wf (h : Memory.wf s.mem) : Out.Wf (execSlotWriteRelease bid s) := by
  unfold execSlotWriteRelease
  split
  · exact .ite (.next h) (.next (State.updBlock_wf h))
  · exact .next h

/-! ## Convoys and timers (R193, R374) -/

theorem execConvoyDetach_wf {cohort : Nat} (h : Memory.wf s.mem) : Out.Wf (execConvoyDetach l cohort s) := by
  unfold execConvoyDetach
  dsimp only
  split
  · exact .next h
  split
  · exact .ite (.next (State.updLaunch_wf h)) (.next h)
  · exact .next h
theorem fireTimer_wf {f : Frond} (h : Memory.wf s.mem) :
    Memory.wf (fireTimer s bid slot b f).mem := State.updThreads_wf (State.updFrond_wf h)
theorem execFtimerFire_wf (h : Memory.wf s.mem) : Out.Wf (execFtimerFire bid slot s) := by
  unfold execFtimerFire
  split
  · exact .next h
  split
  · exact .next h
  · exact .ite (.next (fireTimer_wf h)) (.next h)

/-! ## Accesses of the sequencer -/

theorem agentWaits_wf {c info : Nat} (h : Memory.wf s.mem) :
    Memory.wf (agentWaits s c ag va info).mem := pageAbsent_wf (State.updCtx_wf h)
theorem agentDenied_wf {c page : Nat} (h : Memory.wf s.mem) : Memory.wf (agentDenied s c ag page).mem := State.updCtx_wf h
theorem seqPage_wf {c : Nat} {a : Acc} (h : Memory.wf s.mem) : Memory.wf (seqPage s c ag va a).1.mem := by
  unfold seqPage
  split
  · exact h
  · exact fst_ite_wf (agentDenied_wf h) (agentWaits_wf h)
  · exact h
theorem seqRange_wf {c : Nat} {a : Acc} (h : Memory.wf s.mem) : Memory.wf (seqRange s c ag va n a).1.mem := by
  unfold seqRange
  split
  · exact h
  · have h1 : Memory.wf ((pageStarts va.toNat n).foldl (fun acc v => match acc.2 with
        | .ok => seqPage acc.1 c ag v a
        | _ => acc) (touchPages s c va n, SeqAns.ok)).1.mem := by
      refine foldl_fst_wf (fun t _ ht => ?_) (touchPages_wf h)
      split
      · exact seqPage_wf ht
      · exact ht
    split
    · next e => exact fst_wf h1 e
    · exact h1
theorem seqPieces_wf : ∀ {ps : List (Dword × Nat)} {c : Nat} {s : State}, Memory.wf s.mem → Memory.wf (seqPieces c s ps).1.mem
  | [], _, _, h => h
  | p :: t, c, s, h => by
    refine seqPieces_wf (ps := t) ?_
    split
    · exact fst_ite_wf h (seeLine_wf h)
    · exact h
theorem seqOld_wf {c : Nat} (h : Memory.wf s.mem) : Memory.wf (seqOld s c va n).1.mem := by
  unfold seqOld
  dsimp only
  split
  · exact fst_ite_wf h (touchLine_wf h)
  · exact h
theorem seqRead_wf {c : Nat} (h : Memory.wf s.mem) : Memory.wf (seqRead s c ag va n).1.mem := by
  unfold seqRead
  dsimp only
  split
  · next e =>
    have h1 := fst_wf (seqRange_wf h) e
    exact fst_ite_wf (seqPieces_wf h1) h1
  · next e => exact fst_wf (seqRange_wf h) e
  · next e => exact fst_wf (seqRange_wf h) e
theorem seqWrite_wf {c : Nat} (h : Memory.wf s.mem) : Memory.wf (seqWrite s c ag va bytes bad).1.mem := by
  unfold seqWrite
  split
  · next e => exact vwriteLines_wf (fst_wf (seqRange_wf h) e)
  · exact seqRange_wf h
theorem seqEvent_wf {c kind : Nat} {addr obj : Dword} {info1 info2 : Nat} (h : Memory.wf s.mem) :
    Memory.wf (seqEvent s c kind node addr obj info1 info2).mem := logEvent_wf h

/-! ## Nodes (R320 to R324) -/

theorem updNode_wf {c : Nat} {f : Node → Node} (h : Memory.wf s.mem) : Memory.wf (updNode s c n f).mem := State.updCtx_wf h
theorem writeHtl_wf {c off v : Nat} (h : Memory.wf s.mem) : Memory.wf (writeHtl s c n off v).mem := by
  unfold writeHtl
  split
  · exact OptWf.getD (vwrite_wf h) h
  · exact h
theorem setNode_wf {c st : Nat} (h : Memory.wf s.mem) : Memory.wf (setNode s c n st).mem := writeHtl_wf (updNode_wf h)
theorem advanceHead_wf {c k : Nat} (h : Memory.wf s.mem) : Memory.wf (advanceHead s c n k).mem := by
  unfold advanceHead
  dsimp only
  split
  · exact writeHtl_wf (updNode_wf h)
  · exact h
theorem readHtl_wf {c : Nat} {x : Node} (h : Memory.wf s.mem) : Memory.wf (readHtl s c n x).1.mem := seqRead_wf h
theorem awaitNode_wf {c : Nat} (h : Memory.wf s.mem) : Memory.wf (awaitNode s c n).mem := State.updCtx_wf h
theorem dropSkip_wf {c : Nat} {head : Word} (h : Memory.wf s.mem) : Memory.wf (dropSkip s c n head).mem := ite_wf h h
theorem defineNode_wf {c : Nat} (h : Memory.wf s.mem) : Memory.wf (defineNode s c n).mem := by
  unfold defineNode
  dsimp only
  split
  · next e => exact awaitNode_wf (fst_wf (seqRead_wf h) e)
  · next e => exact State.updCtx_wf (fst_wf (seqRead_wf h) e)
  · next e =>
    have h1 := fst_wf (seqRead_wf h) e
    split
    · exact State.updCtx_wf h1
    split
    · next e => exact awaitNode_wf (fst_wf (readHtl_wf h1) e)
    · next e => exact setNode_wf (State.updCtx_wf (dropSkip_wf (fst_wf (readHtl_wf h1) e)))
    · next e => exact State.updCtx_wf (fst_wf (readHtl_wf h1) e)

/-! ## Publication (R230, R321) -/

theorem reserveSlots_wf {c who k : Nat} (h : Memory.wf s.mem) : Memory.wf (reserveSlots s c n who k).1.mem := by
  unfold reserveSlots
  dsimp only
  split
  · exact h
  split
  · next e => exact fst_wf (seqRange_wf h) e
  · next e => exact fst_wf (seqRange_wf h) e
  · next e =>
    have h1 := fst_wf (seqRange_wf h) e
    exact fst_ite_wf h1 (fst_ite_wf (seqOld_wf h1) (writeHtl_wf (seqOld_wf h1)))
theorem writeSlots_wf : ∀ {rs : List (List Byte × Bool)} {c n who : Nat} {x : Node} {s : State} {i : Nat},
    Memory.wf s.mem → Memory.wf (writeSlots c n who x s i rs).1.mem
  | [], _, _, _, _, _, _, h => h
  | r :: t, c, n, who, x, s, i, h => by
    unfold writeSlots
    dsimp only
    split
    · next e => exact fst_wf (seqWrite_wf h) e
    · next e =>
      have h1 := fst_wf (seqWrite_wf h) e
      split
      · next e => exact fst_wf (writeSlots_wf h1) e
      · exact writeSlots_wf h1
theorem publish_wf {c who first : Nat} {recs : List (List Byte × Bool)} (h : Memory.wf s.mem) :
    Memory.wf (publish s c n who first recs).1.mem := by
  unfold publish
  dsimp only
  split
  · exact h
  split
  · next e => exact fst_wf (seqRange_wf h) e
  · next e => exact fst_wf (seqRange_wf h) e
  · next e =>
    have h1 := fst_wf (seqRange_wf h) e
    split
    · exact h1
    split
    · exact seqPieces_wf h1
    split
    · exact seqPieces_wf h1
    split
    · next e => exact fst_wf (writeSlots_wf (seqPieces_wf h1)) e
    · next e =>
      have h2 := fst_wf (writeSlots_wf (seqPieces_wf h1)) e
      exact ite_wf (writeHtl_wf h2) (setNode_wf (writeHtl_wf h2))
theorem hubInval_wf {c : Nat} (h : Memory.wf s.mem) : Memory.wf (hubInval s core c va n).mem := by
  unfold hubInval
  refine foldl_wf (fun t _ ht => ?_) h
  split
  · exact State.updCore_wf ht
  · exact ht
theorem invalNode_wf {c first k : Nat} (h : Memory.wf s.mem) : Memory.wf (invalNode s core c n first k).mem := by
  unfold invalNode
  split
  · exact foldl_wf (fun _ _ ht => hubInval_wf ht) (hubInval_wf h)
  · exact h
theorem npostStep_wf (h : Memory.wf s.mem) : Memory.wf (npostStep s core o b node n).mem := by
  unfold npostStep
  dsimp only
  split
  · split
    · exact updOp_wf h
    split
    · exact endOp_wf h
    split
    · next e => exact updOp_wf (invalNode_wf (fst_wf (reserveSlots_wf h) e))
    · next e => exact endOp_wf (fst_wf (reserveSlots_wf h) e)
    · next e => exact updOp_wf (fst_wf (reserveSlots_wf h) e)
  split
  · exact h
  split
  · next e => exact endOp_wf (fst_wf (publish_wf h) e)
  · next e =>
    have h1 := fst_wf (publish_wf h) e
    exact ite_wf (endOp_wf (invalNode_wf h1)) (endOp_wf (invalNode_wf h1))
  · next e => exact fst_wf (publish_wf h) e
theorem execNpostExec_wf {op : Nat} (h : Memory.wf s.mem) : Out.Wf (execNpostExec core op s) := by
  unfold execNpostExec
  split
  · split
    · exact .next (npostStep_wf h)
    · exact .next h
  · exact .next h

/-! ## Join cells (R332 to R334) -/

theorem badCell_wf {c : Nat} {cell : Dword} (h : Memory.wf s.mem) : Memory.wf (badCell s c node cell).mem := seqEvent_wf h
theorem badPost_wf {c : Nat} (h : Memory.wf s.mem) : Memory.wf (badPost s c node va).mem := seqEvent_wf h
theorem openGate_wf {c who : Nat} (h : Memory.wf s.mem) : Memory.wf (openGate s c node who).1.mem := by
  unfold openGate
  dsimp only
  split
  · exact h
  split
  · next e => exact fst_wf (seqRange_wf h) e
  · next e => exact badPost_wf (fst_wf (seqRange_wf h) e)
  · next e =>
    have h1 := fst_wf (seqRange_wf h) e
    exact fst_ite_wf h1 (ite_wf (seenWord_wf (seqOld_wf h1)) (writeHtl_wf (seenWord_wf (seqOld_wf h1))))
theorem keepPost_wf {c : Nat} {p : Post} (h : Memory.wf s.mem) : Memory.wf (keepPost s c p).mem := State.updCtx_wf h
theorem dropPost_wf {c : Nat} {p : Post} (h : Memory.wf s.mem) : Memory.wf (dropPost s c p).mem := State.updCtx_wf h
theorem stepPost_wf {c : Nat} {p : Post} (h : Memory.wf s.mem) : Memory.wf (stepPost s c p).1.mem := by
  unfold stepPost
  extract_lets ended put
  have hended : ∀ t bad, Memory.wf t.mem → Memory.wf (ended t bad).1.mem :=
    fun t bad ht => foldl_wf (fun _ _ hu => badPost_wf hu) ht
  have hput : ∀ t k, Memory.wf t.mem → Memory.wf (put t k).1.mem := by
    intro t k ht
    unfold put
    split
    · next e => exact hended _ _ (fst_wf (publish_wf ht) e)
    · next e => exact hended _ _ (fst_wf (publish_wf ht) e)
    · next e => exact fst_wf (publish_wf ht) e
  split
  · exact h
  split
  · exact hput _ _ h
  split
  · next e => exact hput _ _ (fst_wf (reserveSlots_wf h) e)
  · next e => exact hended _ _ (fst_wf (reserveSlots_wf h) e)
  · next e => exact fst_wf (reserveSlots_wf h) e
theorem goPost_wf {c : Nat} {p : Post} (h : Memory.wf s.mem) : Memory.wf (goPost s c p).1.mem := by
  unfold goPost
  split
  · next e =>
    have h1 := fst_wf (stepPost_wf h) e
    split
    · exact keepPost_wf h1
    split
    · split
      · next e => exact dropPost_wf (fst_wf (openGate_wf h1) e)
      · next e => exact keepPost_wf (fst_wf (openGate_wf h1) e)
    · exact dropPost_wf h1
theorem preparedOf_wf {c kind : Nat} {rec_ : Dword} (h : Memory.wf s.mem) :
    Memory.wf (preparedOf s c ag kind rec_).1.mem := fst_ite_wf (seqRead_wf h) h
theorem fireCell_wf {c src : Nat} {cell : Dword} {bs : List Byte} (h : Memory.wf s.mem) :
    Memory.wf (fireCell s l c src cell bs).1.mem := by
  unfold fireCell
  dsimp only
  split
  · exact badCell_wf (vwriteLines_wf h)
  · exact h
  split
  · next e => exact fst_wf (preparedOf_wf h) e
  · next e => exact goPost_wf (State.updCtx_wf (vwriteLines_wf (fst_wf (preparedOf_wf h) e)))
  · next e => exact badCell_wf (fst_wf (preparedOf_wf h) e)
theorem joinCell_wf {c : Nat} {cell : Dword} (h : Memory.wf s.mem) : Memory.wf (joinCell s l c node cell).1.mem := by
  unfold joinCell
  dsimp only
  split
  · exact goPost_wf h
  split
  · next e => exact fst_wf (seqRange_wf h) e
  · next e => exact badCell_wf (fst_wf (seqRange_wf h) e)
  · next e =>
    have h1 := fst_wf (seqRange_wf h) e
    exact fst_ite_wf h1 (fst_ite_wf (badCell_wf (seqOld_wf h1))
        (fst_ite_wf (seqEvent_wf (seqOld_wf h1)) (fst_ite_wf (fireCell_wf (seqOld_wf h1)) (vwriteLines_wf (seqOld_wf h1)))))
theorem earlyPost_wf {c : Nat} {cell : Dword} (h : Memory.wf s.mem) : Memory.wf (earlyPost s c cell).mem := by
  unfold earlyPost
  dsimp only
  split
  · exact State.updCtx_wf h
  split
  · next e => exact State.updCtx_wf (fst_wf (seqRead_wf h) e)
  · next e =>
    have h1 := fst_wf (seqRead_wf h) e
    split
    · exact State.updCtx_wf h1
    · split
      · next e => exact State.updCtx_wf (fst_wf (preparedOf_wf h1) e)
      · next e =>
        have h2 := fst_wf (preparedOf_wf h1) e
        exact ite_wf (State.updCtx_wf h2) (goPost_wf (State.updCtx_wf (State.updCtx_wf h2)))
      · next e => exact State.updCtx_wf (fst_wf (preparedOf_wf h1) e)
    · exact State.updCtx_wf h1
  · next e => exact State.updCtx_wf (fst_wf (seqRead_wf h) e)
theorem earlyAgain_wf {c : Nat} (h : Memory.wf s.mem) :
    Memory.wf (earlyAgain s c).mem := foldl_wf (fun _ _ ht => goPost_wf ht) (foldl_wf (fun _ _ ht => earlyPost_wf ht) h)

/-! ## Completion actions (R231, R323, R331) -/

theorem trigWord_wf {c : Nat} {cell : Dword} (h : Memory.wf s.mem) : Memory.wf (trigWord s c ag cell n).1.mem := by
  unfold trigWord
  dsimp only
  split
  · next e => exact fst_wf (seqRange_wf h) e
  · next e => exact fst_wf (seqRange_wf h) e
  · next e =>
    have h1 := fst_wf (seqRange_wf h) e
    exact fst_ite_wf h1 (ite_wf (seqOld_wf h1) (vwriteLines_wf (seqOld_wf h1)))
theorem signalStore_wf {c : Nat} {v : Dword} (h : Memory.wf s.mem) : Memory.wf (signalStore s l c node va v).1.mem := by
  unfold signalStore
  dsimp only
  split
  · split
    · exact h
    split
    · exact sendRemote_wf h
    · exact seqEvent_wf h
  split
  · next e => exact State.updLaunch_wf (fst_wf (seqWrite_wf h) e)
  · next e => exact State.updLaunch_wf (fst_wf (seqWrite_wf h) e)
  · next e => exact State.updLaunch_wf (seqEvent_wf (fst_wf (seqWrite_wf h) e))
theorem perform_wf {c : Nat} {x : Action} (h : Memory.wf s.mem) : Memory.wf (perform s l c node x).1.mem := by
  unfold perform
  split
  · exact trigWord_wf h
  · exact joinCell_wf h
  · exact signalStore_wf h
  · exact msix_wf h
theorem performAll_wf : ∀ {as : List Action} {l c node : Nat} {s : State} {k : Nat},
    Memory.wf s.mem → Memory.wf (performAll l c node s k as).1.mem
  | [], _, _, _, _, _, h => h
  | a :: t, l, c, node, s, k, h => by
    unfold performAll
    split
    · next e =>
      have h1 := fst_wf (perform_wf h) e
      exact performAll_wf h1
    · next e => exact fst_wf (perform_wf h) e
theorem finishLaunch_wf (h : Memory.wf s.mem) : Memory.wf (finishLaunch s l).1.mem := by
  unfold finishLaunch
  dsimp only
  split
  · exact h
  · exact performAll_wf h
theorem dropLaunch_wf (h : Memory.wf s.mem) : Memory.wf (dropLaunch s l).mem := h
theorem ltrigStep_wf (h : Memory.wf s.mem) : Memory.wf (ltrigStep s core o b).mem := by
  unfold ltrigStep
  dsimp only
  split
  · exact endOp_wf h
  split
  · exact startOp_wf h
  split
  · exact endOp_wf (State.updBlock_wf h)
  split
  · next e => exact updOp_wf (fst_wf (trigWord_wf (State.updBlock_wf h)) e)
  · next e =>
    have h1 := fst_wf (trigWord_wf (State.updBlock_wf h)) e
    exact ite_wf (endOp_wf (hubInval_wf h1)) (updOp_wf (hubInval_wf h1))
theorem execLtrigExec_wf {op : Nat} (h : Memory.wf s.mem) : Out.Wf (execLtrigExec core op s) := by
  unfold execLtrigExec
  split
  · exact .next (ite_wf (ltrigStep_wf h) h)
  · exact .next h

/-! ## The launch checks (R319) -/

theorem checkImage_wf {c : Nat} {r : TaskRec} {h : CodeHdr} (hs : Memory.wf s.mem) :
    Memory.wf (checkImage s c node r h).1.mem := by
  unfold checkImage
  split
  · exact hs
  split
  · exact hs
  split
  · next e => exact fst_wf (seqRead_wf hs) e
  · next e =>
    have h1 := fst_wf (seqRead_wf hs) e
    split <;> exact h1
  · next e => exact fst_wf (seqRead_wf hs) e
theorem launchCheck_wf {c : Nat} {r : TaskRec} {gang : Nat} (h : Memory.wf s.mem) :
    Memory.wf (launchCheck s c node r bad gang).1.mem := by
  unfold launchCheck
  dsimp only
  split
  · exact h
  split
  · exact h
  split
  · exact h
  split
  · next e => exact fst_wf (seqRead_wf h) e
  · next e =>
    have h1 := fst_wf (seqRead_wf h) e
    split
    · exact h1
    · exact fst_ite_wf h1 (fst_ite_wf h1 (checkImage_wf h1))
  · next e => exact fst_wf (seqRead_wf h) e

/-! ## Acceptance (R319, R326) -/

theorem gangFrom_wf : ∀ {n i c node : Nat} {x : Node} {r : TaskRec} {s : State},
    Memory.wf s.mem → Memory.wf (gangFrom c node x r n i s).1.mem
  | 0, _, _, _, _, _, _, h => h
  | n + 1, i, c, node, x, r, s, h => by
    unfold gangFrom
    split
    · exact h
    split
    · next e =>
      have h1 := fst_wf (seqRead_wf h) e
      exact fst_ite_wf h1 (gangFrom_wf h1)
    · next e => exact fst_wf (seqRead_wf h) e
    · next e => exact fst_wf (seqRead_wf h) e
theorem gangChecked_wf : ∀ {bs : List (List Byte)} {c node : Nat} {k : CodeHdr} {s : State},
    Memory.wf s.mem → Memory.wf (gangChecked c node k s bs).1.mem
  | [], _, _, _, _, h => h
  | r :: t, c, node, k, s, h => by
    unfold gangChecked
    split
    · next e => exact fst_wf (checkImage_wf h) e
    · next e => exact fst_wf (checkImage_wf h) e
    · next e =>
      have h1 := fst_wf (checkImage_wf h) e
      split
      · next e => exact fst_wf (gangChecked_wf h1) e
      · exact gangChecked_wf h1
theorem refuseRecord_wf {c : Nat} {x : Node} {r : TaskRec} {reason : Nat} (h : Memory.wf s.mem) :
    Memory.wf (refuseRecord s c node x r reason).mem := seqEvent_wf (setNode_wf h)
theorem newLaunch_wf {c : Nat} {x : Node} {raws : List (List Byte)} {h : CodeHdr} {cs : List Cohort} {count : Nat}
    (hs : Memory.wf s.mem) : Memory.wf (newLaunch s c node x raws h cs count).mem := hs
theorem acceptHead_wf {c : Nat} {x : Node} {flushed : Bool} (h : Memory.wf s.mem) :
    Memory.wf (acceptHead s c node x flushed).mem := by
  unfold acceptHead
  dsimp only
  split
  · exact h
  split
  · next e => exact fst_wf (seqRead_wf h) e
  · next e => exact setNode_wf (fst_wf (seqRead_wf h) e)
  · next e =>
    have h1 := fst_wf (seqRead_wf h) e
    split
    · split
      · exact gangFrom_wf h1
      split
      · next e => exact fst_wf (launchCheck_wf (gangFrom_wf h1)) e
      · next e => exact refuseRecord_wf (fst_wf (launchCheck_wf (gangFrom_wf h1)) e)
      · next e =>
        have h2 := fst_wf (launchCheck_wf (gangFrom_wf h1)) e
        split
        · next e => exact fst_wf (gangChecked_wf h2) e
        · next e => exact newLaunch_wf (advanceHead_wf (fst_wf (gangChecked_wf h2) e))
    split
    · exact h1
    split
    · next e => exact fst_wf (launchCheck_wf h1) e
    · next e => exact refuseRecord_wf (fst_wf (launchCheck_wf h1) e)
    · next e => exact newLaunch_wf (advanceHead_wf (fst_wf (launchCheck_wf h1) e))
theorem skipOn_wf {c : Nat} (h : Memory.wf s.mem) : Memory.wf (skipOn s c node l).mem := by
  unfold skipOn
  split
  · next e => exact advanceHead_wf (dropLaunch_wf (fst_wf (finishLaunch_wf h) e))
  · next e => exact fst_wf (finishLaunch_wf h) e
theorem skipHead_wf {c : Nat} {x : Node} (h : Memory.wf s.mem) : Memory.wf (skipHead s c node x).mem := by
  unfold skipHead
  split
  · exact h
  split
  · next e => exact fst_wf (seqRead_wf h) e
  · next e => exact skipOn_wf (newLaunch_wf (fst_wf (seqRead_wf h) e))
  · next e => exact setNode_wf (fst_wf (seqRead_wf h) e)

/-! ## The states of a node (R322, R323) -/

theorem restoreHtl_wf {c : Nat} {x : Node} {l : List Byte} (h : Memory.wf s.mem) :
    Memory.wf (restoreHtl s c node x l).mem := ite_wf (ite_wf h (writeHtl_wf h)) (writeHtl_wf (ite_wf h (writeHtl_wf h)))
theorem openNode_wf {c : Nat} {x : Node} (h : Memory.wf s.mem) : Memory.wf (openNode s c node x).mem := by
  unfold openNode
  split
  · exact setNode_wf h
  split
  · next e => exact fst_wf (seqRead_wf h) e
  · next e => exact setNode_wf (fst_wf (seqRead_wf h) e)
  · next e => exact setNode_wf (fst_wf (seqRead_wf h) e)
theorem moveNode_wf {c : Nat} {flushed : Bool} (h : Memory.wf s.mem) : Memory.wf (moveNode s c node flushed).mem := by
  unfold moveNode
  split
  · exact h
  extract_lets s1
  have h1 : Memory.wf s1.mem := ite_wf (ite_wf (setNode_wf h) h) (ite_wf (openNode_wf h) h)
  split
  · exact h1
  · exact ite_wf h1 (ite_wf (acceptHead_wf h1) (ite_wf (skipHead_wf h1) h1))
theorem runNode_wf {c : Nat} {flushed : Bool} (h : Memory.wf s.mem) : Memory.wf (runNode s c node flushed).mem := by
  unfold runNode
  split
  · exact ite_wf (skipOn_wf h) h
  · exact moveNode_wf h
theorem readNode_wf {c : Nat} {flushed : Bool} (h : Memory.wf s.mem) : Memory.wf (readNode s c node flushed).mem := by
  unfold readNode
  dsimp only
  split
  · exact ite_wf (defineNode_wf h) h
  split
  · exact defineNode_wf h
  split
  · exact h
  split
  · next e => exact fst_wf (readHtl_wf h) e
  · next e =>
    have h1 := fst_wf (readHtl_wf h) e
    exact ite_wf (ite_wf h1 (restoreHtl_wf h1)) (ite_wf (setNode_wf h1) (runNode_wf (restoreHtl_wf (updNode_wf h1))))
  · next e => exact setNode_wf (fst_wf (readHtl_wf h) e)
theorem execGangFlush_wf (h : Memory.wf s.mem) : Out.Wf (execGangFlush ctx node s) := by
  unfold execGangFlush
  split
  · exact .ite (.next (runNode_wf h)) (.next h)
  · exact .next h
theorem execNodeUnfreeze_wf (h : Memory.wf s.mem) : Out.Wf (execNodeUnfreeze ctx node s) := by
  unfold execNodeUnfreeze
  split
  · split
    · split
      · next e =>
        have h1 := fst_wf (readHtl_wf h) e
        exact .next (ite_wf (defineNode_wf h1) h1)
      · next e => exact .next (fst_wf (readHtl_wf h) e)
    · exact .next h
  · exact .next h

/-! ## A block's start (R33, R330) -/

theorem placeBlock_wf {x : Launch} {idx : Nat} {slots : List Nat} {region : Nat} (h : Memory.wf s.mem) :
    Memory.wf (placeBlock s l x idx core slots region).mem := State.updLaunch_wf (State.updCore_wf (State.updCtx_wf h))

/-! ## Which block is placed (R327, R328) -/

theorem placeAll_wf : ∀ {ps : List (Nat × List Nat)} {l : Nat} {x : Launch} {s : State} {idx : Nat},
    Memory.wf s.mem → OptWf (placeAll l x s idx ps)
  | [], _, _, _, _, h => .some h
  | _ :: t, l, x, s, idx, h => by
    unfold placeAll
    split
    · exact placeAll_wf (placeBlock_wf h)
    · exact .none
theorem tryPlace_wf {x : Launch} (h : Memory.wf s.mem) : OptWf (tryPlace s l x) := by
  unfold tryPlace
  split
  · cases pacedCores s x with
    | none => exact OptWf.none
    | some cs => exact placeAll_wf h
  · split
    · exact OptWf.some (placeBlock_wf h)
    · exact OptWf.none
theorem execBlockPlace_wf (h : Memory.wf s.mem) : Out.Wf (execBlockPlace l s) := by
  unfold execBlockPlace
  split
  · exact .next h
  split
  · exact .next h
  split
  · exact .next h
  · next e =>
    have h1 := (tryPlace_wf h).get e
    exact .ite (.next (foldl_wf (fun _ _ ht => earlyPost_wf ht) h1)) (.next h1)
theorem execLaunchHold_wf (h : Memory.wf s.mem) : Out.Wf (execLaunchHold l s) := by
  unfold execLaunchHold
  split
  · exact .ite (.next (State.updLaunch_wf h)) (.next h)
  · exact .next h

/-! ## Dormancy (R49, R341, R385) -/

theorem saveLines_wf : ∀ {ls : List (Nat × L1Line)} {core c : Nat} {ag : Agent} {s : State},
    Memory.wf s.mem → Memory.wf (saveLines core c ag s ls).1.mem
  | [], _, _, _, _, h => h
  | e :: t, core, c, ag, s, h => by
    unfold saveLines
    split
    · next e =>
      have h1 := fst_wf (seqWrite_wf h) e
      exact saveLines_wf h1
    · next e => exact fst_wf (seqWrite_wf h) e
theorem saveBlock_wf (h : Memory.wf s.mem) : Memory.wf (saveBlock s core bid b va n).1.mem := by
  unfold saveBlock
  dsimp only
  split
  · next e =>
    have h1 := fst_wf (saveLines_wf h) e
    exact seqWrite_wf h1
  · exact saveLines_wf h
theorem layDown_wf {off size : Nat} {pages : List Nat} (h : Memory.wf s.mem) :
    Memory.wf (layDown s bid b core off size pages).mem := h
theorem freshSaves_wf (h : Memory.wf s.mem) : Memory.wf (freshSaves s).mem := h
theorem execBlockDormant_wf (h : Memory.wf s.mem) : Out.Wf (execBlockDormant bid s) := by
  unfold execBlockDormant
  dsimp only
  split
  · exact .next h
  split
  · exact .next h
  split
  · exact .next h
  split
  · exact .next h
  split
  · next e => exact .next (fst_wf (saveBlock_wf h) e)
  · next e =>
    have h1 := fst_wf (saveBlock_wf h) e
    exact .next (State.updBlock_wf (ite_wf h1 (seqEvent_wf h1)))
  · next e => exact .next (drainCheck_wf (layDown_wf (fst_wf (saveBlock_wf h) e)))
theorem fireOverdue_wf (h : Memory.wf s.mem) : Memory.wf (fireOverdue s bid).mem := by
  unfold fireOverdue
  split
  · exact h
  · exact foldl_wf (fun _ _ ht => ite_wf (fireTimer_wf ht) ht) h
theorem execBlockRevive_wf (h : Memory.wf s.mem) : Out.Wf (execBlockRevive bid s) := by
  unfold execBlockRevive
  dsimp only
  split
  · exact .next h
  split
  · split
    · exact .next h
    split
    · exact .next (fireOverdue_wf h)
    · exact .next h
  · exact .next h

/-! ## Drains and resets (R316, R317, R338 to R340) -/

theorem startDrain_wf {c : Nat} {disabling : Bool} (h : Memory.wf s.mem) :
    Memory.wf (startDrain s c disabling).mem := drainCheck_wf (State.updCtx_wf h)
theorem execDrainStart_wf (h : Memory.wf s.mem) : Out.Wf (execDrainStart l s) := by
  unfold execDrainStart
  split
  · exact .next h
  split
  · exact .next h
  split
  · exact .next (startDrain_wf h)
  · exact .next h
theorem waitAfresh_wf {c : Nat} (h : Memory.wf s.mem) : Memory.wf (waitAfresh s c).mem := h
theorem killAll_wf {c : Nat} {p : Block → Bool} (h : Memory.wf s.mem) :
    Memory.wf (killAll s c p).1.mem := foldl_wf (fun _ _ ht => killQuiet_wf ht) h
theorem forceReset_wf {c reason : Nat} (h : Memory.wf s.mem) : Memory.wf (forceReset s c reason).mem :=
    seqEvent_wf (State.updCtx_wf (foldl_wf (fun _ _ ht => ite_wf (setNode_wf ht) ht) (killAll_wf (killAll_wf (killAll_wf h)))))
theorem execDrainDeadline_wf (h : Memory.wf s.mem) : Out.Wf (execDrainDeadline ctx s) := by
  unfold execDrainDeadline
  split
  · exact .ite (.next (forceReset_wf h)) (.next h)
  · exact .next h
theorem refuseEnable_wf {c desc : Nat} (h : Memory.wf s.mem) :
    Memory.wf (refuseEnable s c desc).mem := devError_wf (State.updCtx_wf h)
theorem discardSaves_wf {old : Ctx} {c : Nat} (h : Memory.wf s.mem) :
    Memory.wf (discardSaves s old c).mem := ite_wf h (seqEvent_wf (killAll_wf h))
theorem enableCtx_wf {c desc : Nat} (h : Memory.wf s.mem) : Memory.wf (enableCtx s c desc).mem := by
  unfold enableCtx
  extract_lets pa s1 bs old _ new s2
  have h1 : Memory.wf s1.mem := seeLine_wf h
  have h2 : Memory.wf s2.mem := vtouch_wf (State.updCtx_wf h1)
  have hr : Memory.wf (refuseEnable (s2.updCtx c (fun _ => old)) c desc).mem := refuseEnable_wf (State.updCtx_wf h2)
  split
  · exact refuseEnable_wf h
  split
  · exact refuseEnable_wf h1
  split
  · exact ite_wf hr (foldl_wf (fun _ _ ht => defineNode_wf ht) (waitAfresh_wf (discardSaves_wf (State.updCtx_wf h2))))
  · exact hr
theorem execCtxdEnable_wf {v : Dword} (h : Memory.wf s.mem) : Out.Wf (execCtxdEnable ctx v s) :=
    .ite (.next h) (.ite (.next (State.updCtx_wf h)) (.ite (.next (enableCtx_wf h)) (.next (State.updCtx_wf h))))
theorem execCtxdDisable_wf {v : Dword} (h : Memory.wf s.mem) : Out.Wf (execCtxdDisable ctx v s) :=
    .ite (.next h) (.ite (.next (startDrain_wf (State.updCtx_wf h)))
      (.ite (.next (State.updCtx_wf (State.updCtx_wf h)))
      (.ite (.next (State.updCtx_wf (State.updCtx_wf h))) (.next (State.updCtx_wf h)))))

/-! ## A block retires (R34) -/

theorem freeBlock_wf (h : Memory.wf s.mem) : Memory.wf (freeBlock s bid b core).mem := by
  unfold freeBlock
  exact convoyLeave_wf h
theorem execBlockRetire_wf (h : Memory.wf s.mem) : Out.Wf (execBlockRetire bid s) := by
  unfold execBlockRetire
  dsimp only
  split
  · exact .next h
  split
  · exact .next h
  · exact .ite (.next h) (.next (cbarRecheck_wf (State.updLaunch_wf (State.updBlock_wf (freeBlock_wf h)))))

/-! ## The audit unit (R389) -/

theorem readRanges_wf : ∀ {rs : List (Dword × Dword)} {c : Nat} {ag : Agent} {s : State},
    Memory.wf s.mem → Memory.wf (readRanges c ag s rs).1.mem
  | [], _, _, _, h => h
  | r :: t, c, ag, s, h => by
    unfold readRanges
    split
    · next e =>
      have h1 := fst_wf (seqRead_wf h) e
      split
      · next e => exact fst_wf (readRanges_wf h1) e
      · exact readRanges_wf h1
    · exact seqRead_wf h
theorem startAudit_wf {x : Launch} (h : Memory.wf s.mem) : Memory.wf (startAudit s l x).1.mem := by
  unfold startAudit
  dsimp only
  split
  · next e =>
    have h1 := fst_wf (seqRead_wf h) e
    exact h1
  · next e =>
    have h1 := fst_wf (seqRead_wf h) e
    split
    · exact h1
    split <;> next e =>
      have h2 := fst_wf (readRanges_wf h1) e
      exact h2
  · next e =>
    have h1 := fst_wf (seqRead_wf h) e
    exact h1

/-! ## A launch completes (R331) -/

theorem trigCells_wf (h : Memory.wf s.mem) : Memory.wf (trigCells s bid b).1.mem := by
  unfold trigCells
  split
  · exact h
  refine foldl_fst_wf (fun t _ ht => ?_) h
  split
  · split
    · next e => exact State.updBlock_wf (fst_wf (trigWord_wf ht) e)
    · next e => exact fst_wf (trigWord_wf ht) e
  · exact ht
theorem closeLaunch_wf (h : Memory.wf s.mem) : Memory.wf (closeLaunch s bid l).mem := by
  unfold closeLaunch
  dsimp only
  split
  · next e =>
    have h1 := fst_wf (finishLaunch_wf h) e
    exact h1
  · next e => exact fst_wf (finishLaunch_wf h) e
theorem lastBlock_wf {x : Launch} (h : Memory.wf s.mem) : Memory.wf (lastBlock s bid l x).mem := by
  unfold lastBlock
  dsimp only
  split
  · exact h
  split
  · exact closeLaunch_wf h
  split
  · exact closeLaunch_wf (State.updLaunch_wf h)
  split
  · exact closeLaunch_wf (State.updLaunch_wf h)
  split
  · next e => exact fst_wf (startAudit_wf h) e
  · next e =>
    have h1 := fst_wf (startAudit_wf h) e
    exact closeLaunch_wf (State.updLaunch_wf h1)
  · next e =>
    have h1 := fst_wf (startAudit_wf h) e
    exact h1
theorem afterCount_wf (h : Memory.wf s.mem) : Memory.wf (afterCount s bid l).mem := by
  unfold afterCount
  split
  · exact h
  · exact ite_wf (lastBlock_wf h) h
theorem execLaunchCompletion_wf (h : Memory.wf s.mem) : Out.Wf (execLaunchCompletion bid s) := by
  unfold execLaunchCompletion
  dsimp only
  split
  · exact .next h
  split
  · split
    · exact .next h
    split
    · next e => exact .next (fst_wf (trigCells_wf h) e)
    · next e =>
      have h1 := fst_wf (trigCells_wf h) e
      exact .next (drainCheck_wf (afterCount_wf (State.updLaunch_wf (State.updBlock_wf h1))))
  · exact .next (afterCount_wf h)
  · exact .next h
theorem closeAudit_wf {a : Audit} (h : Memory.wf s.mem) : Memory.wf (closeAudit s a).mem := State.updLaunch_wf (dropLaunch_wf h)
theorem compareShadow_wf {x : Launch} {a : Audit} (h : Memory.wf s.mem) : Memory.wf (compareShadow s x a).1.mem := by
  unfold compareShadow
  dsimp only
  split
  · next e => exact fst_wf (seqRead_wf h) e
  · next e =>
    have h1 := fst_wf (seqRead_wf h) e
    exact ite_wf h1 (devError_wf (seqEvent_wf h1))
  · next e => exact devError_wf (seqEvent_wf (fst_wf (seqRead_wf h) e))
theorem finishOrig_wf (h : Memory.wf s.mem) : Memory.wf (finishOrig s l).mem := by
  unfold finishOrig
  split
  · next e => exact dropLaunch_wf (fst_wf (finishLaunch_wf h) e)
  · next e => exact fst_wf (finishLaunch_wf h) e
theorem execAuditCopyComplete_wf (h : Memory.wf s.mem) : Out.Wf (execAuditCopyComplete l s) := by
  unfold execAuditCopyComplete
  split
  · split
    · exact .next h
    split
    · exact .next (finishOrig_wf (closeAudit_wf h))
    split
    · exact .next h
    split
    · next e => exact .next (fst_wf (compareShadow_wf h) e)
    · next e => exact .next (finishOrig_wf (closeAudit_wf (fst_wf (compareShadow_wf h) e)))
  · exact .ite (.next (finishOrig_wf h)) (.next h)
  · exact .next h

/-! ## Page faults (R380) -/

theorem dropFault_wf {c page : Nat} (h : Memory.wf s.mem) : Memory.wf (dropFault s c page).mem := State.updCtx_wf h
theorem logRoom_wf {c : Nat} (h : Memory.wf s.mem) :
    Memory.wf (logRoom s c).mem := foldl_wf (fun _ _ ht => failPage_wf ht) (flushFaults_wf (flushLogs_wf h))
theorem execPageFaultResponse_wf {resp : BitVec 16} (h : Memory.wf s.mem) : Out.Wf (execPageFaultResponse ctx n resp s) := by
  unfold execPageFaultResponse
  dsimp only
  split
  · exact .next (logRoom_wf h)
  · exact .ite (.next (logRoom_wf (retryPage_wf (dropFault_wf (OptWf.getD (vwrite_wf h) h)))))
        (.ite (.next (logRoom_wf (failPage_wf (dropFault_wf (OptWf.getD (vwrite_wf h) h)))))
        (.next (OptWf.getD (vwrite_wf h) h)))

end Sys2Proof.Machine
end

section
/-! PROOFS. The home slices' requests, the fabric, collectives, the host, registers and boot keep memory canonical (R241 to R264, R344 to
R365, R390 to R403). -/

namespace Sys2Proof.Machine

variable {s : State} {i : Issue} {b : Block} {o : Op} {c : Ctl} {core bid tid slot line pa n l ctx node tgt tag : Nat}
  {tids : List Nat} {va : Dword} {bytes : List Byte} {bad : Bool} {ag : Agent}

/-! ## Acceptance (R241) -/

theorem dropReq_wf {seq : Nat} (h : Memory.wf s.mem) : Memory.wf (dropReq s core seq).mem := State.updCore_wf h
theorem answerFill_wf {seq : Nat} {rep : LineRep} (h : Memory.wf s.mem) :
    Memory.wf (answerFill s core seq rep).mem := State.updCore_wf h
theorem waitRead_wf {slice : Nat} {me : Nat × Nat} (h : Memory.wf s.mem) : Memory.wf (waitRead s slice me).mem := ite_wf h h
theorem acceptRead_wf {me : Nat × Nat} {room : Merge → Bool} {join : Merge → Merge} (h : Memory.wf s.mem) :
    OptWf (acceptRead s line me room join) := by
  unfold acceptRead
  dsimp only
  split
  · exact .none
  split
  · exact .ite (.some h) .none
  · exact .ite (.some (touchLine_wf h)) .none
theorem refuseRead_wf {me : Nat × Nat} (h : Memory.wf s.mem) : Memory.wf (refuseRead s line me).mem := ite_wf h (waitRead_wf h)
theorem execHomeRead_wf (h : Memory.wf s.mem) : Out.Wf (execHomeRead core line s) := by
  unfold execHomeRead
  dsimp only
  split
  · exact .next h
  split
  · exact .next h
  split
  · exact .next (answerFill_wf (dropReq_wf h))
  split
  · next e => exact .next (dropReq_wf ((acceptRead_wf h).get e))
  · exact .next (refuseRead_wf h)
theorem execHomeWrite_wf (h : Memory.wf s.mem) : Out.Wf (execHomeWrite core line s) := by
  unfold execHomeWrite
  dsimp only
  split
  · exact .next h
  split
  · exact .ite (.next h) (.next
        (countDown_wf (homeWrite_wf (ite_wf (dropReq_wf h) (State.updCore_wf (dropReq_wf h))))))
  · exact .next h

/-! ## Atomics (R166 to R168, R180, R182, R184, R244) -/

theorem serveHere_wf (h : Memory.wf s.mem) : Memory.wf (serveHere s pa).mem := homeWrite_wf (atomicHere_wf h)
theorem grantHere_wf {ticket holder : Nat} (h : Memory.wf s.mem) : Memory.wf (grantHere s pa ticket holder).1.mem :=
    ite_wf (homeWrite_wf (seenWord_wf (seeLine_wf h))) (seenWord_wf (seeLine_wf h))
theorem rmwHere_wf {x : ReqKind} (h : Memory.wf s.mem) : Memory.wf (rmwHere s line x).1.mem := by
  unfold rmwHere
  split
  · exact atomicHere_wf h
  · exact atomicHere_wf h
  · exact serveHere_wf h
  · exact h
theorem landAtomic_wf {r : Req} {d : Nat} {sz : Sz} {v : Dword} (h : Memory.wf s.mem) :
    Memory.wf (landAtomic s core r d sz v bad).mem := landLoad_wf (acquireBy_wf h)
theorem landOut_wf {x : AtomOut} (h : Memory.wf s.mem) : Memory.wf (landOut s x).mem := by
  unfold landOut
  split
  · exact landGot_wf h
  · exact countDown_wf (landAtomic_wf h)
  · exact h
theorem ackReq_wf {r : Req} (h : Memory.wf s.mem) : Memory.wf (ackReq s r).mem := ite_wf h (countDown_wf h)
theorem holdLine_wf {x : AtomOut} (h : Memory.wf s.mem) : Memory.wf (holdLine s line x).mem := ite_wf h h
theorem sendAtom_wf (h : Memory.wf s.mem) : Memory.wf (sendAtom s line).mem := by
  unfold sendAtom
  dsimp only
  split
  · exact h
  split
  · exact h
  · exact landOut_wf h
theorem hostAtomic_wf {r : Req} (h : Memory.wf s.mem) : Memory.wf (hostAtomic s core line r).mem := by
  unfold hostAtomic
  dsimp only
  split
  · exact State.updCore_wf (homeWrite_wf h)
  · exact ackReq_wf (atomicHere_wf (dropReq_wf h))
  · exact landOut_wf (ackReq_wf (rmwHere_wf (dropReq_wf h)))
theorem execHomeAtomic_wf (h : Memory.wf s.mem) : Out.Wf (execHomeAtomic core line s) := by
  unfold execHomeAtomic
  dsimp only
  split
  · exact .next (sendAtom_wf h)
  · exact .ite (.next h) (.ite (.next (hostAtomic_wf h))
        (.ite (.next h) (.next (holdLine_wf (ackReq_wf (rmwHere_wf (dropReq_wf h)))))))

/-! ## Replies (R242, R248, R251) -/

theorem keepTag_wf {src : Nat} {rep : RemoteRep} (h : Memory.wf s.mem) : Memory.wf (keepTag s src tag rep).mem := h
theorem execMergeReply_wf (h : Memory.wf s.mem) : Out.Wf (execMergeReply line s) := by
  unfold execMergeReply
  dsimp only
  split
  · exact .next h
  · exact .next (foldl_wf (fun _ _ ht => keepTag_wf ht) (foldl_wf (fun _ _ ht => answerFill_wf ht) h))
theorem receive_wf {j : Join} (h : Memory.wf s.mem) :
    Memory.wf (receive s core j bytes bad).mem := ite_wf (evalWatch_wf (seenWord_wf h)) (Join.land_wf (acquireBy_wf h))
theorem landJoin_wf {f : Fill} {rep : LineRep} {j : Join} (h : Memory.wf s.mem) :
    Memory.wf (landJoin core f rep s j).mem := receive_wf h
theorem installFill_wf {f : Fill} {rep : LineRep} (h : Memory.wf s.mem) :
    Memory.wf (installFill s core f rep).mem := ite_wf h (State.updCore_wf (l1Room_wf h))
theorem execFillReply_wf (h : Memory.wf s.mem) : Out.Wf (execFillReply core line s) := by
  unfold execFillReply
  dsimp only
  split
  · exact .next h
  split
  · exact .next h
  · exact .next (installFill_wf (foldl_wf (fun _ _ ht => landJoin_wf ht) (State.updCore_wf h)))
theorem execL1LineAgeOut_wf (h : Memory.wf s.mem) : Out.Wf (execL1LineAgeOut core line s) := by
  unfold execL1LineAgeOut
  split
  · exact .ite (.next (State.updCore_wf h)) (.next h)
  · exact .next h

/-! ## Invalidation of translations (R379) -/

theorem hitWaits_wf {v : Dword} (h : Memory.wf s.mem) : Memory.wf (hitWaits s v).mem := h

/-! ## Serving a request (R350 to R352) -/

theorem serveChk_wf {s0 : State} {ctl : Dword} {acc : RemoteAcc} (h : Memory.wf s0.mem) :
    Memory.wf (serveChk s0 ag ctl acc).1.mem := by
  unfold serveChk
  extract_lets x c page s
  have h1 : Memory.wf s.mem := touchVa_wf h
  split
  · exact h
  split
  · exact h
  split
  · exact h
  split
  · exact fst_ite_wf h1 (fst_ite_wf h1 (fst_ite_wf h1 (fst_ite_wf h1 h1)))
  · exact fst_ite_wf (agentDenied_wf h1) (agentWaits_wf h1)
  · exact h1
  · exact h1
theorem dropFar_wf {src : Nat} (h : Memory.wf s.mem) : Memory.wf (dropFar s src tag).mem := h
theorem farMon_wf {src : Nat} (h : Memory.wf s.mem) : Memory.wf (farMon s pa src tag).1.mem := fst_ite_wf h h
theorem farGrant_wf {src : Nat} {ticket holder : Word} {prio : Nat} (h : Memory.wf s.mem) :
    Memory.wf (farGrant s pa src ticket holder prio).1.mem := by
  unfold farGrant
  exact ite_wf (grantHere_wf h) (boostWord_wf (grantHere_wf h))
theorem serveAt_wf {src : Nat} {x : RemoteAcc} (h : Memory.wf s.mem) : Memory.wf (serveAt s pa src tag x).1.mem := by
  unfold serveAt
  dsimp only
  split
  · exact fst_ite_wf h (seeLine_wf h)
  · exact ite_wf h (homeWrite_wf h)
  · exact fst_ite_wf h (atomicHere_wf h)
  · exact ite_wf h (serveHere_wf h)
  · exact fst_ite_wf h (fst_ite_wf (grantHere_wf h) (farGrant_wf h))
  · exact farMon_wf h
theorem markAccepted_wf {src : Nat} (h : Memory.wf s.mem) : Memory.wf (markAccepted s src tag).mem := ite_wf h h
theorem arrive_wf {src : Nat} (h : Memory.wf s.mem) : Memory.wf (arrive s src tag).mem := ite_wf h h
theorem serve_wf {s0 : State} {src : Nat} {acc : RemoteAcc} (h : Memory.wf s0.mem) : Memory.wf (serve s0 src tag acc).mem := by
  unfold serve
  dsimp only
  split
  · next e => exact fst_wf (serveChk_wf (arrive_wf h)) e
  · next e => exact fst_wf (serveChk_wf (arrive_wf h)) e
  · next e => exact keepTag_wf (fst_wf (serveChk_wf (arrive_wf h)) e)
  · next e =>
    have h1 := fst_wf (serveChk_wf (arrive_wf h)) e
    split
    · split
      · split
        · next e => exact markAccepted_wf ((acceptRead_wf h1).get e)
        · exact refuseRead_wf h1
      · exact ite_wf (markAccepted_wf (keepTag_wf (serveAt_wf h1))) h1
    · exact ite_wf (markAccepted_wf (keepTag_wf (serveAt_wf h1))) h1
theorem execRemoteRequest_wf {src : Nat} {acc : Sent RemoteAcc} (h : Memory.wf s.mem) :
    Out.Wf (execRemoteRequest src tag acc s) := by
  unfold execRemoteRequest
  split
  · exact .next h
  split
  · split
    · exact .ite (.next h) (.next (serve_wf h))
    · exact .next h
  · exact .next (serve_wf h)

/-! ## Replies (R351, R352) -/

theorem dropRemote_wf (h : Memory.wf s.mem) : Memory.wf (dropRemote s tag).mem := h
theorem causeAll_wf {c : Cause} (h : Memory.wf s.mem) : Memory.wf (causeAll s bid tids c).mem := State.updThreads_wf h
theorem failJoin_wf {code : Nat} {j : Join} (h : Memory.wf s.mem) : Memory.wf (failJoin code s j).mem := by
  unfold failJoin
  split
  · exact failWait_wf h
  · exact State.updFrond_wf h
  · exact causeAll_wf (countDown_wf (dropLoad_wf h))
theorem failReq_wf {r : Req} {code : Nat} (h : Memory.wf s.mem) : Memory.wf (failReq s r code).mem := by
  unfold failReq
  dsimp only
  refine causeAll_wf (countDown_wf ?_)
  split
  · exact dropLoad_wf h
  · exact h
theorem nextAction_wf (h : Memory.wf s.mem) : Memory.wf (nextAction s l).mem := State.updLaunch_wf h
theorem failRemote_wf {q : RemoteReq} {code : Nat} (h : Memory.wf s.mem) : Memory.wf (failRemote s q code).mem := by
  unfold failRemote
  dsimp only
  split
  · split
    · exact nextAction_wf (seqEvent_wf (dropRemote_wf h))
    · exact dropRemote_wf h
  · split
    · exact freezeOp_wf (dropRemote_wf h)
    · exact dropRemote_wf h
  · exact ite_wf (failReq_wf (dropRemote_wf h)) (foldl_wf (fun _ _ ht => failJoin_wf ht) (dropRemote_wf h))
theorem answerWait_wf {v : Nat} (h : Memory.wf s.mem) : Memory.wf (answerWait s bid tid v).mem := by
  unfold answerWait
  split
  · split
    · exact ite_wf (finishWait_wf (setHolder_wf h)) h
    · exact evalWatch_wf h
  · exact h
theorem receiveFar_wf {q : RemoteReq} {j : Join} (h : Memory.wf s.mem) :
    Memory.wf (receiveFar q bytes bad s j).mem := ite_wf (answerWait_wf (seenWord_wf h)) (receive_wf h)
theorem acceptBefore_wf {q : RemoteReq} (h : Memory.wf s.mem) : Memory.wf (acceptBefore s q).mem := h
theorem landRemote_wf {q : RemoteReq} (h : Memory.wf s.mem) : Memory.wf (landRemote s q bytes bad).mem := by
  unfold landRemote
  extract_lets r s1
  have h1 : Memory.wf s1.mem := dropRemote_wf (acceptBefore_wf h)
  have hj : Memory.wf (q.joins.foldl (receiveFar q bytes bad) s1).mem := foldl_wf (fun _ _ ht => receiveFar_wf ht) h1
  split
  · exact nextAction_wf h1
  · exact ite_wf (landGot_wf h1) hj
  split
  · exact countDown_wf (landAtomic_wf h1)
  · exact ite_wf (countDown_wf h1) hj
theorem execRemoteReply_wf {rep : Sent RemoteRep} (h : Memory.wf s.mem) : Out.Wf (execRemoteReply tag rep s) := by
  unfold execRemoteReply
  dsimp only
  split
  · exact .next h
  split
  · exact .next h
  split
  · exact .next h
  · exact .next h
  · exact .next (failRemote_wf h)
  · exact .next (landRemote_wf h)
theorem execRemoteTimeout_wf (h : Memory.wf s.mem) : Out.Wf (execRemoteTimeout tag s) := by
  unfold execRemoteTimeout
  split
  · exact .ite (.next (failRemote_wf h)) (.next h)
  · exact .next h

/-! ## What other devices send (R183, R202, R246, R351) -/

theorem resend_wf (h : Memory.wf s.mem) : Memory.wf (resend s tag).mem := h
theorem farAccepted_wf (h : Memory.wf s.mem) : Memory.wf (farAccepted s tag).mem := by
  unfold farAccepted
  dsimp only
  split
  · exact ite_wf h h
  · exact h
theorem farSignal_wf (h : Memory.wf s.mem) : Memory.wf (farSignal s bid tid).mem := h
theorem farBoost_wf {prio : Nat} (h : Memory.wf s.mem) :
    Memory.wf (farBoost s slot core prio).mem := ite_wf (boostHolders_wf h) h

/-! ## The map (R355, R356) -/

theorem setPort_wf {j : Nat} {p : Port} (h : Memory.wf s.mem) : Memory.wf (setPort s j p).mem := h
theorem flood_wf {dev version : Nat} {links : List Link} (h : Memory.wf s.mem) : Memory.wf (flood s dev version links).mem := h
theorem floodOwn_wf (h : Memory.wf s.mem) : Memory.wf (floodOwn s).mem := flood_wf h
theorem reroute_wf (h : Memory.wf s.mem) : Memory.wf (reroute s).mem := h
theorem mapChange_wf {t0 : State} (ht0 : Memory.wf t0.mem) : Memory.wf (mapChange s t0).mem := by
  unfold mapChange
  split
  · exact ht0
  extract_lets old new t lost gone f
  have ht : Memory.wf t.mem := ite_wf ht0 (floodOwn_wf ht0)
  split
  · exact ht
  · exact ite_wf (reroute_wf ht) (ite_wf (reroute_wf ht) ht)
theorem noMap_wf (h : Memory.wf s.mem) : Memory.wf (noMap s).mem := devError_wf h

/-! ## Formation (R355, R356) -/

theorem execLinkTableFlood_wf {dev version : Nat} {links : Sent (List Link)} (h : Memory.wf s.mem) :
    Out.Wf (execLinkTableFlood dev version links s) := by
  unfold execLinkTableFlood
  dsimp only
  split
  · exact .next h
  split
  · exact .next (ite_wf h (noMap_wf h))
  split
  · exact .ite (.next (noMap_wf h)) (.ite (.next h) (.next (mapChange_wf (flood_wf h))))
  · exact .next (mapChange_wf (flood_wf h))

/-! ## Parameters (R233, R358) -/

theorem updRun_wf {op : Nat} {f : CollRun → CollRun} (h : Memory.wf s.mem) : Memory.wf (updRun s core op f).mem := h
theorem pruneRuns_wf (h : Memory.wf s.mem) : Memory.wf (pruneRuns s).mem := ite_wf h h

/-! ## Status and end (R202, R234) -/

theorem collWrite_wf {va : Nat} {bs : List (Byte × Bool)} (h : Memory.wf s.mem) :
    Memory.wf (collWrite s core b o va bs).1.mem := engTry_wf h
theorem collStatus_wf {v : Nat} (h : Memory.wf s.mem) : Memory.wf (collStatus s core b o v).1.mem := collWrite_wf h
theorem collEnd_wf {v : Nat} (h : Memory.wf s.mem) : Memory.wf (collEnd s core b o v).mem := by
  unfold collEnd
  split
  · exact updRun_wf h
  split
  · next e =>
    have h1 := fst_wf (collStatus_wf h) e
    exact updRun_wf h1
  · next e =>
    have h1 := fst_wf (collStatus_wf h) e
    exact endOp_wf h1
theorem collFinish_wf (h : Memory.wf s.mem) : Memory.wf (collFinish s core b o).mem := by
  unfold collFinish
  split
  · split
    · exact h
    split
    · exact collEnd_wf h
    · exact ite_wf (collEnd_wf h) h
  · exact h

/-! ## The start (R234, R363, R364) -/

theorem collRead_wf {why : Nat} (h : Memory.wf s.mem) : Memory.wf (collRead s core o why).1.mem := updOp_wf h
theorem collClear_wf (h : Memory.wf s.mem) : Memory.wf (collClear s core o).mem := updOp_wf h
theorem collBegin_wf (h : Memory.wf s.mem) : Memory.wf (collBegin s core b o).mem := by
  unfold collBegin
  dsimp only
  refine engGet_wf h (fun t ht => ?_)
  split
  · next e => exact fst_wf (collStatus_wf ht) e
  · next e =>
    have h1 := fst_wf (collStatus_wf ht) e
    exact collFinish_wf h1
theorem collStartNow_wf {r : CollRun} (h : Memory.wf s.mem) :
    Memory.wf (collStartNow s core b o r).mem := ite_wf (collBegin_wf h) h
theorem collRefuse_wf (h : Memory.wf s.mem) : Memory.wf (collRefuse s core b o).mem := collEnd_wf (updOp_wf h)
theorem collEnter_wf (h : Memory.wf s.mem) : Memory.wf (collEnter s core b o).mem := ite_wf (collRefuse_wf h) (ite_wf h h)
theorem collCompare_wf {r : CollRun} {peers : List Peer} (h : Memory.wf s.mem) :
    Memory.wf (collCompare s core b o r peers).mem := ite_wf h (ite_wf (collStartNow_wf (updRun_wf h)) (collEnd_wf h))
theorem execCollStart_wf {op : Nat} {peers : List Peer} (h : Memory.wf s.mem) : Out.Wf (execCollStart core op peers s) := by
  unfold execCollStart
  extract_lets s0
  have h0 : Memory.wf s0.mem := pruneRuns_wf h
  split
  · exact .next h0
  extract_lets s1
  have h1 : Memory.wf s1.mem := ite_wf h0 (collEnter_wf h0)
  split
  · refine .next ?_
    split
    · exact ite_wf h1 (collEnd_wf h1)
    · exact ite_wf (collStartNow_wf h1) (collCompare_wf h1)
  · exact .next h1
theorem execGenHoldExpiry_wf {op : Nat} (h : Memory.wf s.mem) : Out.Wf (execGenHoldExpiry core op s) := by
  unfold execGenHoldExpiry
  split
  · exact .next (collStartNow_wf h)
  · exact .next h

/-! ## Chunks (R358 to R360) -/

theorem Pass.send_wf {p : Pass} {dst : Nat} {up : Bool} {xs : List Nat} (h : Memory.wf s.mem) :
    Memory.wf (Pass.send p s dst up xs).mem := h
theorem markDone_wf {c : Nat} (h : Memory.wf s.mem) :
    Memory.wf (markDone s core b o c).mem := ite_wf h (collFinish_wf (updRun_wf (collClear_wf h)))
theorem markStep_wf (h : Memory.wf s.mem) : Memory.wf (markStep s core b o).mem := by
  unfold markStep
  dsimp only
  split
  · exact markDone_wf h
  split
  · exact h
  split
  · exact h
  · next e =>
    have h1 := (engWalk_wf h).get e
    split
    · exact engStop_wf h1
    · next e => exact markDone_wf ((engAtomic_wf (updOp_wf h1)).of_eq e)
theorem collDown_wf {p : Pass} {xs : Option (List Nat)} (h : Memory.wf s.mem) : Memory.wf (collDown s core b p xs).mem := by
  unfold collDown
  dsimp only
  split
  · exact markStep_wf (updOp_wf (collClear_wf h))
  split
  · exact h
  split
  · next e => exact fst_wf (collWrite_wf h) e
  · next e =>
    have h1 := fst_wf (collWrite_wf h) e
    exact markStep_wf (updOp_wf (collClear_wf (foldl_wf (fun _ _ ht => Pass.send_wf ht) h1)))
theorem collUp_wf {p : Pass} {own : List Nat} {below result : List Packet} (h : Memory.wf s.mem) :
    Memory.wf (collUp s core b p own below result).mem := by
  unfold collUp
  dsimp only
  split
  · exact h
  split
  · exact collDown_wf h
  · exact collDown_wf (updRun_wf (ite_wf (Pass.send_wf h) h))
theorem runChunk_wf {p : Pass} {below result : List Packet} (h : Memory.wf s.mem) :
    Memory.wf (runChunk s core b p below result).mem :=
    ite_wf (markStep_wf h) (ite_wf (collDown_wf h)
      (ite_wf h (engGet_wf (collRead_wf h) (fun _ ht => ite_wf (killBlock_wf ht) (collUp_wf ht)))))
theorem takePackets_wf {op chunk : Nat} {below : List Packet} {result : Option Packet} (h : Memory.wf s.mem) :
    Memory.wf (takePackets s core op chunk below result).mem := updRun_wf h
theorem startChunk_wf {op chunk : Nat} {t : Tree} (h : Memory.wf s.mem) :
    Memory.wf (startChunk s core op chunk t).mem := updRun_wf h
theorem execCollChunk_wf {op chunk : Nat} {below : List Packet} {result : Option Packet} {s0 : State} (h : Memory.wf s0.mem) :
    Out.Wf (execCollChunk core op chunk below result s0) := by
  unfold execCollChunk
  dsimp only
  split
  · split
    · exact .next (takePackets_wf h)
    split
    · exact .next (collFinish_wf (takePackets_wf h))
    split
    · exact .next (takePackets_wf h)
    split
    · exact .next (runChunk_wf (startChunk_wf (takePackets_wf h)))
    · exact .next (takePackets_wf h)
  · exact .next (takePackets_wf h)

/-! ## Recomputation (R361, R362) -/

theorem endRecomp_wf (h : Memory.wf s.mem) : Memory.wf (endRecomp s).mem := ite_wf h h
theorem takeMark_wf {op : Nat} (h : Memory.wf s.mem) : Memory.wf (takeMark s core op).mem := by
  unfold takeMark
  split
  · exact ite_wf (markDone_wf h) h
  · exact h
theorem resumeRun_wf {r : CollRun} {marked : List Nat} (h : Memory.wf s.mem) :
    Memory.wf (resumeRun s core b o r marked).mem := ite_wf (endRecomp_wf (collEnd_wf h)) (collFinish_wf (endRecomp_wf h))
theorem execCollRecompute_wf {op : Nat} {marked : List Nat} (h : Memory.wf s.mem) :
    Out.Wf (execCollRecompute core op marked s) := by
  unfold execCollRecompute
  dsimp only
  split
  · exact .ite (.next (takeMark_wf h)) (.next (resumeRun_wf (takeMark_wf h)))
  · exact .next (takeMark_wf h)

/-! ## The report (R235) -/

theorem execCstatExec_wf {op : Nat} (h : Memory.wf s.mem) : Out.Wf (execCstatExec core op s) := by
  unfold execCstatExec
  split
  · split
    · exact .ite (.next h) (.next (endOp_wf (State.updBlock_wf h)))
    · exact .next h
  · exact .next h

/-! ## Host accesses (R390, R393, R396) -/

theorem allRoom_wf (h : Memory.wf s.mem) : Memory.wf (allRoom s).mem := foldl_wf (fun _ _ ht => ite_wf (logRoom_wf ht) ht) h
theorem physWrite_wf (h : Memory.wf s.mem) : Memory.wf (physWrite s pa bytes).mem := foldl_wf (fun _ _ ht => homeWrite_wf ht) h
theorem execHostDmaAccess_wf {off : Nat} {acc : DmaAcc} (h : Memory.wf s.mem) : Out.Wf (execHostDmaAccess off acc s) := by
  unfold execHostDmaAccess
  dsimp only
  split
  · exact .next h
  split
  · exact .ite (.next (devError_wf h))
        (.ite (.next h) (.ite (.next (seeRange_wf h)) (.next h)))
  · exact .ite (.next (devError_wf h))
        (.ite (.next h) (.ite (.next h) (.next (allRoom_wf (physWrite_wf h)))))
  · exact .ite (.next (devError_wf h))
        (.ite (.next h) (.ite (.next h) (.next (allRoom_wf (homeWrite_wf (touchLine_wf h))))))
theorem failHost_wf {r : Req} (h : Memory.wf s.mem) : Memory.wf (failHost s core r).mem :=
    ite_wf (failReq_wf (dropReq_wf h)) (foldl_wf (fun _ _ ht => failJoin_wf ht)
      (ite_wf (State.updCore_wf (dropReq_wf h)) (State.updCore_wf h)))
theorem failFetch_wf (h : Memory.wf s.mem) : Memory.wf (failFetch s bid tid).mem := by
  unfold failFetch
  dsimp only
  split
  · exact h
  split
  · exact h
  · exact ite_wf h (takeTrap_wf h)
theorem execHostLinkTimeout_wf {w : LinkWaiter} (h : Memory.wf s.mem) : Out.Wf (execHostLinkTimeout w s) := by
  unfold execHostLinkTimeout
  dsimp only
  split
  · split
    · exact .next (failHost_wf h)
    · exact .ite (.next (failWait_wf h)) (.next h)
    · exact .next (failFetch_wf h)
  · split
    · split
      · exact .ite (.next h) (.next (freezeOp_wf h))
      · exact .next h
    · exact .next h
  split
  · split
    · exact .ite (.next (forceReset_wf h)) (.next h)
    · exact .next h
  · exact .next h
theorem linkBack_wf (h : Memory.wf s.mem) : Memory.wf (linkBack s).mem := h

/-! ## Registers (R392) -/

theorem execRegisterWrite_wf {off : Nat} {v : Dword} (h : Memory.wf s.mem) : Out.Wf (execRegisterWrite off v s) := by
  have next (f : Fabric) (y : Sys) {q : Out} (hq : Out.Wf q) {p : Prop} {_ : Decidable p} :
      Out.Wf (if p then .next { s with fab := f, sys := y } else q) := Out.Wf.ite (Out.Wf.next h) hq
  unfold execRegisterWrite
  refine Out.Wf.ite (Out.Wf.next h) (Out.Wf.ite (Out.Wf.ite (Out.Wf.next h) (Out.Wf.next h)) ?_)
  refine next _ _ (next _ _ (next _ _ (next _ _ ?_)))
  refine Out.Wf.ite (Out.Wf.ite (Out.Wf.next h) (Out.Wf.next h)) (Out.Wf.ite (Out.Wf.ite (Out.Wf.next h) (Out.Wf.next h)) ?_)
  refine Out.Wf.ite (Out.Wf.next (retime_wf h)) ?_
  refine next _ _ (next _ _ (next _ _ (next _ _ (next _ _ (next _ _ (next _ _ ?_))))))
  split
  · exact Out.Wf.next (State.updCore_wf h)
  · exact Out.Wf.next h
theorem execPowerThrottle_wf {die : Fin 4} (h : Memory.wf s.mem) : Out.Wf (execPowerThrottle die s) := by
  have h1 : Memory.wf ((List.range 48).foldl (fun s k => settleClock s (48 * die.val + k)) s).mem :=
    foldl_wf (fun _ _ ht => settleClock_wf ht) h
  unfold execPowerThrottle
  generalize List.foldl _ s (List.range 48) = t at h1 ⊢
  exact Out.Wf.ite (Out.Wf.next h) (Out.Wf.next h1)

/-! ## Snapshots (R401, R403) -/

theorem backInService_wf {x : Snap} (h : Memory.wf s.mem) : Memory.wf (backInService s x).mem := ite_wf (flushErrs_wf h) h
theorem execSnapshotWritten_wf (h : Memory.wf s.mem) : Out.Wf (execSnapshotWritten s) := by
  unfold execSnapshotWritten
  dsimp only
  split
  · exact .next h
  · exact .ite (.next h) (.ite (.next (devError_wf h))
        (.next (backInService_wf (physWrite_wf h))))

/-! ## Boot (R394 to R397) -/

theorem bootFail_wf {err : Nat} {halt : Bool} (h : Memory.wf s.mem) : Memory.wf (bootFail s err halt).mem := h
theorem execBootStage1_wf {dies dram : Bool} (h : Memory.wf s.mem) : Out.Wf (execBootStage1 dies dram s) :=
    .ite (.next h) (.ite (.next (bootFail_wf h)) (.ite (.next (bootFail_wf h)) (.next h)))
theorem report_wf (h : Memory.wf s.mem) : Memory.wf (report s).mem := h
theorem execDieLinkLoss_wf {_edge : Fin 4} (h : Memory.wf s.mem) : Out.Wf (execDieLinkLoss _edge s) := by
  have h1 : Memory.wf ((List.range 64).foldl (fun s c =>
      if (s.ctx c).st ≠ 0 || (s.ctx c).log2n ≠ 0 then
        { forceReset s c (Config.freeDword (Config.freeAt s.free 0 4)).toNat with free := s.free + 1 }
      else s.updCtx c (fun x => { x with st := 4 })) s).mem :=
    foldl_wf (fun t k ht => ite_wf (forceReset_wf ht) ht) h
  unfold execDieLinkLoss
  generalize List.foldl _ s (List.range 64) = t at h1 ⊢
  exact Out.Wf.ite (Out.Wf.next h) (Out.Wf.next (devError_wf h1))
theorem execDramRecalibration_wf {stack : Fin 8} {group : Option (Fin 72)} (h : Memory.wf s.mem) :
    Out.Wf (execDramRecalibration stack group s) := by
  unfold execDramRecalibration
  split
  · exact .next h
  · exact .ite (.next h) (.next (devError_wf h))

/-! ## Global time (R398) -/

theorem stepTime_wf {time : Nat} (h : Memory.wf s.mem) :
    Memory.wf (stepTime s time).mem := foldl_wf (fun _ _ ht => State.updCore_wf (settleClock_wf ht)) h

end Sys2Proof.Machine
end

section
/-! PROOFS. The turn of a frond, the inputs from outside and the words that compute keep memory canonical (R35 to R39, R57 to R59, R124 to
R153, R262, R383). -/

namespace Sys2Proof.Machine

variable {s : State} {i : Issue} {b : Block} {o : Op} {c : Ctl} {core bid tid slot line pa n l ctx node tgt tag : Nat}
  {tids : List Nat} {va : Dword} {bytes : List Byte} {bad : Bool} {ag : Agent}

/-! ## Fetching (R383) -/

theorem fetchWord_wf (h : Memory.wf s.mem) : Fetch.Wf (fetchWord s core ctx va) := by
  unfold fetchWord
  dsimp only
  split
  · exact h
  split
  · split <;> exact h
  split
  · exact trivial
  · next e =>
    have h1 := (walkAll_wf h).get e
    split
    · exact h1
    · exact h1
    · split
      · exact tlbFill_wf h1
      split
      · exact trivial
      split <;> exact seeLine_wf (tlbFill_wf h1)
    · exact h1

/-! ## The start of a clause (R35, R57, R80) -/

theorem parkHeader_wf (h : Memory.wf s.mem) :
    Memory.wf (parkHeader s core bid slot b tids va).mem := pageAbsent_wf (State.updThreads_wf h)
theorem headerTrap_wf {clause : Dword} {c : Cause} (h : Memory.wf s.mem) :
    Memory.wf (headerTrap s bid slot tids clause c).mem := takeTrap_wf h
theorem issueGroup_wf {f : Frond} {g : Nat} (h : Memory.wf s.mem) : OptWf (issueGroup s core bid slot b f g) := by
  unfold issueGroup
  dsimp only
  split
  · exact .none
  split
  · exact .none
  split
  · exact .none
  · next e => exact .some (parkHeader_wf ((fetchWord_wf h).of_eq e))
  · next e => exact .some (headerTrap_wf ((fetchWord_wf h).of_eq e))
  · next e => exact .some (killPoison_wf ((fetchWord_wf h).of_eq e))
  · next e =>
    have h1 := (fetchWord_wf h).of_eq e
    split
    · exact .none
    split
    · exact .some (headerTrap_wf h1)
    split
    · exact .some (headerTrap_wf h1)
    · exact .some (State.updFrond_wf h1)
theorem issueFirst_wf : ∀ {gs : List Nat} {s : State} {core bid slot : Nat} {b : Block} {f : Frond},
    Memory.wf s.mem → OptWf (issueFirst s core bid slot b f gs)
  | [], _, _, _, _, _, _, _ => .none
  | g :: t, s, core, bid, slot, b, f, h => by
    unfold issueFirst
    split
    · next e => exact .some ((issueGroup_wf h).get e)
    · exact issueFirst_wf h

/-! ## The choice among fronds (R38, R39, R336) -/

theorem issueNext_wf {f : Frond} (h : Memory.wf s.mem) : OptWf (issueNext s core bid slot b f) := .ite .none (issueFirst_wf h)
theorem markReady_wf {rs : List Contender} (h : Memory.wf s.mem) : Memory.wf (markReady s core rs).mem := h
theorem noteReady_wf (h : Memory.wf s.mem) :
    Memory.wf (noteReady s).mem := foldl_wf (fun _ _ ht => markReady_wf ht) (freshSaves_wf h)
theorem markFetch_wf (h : Memory.wf s.mem) : Memory.wf (markFetch s bid slot).mem := State.updFrond_wf h
theorem markIssue_wf {k : Nat} (h : Memory.wf s.mem) :
    Memory.wf (markIssue s core bid slot k).mem := State.updFrond_wf (newRatio_wf h)
theorem execClauseIssue_wf (h : Memory.wf s.mem) : Out.Wf (execClauseIssue core slot s) := by
  unfold execClauseIssue
  dsimp only
  split
  · exact .next h
  split
  · exact .next h
  split
  · exact .next h
  split
  · exact .next (deliverCauses_wf h)
  split
  · exact .next (ite_wf (markFetch_wf h) h)
  · next e =>
    have h1 := (issueNext_wf h).get e
    split
    · exact .next h1
    · exact .ite (.next (markIssue_wf (markReady_wf h1))) (.next (markReady_wf h))

/-! ## A word of the clause in flight (R58, R59, R80, R81) -/

theorem rejectWord_wf {x : Dword} {cs : List Cause} (h : Memory.wf s.mem) :
    Memory.wf (rejectWord s i x cs).mem := endWord_wf (takeTrap_wf h)
theorem nextWord_wf (h : Memory.wf s.mem) : Next.Wf (nextWord s i) := by
  unfold nextWord
  dsimp only
  split
  · exact endWord_wf h
  split
  · exact h
  split
  · exact markFetch_wf h
  · next e => exact endWord_wf (Issue.parkPage_wf ((fetchWord_wf h).of_eq e))
  · next e => exact endWord_wf (headerTrap_wf ((fetchWord_wf h).of_eq e))
  · next e => exact killPoison_wf ((fetchWord_wf h).of_eq e)
  · next e =>
    have h1 := (fetchWord_wf h).of_eq e
    split
    · exact ite_wf (State.updFrond_wf h1) h1
    · exact rejectWord_wf (ite_wf (State.updFrond_wf h1) h1)

/-! ## The turn -/

theorem focusOn_wf {gap : Nat} (h : Memory.wf s.mem) : Memory.wf (focusOn s core slot gap).mem := by
  unfold focusOn
  dsimp only
  split <;> exact h
theorem takeTurn_wf (h : Memory.wf s.mem) : Memory.wf (takeTurn s).2.mem := by
  unfold takeTurn
  dsimp only
  split <;> exact h
theorem passTime_wf {dt : Nat} (h : Memory.wf s.mem) : Memory.wf (passTime s dt).mem := h
theorem frondMove_wf {gap : Nat} (h : Memory.wf s.mem) : Next.Wf (frondMove s core slot gap) := by
  unfold frondMove
  dsimp only
  split
  · exact nextWord_wf (focusOn_wf h)
  · exact focusOn_wf h

/-! ## Inputs from outside, errors of cells, replacement (R247, R249, R250, R262, R265) -/

theorem sramPoison_wf {w : SramWord} (h : Memory.wf s.mem) : Memory.wf (sramPoison s core w).mem := by
  unfold sramPoison
  extract_lets blk
  have hblk : ∀ bid ok f, Memory.wf (blk bid ok f).mem := by
    intro bid ok f
    unfold blk
    split
    · exact ite_wf (State.updBlock_wf h) h
    · exact h
  split
  · exact hblk _ _ _
  · exact hblk _ _ _
  · exact hblk _ _ _
  · exact hblk _ _ _
  · exact hblk _ _ _
  · exact State.updCore_wf h
  · exact State.updCore_wf h
  · exact h
theorem sramError_wf {w : SramWord} {fixed : Bool} (h : Memory.wf s.mem) :
    Memory.wf (sramError s core w fixed).mem := ite_wf h (ite_wf h (devError_wf (sramPoison_wf h)))
theorem takeInput_wf {x : Input} (h : Memory.wf s.mem) : Memory.wf (takeInput s x).mem := by
  unfold takeInput
  split
  · exact allRoom_wf (foldl_wf (fun _ _ ht => ite_wf (homeWrite_wf ht) ht) h)
  · exact ite_wf h h
  · exact sramError_wf h
  · exact replaceLine_wf h
  · exact State.updCore_wf h
  · exact farAccepted_wf h
  · exact farSignal_wf h
  · exact farBoost_wf h
  · exact dropFar_wf h
  · exact resend_wf h
  · exact localRelease_wf h
theorem iop1_wf {w : Bool} {d : VReg} {a : Opnd} {f : Dword → Dword} (h : Memory.wf s.mem) :
    Out.Wf (iop1 c w d a f s) := vop_wf h
theorem iop2_wf {w : Bool} {d : VReg} {a b : Opnd} {f : Dword → Dword → Dword} (h : Memory.wf s.mem) :
    Out.Wf (iop2 c w d a b f s) := vop_wf h
theorem execCmp_wf {cc : Cc} {ty : VTy} {d : Pred} {a b : Opnd} (h : Memory.wf s.mem) : Out.Wf (execCmp c cc ty d a b s) := by
  unfold execCmp
  exact vpred_wf h
theorem exLane_wf {rd wr : List Reg} {body : Issue → State → State} (h : Memory.wf s.mem)
    (hbody : ∀ j t, Memory.wf t.mem → Memory.wf (body j t).mem) :
    Out.Wf (exLane c rd wr s body) := exVec_wf h (fun _ _ ht => ite_wf ht (hbody _ _ ht))
theorem useFree_wf (h : Memory.wf s.mem) : Memory.wf (useFree s).mem := h
theorem exFrom_wf {rd wr : List Reg} {a : Opnd} {w64 : Bool} {lanes : Issue → List Nat} {body : Issue → State → State}
    (h : Memory.wf s.mem) (hbody : ∀ j t, Memory.wf t.mem → Memory.wf (body j t).mem) :
    Out.Wf (exFrom c rd wr a w64 lanes s body) := by
  unfold exFrom
  dsimp only
  split
  · exact .refused
  split
  · exact .ite (.next (keepReads_wf h)) (exLane_wf h (fun _ _ ht => hbody _ _ ht))
  · exact exLane_wf h (fun _ _ ht => hbody _ _ ht)
theorem shuffle_wf {w64 : Bool} {d : VReg} {a b : Opnd} {pick : Nat → Nat → Nat} (h : Memory.wf s.mem) :
    Out.Wf (shuffle c w64 d a b pick s) := exFrom_wf h (fun _ _ ht => useFree_wf (Issue.lanes_wf ht))
theorem execRedx_wf {op : ROp} {ty : VTy} {d : SReg} {a : Opnd} (h : Memory.wf s.mem) : Out.Wf (execRedx c op ty d a s) :=
    exLane_wf h (fun _ _ ht => ite_wf (takeTrap_wf (Issue.lanes_wf ht)) (Issue.putS_wf (Issue.lanes_wf ht)))
theorem uopMore_wf {d : SReg} {rd : List Nat} {more : List Reg} {f : Issue → Dword} (h : Memory.wf s.mem) :
    Out.Wf (uopMore c d rd more f s) := exUni_wf h (fun _ _ ht => Issue.putS_wf ht)
theorem funop_wf {d : VReg} {a : Opnd} {f : Nat → FRes} (h : Memory.wf s.mem) : Out.Wf (funop c d a f s) := fvop_wf h

end Sys2Proof.Machine
end

section
/-! PROOFS. The invariant that every step keeps: memory in its canonical form (R241). -/

namespace Sys2Proof.Machine

section
variable {s : State}

/-- Every word and every event keeps memory in its canonical form. -/
theorem exec_wf {x : Instr} (h : Memory.wf s.mem) : Out.Wf (exec x s) := by
  cases x <;> dsimp only [exec]
  case clauseIssue => exact execClauseIssue_wf h
  case nop => exact exVec_wf h (fun _ _ ht => ht)
  case bra => exact execBra_wf h
  case brx => exact execBrx_wf h
  case call => exact exCtl_wf h (fun _ _ ht => callBody_wf ht)
  case callx => exact exCtl_wf h (fun _ _ ht => .ite (Issue.poisoned_wf ht) (callBody_wf ht))
  case ret => exact execRet_wf h
  case reform => exact exVec_wf h (fun _ _ ht => foldl_wf (fun _ _ hu => fileThread_wf hu) ht)
  case bjoin => exact exVec_wf h (fun _ _ ht => bjoinCheck_wf (Issue.startWait_wf ht))
  case exit => exact execExit_wf h
  case trap | brk => exact exVec_wf h (fun _ _ ht => Issue.softTrap_wf ht)
  case tret => exact execTret_wf h
  case yield => exact exVec_wf h (fun _ _ ht => ite_wf ht (State.updFrond_wf ht))
  case sleep => exact execSleep_wf h
  case srd | addc => exact exVec_wf h (fun _ _ ht => Issue.lanes_wf ht)
  case swr => exact execSwr_wf h
  case sadd | ssub | smul | smulh | sand | sor | sxor | sshl | sshr | ssar | smin | smax => exact uop_wf h
  case smad | snot | ssel | smov | sclz | spopc | sbfe | sli | slih => exact uopMore_wf h
  case scmp | vany | vall => exact exAll_wf h (fun _ _ ht => Issue.putAll_wf ht)
  case sld => exact execSld_wf h
  case sst => exact execSst_wf h
  case sldl => exact execSldl_wf h
  case add | sub | mul | mulh | and | or | xor | shl | shr | sar | rot | min | max => exact iop2_wf h
  case mad | madw | sel | movi | bfe | bfi | perm => exact vop_wf h
  case not | abs | neg | mov | clz | popc | brev => exact iop1_wf h
  case cmp => exact execCmp_wf h
  case fadd | fsub | fmul | ffma | fmin | fmax | fclass | fround | fdiv | fdot | cvt | pack | unpack => exact fvop_wf h
  case frcp | fsqrt | frsq | fexp2 | flog2 => exact funop_wf h
  case fcmp => exact exVec_wf h (fun _ _ ht => Issue.fpDone_wf ht)
  case bal | rdfirst => exact exLane_wf h (fun _ _ ht => Issue.putS_wf ht)
  case rdfirstChk => exact exAll_wf h (fun _ _ ht => Issue.putAll_wf (Issue.putS_wf ht))
  case rdlane => exact exFrom_wf h (fun _ _ ht => useFree_wf (Issue.putS_wf ht))
  case shfl | shflx | shflu | shfld => exact shuffle_wf h
  case redx => exact execRedx_wf h
  case scanx => exact exLane_wf h (fun _ _ ht => Issue.fpDone_wf ht)
  case lanes => exact exLane_wf h (fun _ _ ht => Issue.lanes_wf ht)
  case elect => exact exAll_wf h (fun _ _ ht => State.updThread_wf (Issue.putAll_wf ht))
  case ld | ldNc => exact exWord_wf h (fun _ _ ht => ldBody_wf ht)
  case st => exact execSt_wf h
  case ldl => exact execLdl_wf h
  case stl => exact execStl_wf h
  case ldp => exact execLdp_wf h
  case stp => exact execStp_wf h
  case lda => exact execLda_wf h
  case sta => exact execSta_wf h
  case atom | red => exact exWord_wf h (fun _ _ ht => atomBody_wf ht)
  case atoml => exact execAtoml_wf h
  case ptest => exact execPtest_wf h
  case fence => exact execFence_wf h
  case efence => exact execEfence_wf h
  case cinv => exact execCinv_wf h
  case cwb => exact execCwb_wf h
  case waitc => exact execWaitc_wf h
  case mon => exact execMon_wf h
  case mwait => exact execMwait_wf h
  case tktake => exact execTktake_wf h
  case tkwait => exact execTkwait_wf h
  case tkserve => exact execTkserve_wf h
  case binit => exact execBinit_wf h
  case barr | bsync => exact exWord_wf h (fun _ _ ht => arriveBody_wf ht)
  case bwait => exact execBwait_wf h
  case cbar => exact execCbar_wf h
  case cvjoin => exact execCvjoin_wf h
  case cvld => exact execCvld_wf h
  case cvleave => exact exVec_wf h (fun _ _ ht => ite_wf ht (convoyLeave_wf ht))
  case stepn => exact execStepn_wf h
  case ldnb => exact execLdnb_wf h
  case mxownTake => exact execMxownTake_wf h
  case mxownPass => exact execMxownPass_wf h
  case mxownRelease => exact execMxownRelease_wf h
  case mxload | mxres | mma | mmal | mxgrad | cpy | cpyo | binsc | npost | cstat => exact scrWord_wf h
  case mxevict | mxzero | ltrig => exact bareWord_wf h
  case lwait => exact execLwait_wf h
  case coll => exact eWord_wf (fun _ _ ht => collTake_wf ht) h
  case mxownGrant => exact execMxownGrant_wf h
  case bankEmptying => exact execBankEmptying_wf h
  case mxloadExec => exact execMxloadExec_wf h
  case mxevictExec => exact execMxevictExec_wf h
  case mxresExec => exact execMxresExec_wf h
  case mmaExec => exact execMmaExec_wf h
  case mmalExec => exact execMmalExec_wf h
  case mxgradExec => exact execMxgradExec_wf h
  case mxzeroExec => exact execMxzeroExec_wf h
  case cpyExec => exact execCpyExec_wf h
  case cpyoExec => exact execCpyoExec_wf h
  case binscExec => exact execBinscExec_wf h
  case npostExec => exact execNpostExec_wf h
  case ltrigExec => exact execLtrigExec_wf h
  case cstatExec => exact execCstatExec_wf h
  case operationComplete => exact execOperationComplete_wf h
  case asyncCauseDelivery => exact execAsyncCauseDelivery_wf h
  case reformBinDue => exact execReformBinDue_wf h
  case sleepWake => exact execSleepWake_wf h
  case monitorWake => exact execMonitorWake_wf h
  case monitorFallback => exact execMonitorFallback_wf h
  case waitTimeout => exact execWaitTimeout_wf h
  case tkwaitGrant => exact execTkwaitGrant_wf h
  case ticketBoost => exact execTicketBoost_wf h
  case boostExpire => exact .next (State.updBlock_wf h)
  case releaseWave | remoteTagExpire | deviceReset | grandmasterLoss => exact .next h
  case stepnRelease => exact .next (stepnCheck_wf h)
  case slotWriteRelease => exact execSlotWriteRelease_wf h
  case convoyDetach => exact execConvoyDetach_wf h
  case ftimerFire => exact execFtimerFire_wf h
  case blockDormant => exact execBlockDormant_wf h
  case blockRevive => exact execBlockRevive_wf h
  case blockRetire => exact execBlockRetire_wf h
  case launchCompletion => exact execLaunchCompletion_wf h
  case nodeWake => exact .ite (.next (readNode_wf (earlyAgain_wf h))) (.next h)
  case gangFlush => exact execGangFlush_wf h
  case blockPlace => exact execBlockPlace_wf h
  case launchHold => exact execLaunchHold_wf h
  case drainStart => exact execDrainStart_wf h
  case contextResume => exact .ite (.next (waitAfresh_wf (State.updCtx_wf h))) (.next h)
  case drainDeadline => exact execDrainDeadline_wf h
  case nodeUnfreeze => exact execNodeUnfreeze_wf h
  case ctxdEnable => exact execCtxdEnable_wf h
  case ctxdDisable => exact execCtxdDisable_wf h
  case ctxdRst => exact .ite (.next (forceReset_wf h)) (.next h)
  case xinv => exact .ite (.next h) (.ite (.next h) (.next (hitWaits_wf h)))
  case pageFaultResponse => exact execPageFaultResponse_wf h
  case homeRead => exact execHomeRead_wf h
  case homeWrite => exact execHomeWrite_wf h
  case homeAtomic => exact execHomeAtomic_wf h
  case mergeReply => exact execMergeReply_wf h
  case fillReply => exact execFillReply_wf h
  case l1LineAgeOut => exact execL1LineAgeOut_wf h
  case dramScrub => exact .ite (.next (touchLine_wf h)) (.next h)
  case remoteRequest => exact execRemoteRequest_wf h
  case remoteReply => exact execRemoteReply_wf h
  case remoteTimeout => exact execRemoteTimeout_wf h
  case linkFail => exact .ite (.next h) (.next (mapChange_wf (setPort_wf h)))
  case portRetrain | linkWidthRetrain => exact .ite (.next (setPort_wf h)) (.next h)
  case linkTrained => exact .ite (.next (mapChange_wf (setPort_wf h))) (.next h)
  case linkTableFlood => exact execLinkTableFlood_wf h
  case domainFormed => exact .ite (.next h) (.ite (.next (noMap_wf h)) (.next (reroute_wf h)))
  case domctlWrite => exact .ite (.next h) (.ite (.next h) (.ite (.next (floodOwn_wf h)) (.next h)))
  case collStart => exact execCollStart_wf h
  case collChunk => exact execCollChunk_wf h
  case collRecompute => exact execCollRecompute_wf h
  case genHoldExpiry => exact execGenHoldExpiry_wf h
  case auditCopyComplete => exact execAuditCopyComplete_wf h
  case hostDmaAccess => exact execHostDmaAccess_wf h
  case hostLinkTimeout => exact execHostLinkTimeout_wf h
  case registerWrite => exact execRegisterWrite_wf h
  case sratioWrite => exact .ite (.next h) (.next (State.updCore_wf (settleClock_wf h)))
  case powerThrottle => exact execPowerThrottle_wf h
  case attestRequest => exact .ite (.next h) (.ite (.next h) (.next (report_wf h)))
  case snapshotGo | snapinEdge => exact .ite (.next (snapFire_wf h)) (.next h)
  case snapshotTimer => exact .ite (.next h) (.ite (.next (snapFire_wf h)) (.next h))
  case snapshotWritten => exact execSnapshotWritten_wf h
  case bootStage0 => exact .ite (.next h) (.ite (.next (bootFail_wf h)) (.next h))
  case bootStage1 => exact execBootStage1_wf h
  case bootStage2 => exact .ite (.next h) (.ite (.next h) (.next h))
  case bootStage3 => exact .ite (.next (ite_wf (report_wf h) h)) (.next h)
  case dieLinkLoss => exact execDieLinkLoss_wf h
  case dramRecalibration => exact execDramRecalibration_wf h
  case ptpSync => exact .ite (.next h) (.next (ite_wf h (stepTime_wf h)))
  case hostLinkLeavesL0 => exact .ite (.next h) (.next h)
  case hostLinkReturnsL0 => exact .ite (.next h) (.next (allRoom_wf (linkBack_wf h)))

/-- A step passes time, then runs a word, an event or an input: none of the three leaves the form. -/
theorem step_wf (h : Memory.wf s.mem) : Out.Wf (step s) := by
  have h1 : Memory.wf (passTime (noteReady (takeTurn s).2) (takeTurn s).1.dt).mem := passTime_wf (noteReady_wf (takeTurn_wf h))
  unfold step
  dsimp only
  split
  · split
    · split
      · next e => exact exec_wf ((frondMove_wf h1).of_eq e)
      · next e => exact .next ((frondMove_wf h1).of_eq e)
    · exact exec_wf h1
    · exact .next (takeInput_wf h1)
  · exact .fault
end

/-- Settles O58: memory changes in `acceptWrite` and `resolveLine` alone, each time by a `Memory.write`, which keeps the form; every
other function that a step can reach changes memory through these two or not at all. -/
theorem stepKeepsInvariant : Obligations.StepKeepsInvariant := fun _ t hs e => step_wf hs t e

end Sys2Proof.Machine
end
